-- ==== Sys2Proof/Word.lean ====
section
/-! DEFINITION. The machine's word types and their plainest arithmetic (00 R2, R3; 03 R58). -/
namespace Sys2Proof

/-- A byte of memory or of a register. -/
abbrev Byte := BitVec 8

/-- A 64-bit scalar register, address or system register. -/
abbrev Word := BitVec 64

/-- One 96-bit instruction word (06 R141). -/
abbrev IWord := BitVec 96

/-- The 64-bit word that holds a natural number modulo 2^64. -/
def Word.ofNat (n : Nat) : Word := BitVec.ofNat 64 n

/-- The smaller of two words read as unsigned. -/
def Word.minU (a b : Word) : Word := if a.toNat ≤ b.toNat then a else b

end Sys2Proof
end

