-- ==== Sys2Proof/Syntax.lean ====
section
/-! DEFINITION. The instruction words of Proham (06 R141 to R166) and the device's other steps, as one inductive
with one constructor for each row of the opcode table. -/
namespace Sys2Proof

/-- Format tags, which the FMT field shares (03 R68). -/
inductive Fmt where
  | raw | i8 | n8 | i16 | i32 | i64 | fp32 | bf16 | fp16 | e4m3 | e5m2 | e2m1 | e8m0 | tern | mask8
  deriving DecidableEq, Repr, Inhabited

/-- Source modifiers (06 R144). -/
inductive Modifier where
  | plain | negate | absolute | negAbs | broadcast
  deriving DecidableEq, Repr, Inhabited

/-- An operand field: its tier, index and modifier, or the constant of tier K (06 R143). -/
inductive Operand where
  | main (i : BitVec 6) (m : Modifier)
  | oper (i : BitVec 3) (m : Modifier)
  | last (i : BitVec 2) (m : Modifier)
  | const (imm : BitVec 10)
  deriving DecidableEq, Repr, Inhabited

/-- The field 0x000, which an unused operand field holds (06 R145). -/
abbrev Operand.zero : Operand := .main 0 .plain

/-- A guard: bit 79 inverts, [78:75] names the predicate (06 R146). -/
structure Guard where
  inv : Bool
  p : BitVec 4
  deriving DecidableEq, Repr, Inhabited

/-- GRD 0b0_0000, always (06 R146). -/
abbrev Guard.always : Guard := ⟨false, 0⟩

/-- Rounding modes (03 R79). -/
inductive Rm where
  | rne | rtz | rdn | rup | rna
  deriving DecidableEq, Repr, Inhabited

/-- Scopes (05 R119). -/
inductive Scope where
  | hart | gang | core | die | chip | pod
  deriving DecidableEq, Repr, Inhabited

/-- Cache hints (04 R108). -/
inductive Hint where
  | normal | engine | noAlloc | stream
  deriving DecidableEq, Repr, Inhabited

/-- Conditions of SCMP, PCMP and BRC (07 R176). -/
inductive Cond where
  | eq | ne | lt | ge | ltu | geu
  deriving DecidableEq, Repr, Inhabited

/-- Conditions of VCMP (08 R214). -/
inductive VCond where
  | eq | ne | lt | le | gt | ge | un | ord
  deriving DecidableEq, Repr, Inhabited

/-- Operations of VRED, VSCAN and the reducing collectives (06 R162). -/
inductive RedOp where
  | add | min | max | and | or | xor
  deriving DecidableEq, Repr, Inhabited

/-- Operations of AMO and VAMO (09 R247). -/
inductive AmoOp where
  | add | min | max | and | or | xor | swap | cas
  deriving DecidableEq, Repr, Inhabited

/-- Orderings carried by atomics and named-barrier forms (05 R128, 06 R163). -/
inductive MemOrd where
  | none | acq | rel | ar
  deriving DecidableEq, Repr, Inhabited

/-- Block lengths of class XX (03 R86). -/
inductive BlockLen where
  | none | b8 | b16 | b32
  deriving DecidableEq, Repr, Inhabited

/-- Scale formats of class XX (03 R86). -/
inductive ScaleFmt where
  | e8m0 | e5m2 | e4m3
  deriving DecidableEq, Repr, Inhabited

/-- The fields common to every word but MAJ, MIN and XT (06 R141). -/
structure Wd where
  fmt : Fmt
  grd : Guard
  d : Operand
  a : Operand
  b : Operand
  stc : BitVec 4
  ch : Bool
  yh : Bool
  bs : Bool
  nb : Bool
  deriving DecidableEq, Repr, Inhabited

/-- XT of class XM (06 R157). -/
structure Xm where
  off : BitVec 17
  ctr : BitVec 3
  scope : Scope
  hint : Hint
  ordered : Bool
  deriving DecidableEq, Repr, Inhabited

/-- XT of class XX (06 R157, R160). -/
structure Xx where
  sa : BitVec 6
  sb : BitVec 6
  blen : BlockLen
  sfmt : ScaleFmt
  cnt : BitVec 6
  ctr : BitVec 3
  rm : Rm
  deriving DecidableEq, Repr, Inhabited

/-- The position a strike report carries (19 R390). -/
inductive StrikePos where
  | inCore (core : Nat)
  | boundary (core1 core2 : Nat)
  | uncore (die : Nat) (code : Word)
  deriving DecidableEq, Repr

/-- One lane's sample at a health refresh (11 R294): received power, error estimate, skew, skew overflow, lock,
and the corrected symbols and uncorrectable codewords since the last refresh. -/
structure LaneSample where
  rxp : BitVec 8
  pfe : BitVec 8
  skew : BitVec 8
  skov : Bool
  lock : Bool
  corr : Nat
  unc : Nat
  deriving DecidableEq, Repr, Inhabited

/-- The steps of the machine: one constructor for each row of the opcode table. Those that carry a `Wd` are
instruction words. The others are steps of the device that no word encodes, with the parameters that name what
they act on. -/
inductive Instr where
  /-- ADD d := a + b (07 R173). -/
  | add (w : Wd)
  /-- SUB d := a - b (07 R173). -/
  | sub (w : Wd)
  /-- AND bitwise (07 R173). -/
  | and (w : Wd)
  /-- OR bitwise (07 R173). -/
  | or (w : Wd)
  /-- XOR bitwise (07 R173). -/
  | xor (w : Wd)
  /-- ANDN a and not b (07 R173). -/
  | andn (w : Wd)
  /-- SHL by b[5:0] (07 R173). -/
  | shl (w : Wd)
  /-- SHR logical (07 R173). -/
  | shr (w : Wd)
  /-- SHRA arithmetic (07 R173). -/
  | shra (w : Wd)
  /-- ROT rotate right (07 R173). -/
  | rot (w : Wd)
  /-- MIN signed (07 R173). -/
  | min (w : Wd)
  /-- MAX signed (07 R173). -/
  | max (w : Wd)
  /-- MINN unsigned (07 R173). -/
  | minn (w : Wd)
  /-- MAXN unsigned (07 R173). -/
  | maxn (w : Wd)
  /-- SEL, class XF: d := a if c is nonzero, else b (07 R173). -/
  | sel (w : Wd) (c : Operand) (rm : Rm)
  /-- MOV (07 R173). -/
  | mov (w : Wd)
  /-- CLZ leading zeros (07 R173). -/
  | clz (w : Wd)
  /-- CTZ trailing zeros (07 R173). -/
  | ctz (w : Wd)
  /-- POPC set bits (07 R173). -/
  | popc (w : Wd)
  /-- SEXT from bit n-1 (07 R173). -/
  | sext (w : Wd)
  /-- ZEXT from bit n-1 (07 R173). -/
  | zext (w : Wd)
  /-- MUL low 64 bits (07 R174, R175). -/
  | mul (w : Wd)
  /-- MULH signed high half (07 R174, R175). -/
  | mulh (w : Wd)
  /-- MULHN unsigned high half (07 R174, R175). -/
  | mulhn (w : Wd)
  /-- DIV signed quotient (07 R174, R175). -/
  | div (w : Wd)
  /-- DIVN unsigned quotient (07 R174, R175). -/
  | divn (w : Wd)
  /-- REM signed remainder (07 R174, R175). -/
  | rem (w : Wd)
  /-- REMN unsigned remainder (07 R174, R175). -/
  | remn (w : Wd)
  /-- SCMP.cond into an x register (07 R176). -/
  | scmp (c : Cond) (w : Wd)
  /-- PCMP.cond into every bit of a predicate (07 R176). -/
  | pcmp (c : Cond) (w : Wd)
  /-- LIL imm24 sign-extended (07 R177). -/
  | lil (w : Wd) (imm : BitVec 24)
  /-- LIH bits [47:24] (07 R177). -/
  | lih (w : Wd) (imm : BitVec 24)
  /-- LIT bits [63:48] (07 R177). -/
  | lit (w : Wd) (imm : BitVec 24)
  /-- PAND (07 R179). -/
  | pand (w : Wd)
  /-- POR (07 R179). -/
  | por (w : Wd)
  /-- PXOR (07 R179). -/
  | pxor (w : Wd)
  /-- PANDN (07 R179). -/
  | pandn (w : Wd)
  /-- PNOT (07 R179). -/
  | pnot (w : Wd)
  /-- PMOV (07 R179). -/
  | pmov (w : Wd)
  /-- PPOP set bits into an x register (07 R179). -/
  | ppop (w : Wd)
  /-- PFIRST lowest set bit (07 R179). -/
  | pfirst (w : Wd)
  /-- PLAST highest set bit (07 R179). -/
  | plast (w : Wd)
  /-- PSETN first n bits (07 R179). -/
  | psetn (w : Wd)
  /-- LEA d := a + b + imm24 (07 R178). -/
  | lea (w : Wd) (imm : BitVec 24)
  /-- BRA (07 R180). -/
  | bra (w : Wd) (off : BitVec 24)
  /-- CALL d := pc + 12 (07 R180). -/
  | call (w : Wd) (off : BitVec 24)
  /-- RET pc := a (07 R180). -/
  | ret (w : Wd)
  /-- JMP d := pc + 12, pc := a (07 R180). -/
  | jmp (w : Wd)
  /-- BRC.cond (07 R180). -/
  | brc (c : Cond) (w : Wd) (off : BitVec 24)
  /-- SETVL (02 R26, 07 R181). -/
  | setvl (w : Wd)
  /-- SETVLG (02 R26, 07 R181). -/
  | setvlg (w : Wd)
  /-- LOOPVL (02 R26, 07 R182). -/
  | loopvl (w : Wd) (off : BitVec 24)
  /-- LOOP (07 R183). -/
  | loop (w : Wd) (endOff : BitVec 20) (lvl : BitVec 2)
  /-- LCRD (07 R186). -/
  | lcrd (w : Wd)
  /-- LCWR (07 R186). -/
  | lcwr (w : Wd)
  /-- WAIT (07 R194). -/
  | wait (w : Wd)
  /-- WAITA (07 R194). -/
  | waita (w : Wd)
  /-- GBAR (07 R196). -/
  | gbar (w : Wd)
  /-- NBINIT (07 R198). -/
  | nbinit (w : Wd) (x : Xm)
  /-- NBARR, with .rel (06 R163, 07 R198). -/
  | nbarr (rel : Bool) (w : Wd) (x : Xm)
  /-- NBWAIT, with .acq (06 R163, 07 R198). -/
  | nbwait (acq : Bool) (w : Wd) (x : Xm)
  /-- NBAW with its ordering (06 R163, 07 R198). -/
  | nbaw (ord : MemOrd) (w : Wd) (x : Xm)
  /-- YIELD (07 R199). -/
  | yield (w : Wd)
  /-- YIELDP (07 R200). -/
  | yieldp (w : Wd)
  /-- SEAL (07 R201). -/
  | seal (w : Wd)
  /-- FENCE.ld (07 R202). -/
  | fenceLd (w : Wd) (x : Xm)
  /-- FENCE.st (07 R202). -/
  | fenceSt (w : Wd) (x : Xm)
  /-- FENCE.all (07 R202). -/
  | fenceAll (w : Wd) (x : Xm)
  /-- MFS (07 R188). -/
  | mfs (w : Wd) (sys : BitVec 12)
  /-- MTS of a register with no behaviour of its own (07 R188). -/
  | mts (w : Wd) (sys : BitVec 12)
  /-- MTS to teambase (09 R254). -/
  | teambaseInstall (w : Wd)
  /-- MTS to csctl (17 R363). -/
  | csctlRetry (w : Wd)
  /-- MTS to lbreq (11 R298). -/
  | lightRequest (w : Wd)
  /-- ECALL (02 R56, 07 R189). -/
  | ecall (w : Wd) (imm : BitVec 24)
  /-- ERET (15 R331). -/
  | eret (w : Wd)
  /-- EXIT (07 R190). -/
  | exit (w : Wd)
  /-- NOP (07 R191). -/
  | nop (w : Wd)
  /-- BRK (07 R191). -/
  | brk (w : Wd) (imm : BitVec 24)
  /-- TLBI (07 R192). -/
  | tlbi (w : Wd)
  /-- GRUN (07 R193). -/
  | grun (w : Wd)
  /-- VADD (08 R209). -/
  | vadd (w : Wd) (rm : Rm)
  /-- VSUB (08 R209). -/
  | vsub (w : Wd) (rm : Rm)
  /-- VMUL (08 R209). -/
  | vmul (w : Wd) (rm : Rm)
  /-- VMULH (08 R209). -/
  | vmulh (w : Wd) (rm : Rm)
  /-- VFMA, class XF (08 R209, R211). -/
  | vfma (w : Wd) (c : Operand) (rm : Rm)
  /-- VMIN (08 R209, R210). -/
  | vmin (w : Wd) (rm : Rm)
  /-- VMAX (08 R209, R210). -/
  | vmax (w : Wd) (rm : Rm)
  /-- VABS (08 R209, R210). -/
  | vabs (w : Wd) (rm : Rm)
  /-- VNEG (08 R209, R210). -/
  | vneg (w : Wd) (rm : Rm)
  /-- VAND (08 R209, R210). -/
  | vand (w : Wd) (rm : Rm)
  /-- VOR (08 R209, R210). -/
  | vor (w : Wd) (rm : Rm)
  /-- VXOR (08 R209, R210). -/
  | vxor (w : Wd) (rm : Rm)
  /-- VANDN (08 R209, R210). -/
  | vandn (w : Wd) (rm : Rm)
  /-- VSHL (08 R209, R210). -/
  | vshl (w : Wd) (rm : Rm)
  /-- VSHR (08 R209, R210). -/
  | vshr (w : Wd) (rm : Rm)
  /-- VSHRA (08 R209, R210). -/
  | vshra (w : Wd) (rm : Rm)
  /-- VADDS (08 R209, R210). -/
  | vadds (w : Wd) (rm : Rm)
  /-- VSUBS (08 R209, R210). -/
  | vsubs (w : Wd) (rm : Rm)
  /-- VDIV (08 R212, R213). -/
  | vdiv (w : Wd) (rm : Rm)
  /-- VSQRT (08 R212, R213). -/
  | vsqrt (w : Wd) (rm : Rm)
  /-- VRCP (08 R212, R213). -/
  | vrcp (w : Wd) (rm : Rm)
  /-- VRSQ (08 R212, R213). -/
  | vrsq (w : Wd) (rm : Rm)
  /-- VEXP2 (08 R212, R213). -/
  | vexp2 (w : Wd) (rm : Rm)
  /-- VLOG2 (08 R212, R213). -/
  | vlog2 (w : Wd) (rm : Rm)
  /-- VCLASS (08 R212, R213). -/
  | vclass (w : Wd) (rm : Rm)
  /-- VROUND (08 R212, R213). -/
  | vround (w : Wd) (rm : Rm)
  /-- VCMP.cond (08 R214). -/
  | vcmp (c : VCond) (w : Wd)
  /-- VSEL (08 R215). -/
  | vsel (w : Wd)
  /-- VCVT (08 R217). -/
  | vcvt (w : Wd) (rm : Rm)
  /-- VQNT (08 R218). -/
  | vqnt (w : Wd) (x : Xx)
  /-- VSCL (08 R219). -/
  | vscl (w : Wd) (x : Xx)
  /-- TRNPK (08 R220). -/
  | trnpk (w : Wd)
  /-- TRNUP (08 R221). -/
  | trnup (w : Wd)
  /-- VRED.op (08 R222). -/
  | vred (op : RedOp) (w : Wd) (rm : Rm)
  /-- VSCAN.op (08 R223). -/
  | vscan (op : RedOp) (w : Wd) (rm : Rm)
  /-- VDOTB (08 R224). -/
  | vdotb (w : Wd) (x : Xx)
  /-- VPERM (08 R226). -/
  | vperm (w : Wd)
  /-- VSLDU (08 R226). -/
  | vsldu (w : Wd)
  /-- VSLDD (08 R226). -/
  | vsldd (w : Wd)
  /-- VBCAST (08 R226). -/
  | vbcast (w : Wd)
  /-- VIOTA (08 R226). -/
  | viota (w : Wd)
  /-- VEXT (08 R226). -/
  | vext (w : Wd)
  /-- VINS (08 R226). -/
  | vins (w : Wd)
  /-- VZIP (08 R226). -/
  | vzip (w : Wd)
  /-- VUNZIP (08 R226). -/
  | vunzip (w : Wd)
  /-- VREV (08 R226). -/
  | vrev (w : Wd)
  /-- VCOMP (08 R227). -/
  | vcomp (w : Wd)
  /-- VEXPND (08 R227). -/
  | vexpnd (w : Wd)
  /-- VUNION.kz (08 R228). -/
  | vunionKz (w : Wd)
  /-- VUNION.dz (08 R228). -/
  | vunionDz (w : Wd)
  /-- VPRN48 (08 R230). -/
  | vprn48 (w : Wd)
  /-- DEFER (08 R232). -/
  | defer (w : Wd) (x : Xm)
  /-- DRAIN (08 R233). -/
  | drain (w : Wd) (x : Xm)
  /-- QAPP (08 R234). -/
  | qapp (w : Wd) (x : Xm)
  /-- QPOP (08 R235). -/
  | qpop (w : Wd) (x : Xm)
  /-- QLEN (08 R236). -/
  | qlen (w : Wd) (x : Xm)
  /-- A work-queue request performed at its home (08 R231, R234). -/
  | queueOpAtHome (req : Nat)
  /-- LD (09 R242). -/
  | ld (w : Wd) (x : Xm)
  /-- ST (09 R242). -/
  | st (w : Wd) (x : Xm)
  /-- PREF (09 R242). -/
  | pref (w : Wd) (x : Xm)
  /-- VLD (09 R243). -/
  | vld (w : Wd) (x : Xm)
  /-- VST (09 R243). -/
  | vst (w : Wd) (x : Xm)
  /-- VLDS (09 R243). -/
  | vlds (w : Wd) (x : Xm)
  /-- VSTS (09 R243). -/
  | vsts (w : Wd) (x : Xm)
  /-- VLDW (09 R243). -/
  | vldw (w : Wd) (x : Xm)
  /-- VSTW (09 R243). -/
  | vstw (w : Wd) (x : Xm)
  /-- VLDX (09 R244). -/
  | vldx (w : Wd) (x : Xm)
  /-- VSTX (09 R244). -/
  | vstx (w : Wd) (x : Xm)
  /-- VLDXO (09 R244). -/
  | vldxo (w : Wd) (x : Xm)
  /-- VSTXO (09 R244). -/
  | vstxo (w : Wd) (x : Xm)
  /-- VLDG (09 R245). -/
  | vldg (w : Wd) (x : Xm)
  /-- VCST (09 R246). -/
  | vcst (w : Wd) (x : Xm)
  /-- AMO (09 R247, R248). -/
  | amo (op : AmoOp) (ord : MemOrd) (w : Wd) (x : Xm)
  /-- VAMO (09 R247, R248). -/
  | vamo (op : AmoOp) (ord : MemOrd) (w : Wd) (x : Xm)
  /-- RPUT (09 R250). -/
  | rput (w : Wd) (x : Xm)
  /-- RGET (09 R250). -/
  | rget (w : Wd) (x : Xm)
  /-- RFENCE (09 R251). -/
  | rfence (w : Wd) (x : Xm)
  /-- RSIG (09 R252). -/
  | rsig (rel : Bool) (w : Wd) (x : Xm)
  /-- COLL.ar (09 R255). -/
  | collAr (op : RedOp) (w : Wd) (x : Xm)
  /-- COLL.rs (09 R255). -/
  | collRs (op : RedOp) (w : Wd) (x : Xm)
  /-- COLL.ag (09 R255). -/
  | collAg (w : Wd) (x : Xm)
  /-- COLL.bc (09 R255). -/
  | collBc (w : Wd) (x : Xm)
  /-- KAPP (09 R259). -/
  | kapp (w : Wd) (x : Xm)
  /-- A key append performed at its home (09 R259). -/
  | keyPageAppendAtHome (req : Nat)
  /-- KBND (09 R261). -/
  | kbnd (w : Wd) (x : Xm)
  /-- KHRV (09 R262). -/
  | khrv (w : Wd) (x : Xm)
  /-- RKPUSH (09 R264). -/
  | rkpush (w : Wd) (x : Xm)
  /-- RKPOP (09 R267). -/
  | rkpop (w : Wd) (x : Xm)
  /-- RKWM (09 R267). -/
  | rkwm (w : Wd) (x : Xm)
  /-- RKWAIT (09 R267). -/
  | rkwait (w : Wd) (x : Xm)
  /-- Copy n of the command running on a channel lands (09 R265, R266). -/
  | rackingCopyLand (core ch n : Nat)
  /-- CLEAN (09 R269). -/
  | clean (w : Wd) (x : Xm)
  /-- INVAL (09 R269). -/
  | inval (w : Wd) (x : Xm)
  /-- INVRO (09 R269). -/
  | invro (w : Wd) (x : Xm)
  /-- ZEROL (09 R269). -/
  | zerol (w : Wd) (x : Xm)
  /-- MMA (10 R277). -/
  | mma (w : Wd) (x : Xx)
  /-- MMAS (10 R278). -/
  | mmas (w : Wd) (x : Xx)
  /-- TMMA (10 R281). -/
  | tmma (w : Wd) (x : Xx)
  /-- ZCLR (10 R286). -/
  | zclr (w : Wd)
  /-- ZADD (10 R286). -/
  | zadd (w : Wd)
  /-- ZLD (10 R287). -/
  | zld (w : Wd) (x : Xm)
  /-- ZST (10 R287). -/
  | zst (w : Wd) (x : Xm)
  /-- ZDRAIN (10 R288). -/
  | zdrain (w : Wd) (x : Xx)
  /-- The arbiter of a core binds one ready head convoy (02 R31). -/
  | convoyBind (core : Nat)
  /-- A counted operation of hart h completes (06 R150). -/
  | counterFall (h op : Nat)
  /-- An interlocked operation of hart h releases its readers (06 R150). -/
  | interlockedResult (h op : Nat)
  /-- A matrix operation of hart h completes and merges its flags (10 R284). -/
  | matrixOpComplete (h op : Nat)
  /-- The oldest unsealed entries of a cellar seal (04 R114). -/
  | cellarSeal (core : Nat)
  /-- The oldest request of hart h leaves its cellar once sealed (04 R114). -/
  | cellarLeave (h : Nat)
  /-- A remote request is translated and performed or refused at its home (04 R111). -/
  | globalWindowAccessAtHome (req : Nat)
  /-- A remote signal arrives at its target (09 R252). -/
  | rsigArrival (req : Nat)
  /-- A contribution is combined at member m (09 R256). -/
  | collArrival (inst m sender : Nat)
  /-- A consumed slot is released to its sender (09 R256). -/
  | releaseNotice (inst m sender : Nat)
  /-- Member m reports its instance combined (18 R385). -/
  | ready (inst m : Nat)
  /-- A commit reaches member m (18 R385). -/
  | commit (inst m : Nat)
  /-- An abort decision reaches member m (18 R387). -/
  | abort (inst m : Nat) (code : BitVec 8) (lost : Nat)
  /-- A die is declared lost (18 R385). -/
  | memberLost (die : Nat)
  /-- The watchdog of member m expires (18 R386). -/
  | collWatchdogExpiry (inst m : Nat)
  /-- A nonzero ARM word of a registered graph is taken (02 R39). -/
  | graphArm (die entry : Nat)
  /-- A flush request of an active QUEUE node is served (02 R48). -/
  | queueFlush (die run node : Nat)
  /-- A firing of an active QUEUE node is launched (02 R48). -/
  | queueFiring (die run node : Nat)
  /-- The sequencer places the first fitting ready gang (02 R45). -/
  | gangPlace (die : Nat)
  /-- The sequencer chooses a victim for a waiting gang (02 R50). -/
  | preemptVictimChoice (die : Nat)
  /-- The exclusions of declined victims expire (17 R362). -/
  | saveExclusionExpiry (die : Nat)
  /-- The countdown of a victim gang reaches 0 (17 R354). -/
  | preemptDeadlineExpiry (die gang : Nat)
  /-- The context-save engine saves a stopped gang (02 R52). -/
  | contextSave (die : Nat)
  /-- The context-save engine restores a saved gang (17 R364). -/
  | contextRestore (die : Nat)
  /-- A strike report reaches its cores (19 R390, R392). -/
  | strikeReport (pos : StrikePos)
  /-- A draining core with no gang is reset (19 R398). -/
  | drainCoreReset (core : Nat)
  /-- A spare array row is brought in (19 R401). -/
  | spareRowInsert (core : Nat)
  /-- The lanes of a link are sampled (11 R294, 18 R379). -/
  | healthRefresh (die peer : Nat) (smp : List LaneSample)
  /-- A drop notice reaches the transmitter (18 R380). -/
  | dropNotice (die peer lane : Nat)
  /-- The marker flit reaches the receiver (11 R296). -/
  | markerFlit (die peer : Nat)
  /-- The marker is acknowledged (11 R296). -/
  | laneTransitionComplete (die peer : Nat)
  /-- A flit is received, or an uncorrectable codeword is (11 R291, R294). -/
  | flitReceive (die peer : Nat) (good : Bool)
  /-- A dropped lane is retrained (18 R381). -/
  | retrainTimer (die peer lane : Nat) (good : Bool)
  /-- LCTL.REQ is written (11 R296). -/
  | lctlReqWrite (die peer : Nat) (req : BitVec 4)
  /-- LCTL.LPS is written (11 R297). -/
  | lctlLpsWrite (die peer : Nat) (lps : BitVec 2)
  /-- A grant of light is received (11 R298). -/
  | lightGrant (chip : Nat) (mw : BitVec 20)
  /-- The device sheds links (18 R384). -/
  | lightShed (chip : Nat)
  /-- FREQ of an island is written (11 R303). -/
  | islandFreqWrite (die isl : Nat) (mhz : BitVec 12) (ubgoim : Bool)
  /-- A frequency change takes effect (11 R303). -/
  | freqChangeApplied (die isl : Nat)
  /-- GATE of an island is written (11 R303). -/
  | islandGateWrite (die isl : Nat) (gate ubgoim : Bool)
  /-- A core island gates (11 R303). -/
  | islandGateEntry (die isl : Nat)
  /-- A woken island gates again (17 R369). -/
  | islandRegateTimer (die isl : Nat)
  /-- The Ubgoim controller lowers or raises core clocks (11 R303). -/
  | powerCapAdjust (chip : Nat) (down : Bool)
  /-- An MSI-X vector is raised (11 R300). -/
  | msixRaise (chip : Nat) (vec : BitVec 6)
  /-- A host write through BAR2 (11 R300). -/
  | hostApertureWrite (chip off : Nat) (bytes : List (BitVec 8))
  /-- A host read through BAR2 (11 R300). -/
  | hostApertureRead (chip off len : Nat)
  /-- Mailbox CMD 1 (11 R302). -/
  | mailboxMeasurementLog (chip : Nat)
  /-- Mailbox CMD 2 (11 R302). -/
  | mailboxCertChain (chip : Nat)
  /-- Mailbox CMD 3 (11 R302). -/
  | mailboxAttest (chip : Nat)
  /-- The package boots from a cold reset (11 R301). -/
  | coldReset (chip : Nat) (imagesOk : Bool)
  /-- The package freezes (19 R407). -/
  | freeze (chip : Nat) (cause : Word)
  /-- A word with an undefined MAJ or an unassigned MIN (06 R164). -/
  | undefinedOpcode (bits : IWord)
  /-- A gated core island finishes ungating (11 R303). -/
  | islandUngate (die isl : Nat)
  /-- Transmit lanes leaving L3 finish relocking (11 R297). -/
  | l3Relock (die peer : Nat)
  /-- A core under reset ends its reset (17 R370). -/
  | coreResetEnd (core : Nat)  deriving DecidableEq, Repr

end Sys2Proof
end

