-- ==== Sys2Proof/WellFormed.lean ====
section
/-! DEFINITION. The limits that a word must keep at decode: the reserved-field conditions of 06 R143 to R166 and of
the entries (16 R342), each with the SUB that reports it (15 R326). -/
namespace Sys2Proof

/-- What an operand field may hold in an instruction (03 R62, 06 R143 to R145, 08 R204, 09 R237). -/
inductive Role where
  /-- the field is not used and holds 0x000 -/
  | unused
  /-- scalar source: x register, l0 or constant -/
  | xSrc
  /-- scalar destination: x register or discard -/
  | xDst
  /-- vector source that takes every modifier (MAJ 0x10 to 0x14) -/
  | vSrcMod
  /-- source of a conversion: M, O or L, every modifier but broadcast (08 R216) -/
  | vSrcConv
  /-- vector source that takes broadcast alone -/
  | vSrc
  /-- vector data source of tiers M, O and L, or a constant, with no modifier (09 R237) -/
  | vStore
  /-- vector data source of tiers M, O and L with no modifier (10 R271) -/
  | vReg
  /-- vector destination: v, o or discard -/
  | vDst
  /-- vector destination that may not be discarded (10 R288) -/
  | vDstKept
  | pred
  | acc
  | counter
  | loopCtr
  | barrier
  /-- a tier-M v register without modifier (09 R237) -/
  | vMain
  /-- the first of `len` consecutive v registers, its index a multiple of `align` (08 R204) -/
  | vGroup (align len : Nat)
  /-- a constant from 0 to `max` -/
  | konst (max : Nat)
  deriving DecidableEq, Repr

/-- Whether a field fits its role. -/
def Role.ok (r : Role) (o : Operand) : Bool :=
  match r with
  | .unused => o == Operand.zero
  | .xSrc => match o with
    | .main _ m => m == .plain
    | .oper _ _ => false
    | .last i m => i == 0 && m == .plain
    | .const _ => true
  | .xDst => match o with
    | .main _ m => m == .plain
    | .const _ => true
    | _ => false
  | .vSrcMod => match o with
    | .main _ _ => true
    | .oper _ m => m != .broadcast
    | .last i m => i != 0 && m != .broadcast
    | .const _ => true
  | .vSrcConv => match o with
    | .main _ m => m != .broadcast
    | .oper _ m => m != .broadcast
    | .last i m => i != 0 && m != .broadcast
    | .const _ => false
  | .vSrc => match o with
    | .main _ m => m == .plain || m == .broadcast
    | .oper _ m => m == .plain
    | .last i m => i != 0 && m == .plain
    | .const _ => true
  | .vStore => match o with
    | .main _ m => m == .plain
    | .oper _ m => m == .plain
    | .last i m => i != 0 && m == .plain
    | .const _ => true
  | .vReg => match o with
    | .main _ m => m == .plain
    | .oper _ m => m == .plain
    | .last i m => i != 0 && m == .plain
    | .const _ => false
  | .vDst => match o with
    | .main _ m => m == .plain
    | .oper _ m => m == .plain
    | .last _ _ => false
    | .const _ => true
  | .vDstKept => match o with
    | .main _ m => m == .plain
    | .oper _ m => m == .plain
    | _ => false
  | .pred => match o with
    | .main i m => m == .plain && i.toNat < 16
    | _ => false
  | .acc => match o with
    | .main i m => m == .plain && i.toNat < 8
    | _ => false
  | .counter => match o with
    | .main i m => m == .plain && i.toNat < 8
    | _ => false
  | .loopCtr => match o with
    | .main i m => m == .plain && i.toNat < 4
    | _ => false
  | .barrier => match o with
    | .main _ m => m == .plain
    | _ => false
  | .vMain => match o with
    | .main _ m => m == .plain
    | _ => false
  | .vGroup align len => match o with
    | .main i m => m == .plain && i.toNat % align == 0 && i.toNat + len ≤ 64
    | _ => false
  | .konst max => match o with
    | .const k => decide (0 ≤ k.toInt) && decide (k.toInt ≤ (max : Int))
    | _ => false

/-- What the FMT field may hold without a reserved-field trap (06 R165). -/
inductive FmtRule where
  | any | zero
  /-- VCVT: FMT 0, mask8, e8m0 and tern are reserved (08 R217) -/
  | vcvt
  deriving DecidableEq, Repr

/-- What GRD may hold (06 R146, 08 R206, 09 R245). -/
inductive GuardRule where
  | any | always
  /-- p1 to p15 without inversion -/
  | named
  deriving DecidableEq, Repr

/-- The decode-stage limits of one instruction word. -/
structure Shape where
  fmt : FmtRule := .zero
  grd : GuardRule := .any
  d : Role := .unused
  a : Role := .unused
  b : Role := .unused
  /-- NB = 1 is accepted (06 R166) -/
  nb : Bool := false
  /-- BS = 1 is accepted (06 R152) -/
  bs : Bool := false
  deriving Repr

/-- XM fields that an entry does not use hold 0 (06 R157, R158). -/
def Xm.limits (x : Xm) (off ctr scope hint ordered : Bool) : Bool :=
  (off || x.off == 0) && (ctr || x.ctr == 0) && (scope || x.scope == .hart) && (hint || x.hint == .normal)
    && (ordered || !x.ordered)

/-- The scope is core or wider (05 R128). -/
def Scope.atLeastCore : Scope → Bool
  | .hart => false
  | .gang => false
  | _ => true

/-- The number of DEFER's and DRAIN's value registers: a constant 0 to 4, else 0. -/
def deferCount (o : Operand) : Nat :=
  match o with
  | .const k => if 0 ≤ k.toInt ∧ k.toInt ≤ 4 then k.toNat else 0
  | _ => 0

/-- The system registers some table assigns (03 R63). -/
def sysAssigned (n : Nat) : Bool :=
  n ≤ 0x00A || (0x010 ≤ n && n ≤ 0x014) || (0x018 ≤ n && n ≤ 0x01C) || n == 0x020 || n == 0x021
    || (0x028 ≤ n && n ≤ 0x02E) || (0x030 ≤ n && n ≤ 0x033) || (0x100 ≤ n && n ≤ 0x103)
    || (0x110 ≤ n && n ≤ 0x112) || (0x120 ≤ n && n ≤ 0x127) || (0x200 ≤ n && n ≤ 0x202)
    || (0x208 ≤ n && n ≤ 0x20B) || (0x300 ≤ n && n ≤ 0x302) || (0x310 ≤ n && n ≤ 0x314)
    || n == 0x320 || n == 0x321 || (0x330 ≤ n && n ≤ 0x332)

/-- ZDRAIN's selector names a part of its format's table (10 R288). FMT outside fp32 and bf16 is a tag mismatch later:
of it, only parts that no row of the table has are judged here. -/
def zdrainPartOk (f : Fmt) (o : Operand) : Bool :=
  match o with
  | .const k =>
    let n := k.toNat
    n < 16 && (let part := n % 8
      if n < 8 then part == 0
      else if f == .fp32 then part < 3
      else if f == .bf16 then part < 2
      else part < 3)
  | _ => false

def shTri : Shape := { d := .xDst, a := .xSrc, b := .xSrc }
def shDuo : Shape := { d := .xDst, a := .xSrc }
def shVec3 : Shape := { fmt := .any, d := .vDst, a := .vSrcMod, b := .vSrcMod }
def shVec2 : Shape := { fmt := .any, d := .vDst, a := .vSrcMod }
def shPerm (b : Role) : Shape := { fmt := .any, d := .vDst, a := .vSrc, b := b }
def shVmem (d b : Role) : Shape := { fmt := .any, d := d, a := .xSrc, b := b, nb := true }

/-- The decode-stage limits on the fields of the common word, by instruction; none for a step that is no word. -/
def Instr.shape : Instr → Option Shape
  | .add _ | .sub _ | .and _ | .or _ | .xor _ | .andn _ | .shl _ | .shr _ | .shra _ | .rot _ | .min _ | .max _
  | .minn _ | .maxn _ | .sel _ _ _ | .sext _ | .zext _ | .mul _ | .mulh _ | .mulhn _ | .div _ | .divn _ | .rem _
  | .remn _ | .scmp _ _ | .lea _ _ => some shTri
  | .mov _ | .clz _ | .ctz _ | .popc _ | .jmp _ | .grun _ => some shDuo
  | .pcmp _ _ => some { d := .pred, a := .xSrc, b := .xSrc }
  | .lil _ _ | .lih _ _ | .lit _ _ | .call _ _ | .mfs _ _ => some { d := .xDst }
  | .pand _ | .por _ | .pxor _ | .pandn _ => some { d := .pred, a := .pred, b := .pred }
  | .pnot _ | .pmov _ => some { d := .pred, a := .pred }
  | .ppop _ | .pfirst _ | .plast _ => some { d := .xDst, a := .pred }
  | .psetn _ => some { d := .pred, a := .xSrc }
  | .bra _ _ | .gbar _ | .yield _ | .yieldp _ | .seal _ | .fenceLd _ _ | .fenceSt _ _ | .fenceAll _ _ | .ecall _ _
  | .eret _ | .exit _ | .nop _ | .brk _ _ => some {}
  | .ret _ | .mts _ _ | .teambaseInstall _ | .csctlRetry _ | .lightRequest _ => some { a := .xSrc }
  | .brc _ _ _ => some { a := .xSrc, b := .xSrc }
  | .setvl _ | .setvlg _ => some { shDuo with fmt := .any }
  | .loopvl _ _ => some shDuo
  | .loop _ _ _ => some { a := .xSrc }
  | .lcrd _ => some { d := .xDst, a := .loopCtr }
  | .lcwr _ => some { d := .loopCtr, a := .xSrc }
  | .wait _ => some { a := .counter, b := .xSrc }
  | .waita _ => some { b := .xSrc }
  | .nbinit _ _ | .nbwait _ _ _ => some { a := .barrier, b := .xSrc }
  | .nbarr _ _ _ | .nbaw _ _ _ => some { d := .xDst, a := .barrier }
  | .tlbi _ => some { a := .xSrc, b := .konst 4 }
  | .vadd _ _ | .vsub _ _ | .vmul _ _ | .vmulh _ _ | .vfma _ _ _ | .vmin _ _ | .vmax _ _ | .vand _ _ | .vor _ _
  | .vxor _ _ | .vandn _ _ | .vshl _ _ | .vshr _ _ | .vshra _ _ | .vadds _ _ | .vsubs _ _ | .vdiv _ _ | .vsel _
  | .vdotb _ _ => some shVec3
  | .vabs _ _ | .vneg _ _ | .vsqrt _ _ | .vrcp _ _ | .vrsq _ _ | .vexp2 _ _ | .vlog2 _ _ | .vclass _ _
  | .vround _ _ | .vred _ _ _ | .vscan _ _ _ => some shVec2
  | .vcmp _ _ => some { fmt := .any, d := .pred, a := .vSrcMod, b := .vSrcMod }
  | .vcvt _ _ => some { fmt := .vcvt, d := .vDst, a := .vSrcConv, b := .konst 511 }
  | .vqnt _ _ | .vscl _ _ => some { fmt := .any, d := .vDst, a := .vSrcConv, b := .konst 511 }
  | .trnpk _ | .trnup _ => some { d := .vDst, a := .vSrcConv, b := .konst 4 }
  | .vperm _ | .vzip _ | .vunzip _ => some (shPerm .vSrc)
  | .vsldu _ | .vsldd _ | .vbcast _ => some (shPerm .xSrc)
  | .viota _ => some { fmt := .any, d := .vDst, a := .xSrc }
  | .vext _ => some { fmt := .any, grd := .always, d := .xDst, a := .vSrc, b := .xSrc }
  | .vins _ => some { fmt := .any, grd := .always, d := .vDst, a := .xSrc, b := .xSrc }
  | .vrev _ | .vcomp _ | .vexpnd _ => some (shPerm .unused)
  | .vunionKz _ | .vunionDz _ =>
    some { fmt := .any, grd := .always, d := .vGroup 2 2, a := .vGroup 2 2, b := .vGroup 2 2 }
  | .vprn48 _ => some { fmt := .any, grd := .always, d := .vGroup 2 2, a := .vSrc }
  | .defer w _ =>
    let m := deferCount w.b
    some { a := if m == 0 then .unused else .vGroup 1 m, b := .konst 4, nb := true }
  | .drain w _ =>
    some { fmt := .any, grd := .always, d := .vGroup 1 (deferCount w.b + 1), a := .xDst, b := .konst 4, nb := true }
  | .qapp _ _ => some { d := .xDst, a := .xSrc, b := .vSrc, nb := true }
  | .qpop _ _ => some { grd := .always, d := .vDst, a := .xSrc, b := .xDst, nb := true }
  | .qlen _ _ => some { grd := .always, d := .xDst, a := .xSrc, nb := true }
  | .ld _ _ => some { fmt := .any, d := .xDst, a := .xSrc, nb := true }
  | .st _ _ => some { fmt := .any, d := .xSrc, a := .xSrc, nb := true }
  | .pref _ _ => some { a := .xSrc, nb := true }
  | .vld _ _ => some (shVmem .vDst .unused)
  | .vst _ _ => some (shVmem .vStore .unused)
  | .vlds _ _ => some (shVmem .vDst .xSrc)
  | .vsts _ _ => some (shVmem .vStore .xSrc)
  | .vldw _ _ => some { shVmem .vDst .unused with grd := .always }
  | .vstw _ _ => some { shVmem .vStore .unused with grd := .always, fmt := .zero }
  | .vldx _ _ | .vldxo _ _ => some (shVmem .vDst .vMain)
  | .vstx _ _ | .vstxo _ _ => some (shVmem .vStore .vMain)
  | .vldg _ _ => some { shVmem .vDst .vMain with grd := .named }
  | .vcst _ _ => some { shVmem .vStore .xSrc with grd := .named }
  | .amo _ _ _ _ => some { shTri with fmt := .any, nb := true }
  | .vamo op _ _ _ =>
    some { fmt := .any, d := if op == .cas then .vDstKept else .vDst, a := .xSrc, b := .vGroup 2 2, nb := true }
  | .rput _ _ | .rget _ _ => some { d := .xSrc, a := .xSrc, b := .xSrc, nb := true }
  | .rfence _ _ => some { nb := true }
  | .rsig _ _ _ => some { a := .xSrc, b := .xSrc, nb := true }
  | .collAr _ _ _ | .collRs _ _ _ | .collAg _ _ | .collBc _ _ =>
    some { fmt := .any, grd := .always, d := .xSrc, a := .xSrc, b := .xSrc, nb := true }
  | .kapp _ _ => some { grd := .always, a := .xSrc, b := .vSrc, nb := true }
  | .kbnd _ _ => some { grd := .always, d := .xDst, a := .vSrc, b := .xSrc, nb := true }
  | .khrv _ _ => some { grd := .always, d := .xSrc, a := .xSrc, b := .konst 7, nb := true }
  | .rkpush _ _ => some { grd := .always, a := .xSrc, nb := true }
  | .rkpop _ _ | .rkwm _ _ => some { grd := .always, d := .xDst, a := .konst 7, nb := true }
  | .rkwait _ _ => some { grd := .always, a := .konst 7, b := .xSrc, nb := true }
  | .clean _ _ | .inval _ _ | .zerol _ _ => some { a := .xSrc, b := .xSrc, nb := true }
  | .invro _ _ => some { nb := true }
  | .mma _ _ | .mmas _ _ | .tmma _ _ =>
    some { fmt := .any, grd := .always, d := .acc, a := .vReg, b := .vGroup 8 8, nb := true, bs := true }
  | .zclr _ => some { fmt := .any, grd := .always, d := .acc }
  | .zadd _ => some { fmt := .any, grd := .always, d := .acc, a := .acc, b := .acc }
  | .zld _ _ | .zst _ _ => some { fmt := .any, grd := .always, d := .acc, a := .xSrc, nb := true }
  | .zdrain _ _ => some { fmt := .any, d := .vDstKept, a := .acc, b := .konst 15, nb := true }
  | _ => none

/-- The common word of an instruction. -/
def Instr.wd : Instr → Option Wd
  | .add w | .sub w | .and w | .or w | .xor w | .andn w | .shl w | .shr w | .shra w | .rot w | .min w | .max w
  | .minn w | .maxn w | .sel w _ _ | .sext w | .zext w | .mul w | .mulh w | .mulhn w | .div w | .divn w | .rem w
  | .remn w | .scmp _ w | .lea w _ | .mov w | .clz w | .ctz w | .popc w | .jmp w | .grun w | .pcmp _ w | .lil w _
  | .lih w _ | .lit w _ | .call w _ | .mfs w _ | .pand w | .por w | .pxor w | .pandn w | .pnot w | .pmov w | .ppop w
  | .pfirst w | .plast w | .psetn w | .bra w _ | .gbar w | .yield w | .yieldp w | .seal w | .fenceLd w _
  | .fenceSt w _ | .fenceAll w _ | .ecall w _ | .eret w | .exit w | .nop w | .brk w _ | .ret w | .mts w _
  | .teambaseInstall w | .csctlRetry w | .lightRequest w | .brc _ w _ | .setvl w | .setvlg w | .loopvl w _
  | .loop w _ _ | .lcrd w | .lcwr w | .wait w | .waita w | .nbinit w _ | .nbwait _ w _ | .nbarr _ w _ | .nbaw _ w _
  | .tlbi w | .vadd w _ | .vsub w _ | .vmul w _ | .vmulh w _ | .vfma w _ _ | .vmin w _ | .vmax w _ | .vand w _
  | .vor w _ | .vxor w _ | .vandn w _ | .vshl w _ | .vshr w _ | .vshra w _ | .vadds w _ | .vsubs w _ | .vdiv w _
  | .vsel w | .vdotb w _ | .vabs w _ | .vneg w _ | .vsqrt w _ | .vrcp w _ | .vrsq w _ | .vexp2 w _ | .vlog2 w _
  | .vclass w _ | .vround w _ | .vred _ w _ | .vscan _ w _ | .vcmp _ w | .vcvt w _ | .vqnt w _ | .vscl w _ | .trnpk w
  | .trnup w | .vperm w | .vzip w | .vunzip w | .vsldu w | .vsldd w | .vbcast w | .viota w | .vext w | .vins w
  | .vrev w | .vcomp w | .vexpnd w | .vunionKz w | .vunionDz w | .vprn48 w | .defer w _ | .drain w _ | .qapp w _
  | .qpop w _ | .qlen w _ | .ld w _ | .st w _ | .pref w _ | .vld w _ | .vst w _ | .vlds w _ | .vsts w _ | .vldw w _
  | .vstw w _ | .vldx w _ | .vldxo w _ | .vstx w _ | .vstxo w _ | .vldg w _ | .vcst w _ | .amo _ _ w _ | .vamo _ _ w _
  | .rput w _ | .rget w _ | .rfence w _ | .rsig _ w _ | .collAr _ w _ | .collRs _ w _ | .collAg w _ | .collBc w _
  | .kapp w _ | .kbnd w _ | .khrv w _ | .rkpush w _ | .rkpop w _ | .rkwm w _ | .rkwait w _ | .clean w _ | .inval w _
  | .zerol w _ | .invro w _ | .mma w _ | .mmas w _ | .tmma w _ | .zclr w | .zadd w | .zld w _ | .zst w _
  | .zdrain w _ => some w
  | _ => none

/-- Whether the fields of XT keep their limits (SUB 6), but for the system register number (SUB 10). A form that rounds in
no format leaves the rounding field unused, and one that accesses no memory the cache hint (06 R157, 08 R203). -/
def Instr.xtOk : Instr → Bool
  | .sel _ c rm => Role.xSrc.ok c && rm == .rne
  | .vfma _ c _ => Role.vSrcMod.ok c
  | .lit _ imm => imm.toNat < 0x10000
  | .loop _ e _ => 3 ≤ e.toNat
  | .nbinit _ x => x.limits false false false false false
  | .nbarr _ _ x | .nbwait _ _ x | .nbaw _ _ x => x.limits false false true false false && x.scope.atLeastCore
  | .fenceLd _ x | .fenceSt _ x | .fenceAll _ x => x.limits false false true false false
  | .defer _ x | .drain _ x => x.limits true true false false false && decide (0 ≤ x.off.toInt)
  | .qapp _ x | .qpop _ x | .qlen _ x => x.limits false true false true false
  | .ld _ x | .st _ x | .pref _ x | .vld _ x | .vst _ x | .vlds _ x | .vsts _ x | .vldw _ x | .vstw _ x | .vldx _ x
  | .vstx _ x | .vldg _ x | .vcst _ x | .zld _ x | .zst _ x | .amo _ _ _ x | .vamo _ _ _ x | .rkpush _ x => !x.ordered
  | .vldxo _ x | .vstxo _ x => x.ordered
  | .rput _ x | .rget _ x | .rsig _ _ x | .collAr _ _ x | .collRs _ _ x | .collAg _ x | .kapp _ x | .kbnd _ x
  | .khrv _ x | .clean _ x | .inval _ x | .zerol _ x => x.limits false true true true false
  | .rkpop _ x | .rkwm _ x | .rkwait _ x | .invro _ x | .rfence _ x => x.limits false true true false false
  | .vmulh _ rm | .vmin _ rm | .vmax _ rm | .vabs _ rm | .vneg _ rm | .vand _ rm | .vor _ rm | .vxor _ rm | .vandn _ rm
  | .vshl _ rm | .vshr _ rm | .vshra _ rm | .vadds _ rm | .vsubs _ rm | .vclass _ rm => rm == .rne
  | .collBc _ x => x.limits true true true true false && decide (0 ≤ x.off.toInt)
  | .vqnt _ x => x.sb == 0 && x.blen != .none && x.cnt == 0 && x.ctr == 0
  | .vscl _ x => x.sb == 0 && x.cnt == 0 && x.ctr == 0
  | .vdotb _ x => x.ctr == 0
  | .mma w x => x.cnt == 0 && x.rm == .rne && !(w.fmt ∈ [.i8, .bf16] && x.blen != .none)
  | .mmas w x => x.cnt.toNat ≤ 32 && x.rm == .rne && !(w.fmt ∈ [.i8, .bf16] && x.blen != .none)
  | .tmma _ x => x.sa == 0 && x.sb == 0 && x.blen == .none && x.sfmt == .e8m0 && x.cnt == 0 && x.rm == .rne
  | .zdrain _ x => x.cnt == 0
  | _ => true

def FmtRule.ok (r : FmtRule) (f : Fmt) : Bool :=
  match r with
  | .any => true
  | .zero => f == .raw
  | .vcvt => !(f ∈ [.raw, .mask8, .e8m0, .tern])

def GuardRule.ok (r : GuardRule) (g : Guard) : Bool :=
  match r with
  | .any => !(g.inv && g.p == 0)
  | .always => g == Guard.always
  | .named => !g.inv && g.p != 0

/-- A sign modifier is refused on a source that a named format reads as tern, mask8 or e8m0 (06 R144). -/
def signModOk (f : Fmt) (o : Operand) : Bool :=
  match o with
  | .const _ => true
  | .main _ m | .oper _ m | .last _ m =>
    !(f ∈ [.tern, .mask8, .e8m0] && m ∈ [.negate, .absolute, .negAbs])

/-- The modifiers of the sources fit the format that FMT names, by SUB (06 R144). -/
def Instr.signModSubs (i : Instr) : List Nat :=
  match i.shape, i.wd with
  | some s, some w =>
    (if s.a == .vSrcMod && !signModOk w.fmt w.a then [4] else [])
      ++ (if s.b == .vSrcMod && !signModOk w.fmt w.b then [5] else [])
      ++ (match i with
        | .vfma _ c _ => if signModOk w.fmt c then [] else [6]
        | _ => [])
  | _, _ => []

/-- The operand of B keeps the limit that the format names, for ZDRAIN (10 R288). -/
def Instr.partOk : Instr → Bool
  | .zdrain w _ => zdrainPartOk w.fmt w.b
  | _ => true

/-- The system register of MFS or MTS is one that some table assigns (SUB 10). -/
def Instr.sysOk : Instr → Bool
  | .mfs _ n => sysAssigned n.toNat
  | .mts _ n => sysAssigned n.toNat && n != 0x100 && n != 0x314 && n != 0x200
  | _ => true

/-- The SUB values of every reserved-field limit that a word breaks (15 R326), those of its encoding apart. -/
def Instr.reservedSubs (i : Instr) : List Nat :=
  match i.shape, i.wd with
  | some s, some w =>
    (if s.fmt.ok w.fmt then [] else [1])
      ++ (if s.grd.ok w.grd then [] else [2])
      ++ (if s.d.ok w.d then [] else [3])
      ++ (if s.a.ok w.a then [] else [4])
      ++ (if s.b.ok w.b && i.partOk then [] else [5])
      ++ (if i.xtOk then [] else [6])
      ++ (if (s.nb || !w.nb) && (s.bs || !w.bs) then [] else [8])
      ++ (if i.sysOk then [] else [10])
      ++ i.signModSubs
  | _, _ => []

/-- The instruction is a word of the instruction set. -/
def Instr.isWord (i : Instr) : Bool := i.wd.isSome

/-- A word breaks no reserved-field limit. -/
def Instr.wellFormed (i : Instr) : Bool := i.isWord && i.reservedSubs.isEmpty

end Sys2Proof
end

