-- ==== Sys2Proof/Decode.lean ====
section
/-! DEFINITION. The decoder, total on any 96 bits, and after it the encoder (06 R141 to R166). -/
namespace Sys2Proof

/-! ### Codes of the fields -/

/-- FMT codes (03 R68); 15 is not used. -/
def fmtOf (n : Nat) : Option Fmt :=
  match n with
  | 0 => some .raw | 1 => some .i8 | 2 => some .n8 | 3 => some .i16 | 4 => some .i32 | 5 => some .i64
  | 6 => some .fp32 | 7 => some .bf16 | 8 => some .fp16 | 9 => some .e4m3 | 10 => some .e5m2 | 11 => some .e2m1
  | 12 => some .e8m0 | 13 => some .tern | 14 => some .mask8 | _ => none

def Fmt.code : Fmt → BitVec 4
  | .raw => 0 | .i8 => 1 | .n8 => 2 | .i16 => 3 | .i32 => 4 | .i64 => 5 | .fp32 => 6 | .bf16 => 7 | .fp16 => 8
  | .e4m3 => 9 | .e5m2 => 10 | .e2m1 => 11 | .e8m0 => 12 | .tern => 13 | .mask8 => 14

/-- Modifier codes (06 R144). -/
def modifierOf (n : Nat) : Option Modifier :=
  match n with
  | 0 => some .plain | 1 => some .negate | 2 => some .absolute | 3 => some .negAbs | 4 => some .broadcast | _ => none

def Modifier.code : Modifier → BitVec 3
  | .plain => 0 | .negate => 1 | .absolute => 2 | .negAbs => 3 | .broadcast => 4

/-- Rounding-mode codes (03 R79). -/
def rmOf (n : Nat) : Option Rm :=
  match n with
  | 0 => some .rne | 1 => some .rtz | 2 => some .rdn | 3 => some .rup | 4 => some .rna | _ => none

def Rm.code : Rm → BitVec 3
  | .rne => 0 | .rtz => 1 | .rdn => 2 | .rup => 3 | .rna => 4

/-- Scope codes (05 R119). -/
def scopeOf (n : Nat) : Option Scope :=
  match n with
  | 0 => some .hart | 1 => some .gang | 2 => some .core | 3 => some .die | 4 => some .chip | 5 => some .pod | _ => none

def Scope.code : Scope → BitVec 3
  | .hart => 0 | .gang => 1 | .core => 2 | .die => 3 | .chip => 4 | .pod => 5

/-- Cache-hint codes (04 R108). -/
def hintOf (n : Nat) : Hint :=
  match n with
  | 0 => .normal | 1 => .engine | 2 => .noAlloc | _ => .stream

def Hint.code : Hint → BitVec 2
  | .normal => 0 | .engine => 1 | .noAlloc => 2 | .stream => 3

/-- Condition codes (07 R176). -/
def condOf (n : Nat) : Option Cond :=
  match n with
  | 0 => some .eq | 1 => some .ne | 2 => some .lt | 3 => some .ge | 4 => some .ltu | 5 => some .geu | _ => none

def Cond.code : Cond → BitVec 6
  | .eq => 0 | .ne => 1 | .lt => 2 | .ge => 3 | .ltu => 4 | .geu => 5

/-- VCMP conditions (06 R162). -/
def vcondOf (n : Nat) : VCond :=
  match n with
  | 0 => .eq | 1 => .ne | 2 => .lt | 3 => .le | 4 => .gt | 5 => .ge | 6 => .un | _ => .ord

def VCond.code : VCond → BitVec 6
  | .eq => 0 | .ne => 1 | .lt => 2 | .le => 3 | .gt => 4 | .ge => 5 | .un => 6 | .ord => 7

/-- Reduction operations (06 R162). -/
def redOf (n : Nat) : Option RedOp :=
  match n with
  | 0 => some .add | 1 => some .min | 2 => some .max | 3 => some .and | 4 => some .or | 5 => some .xor | _ => none

def RedOp.code : RedOp → BitVec 6
  | .add => 0 | .min => 1 | .max => 2 | .and => 3 | .or => 4 | .xor => 5

/-- Atomic operations, MIN[2:0] (06 R162). -/
def amoOf (n : Nat) : AmoOp :=
  match n % 8 with
  | 0 => .add | 1 => .min | 2 => .max | 3 => .and | 4 => .or | 5 => .xor | 6 => .swap | _ => .cas

def AmoOp.code : AmoOp → BitVec 6
  | .add => 0 | .min => 1 | .max => 2 | .and => 3 | .or => 4 | .xor => 5 | .swap => 6 | .cas => 7

/-- Orderings: none, acquire, release, both (06 R162, R163). -/
def memOrdOf (n : Nat) : MemOrd :=
  match n % 4 with
  | 0 => .none | 1 => .acq | 2 => .rel | _ => .ar

def MemOrd.code : MemOrd → BitVec 6
  | .none => 0 | .acq => 1 | .rel => 2 | .ar => 3

/-- Block lengths, XX [16:15] (03 R86). -/
def blockLenOf (n : Nat) : BlockLen :=
  match n with
  | 0 => .none | 1 => .b8 | 2 => .b16 | _ => .b32

def BlockLen.code : BlockLen → BitVec 2
  | .none => 0 | .b8 => 1 | .b16 => 2 | .b32 => 3

/-- Scale formats, XX [14:12] (03 R86). -/
def scaleFmtOf (n : Nat) : Option ScaleFmt :=
  match n with
  | 0 => some .e8m0 | 1 => some .e5m2 | 2 => some .e4m3 | _ => none

def ScaleFmt.code : ScaleFmt → BitVec 3
  | .e8m0 => 0 | .e5m2 => 1 | .e4m3 => 2

/-! ### Operand fields (06 R143, R144) -/

/-- An operand field; none for a reserved index or modifier. -/
def operandOf (f : BitVec 12) : Option Operand :=
  let idx := (f.extractLsb' 3 7).toNat
  match (f.extractLsb' 10 2).toNat with
  | 0 => if idx < 64 then (modifierOf (f.extractLsb' 0 3).toNat).map (.main (f.extractLsb' 3 6)) else none
  | 1 => if idx < 8 then (modifierOf (f.extractLsb' 0 3).toNat).map (.oper (f.extractLsb' 3 3)) else none
  | 2 => if idx < 4 then (modifierOf (f.extractLsb' 0 3).toNat).map (.last (f.extractLsb' 3 2)) else none
  | _ => some (.const (f.extractLsb' 0 10))

/-- An operand field by its tier and index alone: its modifier may be a reserved one (06 R143, R154). -/
def bareOperand (f : BitVec 12) : Option Operand :=
  (operandOf f).or (operandOf (f &&& 0xFF8))

def Operand.field : Operand → BitVec 12
  | .main i m => (0 : BitVec 2) ++ (0 : BitVec 1) ++ i ++ m.code
  | .oper i m => (1 : BitVec 2) ++ (0 : BitVec 4) ++ i ++ m.code
  | .last i m => (2 : BitVec 2) ++ (0 : BitVec 5) ++ i ++ m.code
  | .const k => (3 : BitVec 2) ++ k

/-! ### The extension XT (06 R157): each class has its fields and the SUBs of the limits they break -/

/-- SUB 6 when a condition fails. -/
def xtSubs (ok : Bool) : List Nat := if ok then [] else [6]

/-- SUB 12, a reserved ordering combination (06 R163). -/
def minSubs (bad : Bool) : List Nat := if bad then [12] else []

def zeroSubs (xt : BitVec 29) : List Nat := xtSubs (xt == 0)
def xtRm (xt : BitVec 29) : Rm := (rmOf (xt.extractLsb' 26 3).toNat).getD .rne
def xrSubs (xt : BitVec 29) : List Nat :=
  xtSubs (xt.extractLsb' 0 26 == 0 && (rmOf (xt.extractLsb' 26 3).toNat).isSome)
def encXr (rm : Rm) : BitVec 29 := rm.code ++ (0 : BitVec 26)

def xtC (xt : BitVec 29) : Operand := (bareOperand (xt.extractLsb' 17 12)).getD Operand.zero
def xtFRm (xt : BitVec 29) : Rm := (rmOf (xt.extractLsb' 14 3).toNat).getD .rne
def xfSubs (xt : BitVec 29) : List Nat :=
  xtSubs (xt.extractLsb' 0 14 == 0 && (operandOf (xt.extractLsb' 17 12)).isSome
    && (rmOf (xt.extractLsb' 14 3).toNat).isSome)
def encXf (c : Operand) (rm : Rm) : BitVec 29 := c.field ++ rm.code ++ (0 : BitVec 14)

def xtImm (xt : BitVec 29) : BitVec 24 := xt.extractLsb' 5 24
def xiSubs (xt : BitVec 29) : List Nat := xtSubs (xt.extractLsb' 0 5 == 0)
def encXi (imm : BitVec 24) : BitVec 29 := imm ++ (0 : BitVec 5)

def xtEnd (xt : BitVec 29) : BitVec 20 := xt.extractLsb' 9 20
def xtLvl (xt : BitVec 29) : BitVec 2 := xt.extractLsb' 7 2
def xlSubs (xt : BitVec 29) : List Nat := xtSubs (xt.extractLsb' 0 7 == 0)
def encXl (e : BitVec 20) (l : BitVec 2) : BitVec 29 := e ++ l ++ (0 : BitVec 7)

def xtXm (xt : BitVec 29) : Xm :=
  { off := xt.extractLsb' 12 17, ctr := xt.extractLsb' 9 3
    scope := (scopeOf (xt.extractLsb' 6 3).toNat).getD .hart
    hint := hintOf (xt.extractLsb' 4 2).toNat, ordered := xt.extractLsb' 3 1 == 1 }
def xmSubs (xt : BitVec 29) : List Nat :=
  xtSubs (xt.extractLsb' 0 3 == 0 && (scopeOf (xt.extractLsb' 6 3).toNat).isSome)
def encXm (x : Xm) : BitVec 29 :=
  x.off ++ x.ctr ++ x.scope.code ++ x.hint.code ++ (if x.ordered then (1 : BitVec 1) else 0) ++ (0 : BitVec 3)

def xtXx (xt : BitVec 29) : Xx :=
  { sa := xt.extractLsb' 23 6, sb := xt.extractLsb' 17 6, blen := blockLenOf (xt.extractLsb' 15 2).toNat
    sfmt := (scaleFmtOf (xt.extractLsb' 12 3).toNat).getD .e8m0, cnt := xt.extractLsb' 6 6
    ctr := xt.extractLsb' 3 3, rm := (rmOf (xt.extractLsb' 0 3).toNat).getD .rne }
def xxSubs (xt : BitVec 29) : List Nat :=
  xtSubs ((scaleFmtOf (xt.extractLsb' 12 3).toNat).isSome && (rmOf (xt.extractLsb' 0 3).toNat).isSome)
def encXx (x : Xx) : BitVec 29 := x.sa ++ x.sb ++ x.blen.code ++ x.sfmt.code ++ x.cnt ++ x.ctr ++ x.rm.code

def xtSys (xt : BitVec 29) : BitVec 12 := xt.extractLsb' 17 12
def xsSubs (xt : BitVec 29) : List Nat := xtSubs (xt.extractLsb' 0 17 == 0)
def encXs (n : BitVec 12) : BitVec 29 := n ++ (0 : BitVec 17)

/-! ### The decoder -/

/-- What the decoder makes of a defined word: the instruction, and the SUBs of the reserved-field limits that the
encoding itself breaks (a field that names nothing stands in the instruction as zero). -/
structure Decoded where
  instr : Instr
  subs : List Nat
  deriving Repr

/-- An MTS word by its register: three registers have a row of their own in the opcode table. -/
def mtsOf (w : Wd) (n : BitVec 12) : Instr :=
  if n = 0x100 then .teambaseInstall w
  else if n = 0x314 then .csctlRetry w
  else if n = 0x200 then .lightRequest w
  else .mts w n

/-- The words of MAJ 0x00 (06 R162). -/
def decode00 (min : Nat) (w : Wd) (xt : BitVec 29) : Option Decoded :=
  match min with
  | 0x00 => some ⟨.add w, zeroSubs xt⟩
  | 0x01 => some ⟨.sub w, zeroSubs xt⟩
  | 0x02 => some ⟨.and w, zeroSubs xt⟩
  | 0x03 => some ⟨.or w, zeroSubs xt⟩
  | 0x04 => some ⟨.xor w, zeroSubs xt⟩
  | 0x05 => some ⟨.andn w, zeroSubs xt⟩
  | 0x06 => some ⟨.shl w, zeroSubs xt⟩
  | 0x07 => some ⟨.shr w, zeroSubs xt⟩
  | 0x08 => some ⟨.shra w, zeroSubs xt⟩
  | 0x09 => some ⟨.rot w, zeroSubs xt⟩
  | 0x0A => some ⟨.min w, zeroSubs xt⟩
  | 0x0B => some ⟨.max w, zeroSubs xt⟩
  | 0x0C => some ⟨.minn w, zeroSubs xt⟩
  | 0x0D => some ⟨.maxn w, zeroSubs xt⟩
  | 0x0E => some ⟨.sel w (xtC xt) (xtFRm xt), xfSubs xt⟩
  | 0x0F => some ⟨.mov w, zeroSubs xt⟩
  | 0x10 => some ⟨.clz w, zeroSubs xt⟩
  | 0x11 => some ⟨.ctz w, zeroSubs xt⟩
  | 0x12 => some ⟨.popc w, zeroSubs xt⟩
  | 0x13 => some ⟨.sext w, zeroSubs xt⟩
  | 0x14 => some ⟨.zext w, zeroSubs xt⟩
  | _ => none

/-- The words of MAJ 0x01 (06 R162). -/
def decode01 (min : Nat) (w : Wd) (xt : BitVec 29) : Option Decoded :=
  match min with
  | 0x00 => some ⟨.mul w, zeroSubs xt⟩
  | 0x01 => some ⟨.mulh w, zeroSubs xt⟩
  | 0x02 => some ⟨.mulhn w, zeroSubs xt⟩
  | 0x03 => some ⟨.div w, zeroSubs xt⟩
  | 0x04 => some ⟨.divn w, zeroSubs xt⟩
  | 0x05 => some ⟨.rem w, zeroSubs xt⟩
  | 0x06 => some ⟨.remn w, zeroSubs xt⟩
  | _ => none

/-- The words of MAJ 0x02 (06 R162). -/
def decode02 (min : Nat) (w : Wd) (xt : BitVec 29) : Option Decoded :=
  if min < 8 then (condOf min).map fun c => ⟨.scmp c w, zeroSubs xt⟩
  else if min < 16 then (condOf (min - 8)).map fun c => ⟨.pcmp c w, zeroSubs xt⟩
  else none

/-- The words of MAJ 0x03 (06 R162). -/
def decode03 (min : Nat) (w : Wd) (xt : BitVec 29) : Option Decoded :=
  match min with
  | 0x00 => some ⟨.lil w (xtImm xt), xiSubs xt⟩
  | 0x01 => some ⟨.lih w (xtImm xt), xiSubs xt⟩
  | 0x02 => some ⟨.lit w (xtImm xt), xiSubs xt⟩
  | _ => none

/-- The words of MAJ 0x04 (06 R162). -/
def decode04 (min : Nat) (w : Wd) (xt : BitVec 29) : Option Decoded :=
  match min with
  | 0x00 => some ⟨.pand w, zeroSubs xt⟩
  | 0x01 => some ⟨.por w, zeroSubs xt⟩
  | 0x02 => some ⟨.pxor w, zeroSubs xt⟩
  | 0x03 => some ⟨.pandn w, zeroSubs xt⟩
  | 0x04 => some ⟨.pnot w, zeroSubs xt⟩
  | 0x05 => some ⟨.pmov w, zeroSubs xt⟩
  | 0x06 => some ⟨.ppop w, zeroSubs xt⟩
  | 0x07 => some ⟨.pfirst w, zeroSubs xt⟩
  | 0x08 => some ⟨.plast w, zeroSubs xt⟩
  | 0x09 => some ⟨.psetn w, zeroSubs xt⟩
  | _ => none

/-- The words of MAJ 0x05 (06 R162). -/
def decode05 (min : Nat) (w : Wd) (xt : BitVec 29) : Option Decoded :=
  match min with
  | 0x00 => some ⟨.lea w (xtImm xt), xiSubs xt⟩
  | _ => none

/-- The words of MAJ 0x08 (06 R162). -/
def decode08 (min : Nat) (w : Wd) (xt : BitVec 29) : Option Decoded :=
  match min with
  | 0x00 => some ⟨.bra w (xtImm xt), xiSubs xt⟩
  | 0x01 => some ⟨.call w (xtImm xt), xiSubs xt⟩
  | 0x02 => some ⟨.ret w, zeroSubs xt⟩
  | 0x03 => some ⟨.jmp w, zeroSubs xt⟩
  | _ =>
    if 8 ≤ min ∧ min < 16 then (condOf (min - 8)).map fun c => ⟨.brc c w (xtImm xt), xiSubs xt⟩ else none

/-- The words of MAJ 0x09 (06 R162). -/
def decode09 (min : Nat) (w : Wd) (xt : BitVec 29) : Option Decoded :=
  match min with
  | 0x00 => some ⟨.setvl w, zeroSubs xt⟩
  | 0x01 => some ⟨.setvlg w, zeroSubs xt⟩
  | 0x02 => some ⟨.loopvl w (xtImm xt), xiSubs xt⟩
  | 0x03 => some ⟨.loop w (xtEnd xt) (xtLvl xt), xlSubs xt⟩
  | 0x04 => some ⟨.lcrd w, zeroSubs xt⟩
  | 0x05 => some ⟨.lcwr w, zeroSubs xt⟩
  | _ => none

/-- The words of MAJ 0x0A (06 R162). -/
def decode0A (min : Nat) (w : Wd) (xt : BitVec 29) : Option Decoded :=
  match min with
  | 0x00 => some ⟨.wait w, zeroSubs xt⟩
  | 0x01 => some ⟨.waita w, zeroSubs xt⟩
  | 0x02 => some ⟨.gbar w, zeroSubs xt⟩
  | 0x03 => some ⟨.nbinit w (xtXm xt), xmSubs xt⟩
  | 0x04 => some ⟨.yield w, zeroSubs xt⟩
  | 0x05 => some ⟨.yieldp w, zeroSubs xt⟩
  | 0x06 => some ⟨.seal w, zeroSubs xt⟩
  | 0x08 => some ⟨.fenceLd w (xtXm xt), xmSubs xt⟩
  | 0x09 => some ⟨.fenceSt w (xtXm xt), xmSubs xt⟩
  | 0x0A => some ⟨.fenceAll w (xtXm xt), xmSubs xt⟩
  | _ =>
    if 16 ≤ min ∧ min < 20 then some ⟨.nbarr (min ≥ 18) w (xtXm xt), xmSubs xt ++ minSubs (min % 2 = 1)⟩
    else if 20 ≤ min ∧ min < 24 then some ⟨.nbwait (min % 2 = 1) w (xtXm xt), xmSubs xt ++ minSubs (min ≥ 22)⟩
    else if 24 ≤ min ∧ min < 28 then some ⟨.nbaw (memOrdOf min) w (xtXm xt), xmSubs xt⟩ else none

/-- The words of MAJ 0x0B (06 R162). -/
def decode0B (min : Nat) (w : Wd) (xt : BitVec 29) : Option Decoded :=
  match min with
  | 0x02 => some ⟨.ecall w (xtImm xt), xiSubs xt⟩
  | 0x03 => some ⟨.eret w, zeroSubs xt⟩
  | 0x04 => some ⟨.exit w, zeroSubs xt⟩
  | 0x05 => some ⟨.nop w, zeroSubs xt⟩
  | 0x06 => some ⟨.brk w (xtImm xt), xiSubs xt⟩
  | 0x07 => some ⟨.tlbi w, zeroSubs xt⟩
  | 0x08 => some ⟨.grun w, zeroSubs xt⟩
  | _ =>
    if min = 0 then some ⟨.mfs w (xtSys xt), xsSubs xt⟩
    else if min = 1 then some ⟨mtsOf w (xtSys xt), xsSubs xt⟩ else none

/-- The words of MAJ 0x10 (06 R162). -/
def decode10 (min : Nat) (w : Wd) (xt : BitVec 29) : Option Decoded :=
  match min with
  | 0x00 => some ⟨.vadd w (xtRm xt), xrSubs xt⟩
  | 0x01 => some ⟨.vsub w (xtRm xt), xrSubs xt⟩
  | 0x02 => some ⟨.vmul w (xtRm xt), xrSubs xt⟩
  | 0x03 => some ⟨.vmulh w (xtRm xt), xrSubs xt⟩
  | 0x04 => some ⟨.vfma w (xtC xt) (xtFRm xt), xfSubs xt⟩
  | 0x05 => some ⟨.vmin w (xtRm xt), xrSubs xt⟩
  | 0x06 => some ⟨.vmax w (xtRm xt), xrSubs xt⟩
  | 0x07 => some ⟨.vabs w (xtRm xt), xrSubs xt⟩
  | 0x08 => some ⟨.vneg w (xtRm xt), xrSubs xt⟩
  | 0x09 => some ⟨.vand w (xtRm xt), xrSubs xt⟩
  | 0x0A => some ⟨.vor w (xtRm xt), xrSubs xt⟩
  | 0x0B => some ⟨.vxor w (xtRm xt), xrSubs xt⟩
  | 0x0C => some ⟨.vandn w (xtRm xt), xrSubs xt⟩
  | 0x0D => some ⟨.vshl w (xtRm xt), xrSubs xt⟩
  | 0x0E => some ⟨.vshr w (xtRm xt), xrSubs xt⟩
  | 0x0F => some ⟨.vshra w (xtRm xt), xrSubs xt⟩
  | 0x10 => some ⟨.vadds w (xtRm xt), xrSubs xt⟩
  | 0x11 => some ⟨.vsubs w (xtRm xt), xrSubs xt⟩
  | _ => none

/-- The words of MAJ 0x11 (06 R162). -/
def decode11 (min : Nat) (w : Wd) (xt : BitVec 29) : Option Decoded :=
  match min with
  | 0x00 => some ⟨.vdiv w (xtRm xt), xrSubs xt⟩
  | 0x01 => some ⟨.vsqrt w (xtRm xt), xrSubs xt⟩
  | 0x02 => some ⟨.vrcp w (xtRm xt), xrSubs xt⟩
  | 0x03 => some ⟨.vrsq w (xtRm xt), xrSubs xt⟩
  | 0x04 => some ⟨.vexp2 w (xtRm xt), xrSubs xt⟩
  | 0x05 => some ⟨.vlog2 w (xtRm xt), xrSubs xt⟩
  | 0x06 => some ⟨.vclass w (xtRm xt), xrSubs xt⟩
  | 0x07 => some ⟨.vround w (xtRm xt), xrSubs xt⟩
  | _ => none

/-- The words of MAJ 0x12 (06 R162). -/
def decode12 (min : Nat) (w : Wd) (xt : BitVec 29) : Option Decoded :=
  match min with
  | 0x10 => some ⟨.vsel w, zeroSubs xt⟩
  | _ =>
    if min < 8 then some ⟨.vcmp (vcondOf min) w, zeroSubs xt⟩ else none

/-- The words of MAJ 0x13 (06 R162). -/
def decode13 (min : Nat) (w : Wd) (xt : BitVec 29) : Option Decoded :=
  match min with
  | 0x00 => some ⟨.vcvt w (xtRm xt), xrSubs xt⟩
  | 0x01 => some ⟨.vqnt w (xtXx xt), xxSubs xt⟩
  | 0x02 => some ⟨.vscl w (xtXx xt), xxSubs xt⟩
  | 0x03 => some ⟨.trnpk w, zeroSubs xt⟩
  | 0x04 => some ⟨.trnup w, zeroSubs xt⟩
  | _ => none

/-- The words of MAJ 0x14 (06 R162). -/
def decode14 (min : Nat) (w : Wd) (xt : BitVec 29) : Option Decoded :=
  match min with
  | 0x10 => some ⟨.vdotb w (xtXx xt), xxSubs xt⟩
  | _ =>
    if min < 8 then (redOf min).map fun op => ⟨.vred op w (xtRm xt), xrSubs xt⟩
    else if min < 16 then (redOf (min - 8)).map fun op => ⟨.vscan op w (xtRm xt), xrSubs xt⟩ else none

/-- The words of MAJ 0x15 (06 R162). -/
def decode15 (min : Nat) (w : Wd) (xt : BitVec 29) : Option Decoded :=
  match min with
  | 0x00 => some ⟨.vperm w, zeroSubs xt⟩
  | 0x01 => some ⟨.vsldu w, zeroSubs xt⟩
  | 0x02 => some ⟨.vsldd w, zeroSubs xt⟩
  | 0x03 => some ⟨.vbcast w, zeroSubs xt⟩
  | 0x04 => some ⟨.viota w, zeroSubs xt⟩
  | 0x05 => some ⟨.vext w, zeroSubs xt⟩
  | 0x06 => some ⟨.vins w, zeroSubs xt⟩
  | 0x07 => some ⟨.vzip w, zeroSubs xt⟩
  | 0x08 => some ⟨.vunzip w, zeroSubs xt⟩
  | 0x09 => some ⟨.vrev w, zeroSubs xt⟩
  | _ => none

/-- The words of MAJ 0x16 (06 R162). -/
def decode16 (min : Nat) (w : Wd) (xt : BitVec 29) : Option Decoded :=
  match min with
  | 0x00 => some ⟨.vcomp w, zeroSubs xt⟩
  | 0x01 => some ⟨.vexpnd w, zeroSubs xt⟩
  | 0x02 => some ⟨.vunionKz w, zeroSubs xt⟩
  | 0x03 => some ⟨.vunionDz w, zeroSubs xt⟩
  | 0x04 => some ⟨.vprn48 w, zeroSubs xt⟩
  | _ => none

/-- The words of MAJ 0x17 (06 R162). -/
def decode17 (min : Nat) (w : Wd) (xt : BitVec 29) : Option Decoded :=
  match min with
  | 0x00 => some ⟨.defer w (xtXm xt), xmSubs xt⟩
  | 0x01 => some ⟨.drain w (xtXm xt), xmSubs xt⟩
  | 0x02 => some ⟨.qapp w (xtXm xt), xmSubs xt⟩
  | 0x03 => some ⟨.qpop w (xtXm xt), xmSubs xt⟩
  | 0x04 => some ⟨.qlen w (xtXm xt), xmSubs xt⟩
  | _ => none

/-- The words of MAJ 0x20 (06 R162). -/
def decode20 (min : Nat) (w : Wd) (xt : BitVec 29) : Option Decoded :=
  match min with
  | 0x00 => some ⟨.ld w (xtXm xt), xmSubs xt⟩
  | 0x01 => some ⟨.st w (xtXm xt), xmSubs xt⟩
  | 0x02 => some ⟨.pref w (xtXm xt), xmSubs xt⟩
  | _ => none

/-- The words of MAJ 0x21 (06 R162). -/
def decode21 (min : Nat) (w : Wd) (xt : BitVec 29) : Option Decoded :=
  match min with
  | 0x00 => some ⟨.vld w (xtXm xt), xmSubs xt⟩
  | 0x01 => some ⟨.vst w (xtXm xt), xmSubs xt⟩
  | 0x02 => some ⟨.vlds w (xtXm xt), xmSubs xt⟩
  | 0x03 => some ⟨.vsts w (xtXm xt), xmSubs xt⟩
  | 0x04 => some ⟨.vldw w (xtXm xt), xmSubs xt⟩
  | 0x05 => some ⟨.vstw w (xtXm xt), xmSubs xt⟩
  | _ => none

/-- The words of MAJ 0x22 (06 R162). -/
def decode22 (min : Nat) (w : Wd) (xt : BitVec 29) : Option Decoded :=
  match min with
  | 0x02 => some ⟨.vldg w (xtXm xt), xmSubs xt⟩
  | 0x03 => some ⟨.vcst w (xtXm xt), xmSubs xt⟩
  | _ =>
    if min = 0 then some ⟨if (xtXm xt).ordered then .vldxo w (xtXm xt) else .vldx w (xtXm xt), xmSubs xt⟩
    else if min = 1 then some ⟨if (xtXm xt).ordered then .vstxo w (xtXm xt) else .vstx w (xtXm xt), xmSubs xt⟩ else none

/-- The words of MAJ 0x23 (06 R162). -/
def decode23 (min : Nat) (w : Wd) (xt : BitVec 29) : Option Decoded :=
  if min < 32 then some ⟨.amo (amoOf min) (memOrdOf (min / 8)) w (xtXm xt), xmSubs xt⟩
  else some ⟨.vamo (amoOf min) (memOrdOf (min / 8)) w (xtXm xt), xmSubs xt⟩

/-- The words of MAJ 0x24 (06 R162). -/
def decode24 (min : Nat) (w : Wd) (xt : BitVec 29) : Option Decoded :=
  match min with
  | 0x00 => some ⟨.rput w (xtXm xt), xmSubs xt⟩
  | 0x01 => some ⟨.rget w (xtXm xt), xmSubs xt⟩
  | 0x02 => some ⟨.rfence w (xtXm xt), xmSubs xt⟩
  | _ =>
    if 8 ≤ min ∧ min < 12 then some ⟨.rsig (min ≥ 10) w (xtXm xt), xmSubs xt ++ minSubs (min % 2 = 1)⟩ else none

/-- The words of MAJ 0x25 (06 R162). -/
def decode25 (min : Nat) (w : Wd) (xt : BitVec 29) : Option Decoded :=
  if min < 8 then (redOf min).map fun op => ⟨.collAr op w (xtXm xt), xmSubs xt⟩
  else if 16 ≤ min ∧ min < 24 then (redOf (min - 16)).map fun op => ⟨.collRs op w (xtXm xt), xmSubs xt⟩
  else if min = 32 then some ⟨.collAg w (xtXm xt), xmSubs xt⟩
  else if min = 48 then some ⟨.collBc w (xtXm xt), xmSubs xt⟩
  else none

/-- The words of MAJ 0x26 (06 R162). -/
def decode26 (min : Nat) (w : Wd) (xt : BitVec 29) : Option Decoded :=
  match min with
  | 0x00 => some ⟨.kapp w (xtXm xt), xmSubs xt⟩
  | 0x01 => some ⟨.kbnd w (xtXm xt), xmSubs xt⟩
  | 0x02 => some ⟨.khrv w (xtXm xt), xmSubs xt⟩
  | _ => none

/-- The words of MAJ 0x27 (06 R162). -/
def decode27 (min : Nat) (w : Wd) (xt : BitVec 29) : Option Decoded :=
  match min with
  | 0x00 => some ⟨.rkpush w (xtXm xt), xmSubs xt⟩
  | 0x01 => some ⟨.rkpop w (xtXm xt), xmSubs xt⟩
  | 0x02 => some ⟨.rkwm w (xtXm xt), xmSubs xt⟩
  | 0x03 => some ⟨.rkwait w (xtXm xt), xmSubs xt⟩
  | _ => none

/-- The words of MAJ 0x28 (06 R162). -/
def decode28 (min : Nat) (w : Wd) (xt : BitVec 29) : Option Decoded :=
  match min with
  | 0x00 => some ⟨.clean w (xtXm xt), xmSubs xt⟩
  | 0x01 => some ⟨.inval w (xtXm xt), xmSubs xt⟩
  | 0x02 => some ⟨.invro w (xtXm xt), xmSubs xt⟩
  | 0x03 => some ⟨.zerol w (xtXm xt), xmSubs xt⟩
  | _ => none

/-- The words of MAJ 0x30 (06 R162). -/
def decode30 (min : Nat) (w : Wd) (xt : BitVec 29) : Option Decoded :=
  match min with
  | 0x00 => some ⟨.mma w (xtXx xt), xxSubs xt⟩
  | 0x01 => some ⟨.mmas w (xtXx xt), xxSubs xt⟩
  | _ => none

/-- The words of MAJ 0x31 (06 R162). -/
def decode31 (min : Nat) (w : Wd) (xt : BitVec 29) : Option Decoded :=
  match min with
  | 0x00 => some ⟨.tmma w (xtXx xt), xxSubs xt⟩
  | _ => none

/-- The words of MAJ 0x32 (06 R162). -/
def decode32 (min : Nat) (w : Wd) (xt : BitVec 29) : Option Decoded :=
  match min with
  | 0x00 => some ⟨.zclr w, zeroSubs xt⟩
  | 0x01 => some ⟨.zld w (xtXm xt), xmSubs xt⟩
  | 0x02 => some ⟨.zst w (xtXm xt), xmSubs xt⟩
  | 0x03 => some ⟨.zadd w, zeroSubs xt⟩
  | 0x04 => some ⟨.zdrain w (xtXx xt), xxSubs xt⟩
  | _ => none

/-- The word of a major and a minor opcode; none where it is undefined (06 R162, R164). -/
def decodeOp (maj min : Nat) (w : Wd) (xt : BitVec 29) : Option Decoded :=
  match maj with
  | 0x00 => decode00 min w xt
  | 0x01 => decode01 min w xt
  | 0x02 => decode02 min w xt
  | 0x03 => decode03 min w xt
  | 0x04 => decode04 min w xt
  | 0x05 => decode05 min w xt
  | 0x08 => decode08 min w xt
  | 0x09 => decode09 min w xt
  | 0x0A => decode0A min w xt
  | 0x0B => decode0B min w xt
  | 0x10 => decode10 min w xt
  | 0x11 => decode11 min w xt
  | 0x12 => decode12 min w xt
  | 0x13 => decode13 min w xt
  | 0x14 => decode14 min w xt
  | 0x15 => decode15 min w xt
  | 0x16 => decode16 min w xt
  | 0x17 => decode17 min w xt
  | 0x20 => decode20 min w xt
  | 0x21 => decode21 min w xt
  | 0x22 => decode22 min w xt
  | 0x23 => decode23 min w xt
  | 0x24 => decode24 min w xt
  | 0x25 => decode25 min w xt
  | 0x26 => decode26 min w xt
  | 0x27 => decode27 min w xt
  | 0x28 => decode28 min w xt
  | 0x30 => decode30 min w xt
  | 0x31 => decode31 min w xt
  | 0x32 => decode32 min w xt
  | _ => none
/-- The common fields of a word; a field that names nothing stands as zero, and one with a reserved modifier without it
(06 R141). -/
def wdOf (b : IWord) : Wd :=
  { fmt := (fmtOf (b.extractLsb' 80 4).toNat).getD .raw
    grd := ⟨b.extractLsb' 79 1 == 1, b.extractLsb' 75 4⟩
    d := (bareOperand (b.extractLsb' 63 12)).getD Operand.zero
    a := (bareOperand (b.extractLsb' 51 12)).getD Operand.zero
    b := (bareOperand (b.extractLsb' 39 12)).getD Operand.zero
    stc := b.extractLsb' 35 4
    ch := b.extractLsb' 34 1 == 1
    yh := b.extractLsb' 33 1 == 1
    bs := b.extractLsb' 32 1 == 1
    nb := b.extractLsb' 31 1 == 1 }

/-- The SUBs of the common fields that cannot be read: FMT 15, reserved operand fields, bits [30:29]. -/
def rawSubs (b : IWord) : List Nat :=
  (if (fmtOf (b.extractLsb' 80 4).toNat).isSome then [] else [1])
    ++ (if (operandOf (b.extractLsb' 63 12)).isSome then [] else [3])
    ++ (if (operandOf (b.extractLsb' 51 12)).isSome then [] else [4])
    ++ (if (operandOf (b.extractLsb' 39 12)).isSome then [] else [5])
    ++ (if b.extractLsb' 29 2 == 0 then [] else [9])

/-- Every word decodes: to its instruction with the reserved-field limits it breaks, or to the undefined-opcode step
(06 R161, R164). -/
def decodeFull (b : IWord) : Decoded :=
  match decodeOp (b.extractLsb' 90 6).toNat (b.extractLsb' 84 6).toNat (wdOf b) (b.extractLsb' 0 29) with
  | none => ⟨.undefinedOpcode b, []⟩
  | some r => ⟨r.instr, rawSubs b ++ r.subs ++ r.instr.reservedSubs⟩

/-- Why the decoder gives no instruction: a word that breaks reserved-field limits, with their SUBs (15 R326). -/
inductive Reject where
  | reservedField (subs : List Nat)
  deriving DecidableEq, Repr

/-- The instruction of a word, or its rejection by name. -/
def decodeWord (b : IWord) : Except Reject Instr :=
  let r := decodeFull b
  if r.subs.isEmpty then .ok r.instr else .error (.reservedField r.subs)

/-- Twelve bytes, lowest address first, as a word (06 R142). -/
def wordOfBytes (bs : List Byte) : IWord :=
  bs.foldr (fun b acc => (acc <<< 8) ||| b.setWidth 96) 0

/-- The bytes of a word in memory order (06 R142). -/
def bytesOfWord (w : IWord) : List Byte :=
  (List.range 12).map fun i => w.extractLsb' (8 * i) 8

/-- The instruction that the decoder reads from a row's bits, numbered as the opcode table numbers them. -/
def decodeTableWord (_nbits w : Nat) : Option Instr :=
  match decodeWord (wordOfBytes (bytesOfWord (BitVec.ofNat 96 w))) with
  | .ok i => some i
  | .error _ => none

/-! ### The encoder -/

/-- MAJ and MIN of a word (06 R162, R163). A step that is no word has none of its own. -/
def Instr.opcode : Instr → BitVec 6 × BitVec 6
  | .add _ => (0x00, 0x00)
  | .sub _ => (0x00, 0x01)
  | .and _ => (0x00, 0x02)
  | .or _ => (0x00, 0x03)
  | .xor _ => (0x00, 0x04)
  | .andn _ => (0x00, 0x05)
  | .shl _ => (0x00, 0x06)
  | .shr _ => (0x00, 0x07)
  | .shra _ => (0x00, 0x08)
  | .rot _ => (0x00, 0x09)
  | .min _ => (0x00, 0x0A)
  | .max _ => (0x00, 0x0B)
  | .minn _ => (0x00, 0x0C)
  | .maxn _ => (0x00, 0x0D)
  | .sel _ _ _ => (0x00, 0x0E)
  | .mov _ => (0x00, 0x0F)
  | .clz _ => (0x00, 0x10)
  | .ctz _ => (0x00, 0x11)
  | .popc _ => (0x00, 0x12)
  | .sext _ => (0x00, 0x13)
  | .zext _ => (0x00, 0x14)
  | .mul _ => (0x01, 0x00)
  | .mulh _ => (0x01, 0x01)
  | .mulhn _ => (0x01, 0x02)
  | .div _ => (0x01, 0x03)
  | .divn _ => (0x01, 0x04)
  | .rem _ => (0x01, 0x05)
  | .remn _ => (0x01, 0x06)
  | .lil _ _ => (0x03, 0x00)
  | .lih _ _ => (0x03, 0x01)
  | .lit _ _ => (0x03, 0x02)
  | .pand _ => (0x04, 0x00)
  | .por _ => (0x04, 0x01)
  | .pxor _ => (0x04, 0x02)
  | .pandn _ => (0x04, 0x03)
  | .pnot _ => (0x04, 0x04)
  | .pmov _ => (0x04, 0x05)
  | .ppop _ => (0x04, 0x06)
  | .pfirst _ => (0x04, 0x07)
  | .plast _ => (0x04, 0x08)
  | .psetn _ => (0x04, 0x09)
  | .lea _ _ => (0x05, 0x00)
  | .bra _ _ => (0x08, 0x00)
  | .call _ _ => (0x08, 0x01)
  | .ret _ => (0x08, 0x02)
  | .jmp _ => (0x08, 0x03)
  | .setvl _ => (0x09, 0x00)
  | .setvlg _ => (0x09, 0x01)
  | .loopvl _ _ => (0x09, 0x02)
  | .loop _ _ _ => (0x09, 0x03)
  | .lcrd _ => (0x09, 0x04)
  | .lcwr _ => (0x09, 0x05)
  | .wait _ => (0x0A, 0x00)
  | .waita _ => (0x0A, 0x01)
  | .gbar _ => (0x0A, 0x02)
  | .nbinit _ _ => (0x0A, 0x03)
  | .yield _ => (0x0A, 0x04)
  | .yieldp _ => (0x0A, 0x05)
  | .seal _ => (0x0A, 0x06)
  | .fenceLd _ _ => (0x0A, 0x08)
  | .fenceSt _ _ => (0x0A, 0x09)
  | .fenceAll _ _ => (0x0A, 0x0A)
  | .ecall _ _ => (0x0B, 0x02)
  | .eret _ => (0x0B, 0x03)
  | .exit _ => (0x0B, 0x04)
  | .nop _ => (0x0B, 0x05)
  | .brk _ _ => (0x0B, 0x06)
  | .tlbi _ => (0x0B, 0x07)
  | .grun _ => (0x0B, 0x08)
  | .vadd _ _ => (0x10, 0x00)
  | .vsub _ _ => (0x10, 0x01)
  | .vmul _ _ => (0x10, 0x02)
  | .vmulh _ _ => (0x10, 0x03)
  | .vfma _ _ _ => (0x10, 0x04)
  | .vmin _ _ => (0x10, 0x05)
  | .vmax _ _ => (0x10, 0x06)
  | .vabs _ _ => (0x10, 0x07)
  | .vneg _ _ => (0x10, 0x08)
  | .vand _ _ => (0x10, 0x09)
  | .vor _ _ => (0x10, 0x0A)
  | .vxor _ _ => (0x10, 0x0B)
  | .vandn _ _ => (0x10, 0x0C)
  | .vshl _ _ => (0x10, 0x0D)
  | .vshr _ _ => (0x10, 0x0E)
  | .vshra _ _ => (0x10, 0x0F)
  | .vadds _ _ => (0x10, 0x10)
  | .vsubs _ _ => (0x10, 0x11)
  | .vdiv _ _ => (0x11, 0x00)
  | .vsqrt _ _ => (0x11, 0x01)
  | .vrcp _ _ => (0x11, 0x02)
  | .vrsq _ _ => (0x11, 0x03)
  | .vexp2 _ _ => (0x11, 0x04)
  | .vlog2 _ _ => (0x11, 0x05)
  | .vclass _ _ => (0x11, 0x06)
  | .vround _ _ => (0x11, 0x07)
  | .vsel _ => (0x12, 0x10)
  | .vcvt _ _ => (0x13, 0x00)
  | .vqnt _ _ => (0x13, 0x01)
  | .vscl _ _ => (0x13, 0x02)
  | .trnpk _ => (0x13, 0x03)
  | .trnup _ => (0x13, 0x04)
  | .vdotb _ _ => (0x14, 0x10)
  | .vperm _ => (0x15, 0x00)
  | .vsldu _ => (0x15, 0x01)
  | .vsldd _ => (0x15, 0x02)
  | .vbcast _ => (0x15, 0x03)
  | .viota _ => (0x15, 0x04)
  | .vext _ => (0x15, 0x05)
  | .vins _ => (0x15, 0x06)
  | .vzip _ => (0x15, 0x07)
  | .vunzip _ => (0x15, 0x08)
  | .vrev _ => (0x15, 0x09)
  | .vcomp _ => (0x16, 0x00)
  | .vexpnd _ => (0x16, 0x01)
  | .vunionKz _ => (0x16, 0x02)
  | .vunionDz _ => (0x16, 0x03)
  | .vprn48 _ => (0x16, 0x04)
  | .defer _ _ => (0x17, 0x00)
  | .drain _ _ => (0x17, 0x01)
  | .qapp _ _ => (0x17, 0x02)
  | .qpop _ _ => (0x17, 0x03)
  | .qlen _ _ => (0x17, 0x04)
  | .ld _ _ => (0x20, 0x00)
  | .st _ _ => (0x20, 0x01)
  | .pref _ _ => (0x20, 0x02)
  | .vld _ _ => (0x21, 0x00)
  | .vst _ _ => (0x21, 0x01)
  | .vlds _ _ => (0x21, 0x02)
  | .vsts _ _ => (0x21, 0x03)
  | .vldw _ _ => (0x21, 0x04)
  | .vstw _ _ => (0x21, 0x05)
  | .vldg _ _ => (0x22, 0x02)
  | .vcst _ _ => (0x22, 0x03)
  | .rput _ _ => (0x24, 0x00)
  | .rget _ _ => (0x24, 0x01)
  | .rfence _ _ => (0x24, 0x02)
  | .kapp _ _ => (0x26, 0x00)
  | .kbnd _ _ => (0x26, 0x01)
  | .khrv _ _ => (0x26, 0x02)
  | .rkpush _ _ => (0x27, 0x00)
  | .rkpop _ _ => (0x27, 0x01)
  | .rkwm _ _ => (0x27, 0x02)
  | .rkwait _ _ => (0x27, 0x03)
  | .clean _ _ => (0x28, 0x00)
  | .inval _ _ => (0x28, 0x01)
  | .invro _ _ => (0x28, 0x02)
  | .zerol _ _ => (0x28, 0x03)
  | .mma _ _ => (0x30, 0x00)
  | .mmas _ _ => (0x30, 0x01)
  | .tmma _ _ => (0x31, 0x00)
  | .zclr _ => (0x32, 0x00)
  | .zld _ _ => (0x32, 0x01)
  | .zst _ _ => (0x32, 0x02)
  | .zadd _ => (0x32, 0x03)
  | .zdrain _ _ => (0x32, 0x04)
  | .scmp c _ => (0x02, c.code)
  | .pcmp c _ => (0x02, 8 + c.code)
  | .brc c _ _ => (0x08, 8 + c.code)
  | .nbarr r _ _ => (0x0A, if r then 0x12 else 0x10)
  | .nbwait a _ _ => (0x0A, if a then 0x15 else 0x14)
  | .nbaw o _ _ => (0x0A, 0x18 + o.code)
  | .mfs _ _ => (0x0B, 0x00)
  | .mts _ _ | .teambaseInstall _ | .csctlRetry _ | .lightRequest _ => (0x0B, 0x01)
  | .vcmp c _ => (0x12, c.code)
  | .vred o _ _ => (0x14, o.code)
  | .vscan o _ _ => (0x14, 8 + o.code)
  | .vldx _ _ | .vldxo _ _ => (0x22, 0x00)
  | .vstx _ _ | .vstxo _ _ => (0x22, 0x01)
  | .amo op o _ _ => (0x23, 8 * o.code + op.code)
  | .vamo op o _ _ => (0x23, 32 + 8 * o.code + op.code)
  | .rsig r _ _ => (0x24, if r then 0x0A else 0x08)
  | .collAr op _ _ => (0x25, op.code)
  | .collRs op _ _ => (0x25, 16 + op.code)
  | .collAg _ _ => (0x25, 32)
  | .collBc _ _ => (0x25, 48)
  | _ => (0x3F, 0x3F)

/-- XT of a word (06 R157). -/
def Instr.xtBits : Instr → BitVec 29
  | .sel _ c rm => encXf c rm
  | .lil _ imm => encXi imm
  | .lih _ imm => encXi imm
  | .lit _ imm => encXi imm
  | .lea _ imm => encXi imm
  | .bra _ off => encXi off
  | .call _ off => encXi off
  | .loopvl _ off => encXi off
  | .loop _ e l => encXl e l
  | .nbinit _ x => encXm x
  | .fenceLd _ x => encXm x
  | .fenceSt _ x => encXm x
  | .fenceAll _ x => encXm x
  | .ecall _ imm => encXi imm
  | .brk _ imm => encXi imm
  | .vadd _ rm => encXr rm
  | .vsub _ rm => encXr rm
  | .vmul _ rm => encXr rm
  | .vmulh _ rm => encXr rm
  | .vfma _ c rm => encXf c rm
  | .vmin _ rm => encXr rm
  | .vmax _ rm => encXr rm
  | .vabs _ rm => encXr rm
  | .vneg _ rm => encXr rm
  | .vand _ rm => encXr rm
  | .vor _ rm => encXr rm
  | .vxor _ rm => encXr rm
  | .vandn _ rm => encXr rm
  | .vshl _ rm => encXr rm
  | .vshr _ rm => encXr rm
  | .vshra _ rm => encXr rm
  | .vadds _ rm => encXr rm
  | .vsubs _ rm => encXr rm
  | .vdiv _ rm => encXr rm
  | .vsqrt _ rm => encXr rm
  | .vrcp _ rm => encXr rm
  | .vrsq _ rm => encXr rm
  | .vexp2 _ rm => encXr rm
  | .vlog2 _ rm => encXr rm
  | .vclass _ rm => encXr rm
  | .vround _ rm => encXr rm
  | .vcvt _ rm => encXr rm
  | .vqnt _ x => encXx x
  | .vscl _ x => encXx x
  | .vdotb _ x => encXx x
  | .defer _ x => encXm x
  | .drain _ x => encXm x
  | .qapp _ x => encXm x
  | .qpop _ x => encXm x
  | .qlen _ x => encXm x
  | .ld _ x => encXm x
  | .st _ x => encXm x
  | .pref _ x => encXm x
  | .vld _ x => encXm x
  | .vst _ x => encXm x
  | .vlds _ x => encXm x
  | .vsts _ x => encXm x
  | .vldw _ x => encXm x
  | .vstw _ x => encXm x
  | .vldg _ x => encXm x
  | .vcst _ x => encXm x
  | .rput _ x => encXm x
  | .rget _ x => encXm x
  | .rfence _ x => encXm x
  | .kapp _ x => encXm x
  | .kbnd _ x => encXm x
  | .khrv _ x => encXm x
  | .rkpush _ x => encXm x
  | .rkpop _ x => encXm x
  | .rkwm _ x => encXm x
  | .rkwait _ x => encXm x
  | .clean _ x => encXm x
  | .inval _ x => encXm x
  | .invro _ x => encXm x
  | .zerol _ x => encXm x
  | .mma _ x => encXx x
  | .mmas _ x => encXx x
  | .tmma _ x => encXx x
  | .zld _ x => encXm x
  | .zst _ x => encXm x
  | .zdrain _ x => encXx x
  | .brc _ _ off => encXi off
  | .nbarr _ _ x | .nbwait _ _ x | .nbaw _ _ x | .rsig _ _ x => encXm x
  | .mfs _ n | .mts _ n => encXs n
  | .teambaseInstall _ => encXs 0x100
  | .csctlRetry _ => encXs 0x314
  | .lightRequest _ => encXs 0x200
  | .vred _ _ rm | .vscan _ _ rm => encXr rm
  | .vldx _ x | .vldxo _ x | .vstx _ x | .vstxo _ x | .amo _ _ _ x | .vamo _ _ _ x | .collAr _ _ x | .collRs _ _ x | .collAg _ x | .collBc _ x => encXm x
  | _ => 0

/-- The word of an instruction from its opcode, common fields and XT (06 R141). -/
def packWord (op : BitVec 6 × BitVec 6) (w : Wd) (xt : BitVec 29) : IWord :=
  op.1 ++ op.2 ++ w.fmt.code ++ (if w.grd.inv then (1 : BitVec 1) else 0) ++ w.grd.p ++ w.d.field ++ w.a.field
    ++ w.b.field ++ w.stc ++ (if w.ch then (1 : BitVec 1) else 0) ++ (if w.yh then (1 : BitVec 1) else 0)
    ++ (if w.bs then (1 : BitVec 1) else 0) ++ (if w.nb then (1 : BitVec 1) else 0) ++ (0 : BitVec 2) ++ xt

/-- The 96-bit word of an instruction; an undefined word is its own encoding. -/
def encode (i : Instr) : Option IWord :=
  match i with
  | .undefinedOpcode b => some b
  | i => i.wd.map fun w => packWord i.opcode w i.xtBits

end Sys2Proof
end

