-- ==== Sys2Proof/Config.lean ====
section
/-! DEFINITION. What the manual leaves to the device or to the package's build: constants without a value that Lean
could compute, and the few figures that the manual fixes for every part. -/
namespace Sys2Proof.Config

/-- Free values: what the device chooses (00 R10) and what the manual does not state. The state's counter picks the
next one, and nothing constrains it. -/
opaque free : Nat → Nat

/-- The identity certificate chain of a package (11 R302). Unstated. -/
opaque certChain : Nat → List Byte

/-- The digests that the boot of a package appends to its measurement log, in boot order (11 R301). Unstated. -/
opaque bootDigests : Nat → List Byte

/-- The signature of a package over a nonce and its log by the device identity key (11 R302). Unstated. -/
opaque attest : Nat → List Byte → List Byte → List Byte

/-- The three hash functions of the repeat filter, chosen by the device (19 R401). -/
opaque filterHash : Nat → Nat → Nat

/-- The L2 set of a line of package memory (04 R107): unstated. -/
opaque l2Set : Nat → Nat

/-- Cycles of the seal window (01 R19, 04 R114). -/
def sealWindow : Nat := 320

/-- Convoys that a vector queue holds (02 R29). -/
def queueDepth : Nat := 16

/-- Bytes that a cellar holds (04 R117). -/
def cellarBytes : Nat := 98304

/-- Bytes of a core's scratchpad in native mode (04 R104) and in forerunner mode (04 R106). -/
def scratchBytes (forerunner : Bool) : Nat := if forerunner then 0x100000 else 0x400000

/-- The first address of the scratchpad window (04 R96). -/
def scratchBase : Nat := 0x7E00000000000000

/-- Records a context-save engine holds (17 R357). -/
def saveRecords : Nat := 4096

/-- Commands a racking channel holds, and status words its FIFO holds (09 R264, R267). -/
def rackDepth : Nat := 4
def rackFifo : Nat := 8

/-- Light that one lane costs in each laser power state, in mW (11 R297). -/
def laneLight (lps : Nat) : Nat :=
  match lps with
  | 0 => 20
  | 1 => 10
  | 2 => 20
  | _ => 0

/-- The boot grant when the pod configuration records none, in mW (11 R298). -/
def bootGrant : Nat := 81600

end Sys2Proof.Config
end

