-- ==== Sys2Proof/Machine/State.lean ====
section
/-! DEFINITION. The state of a pod of Qordin Q9 packages as plain data, and its value after a cold reset.

Harts, cores, dies and packages are held in tables keyed by number; a key that a table does not list has its reset
value. A die's key is its global index (11 R290), a core's key is 128 x die + cid, a hart's key is 8 x core + hid. -/
namespace Sys2Proof.Machine

/-- A table of records by number, in rising order of key. -/
abbrev Tab (α : Type) := List (Nat × α)

/-- Memory as a list of cells in canonical form: addresses strictly rising, and no cell equal to what an unlisted
address reads as. -/
abbrev Memory := List Host.Cell

/-! ### Registers -/

/-- A register with a format tag (03 R68). -/
structure TReg (n : Nat) where
  tag : Fmt
  bits : BitVec n
  deriving DecidableEq, Repr

/-- A register's name: file and index, as short-stall traps number the files (15 R326). -/
inductive RegId where
  | x (i : BitVec 6)
  | v (i : BitVec 6)
  | p (i : BitVec 4)
  | z (i : BitVec 3)
  | o (i : BitVec 3)
  | l (i : BitVec 2)
  deriving DecidableEq, Repr

/-- A register's contents, with its tag where it has one. -/
inductive RegVal where
  | scalar (v : Word)
  | vec (r : TReg 8192)
  | pred (v : BitVec 1024)
  | accum (r : TReg 20480)
  deriving DecidableEq, Repr

/-- One hardware-loop level (07 R183). -/
structure LoopLevel where
  count : Word
  active : Bool
  armed : Nat
  start : Word
  stop : Word
  deriving DecidableEq, Repr

/-- Per flag class, the lowest element index that raised it: NFS, SAT, IV, DZ, OF, UF, NX (03 R66, R84). -/
structure Flags where
  nfs : Option Nat
  sat : Option Nat
  iv : Option Nat
  dz : Option Nat
  ovf : Option Nat
  unf : Option Nat
  nx : Option Nat
  deriving DecidableEq, Repr

/-- The seven first-index registers (03 R66). -/
structure Fxi where
  iv : Word
  dz : Word
  ovf : Word
  unf : Word
  nx : Word
  sat : Word
  nfs : Word
  deriving DecidableEq, Repr

/-! ### Traps, statuses and operations under way -/

/-- How an access uses memory (15 R325). -/
inductive Acc where
  | read | write | atomic | fetch
  deriving DecidableEq, Repr

/-- A trap as it is decided: ecause's fields, eaddr, and the fault record (15 R319 to R328). -/
structure Trap where
  code : Nat
  sub : Nat := 0
  eaddr : Word := 0
  acc : Nat := 0
  imm : BitVec 24 := 0
  /-- lowest failing element -/
  elem : Nat := 0
  /-- record entries, and whether more than 256 granules failed -/
  entries : List Word := []
  ovf : Bool := false
  /-- the counter a deferred cause was raised from (15 R330) -/
  ctr : Option (BitVec 3) := none
  deriving DecidableEq, Repr

/-- How an element of an operation failed after its retirement (16 R335, 18 R371, R372). -/
structure Failure where
  elem : Nat
  code : Nat
  sub : Nat
  eaddr : Word
  /-- the access kind of an access or page fault (15 R325) -/
  acc : Nat := 0
  deriving DecidableEq, Repr

/-- A failure status held on a wait counter until a WAIT, WAITA or EXIT raises it (15 R330). -/
structure CtrStatus where
  ctr : BitVec 3
  code : Nat
  sub : Nat
  eaddr : Word
  /-- the access kind of an access or page fault, and the element (15 R325, R328) -/
  acc : Nat
  elem : Nat
  deriving DecidableEq, Repr

/-- An operation that has retired and not yet completed (06 R150, 10 R284). -/
structure Op where
  id : Nat
  /-- its wait counter; none for an interlocked operation -/
  ctr : Option (BitVec 3)
  /-- the registers it writes -/
  regs : List RegId
  nb : Bool
  matrix : Bool
  /-- flags to merge when it completes -/
  flags : Flags
  /-- its result has been produced, and only the completion is due -/
  landed : Bool
  /-- a status that its completion leaves on the counter -/
  status : Option CtrStatus
  /-- bits that later members of its convoy have written, which its result leaves alone (06 R156) -/
  shield : List (RegId × BitVec 20480)
  /-- registers that it overwrites whole, unless some part of it fails or brings poison (19 R400) -/
  whole : List RegId
  /-- place in the store history at which its accesses were performed (05 R135) -/
  when : Nat
  /-- its core's clock when it started (19 R392) -/
  cycle : Nat
  /-- the channel whose watermark it waits for, and the value that it must exceed (09 R267) -/
  mark : Option (BitVec 3 × Word)
  deriving DecidableEq, Repr

/-- A producer whose result a reader may still miss: a fixed latency with the stall counts still
wanted, or a non-blocking operation still under way (06 R148, R150). -/
structure Early where
  reg : RegId
  /-- the contents from before the producer -/
  old : RegVal
  /-- cycles still wanted on the producer's pipe; 0 for a non-blocking operation -/
  need : Nat
  /-- the producer ran in the vector pipe -/
  vector : Bool
  /-- the non-blocking operation that must complete -/
  op : Option Nat
  /-- a member of the convoy under way, whose other members read its result (06 R156) -/
  own : Bool
  deriving DecidableEq, Repr

/-- A poisoned register with the source address recorded in it, if it was loaded poisoned (19 R400). -/
structure Poison where
  reg : RegId
  src : Option Word
  deriving DecidableEq, Repr

/-- Poison of a granule of memory: its base address, and whether the lost copy was a modified L2 line (19 R400). -/
structure GranPoison where
  base : Nat
  l2 : Bool
  /-- no convoy has consumed it yet: the first traps, a load too (19 R399) -/
  fresh : Bool
  /-- bytes of it that an operation has overwritten, each with the operation -/
  part : List (Nat × Nat)
  deriving DecidableEq, Repr

/-- A convoy that has not retired, in the vector queue or run ahead of it: its address and words (02 R29, 15 R316). -/
structure QConvoy where
  pc : Word
  words : List IWord
  deriving DecidableEq, Repr

/-- What a convoy has changed of its hart, as it was before, so that a trap of a later member leaves no trace of the earlier
ones (02 R27, 15 R316). -/
structure Undo where
  regs : List (RegId × RegVal)
  fflags : BitVec 7
  fxi : Fxi
  vl : BitVec 13
  gvl : BitVec 16
  early : List Early
  poison : List Poison
  deriving DecidableEq, Repr

/-- The members of a convoy that wait for the result of its memory member: the convoy, the number of the first of them, and
the number of the convoy's first operation (02 R27, 06 R156). -/
structure Tail where
  convoy : QConvoy
  next : Nat
  first : Nat
  /-- the operation whose result they read -/
  op : Nat
  /-- what the hart was before the convoy; none once a member has done what cannot be taken back (log 29) -/
  undo : Option Undo
  deriving DecidableEq, Repr

/-- Whether a hart runs (02 R44, R52, 15 R322). -/
inductive RunState where
  /-- not occupied by a gang -/
  | free
  | running
  /-- stopped for a preemption -/
  | stopped
  /-- stopped by a trap that has no handler, or by the failure of its graph -/
  | halted
  deriving DecidableEq, Repr

/-- A member of a collective team: its hart and the global-window address of its arrival area (09 R253). -/
structure Member where
  hart : Nat
  slotBase : Word
  deriving DecidableEq, Repr

/-- A team as it was read when it was installed (09 R253, R254). -/
structure TeamTable where
  id : Word
  slotSize : Nat
  nslot : Nat
  members : List Member
  deriving DecidableEq, Repr

/-- Kinds of a collective (09 R255). -/
inductive CollKind where
  | allReduce | reduceScatter | allGather | broadcast
  deriving DecidableEq, Repr

/-- The gang a hart belongs to: its graph's base, node and gang index, and the run of the launch (02 R24, R44). -/
structure GangRef where
  graph : Word
  node : Nat
  gang : Nat
  deriving DecidableEq, Repr

/-- What the loads of a hart must see of memory (05 R126 to R131, 07 R202): lengths of the store history up to which they
see the stores of its gang, core, die, package and pod, and those to the scratchpad; and locations with the lengths of the
history up to which releases that it acquired have made it see them. -/
structure Marks where
  upTo : Vector Nat 6
  told : List (Nat × Nat)
  deriving DecidableEq, Repr

/-- What an agent must see of memory, and what happens before its later accesses (05 R127, R130): its marks, locations of
which its loads have returned a later value, locations of which it has read a store of another agent that its core held,
and per hart the place in the order of retirement below which that hart's accesses come before. -/
structure Known where
  marks : Marks
  seen : List (Nat × Nat)
  reads : List (Nat × Nat)
  past : List (Nat × Nat)
  deriving DecidableEq, Repr

/-- A release: the hart, the gang that it belonged to, the scope as the farthest class of agents within it, and what it
knew (05 R128, R129). -/
structure Release where
  hart : Nat
  gang : Option GangRef
  level : Nat
  known : Known
  deriving DecidableEq, Repr

/-- An arrival at a named barrier by an NBAW that still waits: the barrier, the phase waited for, the destination of the
phase number, and the scope at which its wait acquires (07 R198). -/
structure Arrival where
  bar : BitVec 6
  phase : BitVec 32
  dest : Operand
  acquire : Option Scope
  deriving DecidableEq, Repr

/-- A hart (02 R23, 03 R58, R63). -/
structure Hart where
  run : RunState
  pc : Word
  /-- in supervisor mode (02 R56) -/
  sup : Bool
  x : Vector Word 64
  v : Vector (TReg 8192) 64
  p : Vector (BitVec 1024) 16
  z : Vector (TReg 20480) 8
  o : Vector (TReg 8192) 8
  l : Vector (TReg 8192) 4
  w : Vector (BitVec 16) 8
  lc : Vector LoopLevel 4
  vl : BitVec 13
  gvl : BitVec 16
  fflags : BitVec 7
  fxi : Fxi
  /-- gid.GANG, log2 of the gang size, and rank (02 R24) -/
  gangIdx : BitVec 24
  gsz : BitVec 2
  rank : BitVec 3
  hwgt : BitVec 4
  prqPrio : BitVec 4
  prqForced : Bool
  prqReq : Bool
  ddl : BitVec 32
  yieldmask : Word
  yieldaux : BitVec 21
  chk : Bool
  epc : Word
  ecause : Word
  eaddr : Word
  /-- estat: REC, EXL, PM (15 R324) -/
  recSet : Bool
  exl : Bool
  pm : Bool
  svec : Word
  jobtag : BitVec 12
  ptbase : Word
  teambase : Word
  teamInst : BitVec 16
  teamNmem : BitVec 11
  teamSelf : BitVec 10
  teamValid : Bool
  /-- the installed team's table -/
  team : Option TeamTable
  collwd : BitVec 32
  collst : Word
  kpbase : Word
  kpPages : BitVec 16
  kpMode : Bool
  kpDc : BitVec 2
  kplist : Word
  frhdr : Word
  frsel : BitVec 8
  frEntries : List Word
  /-- statuses pending on the counters, oldest first -/
  stats : List CtrStatus
  /-- operations under way -/
  ops : List Op
  early : List Early
  queue : List QConvoy
  tail : Option Tail
  gang : Option GangRef
  /-- the reservation of its gang in the scratchpad: offset, bytes, bytes of the deferral queue (02 R46) -/
  resOff : Nat
  resSize : Nat
  dfsz : Nat
  /-- GBARs executed, and whether it waits in one (07 R196) -/
  gbars : Nat
  inGbar : Bool
  /-- the arrival of an NBAW whose wait half blocks (07 R198, 17 R355) -/
  inNbaw : Option Arrival
  /-- named barriers it has used (17 R357) -/
  nbUsed : BitVec 64
  poison : List Poison
  /-- length of the store history at the latest fetch barrier (05 R417) -/
  fetchMark : Nat
  /-- what its loads must see -/
  marks : Marks
  /-- locations of which a load has returned a later value, each with the length of the history that it saw (05 R121) -/
  seen : List (Nat × Nat)
  /-- by counter, the latest place in the history at which an operation that completed was performed (05 R135) -/
  waitMarks : Vector Nat 8
  /-- locations of which it has read a store of another agent that its core held, each with the length of the history that
  the load saw (05 R127) -/
  reads : List (Nat × Nat)
  /-- by hart, the place in the order of retirement below which that hart's accesses happen before its later ones (05 R130) -/
  past : List (Nat × Nat)
  /-- fences that its later stores carry, and releases that the stores carry which its loads have read (05 R126, R127) -/
  pub : List Release
  met : List Release
  /-- the device performs the next loads of package memory after they retire (05 R120) -/
  late : Bool
  deriving DecidableEq, Repr

/-! ### The cellar, requests and signals -/

/-- Where a checked access lies (04 R96 to R101). -/
inductive Place where
  /-- a core's scratchpad -/
  | spad (core off : Nat)
  /-- package memory, by key, with the leaf's type -/
  | mem (key mt : Nat)
  /-- a device register of a package, by physical address -/
  | dev (chip pa : Nat)
  /-- a read-only window: the global-window address behind it -/
  | window (va : Nat)
  /-- the global window -/
  | global (va : Nat)
  deriving DecidableEq, Repr

/-- One element of a request, or the part of one from a byte offset on: its index, where it is performed, and the data
it carries. The other side of a copy is the place that an RPUT reads or an RGET writes (09 R248 to R252). -/
structure ReqElem where
  idx : Nat
  off : Nat
  at_ : Place
  bytes : Nat
  data : Nat
  cmp : Nat
  side : Option Place
  /-- the address that the program gave it, which a status names -/
  va : Nat
  deriving DecidableEq, Repr

/-- What a request does where it is performed. -/
inductive ReqKind where
  | load
  | store
  | atomic (op : AmoOp) (fmt : Fmt)
  | put
  | get
  | signal
  | queueAppend
  | queuePop (max : Nat)
  | queueLen
  | keyAppend (fmt : Fmt)
  /-- a KBND over the global window: query, format, channel code, MODE, limit and list -/
  | bound (query : List Nat) (fmt : Fmt) (dc : Nat) (best : Bool) (limit : Nat) (list : Nat)
  | clean
  | inval
  deriving DecidableEq, Repr

/-- Where a request's result goes (09 R242 to R248). -/
inductive ReqDest where
  | nowhere
  /-- an x register, extended as the format says -/
  | scalar (d : Operand) (fmt : Fmt)
  /-- elements of a vector register of a width in bits, and its L entry -/
  | vector (d : Operand) (width : Nat) (l : BitVec 2)
  /-- elements of an accumulator -/
  | accum (z : BitVec 3)
  /-- QPOP: the register and the x register of the count -/
  | pop (d : Operand) (count : Operand)
  /-- KBND: the count's register, and the pages bounded so far -/
  | bounds (d : Operand) (done : List (Nat × Nat))
  deriving DecidableEq, Repr

/-- A request on its way to where it is performed (04 R114, 11 R292). -/
structure Request where
  id : Nat
  /-- issuing hart, its job at issue, and its operation -/
  hart : Nat
  job : BitVec 12
  op : Nat
  kind : ReqKind
  /-- elements not yet performed -/
  elems : List ReqElem
  dest : ReqDest
  /-- the lowest failing element so far -/
  failed : Option Failure
  /-- it has left its cellar -/
  sent : Bool
  /-- the issuing hart's counter no longer waits for it (18 R414) -/
  silent : Bool
  /-- later accesses of the hart wait for it: an acquire, at a scope (05 R128) -/
  acquire : Option Scope
  /-- its elements are performed one at a time, in their order (05 R122) -/
  ordered : Bool
  /-- its cache hint (04 R108) -/
  hint : Hint
  /-- the hart's marks and the length of the store history when it retired (05 R120, R121) -/
  marks : Marks
  born : Nat
  /-- releases that its stores carry, and those that an acquire has read (05 R126, R129) -/
  rels : List Release
  heard : List Release
  deriving DecidableEq, Repr

/-- What a cellar entry holds (04 R114, R115, 19 R391). -/
inductive CellarKind where
  /-- an engine's bytes for package memory, the cache hint in force there, and the operation that waits until they are
  performed -/
  | store (bytes : List Host.Cell) (hint : Option Hint) (op : Option Nat)
  /-- what a scratchpad store overwrote, by offset, the poison that it cleared, and the operation that waits until it is
  sealed -/
  | undo (bytes : List Host.Cell) (lost : List GranPoison) (op : Option Nat)
  /-- a request of the net -/
  | request (id : Nat)
  /-- an MTS to a register of the die or package (19 R391) -/
  | sysWrite (reg : Nat) (val : Word)
  /-- an RFENCE, and its operation: no later remote request of its hart leaves before it (09 R251) -/
  | rfence (op : Nat)
  /-- an arm by GRUN, its destination and its operation -/
  | arm (graph : Word) (d : Operand) (op : Nat)
  /-- a write of n bytes to a device register, of an element with the address that the program gave it -/
  | devWrite (chip pa n val : Nat) (op : Option Nat) (elem va : Nat)
  /-- a member's contribution to a collective (09 R256) -/
  | contribution (inst member : Nat)
  /-- a trap without a handler fails its graph: the graph, the node and the cause (15 R322, 19 R391) -/
  | failure (graph : Word) (node cause : Nat)
  deriving DecidableEq, Repr

structure CellarEntry where
  /-- its place in the order of retirement -/
  seq : Nat
  hart : Nat
  /-- an engine of the core made it for that hart -/
  engine : Bool
  cycle : Nat
  sealed : Bool
  /-- bytes of the cellar it takes (04 R117) -/
  size : Nat
  /-- length of the store history before its bytes -/
  born : Nat
  kind : CellarKind
  deriving DecidableEq, Repr

/-! ### Units of a core -/

/-- A named barrier (07 R197) with the JOB recorded at NBINIT (18 R376). -/
structure NamedBarrier where
  e : BitVec 16
  a : BitVec 16
  p : BitVec 32
  job : BitVec 12
  /-- release arrivals, each with the phase that it counts for (05 R129) -/
  rels : List (BitVec 32 × Release)
  deriving DecidableEq, Repr

/-- An element of a deferral queue (08 R232). -/
structure DeferElem where
  idx : Nat
  path : Nat
  vals : List (BitVec 32)
  deriving DecidableEq, Repr

/-- One copy of a racking command: its source, its destination and its bytes (09 R265). -/
structure RackCopy where
  src : Nat
  dst : Nat
  len : Nat
  deriving DecidableEq, Repr

/-- A list-driven command (09 R262): the gather list, the array it names and the destination. -/
structure KeyList where
  /-- the gather list's address, its count, and the entries read so far, one as each copy is emitted -/
  at_ : Nat
  count : Nat
  entries : List Nat
  base : Nat
  stride : Nat
  pages : Nat
  dst : Nat
  hint : Hint
  deriving DecidableEq, Repr

/-- A queued or running racking command (09 R262 to R268), with what its translations need of the hart that pushed it. -/
structure RackCmd where
  hart : Nat
  op : Nat
  job : BitVec 12
  ptbase : Word
  sup : Bool
  /-- the sixteen words as pushed -/
  words : List Word
  list : Option KeyList
  /-- copies that have landed, in rising order -/
  landed : List Nat
  /-- it has stopped with an error -/
  stopped : Bool
  /-- element groups below it are not written: the vector-start of a resumed command (17 R359) -/
  vstart : Nat
  /-- the hart's marks and the length of the store history at the push, and where in the history the engine read which
  bytes (05 R132) -/
  marks : Marks
  born : Nat
  seen : List (Nat × Nat)
  /-- bytes that the engine has written: the address, the location, and the length of the history after the write (05 R132) -/
  wrote : List (Nat × Nat × Nat)
  deriving DecidableEq, Repr

/-- A racking status (09 R267): the hart that pushed its command, or its rank in a save record, the command's operation,
the word, and what the engine read and wrote (05 R132, 17 R357). -/
structure RackStatus where
  hart : Nat
  op : Nat
  word : Word
  seen : List (Nat × Nat)
  deriving DecidableEq, Repr

structure RackChannel where
  cmds : List RackCmd
  fifo : List RackStatus
  /-- end of the latest declared range -/
  lastEnd : Word
  deriving DecidableEq, Repr

/-- What happened to a hart, as far as a rollback needs it (19 R392). -/
inductive HartEvent where
  /-- a convoy retired: what the hart was before it -/
  | retired (before : Hart)
  /-- an operation's result landed in a register, which is poisoned or not -/
  | landed (reg : RegId) (val : RegVal) (lost : Option Poison)
  /-- an operation completed -/
  | completed (o : Op)
  /-- the abort of a collective wrote collst (18 R388) -/
  | aborted (collst : Word)
  deriving DecidableEq, Repr

structure RetireRecord where
  cycle : Nat
  hart : Nat
  what : HartEvent
  deriving DecidableEq, Repr

/-- Core state that a rollback restores to a point (19 R392). -/
structure CorePoint where
  cycle : Nat
  barriers : Vector NamedBarrier 64
  defq : Tab (List DeferElem)
  racks : Vector RackChannel 8
  spmode : Bool
  /-- harts whose arrival by an NBAW that still waits is counted in the barriers -/
  arrived : List (Nat × Arrival)
  deriving DecidableEq, Repr

/-- An entry of a core's translation buffer: the page's first virtual address and size, the root it was walked from,
and the leaf (04 R102). -/
structure TlbEntry where
  root : Word
  base : Nat
  size : Nat
  leaf : Word
  deriving DecidableEq, Repr

structure Core where
  clock : Nat
  spad : Memory
  /-- spmode.MODE (04 R105) -/
  spmode : Bool
  /-- oldest first -/
  cellar : List CellarEntry
  quota : Vector (BitVec 4) 8
  lastBound : BitVec 3
  /-- the hart whose head convoy the arbiter has bound -/
  bound : Option (BitVec 3)
  nb : Vector NamedBarrier 64
  defq : Tab (List DeferElem)
  racks : Vector RackChannel 8
  rbCount : BitVec 16
  rbLost : BitVec 16
  rbCause : BitVec 8
  rbCycles : List Nat
  retired : BitVec 5
  drain : Bool
  /-- vlmax reported, in 64s of 32-bit elements (19 R398) -/
  groups : Nat
  /-- vector-ALU members bound since reset, and the numbers of those of the convoy that bound last, until it retires, that
  compute something (19 R397) -/
  checked : Nat
  lastChecked : List Nat
  mismatches : List (Nat × Nat)
  underReset : Bool
  gone : Bool
  log : List RetireRecord
  points : List CorePoint
  /-- named-barrier arrivals from outside the core: cycle, barrier, count, and the releases that they are (19 R392) -/
  outside : List (Nat × BitVec 6 × Nat × List Release)
  tlb : List TlbEntry
  /-- poisoned scratchpad granules (19 R400) -/
  poison : List GranPoison
  /-- bytes that a racking engine has written and a watermark has passed: the location, and the length of the history after
  the write (05 R132) -/
  passed : List (Nat × Nat)
  deriving DecidableEq, Repr

/-! ### Links and islands of a die -/

/-- One lane of a link (11 R294). -/
structure Lane where
  rxp : BitVec 8
  pfe : BitVec 8
  skew : BitVec 8
  skov : Bool
  margin : BitVec 2
  lock : Bool
  lst : BitVec 2
  corr : BitVec 48
  unc : BitVec 16
  /-- refreshes in a row with MARGIN 3, and refreshes in a row that a retraining needs -/
  bad : Nat
  good : Nat
  deriving DecidableEq, Repr

/-- A link to one peer die (11 R293 to R297). -/
structure Link where
  req : BitVec 4
  lpsReq : BitVec 2
  act : BitVec 4
  lps : BitVec 2
  busy : Bool
  refused : Bool
  up : Bool
  txfl : Word
  rxfl : Word
  lanes : Vector Lane 4
  /-- lane set of the transition under way, its laser power state if it changes that, and writes of REQ and LPS held
  during it -/
  next : BitVec 4
  nextLps : Option (BitVec 2)
  heldReq : Option (BitVec 4)
  heldLps : Option (BitVec 2)
  /-- flits sent and not acknowledged, flits that wait for room in the replay buffer, and the lane set the receiver takes -/
  unacked : Nat
  queued : Nat
  rxSet : BitVec 4
  relock : Bool
  idle : Bool
  /-- a lane of it is being dropped: it carries no new flit (18 R380) -/
  dropping : Bool
  deriving DecidableEq, Repr

/-- A voltage and frequency island (11 R303). -/
structure Island where
  gated : Bool
  gate : Bool
  freq : BitVec 12
  cur : BitVec 12
  /-- woken by an arrival while GATE is 1 (17 R369) -/
  woken : Bool
  deriving DecidableEq, Repr

/-- What a way of an L2 set holds that the machine must know: a modified line, and whether it is the first of its set to
be replaced; or a pinned line of a core's scratchpad (04 R106 to R108). -/
inductive L2Use where
  | modified (line : Nat) (first : Bool)
  | pinned (core line : Nat)
  deriving DecidableEq, Repr

structure L2Line where
  set : Nat
  way : Nat
  use : L2Use
  deriving DecidableEq, Repr

/-! ### Graphs (02 R36 to R52) -/

inductive NodeState where
  /-- unresolved, with the links that completed and that were skipped so far -/
  | waiting (completed skipped : Nat)
  | active
  | done
  | skipped
  deriving DecidableEq, Repr

/-- A node as the sequencer read it at validation (02 R40). -/
structure GNode where
  kind : Nat
  npred : Nat
  flags : Nat
  prio : Nat
  succ : List Nat
  addr : Nat
  entry : Nat
  gsize : Nat
  hwgt : Nat
  gcount : Nat
  pmask : Nat
  args : Nat
  spres : Nat
  dfsz : Nat
  deadline : Nat
  body : Nat
  tail : Nat
  itermax : Nat
  deriving DecidableEq, Repr

/-- What the sequencer keeps of one node of a running graph. -/
structure NodeRun where
  st : NodeState
  /-- its gangs that have not finished -/
  live : Nat
  /-- iterations that a WHILE has counted, and whether one is under way -/
  iter : Nat
  iterating : Bool
  /-- a QUEUE node has been flushed -/
  flushed : Bool
  deriving DecidableEq, Repr

/-- Work of the sequencer on a graph (02 R42, R43). -/
inductive GraphWork where
  /-- the node becomes ready -/
  | start (node : Nat)
  /-- one link of a node resolves -/
  | link (node : Nat) (completed : Bool)
  /-- a WHILE node reads its condition word -/
  | test (node : Nat)
  deriving DecidableEq, Repr

/-- A hart that has left a run by EXIT: the place in the order of retirement that it had reached, and what it knew (02 R42,
05 R127). -/
structure Leaver where
  hart : Nat
  seq : Nat
  known : Known
  deriving DecidableEq, Repr

/-- A graph of the resident graph table that the sequencer runs or has run. -/
structure GraphRun where
  entry : Nat
  base : Word
  job : BitVec 12
  ptbase : Word
  svec : Word
  running : Bool
  rearm : Bool
  failed : Bool
  data : List GNode
  nodes : List NodeRun
  /-- work not yet done -/
  todo : List GraphWork
  /-- harts that have left the run by EXIT -/
  users : List Leaver
  deriving DecidableEq, Repr

/-- A gang waiting to be placed, or saved and waiting to resume (02 R45). -/
structure ReadyGang where
  /-- the launch that it belongs to: with the gang index its name on the die -/
  firing : Nat
  graph : Word
  entry : Nat
  node : Nat
  gang : Nat
  prio : Nat
  time : Nat
  x5 : Word
  x6 : Word
  /-- the save slot to resume from -/
  saved : Option Nat
  /-- victims declined for it (17 R362) -/
  excluded : List Nat
  deriving DecidableEq, Repr

/-- A gang placed on a core (02 R45, R46). -/
structure PlacedGang where
  key : Nat
  firing : Nat
  graph : Word
  entry : Nat
  node : Nat
  gang : Nat
  prio : Nat
  time : Nat
  placedAt : Nat
  core : Nat
  harts : List Nat
  exited : List Nat
  resOff : Nat
  resSize : Nat
  dfsz : Nat
  x5 : Word
  x6 : Word
  /-- preemption under way: the waiting gang's priority, and whether the save has begun -/
  preempt : Option Nat
  saving : Bool
  /-- barriers that harts which have exited had used (17 R357) -/
  nbUsed : BitVec 64
  /-- place in the order of retirement at which its last hart stopped for a save (05 R134) -/
  stopSeq : Nat
  /-- its harts' arrivals at GBARs, by the number of the GBAR (05 R131) -/
  bars : List (Nat × Release)
  deriving DecidableEq, Repr

/-- What a hart must see of memory and what happens before its accesses (05 R121, R126 to R135), with its counters' places
and the releases that its stores carry and its loads have met. -/
structure View where
  known : Known
  waitMarks : Vector Nat 8
  pub : List Release
  met : List Release
  deriving DecidableEq, Repr

/-- The context-save engine's own record of a saved gang (17 R357). -/
structure SaveRecord where
  firing : Nat
  graph : Word
  entry : Nat
  node : Nat
  gang : Nat
  slot : Nat
  gsize : Nat
  exited : List Nat
  core : Nat
  barriers : BitVec 64
  stats : List (Nat × List CtrStatus)
  ops : List (Nat × List Op)
  /-- by channel: the statuses, with the ranks that pushed -/
  fifos : List (Nat × List RackStatus)
  /-- by rank and channel: the racking commands cut back (17 R358) -/
  racks : List (Nat × Nat × RackCmd)
  resOff : Nat
  resSize : Nat
  dfsz : Nat
  vlmax : Nat
  prio : Nat
  time : Nat
  x5 : Word
  x6 : Word
  job : BitVec 12
  ptbase : Word
  /-- the poisoned registers of each rank (19 R400) -/
  poison : List (Nat × List Poison)
  /-- deferral queue at the save, and the bytes of its part of the reservation (17 R360) -/
  defq : List DeferElem
  defBytes : List (BitVec 8)
  /-- the installed team of each rank -/
  teams : List (Nat × Option TeamTable)
  /-- what each rank's later accesses must see, and their arrivals at GBARs (05 R131, R134) -/
  views : List (Nat × View)
  bars : List (Nat × Release)
  deriving DecidableEq, Repr

/-- An operation of the context-save engine that a fault has frozen (17 R363, R364). -/
structure FrozenOp where
  save : Bool
  gang : Nat
  offset : Nat
  /-- what a restore has read before: offsets in the slot, where their bytes lie, and the bytes -/
  read : List (Nat × Nat × BitVec 8)
  deriving DecidableEq, Repr

/-- A line of a read-only window that a die holds: the JOB it was filled under, its global-window address, the location
behind it, the place in the history of its fill, its bytes, and the base addresses of its poisoned granules (04 R112,
05 R138, 19 R400). -/
structure WindowLine where
  job : BitVec 12
  base : Nat
  key : Nat
  at_ : Nat
  bytes : List (BitVec 8)
  poison : List Nat
  deriving DecidableEq, Repr

structure Die where
  gtbase : Word
  wdbase : Word
  l2ways : BitVec 24
  /-- lines of the L2 that are modified or pinned, lines that it may hold unmodified, and ways retired (04 R106 to R108,
  19 R401) -/
  l2 : List L2Line
  brought : List Nat
  l2gone : BitVec 24
  csstat : Word
  csfault : Word
  csgraph : Word
  csnote : Word
  hrstat : Word
  hraddr : Word
  fbstat : Word
  fbnote : Word
  /-- sprstat: L2RET, HBMSP, CORES, SHRUNK (19 R404) -/
  l2ret : BitVec 8
  hbmsp : BitVec 16
  spares : BitVec 3
  shrunk : BitVec 7
  evbase : Word
  evtail : Word
  evnote : Word
  /-- the reference cycles that the latest TIME read counted (19 R406) -/
  ticks : Nat
  links : Tab Link
  islands : Tab Island
  /-- window lines held, the latest fill of each location, and the length of the history at the latest INVRO (04 R112,
  05 R138) -/
  window : List WindowLine
  fills : List (Nat × Nat)
  windowMark : Nat
  homeTlb : List (BitVec 12 × TlbEntry)
  graphs : List GraphRun
  /-- entries whose ARM word is registered, with its place (02 R39) -/
  registered : List (Nat × Nat)
  ready : List ReadyGang
  placed : List PlacedGang
  nextKey : Nat
  /-- harts and scratchpad that a save has freed for the gang named in each (17 R365) -/
  handed : List PlacedGang
  records : List SaveRecord
  saveQueue : List Nat
  frozenOp : Option FrozenOp
  filter : List Nat
  filterFill : Nat
  /-- rows of a core's arrays to be spared, and rows that a spare has replaced: core and row (19 R401) -/
  spareRows : List (Nat × Nat)
  usedRows : List (Nat × Nat)
  deriving DecidableEq, Repr

/-! ### Packages and the pod -/

/-- A byte that a store replaced, as seen inside a core at retirement, or by every other agent at the home (05 R121,
R124, R417). -/
structure Overwritten where
  key : Nat
  old : BitVec 8
  /-- the core that saw the store when it retired -/
  core : Option Nat
  /-- the hart whose store it was, and the gang that it belonged to then -/
  src : Option Nat
  gang : Option GangRef
  /-- an engine of that hart's core made it -/
  engine : Bool
  home : Bool
  /-- cores that did not see it at the home, holding a store of their own -/
  masked : List Nat
  /-- the operation of the hart, of a request performed after its convoy retired -/
  op : Option Nat
  /-- length of the history before the access that it is part of (05 R125) -/
  start : Nat
  /-- releases that the access carries (05 R126, R129) -/
  rels : List Release
  deriving DecidableEq, Repr

/-- A part of the read-out image of a frozen package (19 R408). A hart or a core that no part describes has its reset
value. -/
inductive ImagePart where
  /-- the package, the freeze's cause, and TIME of each die -/
  | header (chip : Nat) (cause : Word) (times : List Word)
  /-- a hart: its block in the layout of R55 with every register live, by offset; hid, gid, prq, ddl, jobtag, ptbase, frhdr,
  frsel and the frpage registers; and its poisoned registers -/
  | hart (number : Nat) (block : List (Nat × List (BitVec 8))) (regs : List Word) (poison : List Poison)
  /-- a core: rstat, lgstat, its barriers, its cellar with the requests in it, its channels, its scratchpad with the deferral
  queues in it and the poisoned granules of that -/
  | core (number : Nat) (rstat lgstat : Word) (barriers : Vector NamedBarrier 64) (cellar : List CellarEntry)
      (requests : List Request) (racks : Vector RackChannel 8) (spad : Memory) (defq : Tab (List DeferElem))
      (poison : List GranPoison)
  /-- a die: its system registers by number, the entries of its resident graph table, its runs and ready order, and the
  context-save records -/
  | die (number : Nat) (regs : List (Nat × Word)) (table : List (List Word)) (runs : List GraphRun) (ready : List ReadyGang)
      (records : List SaveRecord)
  deriving DecidableEq, Repr

structure Package where
  lbreq : BitVec 20
  grantSeq : BitVec 16
  grant : BitVec 20
  /-- bridge block (11 R300) -/
  x16 : Bool
  rate : BitVec 4
  apbase : Word
  apjob : BitVec 12
  /-- the function's MSI-X table, by vector, and the vectors raised, each with the address and data of its message (11 R299) -/
  msixTable : Tab (Word × Word)
  msix : List (BitVec 6 × Word × Word)
  /-- host reads answered: offset, from 2^36 on of the first BAR, and the bytes or an abort (11 R300) -/
  hostReads : List (Nat × Option (List (BitVec 8)))
  mbCmd : Word
  mbStatus : Word
  mbData : List (BitVec 8)
  measured : List (BitVec 8)
  /-- held in reset because an image was refused (11 R301) -/
  held : Bool
  /-- the image that was refused, in boot order, and whether for its security version (11 R301) -/
  refusal : Option (Nat × Bool)
  frozen : Bool
  freezeCause : Word
  /-- the read-out image that the management port delivers (19 R407, R408) -/
  image : List ImagePart
  /-- a grant has made lbgnt smaller than lbuse (18 R384) -/
  overGrant : Bool
  deriving DecidableEq, Repr

/-- Where a collective stands at one member (09 R256, 18 R385, R387). -/
inductive MemberStage where
  /-- the member has not issued the instance -/
  | absent
  | issued
  /-- every arrival has been combined, and READY is on its way -/
  | combined
  /-- the coordinator holds its READY -/
  | ready
  | committed
  | aborted
  /-- its gang was lost while it was saved (17 R361): whether the coordinator holds its READY -/
  | dropped (ready : Bool)
  deriving DecidableEq, Repr

/-- What a member issued an instance with: the header that READY carries, with the team's table (18 R385). -/
structure CollHead where
  team : TeamTable
  kind : CollKind
  op : RedOp
  fmt : Fmt
  count : Nat
  root : Nat
  deriving DecidableEq, Repr

/-- A piece of a contribution: from which member, to which, its step of the ring and its chunk; 0 for the eager regime
(09 R256). -/
structure Piece where
  sender : Nat
  dest : Nat
  step : Nat
  chunk : Nat
  deriving DecidableEq, Repr

/-- A piece in a slot, not yet combined: the slot's address and the bytes that it holds. -/
structure Flying where
  piece : Piece
  slot : Nat
  bytes : Nat
  deriving DecidableEq, Repr

/-- One member's part of a collective instance (09 R256, 18 R385). -/
structure MemberPart where
  stage : MemberStage
  hart : Nat
  op : Nat
  job : BitVec 12
  head : CollHead
  dstAddr : Word
  srcAddr : Word
  /-- the places of its destination and of its source, with their bytes -/
  dst : List (Place × Nat)
  src : List (Place × Nat)
  /-- its source's elements, once its contribution has left the cellar -/
  source : Option (List Nat)
  /-- what has been combined, in order of arrival -/
  got : List (Piece × List Nat)
  /-- pieces written so far -/
  sent : List Piece
  /-- its gang is saved -/
  saved : Bool
  /-- its hart's marks and the length of the store history when it issued -/
  marks : Marks
  born : Nat
  deriving DecidableEq, Repr

/-- A collective instance, held by the blending units (09 R256). -/
structure CollInst where
  team : Word
  number : BitVec 16
  parts : List MemberPart
  flying : List Flying
  /-- the coordinator's ABORT: its code and the member named, and the address of the first element refused -/
  decided : Option (BitVec 8 × Nat)
  refused : Word
  commitSent : Bool
  deriving DecidableEq, Repr

structure Pod where
  /-- chip numbers present (01 R20) -/
  chips : List Nat
  /-- packages whose bridge port the pod configuration names (01 R21) -/
  bridges : List Nat
  /-- boot grants of light recorded for packages: chip and mW (11 R298) -/
  bootGrants : List (Nat × BitVec 20)
  /-- dies declared lost (18 R385) -/
  lost : List Nat
  colls : List CollInst
  deriving DecidableEq, Repr

/-- What the world does to a package: to its latches and cells, and through its bridge port's first BAR; the machine notices
it in a turn of its own (11 R299, 19 R397 to R401). -/
inductive Upset where
  /-- the checking lane disagrees with a lane of a physical lane group -/
  | mismatch (core : Nat) (group : Fin 5)
  /-- a residue check of an array fails -/
  | residue (core : Nat)
  /-- an error that ECC corrects: unit class, unit index, row, and the row's address -/
  | corrected (die cls unit row : Nat) (addr : Word)
  /-- a lost copy that a hart meets while a good one exists, and whether the refetch fails again -/
  | badCopy (hart key : Nat) (again : Bool)
  | lostMem (key : Nat)
  | lostSpad (core off : Nat)
  | lostReg (hart : Nat) (reg : RegId)
  /-- a lost cellar entry -/
  | lostEntry (core seq : Nat)
  /-- a host's access of 8 bytes through the first BAR, at an offset in it (11 R299) -/
  | barWrite (chip off : Nat) (val : Word)
  | barRead (chip off : Nat)
  /-- the host programs an entry of the function's MSI-X table (11 R299) -/
  | msixEntry (chip : Nat) (vec : BitVec 6) (addr data : Word)
  deriving DecidableEq, Repr

/-- How the last instruction executed left its hart. -/
inductive Disposition where
  | retired
  /-- it set the program counter itself -/
  | jumped
  /-- it has not retired: it waits, and is issued again -/
  | blocked
  | trapped (t : Trap)
  deriving DecidableEq, Repr

structure State where
  /-- the hart in focus: the one whose convoy `exec` executes -/
  me : Nat
  harts : Tab Hart
  cores : Tab Core
  dies : Tab Die
  pkgs : Tab Package
  pod : Pod
  /-- HBM4E as every load sees it: key 2^48 x chip + physical address -/
  mem : Memory
  /-- HBM4E contents that differ from it under modified L2 lines (09 R269) -/
  backing : Memory
  poison : List GranPoison
  /-- requests under way -/
  net : List Request
  /-- bytes stored over, newest first (05 R417) -/
  history : List Overwritten
  /-- due steps of the device and of the world outside -/
  agenda : List Instr
  /-- upsets that have happened and that nothing has noticed (log 21) -/
  upsets : List Upset
  disp : Disposition
  fresh : Nat
  opSeq : Nat
  time : Nat
  deriving DecidableEq, Repr

/-- Why the machine stops. -/
inductive Fault where
  /-- A frozen package executes nothing until a cold reset: raised by `step` and by the steps of a frozen package
  (19 R407). Safe: the hardware does nothing either. -/
  | frozen
  deriving DecidableEq, Repr

/-- Why an instruction has no meaning. -/
inductive Refusal where
  /-- Rejected by name: raised by `exec` alone, for an instruction that is not modelled. Safe. -/
  | notModelled (mnemonic : String)
  deriving DecidableEq, Repr

/-! ### Reset -/

def TReg.zero (n : Nat) : TReg n := ⟨.raw, 0⟩

def LoopLevel.reset : LoopLevel := ⟨0, false, 0, 0, 0⟩

def Flags.none : Flags := ⟨Option.none, Option.none, Option.none, Option.none, Option.none, Option.none, Option.none⟩

def Marks.reset : Marks := ⟨Vector.replicate 6 0, []⟩

def Fxi.reset : Fxi :=
  let ones : Word := BitVec.allOnes 64
  ⟨ones, ones, ones, ones, ones, ones, ones⟩

/-- A hart after reset: free, with the stated reset values (02 R32, R51, R53, 03 R66, R67, 15 R324, R325, R328,
18 R386); where none is stated, zero (log 1). -/
def Hart.reset : Hart :=
  { run := .free, pc := 0, sup := false
    x := Vector.replicate 64 0, v := Vector.replicate 64 (TReg.zero 8192), p := Vector.replicate 16 0
    z := Vector.replicate 8 (TReg.zero 20480), o := Vector.replicate 8 (TReg.zero 8192)
    l := Vector.replicate 4 (TReg.zero 8192), w := Vector.replicate 8 0, lc := Vector.replicate 4 LoopLevel.reset
    vl := 0, gvl := 0, fflags := 0, fxi := Fxi.reset, gangIdx := 0, gsz := 0, rank := 0, hwgt := 0
    prqPrio := 0, prqForced := false, prqReq := false, ddl := 0x4E20
    yieldmask := BitVec.allOnes 64, yieldaux := 0x1FFFFF, chk := false
    epc := 0, ecause := 0, eaddr := 0, recSet := false, exl := false, pm := false, svec := 0, jobtag := 0, ptbase := 0
    teambase := 0, teamInst := 0, teamNmem := 0, teamSelf := 0, teamValid := false, team := none, collwd := 100000, collst := 0
    kpbase := 0, kpPages := 0, kpMode := false, kpDc := 0, kplist := 0, frhdr := 0, frsel := 0, frEntries := []
    stats := [], ops := [], early := [], queue := [], tail := none, gang := none, resOff := 0, resSize := 0, dfsz := 0
    gbars := 0, inGbar := false, inNbaw := none, nbUsed := 0, poison := [], fetchMark := 0
    marks := Marks.reset, seen := [], waitMarks := Vector.replicate 8 0, reads := [], past := [], pub := [], met := []
    late := false }

def NamedBarrier.reset : NamedBarrier := ⟨0, 0, 0, 0, []⟩

def RackChannel.reset : RackChannel := ⟨[], [], 0⟩

/-- A core after reset (02 R31, 07 R197, 09 R267, 19 R395); no lane group retired (log 2). -/
def Core.reset : Core :=
  { clock := 0, spad := [], spmode := false, cellar := [], quota := Vector.replicate 8 0, lastBound := 7, bound := none
    nb := Vector.replicate 64 NamedBarrier.reset, defq := [], racks := Vector.replicate 8 RackChannel.reset
    rbCount := 0, rbLost := 0, rbCause := 0, rbCycles := [], retired := 0, drain := false, groups := 4, checked := 0, lastChecked := []
    mismatches := [], underReset := false, gone := false, log := [], points := [], outside := [], tlb := []
    poison := [], passed := [] }

/-- A lane at reset (11 R294). RXP, for which no reset is stated, is 0 (DESIGN CHOICE, log 92). -/
def Lane.reset : Lane := ⟨0, 0, 0, false, 3, false, 3, 0, 0, 0, 0⟩

/-- A lane of a link that has come up at reset: locked and active, with no estimate of its errors yet (11 R294, R298;
log 5). -/
def Lane.trained : Lane := { Lane.reset with lock := true, lst := 0 }

/-- A link as boot leaves it: in L0 with its four lanes active and up (11 R295, R298; log 5). -/
def Link.reset : Link :=
  { req := 0xF, lpsReq := 0, act := 0xF, lps := 0, busy := false, refused := false, up := true, txfl := 0, rxfl := 0
    lanes := Vector.replicate 4 Lane.trained, next := 0xF, nextLps := none, heldReq := none, heldLps := none, unacked := 0, queued := 0, rxSet := 0xF
    relock := false, idle := true, dropping := false }

/-- A link to a die of a chip that is not in the pod: nothing answers (01 R20; log 5). -/
def Link.absent : Link := { Link.reset with act := 0, up := false, lanes := Vector.replicate 4 Lane.reset }

def Island.reset : Island := ⟨false, false, 2000, 2000, false⟩

/-- A die after reset (04 R103, R109, 17 R366, 18 R377, R383, 19 R404, R405). -/
def Die.reset : Die :=
  { gtbase := 0, wdbase := 0, l2ways := 0xFF, l2 := [], brought := [], l2gone := 0, csstat := 0, csfault := 0, csgraph := 0, csnote := 0, hrstat := 0
    hraddr := 0, fbstat := 0, fbnote := 0, l2ret := 0, hbmsp := 0, spares := 4, shrunk := 0, evbase := 0, evtail := 0
    evnote := 0, ticks := 0, links := [], islands := [], window := [], fills := [], windowMark := 0, homeTlb := [], graphs := [], registered := [], ready := [], placed := []
    nextKey := 0, handed := [], records := [], saveQueue := [], frozenOp := none, filter := [], filterFill := 0, spareRows := [], usedRows := [] }

/-- A package after reset, without what its boot has measured (11 R298, R300). -/
def Package.reset : Package :=
  { lbreq := 81600, grantSeq := 0, grant := 81600, x16 := true, rate := 7, apbase := 0x8000000000000000, apjob := 0
    msixTable := [], msix := [], hostReads := [], mbCmd := 0, mbStatus := 0, mbData := [], measured := [], held := false
    refusal := none, frozen := false, freezeCause := 0, image := [], overGrant := false }

/-- A package that has booted: every image's digest is in the measurement log (11 R301). -/
def Package.boot (chip : Nat) : Package := { Package.reset with measured := Config.bootDigests chip }

/-- The boot grant of a package in mW, which is recorded for it or 81,600 (11 R298). -/
def Pod.bootGrant (p : Pod) (chip : Nat) : BitVec 20 :=
  ((p.bootGrants.find? fun g => g.1 == chip).map fun g => g.2).getD (BitVec.ofNat 20 Config.bootGrant)

/-- The machine right after a cold reset: no gang placed, memory with nothing listed, one chip in the pod (log 5). -/
def State.reset : State :=
  { me := 0, harts := [], cores := [], dies := [], pkgs := [], pod := ⟨[0], [], [], [], []⟩, mem := [], backing := []
    poison := [], net := [], history := [], agenda := [], upsets := [], disp := .retired, fresh := 0, opSeq := 0, time := 0 }

end Sys2Proof.Machine
end

