-- ==== Sys2Proof/Machine/Ops.lean ====
section
/-! DEFINITION. The named operations over the state: tables, memory and its overlays, address translation, the device's
free choices, and the taking of a trap with its return (02 R36 to R38, 04 R96 to R116, 05 R417, 15 R316 to R331). -/
namespace Sys2Proof.Machine

/-! ### Tables -/

def Tab.find {α : Type} : Tab α → Nat → Option α
  | [], _ => none
  | (k, v) :: t, a => if k = a then some v else Tab.find t a

/-- The record of a key, or its reset value. -/
def Tab.get {α : Type} (t : Tab α) (d : α) (k : Nat) : α := (Tab.find t k).getD d

def Tab.set {α : Type} : Tab α → Nat → α → Tab α
  | [], a, v => [(a, v)]
  | (k, w) :: t, a, v => if a = k then (a, v) :: t else if a < k then (a, v) :: (k, w) :: t else (k, w) :: Tab.set t a v

/-! ### Numbers of harts, cores, dies and packages -/

def coreOf (h : Nat) : Nat := h / 8
def hidOf (h : Nat) : Nat := h % 8
def dieOf (h : Nat) : Nat := h / 1024
def chipOf (h : Nat) : Nat := h / 4096
def dieOfCore (c : Nat) : Nat := c / 128
def chipOfDie (d : Nat) : Nat := d / 4

namespace State

def hart (s : State) (h : Nat) : Hart := Tab.get s.harts Hart.reset h
def core (s : State) (c : Nat) : Core := Tab.get s.cores Core.reset c
def die (s : State) (d : Nat) : Die := Tab.get s.dies Die.reset d
def bootPkg (s : State) (c : Nat) : Package := { Package.boot c with grant := s.pod.bootGrant c }
def pkg (s : State) (c : Nat) : Package := Tab.get s.pkgs (s.bootPkg c) c
def setHart (s : State) (h : Nat) (v : Hart) : State := { s with harts := Tab.set s.harts h v }
def setCore (s : State) (c : Nat) (v : Core) : State := { s with cores := Tab.set s.cores c v }
def setDie (s : State) (d : Nat) (v : Die) : State := { s with dies := Tab.set s.dies d v }
def setPkg (s : State) (c : Nat) (v : Package) : State := { s with pkgs := Tab.set s.pkgs c v }

/-- The hart in focus, and its core. -/
def my (s : State) : Hart := s.hart s.me
def setMy (s : State) (h : Hart) : State := s.setHart s.me h
def myCore (s : State) : Core := s.core (coreOf s.me)
def setMyCore (s : State) (c : Core) : State := s.setCore (coreOf s.me) c
def myDie (s : State) : Die := s.die (dieOf s.me)
def setMyDie (s : State) (d : Die) : State := s.setDie (dieOf s.me) d

/-- The hart in focus changed by a function. -/
def upd (s : State) (f : Hart → Hart) : State := s.setMy (f s.my)

def modHart (s : State) (h : Nat) (f : Hart → Hart) : State := s.setHart h (f (s.hart h))
def modCore (s : State) (c : Nat) (f : Core → Core) : State := s.setCore c (f (s.core c))
def modDie (s : State) (d : Nat) (f : Die → Die) : State := s.setDie d (f (s.die d))
def modPkg (s : State) (c : Nat) (f : Package → Package) : State := s.setPkg c (f (s.pkg c))

/-- Appends due steps to the agenda. -/
def due (s : State) (es : List Instr) : State := { s with agenda := s.agenda ++ es }

end State

/-! ### Free choices (00 R10) -/

/-- What a free choice is about, so that different choices of one step are independent. -/
inductive Site where
  | sub | tlb (va : Nat) | huge (va : Nat) | fetch (a : Nat) | stale (r : Nat) | overlap (a : Nat) | order (n : Nat)
  | hart | line (a : Nat) | inDoubt (n : Nat) | victim | read (a : Nat) | other (n : Nat)
  deriving DecidableEq, Repr

def Site.code : Site → Nat
  | .sub => 0
  | .tlb n => 1 + 16 * n
  | .huge n => 2 + 16 * n
  | .fetch n => 3 + 16 * n
  | .stale n => 4 + 16 * n
  | .overlap n => 5 + 16 * n
  | .order n => 6 + 16 * n
  | .hart => 7
  | .line n => 8 + 16 * n
  | .inDoubt n => 9 + 16 * n
  | .victim => 10
  | .read n => 12 + 16 * n
  | .other n => 11 + 16 * n

/-- The device's choice among n possibilities, numbered from 0; with one possibility nothing is asked. The step's
counter `fresh` makes the choices of different steps independent. -/
def State.pick (s : State) (site : Site) (n : Nat) : Nat :=
  if n ≤ 1 then 0 else Config.free (s.fresh * 2 ^ 128 + site.code) % n

/-- A value nothing constrains. -/
def State.anyValue (s : State) (site : Site) : Nat := Config.free (s.fresh * 2 ^ 128 + site.code)

/-- The device's choice among the entries of a list. -/
def State.pickFrom {α : Type} (s : State) (site : Site) (l : List α) (d : α) : α :=
  match l with
  | [] => d
  | a :: rest => (a :: rest).getD (s.pick site (rest.length + 1)) a

/-- A list in an order that the device chooses. -/
def State.shuffle {α : Type} (s : State) (n0 : Nat) : Nat → List α → List α
  | 0, l => l
  | n + 1, l => match l with
    | [] => []
    | a :: rest =>
      let k := s.pick (.order (n0 + n)) (rest.length + 1)
      (a :: rest).getD k a :: s.shuffle n0 n ((a :: rest).eraseIdx k)

/-- Drops later copies of an entry. -/
def dedup {α : Type} [DecidableEq α] : List α → List α
  | [] => []
  | a :: l => a :: (dedup l).filter fun b => b ≠ a

/-! ### Memory -/

/-- What an unlisted byte reads as (log 6). -/
def Memory.blank : Byte := 0

/-- The byte at an address. -/
def Memory.read : Memory → Nat → Byte
  | [], _ => Memory.blank
  | (k, b) :: m, a => if k = a then b else if a < k then Memory.blank else Memory.read m a

/-- One byte written, the canonical form kept. -/
def Memory.write : Memory → Nat → Byte → Memory
  | [], a, b => if b = Memory.blank then [] else [(a, b)]
  | (k, c) :: m, a, b =>
    if a < k then (if b = Memory.blank then (k, c) :: m else (a, b) :: (k, c) :: m)
    else if a = k then (if b = Memory.blank then m else (a, b) :: m)
    else (k, c) :: Memory.write m a b

/-- Strictly rising addresses above a bound, and no cell that reads as an unlisted one. -/
def Memory.wfFrom : Nat → Memory → Bool
  | _, [] => true
  | lo, (k, b) :: m => decide (lo ≤ k) && (b != Memory.blank) && Memory.wfFrom (k + 1) m

/-- The canonical form of memory. -/
def Memory.wf (m : Memory) : Bool := Memory.wfFrom 0 m

/-- The number that n bytes hold, least significant first (00 R3). -/
def natOfBytes : List Byte → Nat
  | [] => 0
  | b :: bs => b.toNat + 256 * natOfBytes bs

/-- The n low bytes of a number, least significant first. -/
def bytesOfNat : Nat → Nat → List Byte
  | 0, _ => []
  | n + 1, v => BitVec.ofNat 8 v :: bytesOfNat n (v / 256)

def Memory.readBytes (m : Memory) (a n : Nat) : List Byte := (List.range n).map fun i => m.read (a + i)

def Memory.readNat (m : Memory) (a n : Nat) : Nat := natOfBytes (m.readBytes a n)

/-- Cells written in order. -/
def Memory.writeCells (m : Memory) (cells : List Host.Cell) : Memory := cells.foldl (fun m c => m.write c.1 c.2) m

/-- Consecutive bytes as cells. -/
def cellsAt (a : Nat) (bs : List Byte) : List Host.Cell := (List.range bs.length).zip bs |>.map fun p => (a + p.1, p.2)

/-- A table of bytes by address in which no byte stands for an unlisted one. -/
def Memory.find? : Memory → Nat → Option Byte
  | [], _ => none
  | (k, b) :: m, a => if k = a then some b else Memory.find? m a

/-- A byte set, or taken out, in a table of bytes by address. -/
def Memory.setEntry : Memory → Nat → Option Byte → Memory
  | [], a, b => match b with
    | some v => [(a, v)]
    | none => []
  | (k, c) :: m, a, b =>
    if a = k then (match b with
      | some v => (a, v) :: m
      | none => m)
    else if a < k then (match b with
      | some v => (a, v) :: (k, c) :: m
      | none => (k, c) :: m)
    else (k, c) :: Memory.setEntry m a b

/-- The key of a byte of package memory: 48-bit physical address of a chip (04 R98). -/
def physKey (chip pa : Nat) : Nat := chip * 2 ^ 48 + pa

/-- The SPACE of a physical address (04 R98). -/
def spaceOf (pa : Nat) : Nat := pa / 2 ^ 40 % 256

namespace State

/-- A number of n bytes in package memory at its home. -/
def homeNat (s : State) (key n : Nat) : Nat := s.mem.readNat key n

/-- A scratchpad byte of a core (04 R104). -/
def spadByte (s : State) (c off : Nat) : Byte := (s.core c).spad.read off

end State

/-! ### The table walk (04 R99 to R102) -/

/-- What a walk ends in: a leaf entry with the page's size in address bits, a page fault with its SUB, or a table on a die
that cannot be reached (01 R13, log 100). -/
inductive Walked where
  | leaf (entry : Word) (size : Nat)
  | fault (sub : Nat)
  | cut (die : Nat)
  deriving DecidableEq, Repr

/-- The levels from the root: level, lowest address bit indexed, index bits. -/
def walkLevels : List (Nat × Nat × Nat) := [(3, 46, 11), (2, 35, 11), (1, 30, 5), (0, 16, 14)]

def entryV (e : Word) : Bool := e.getLsbD 0
def entryT (e : Word) : Bool := e.getLsbD 1
def entryR (e : Word) : Bool := e.getLsbD 2
def entryW (e : Word) : Bool := e.getLsbD 3
def entryX (e : Word) : Bool := e.getLsbD 4
def entryU (e : Word) : Bool := e.getLsbD 5
def entryMt (e : Word) : Nat := (e.extractLsb' 6 2).toNat
def entryPs (e : Word) : Nat := (e.extractLsb' 8 2).toNat
/-- ADDR of an entry, as an address (04 R100). -/
def entryAddr (e : Word) : Nat := (e.extractLsb' 16 47).toNat * 2 ^ 16

/-- A leaf is malformed at level 3, with a reserved PS at level 0, or with W and no R (04 R102). -/
def leafMalformed (lvl : Nat) (e : Word) : Bool :=
  lvl == 3 || (lvl == 0 && 2 ≤ entryPs e) || (entryW e && !entryR e)

/-- The walk from a table, reading entries with `rd`, which names the die of one that cannot be reached; `choose` is the
device's choice for a 2 MiB page. -/
def walkFrom (rd : Nat → Except Nat Word) (choose : Nat → Nat) (va : Nat) : List (Nat × Nat × Nat) → Nat → Walked
  | [], _ => .fault 2
  | (lvl, lo, nb) :: rest, table =>
    let idx := va / 2 ^ lo % 2 ^ nb
    match rd (table + 8 * idx) with
    | .error d => .cut d
    | .ok e =>
      if !entryV e then .fault 1
      else if entryT e then (if lvl == 0 then .fault 2 else walkFrom rd choose va rest (entryAddr e))
      else if leafMalformed lvl e then .fault 2
      else if lvl == 0 && entryPs e == 1 then
        let cand := (((List.range 32).filterMap fun j => (rd (table + 8 * (idx / 32 * 32 + j))).toOption).filter fun c =>
          entryV c && !entryT c && !leafMalformed 0 c && entryPs c == 1) |> dedup
        .leaf (cand.getD (choose cand.length) e) 21
      else .leaf e lo

/-- The addresses of the entries that a walk reads. -/
def walkReads (rd : Nat → Except Nat Word) (va : Nat) : List (Nat × Nat × Nat) → Nat → List Nat
  | [], _ => []
  | (lvl, lo, nb) :: rest, table =>
    let a := table + 8 * (va / 2 ^ lo % 2 ^ nb)
    match rd a with
    | .error _ => []
    | .ok e => a :: (if entryV e && entryT e && lvl != 0 then walkReads rd va rest (entryAddr e) else [])

/-- Tables are read as physical reads of SPACE 0x00 through the L2 (04 R99). -/
def State.tableWord (s : State) (chip a : Nat) : Word := Word.ofNat (s.homeNat (physKey chip (a % 2 ^ 40)) 8)

/-- The physical address that a leaf gives an address: frame bits below the page size are ignored (04 R100). -/
def leafAddr (e : Word) (size va : Nat) : Nat := entryAddr e / 2 ^ size * 2 ^ size + va % 2 ^ size

/-- The permission an access needs (04 R102). -/
def leafAllows (e : Word) (acc : Acc) (user : Bool) : Bool :=
  (!user || entryU e) && (match acc with
    | .read => entryR e
    | .write | .atomic => entryW e
    | .fetch => entryX e)

/-! ### Global-window addresses and links (04 R97, 11 R290, 18 R373) -/

/-- The global index of the die that a global-window address names. -/
def globalDie (va : Nat) : Nat := va / 2 ^ 55 % 256

def globalChan (va : Nat) : Nat := va / 2 ^ 51 % 16

/-- Links of a die that its package's boot grant lights: in ascending order of die and then peer, four lanes in L0 each
(11 R298). -/
def State.bootLit (s : State) (d : Nat) : Nat :=
  min 255 ((s.pod.bootGrant (chipOfDie d)).toNat / (4 * Config.laneLight 0) - 255 * (d % 4))

/-- The place of a peer among the links of a die. -/
def linkIndex (d peer : Nat) : Nat := if peer < d then peer else peer - 1

/-- A link that nothing has changed since boot: up in L0 if the boot grants of both packages light it, and dark from the
side that is left in L3 (11 R298; log 5). -/
def State.bootLink (s : State) (d peer : Nat) : Link :=
  let mine := linkIndex d peer < s.bootLit d
  let theirs := linkIndex peer d < s.bootLit peer
  let k := if !s.pod.chips.contains (chipOfDie peer) then Link.absent
    else if mine && theirs then Link.reset
    else { Link.absent with lanes := Vector.replicate 4 { Lane.reset with lock := theirs } }
  if mine then k else { k with lps := 3 }

/-- A link's key on its die is the peer's global index. -/
def State.link (s : State) (d peer : Nat) : Link := Tab.get (s.die d).links (s.bootLink d peer) peer

def State.modLink (s : State) (d peer : Nat) (f : Link → Link) : State :=
  s.modDie d fun k => { k with links := Tab.set k.links peer (f (Tab.get k.links (s.bootLink d peer) peer)) }

/-- Flits are sent as far as the replay buffer has room for them: it holds 2,048 until they are acknowledged. A link with
a lane that is being dropped carries no new flit, and the first flit wakes a parked one (11 R291, R297, 18 R380). -/
def Link.sendFlits (k : Link) : Link :=
  let n := if k.dropping then 0 else min k.queued (2048 - k.unacked)
  { k with lps := if k.lps = 2 && n != 0 then 0 else k.lps, txfl := k.txfl + Word.ofNat n, unacked := k.unacked + n, queued := k.queued - n }

/-- Flits of a message to a peer with so many bytes of data. How many it takes beside those of its data is not stated
(log 19). -/
def State.flitsOf (s : State) (peer bytes : Nat) : Nat := max 1 ((bytes + 31) / 32) + s.anyValue (.other (2 ^ 20 + peer)) % 2048

/-- A die sends a message with so many bytes of data to another (11 R291, R295, R297). -/
def State.sendTo (s : State) (d peer bytes : Nat) : State :=
  if d == peer || !(s.link d peer).up then s
  else
    let n := s.flitsOf peer bytes
    let s := s.modLink d peer fun k => Link.sendFlits { k with queued := k.queued + n, idle := false }
    if s.agenda.contains (.flitReceive peer d true) then s else s.due [.flitReceive peer d true]

/-- A message of a die has reached another, and with it everything sent over the link before (11 R292, R293, log 19). -/
def State.carry (s : State) (d peer bytes : Nat) : State :=
  let k := s.link d peer
  if d == peer || !k.up || k.dropping then s.sendTo d peer bytes
  else
    let n := k.queued + s.flitsOf peer bytes
    (s.modLink d peer fun k => { k with
      lps := if k.lps = 2 then 0 else k.lps, txfl := k.txfl + Word.ofNat n, unacked := 0, queued := 0, idle := false }).modLink peer d
        fun q => { q with rxfl := q.rxfl + Word.ofNat (k.unacked + n), idle := false }

/-- Flits from one die to another have not all been received. -/
def State.inFlight (s : State) (d peer : Nat) : Bool :=
  d != peer && ((s.link d peer).unacked != 0 || (s.link d peer).queued != 0)

/-- A request of a die can reach another: its chip is in the pod configuration, the link is up and this side is not in
L3 (18 R373). -/
def State.reaches (s : State) (d peer : Nat) : Bool :=
  d == peer || (s.pod.chips.contains (chipOfDie peer) && (s.link d peer).up && (s.link d peer).lps != 3)

/-- The die that holds a byte of package memory, by its global index (04 R98). -/
def homeDie (key : Nat) : Nat := key / 2 ^ 48 * 4 + key / 2 ^ 38 % 4

/-! ### A die's walks of its package's tables (04 R99 to R102) -/

/-- A table's entry as a die reads it, or the die that holds it and cannot be reached: the dies of a package have no other
path to one another than their links (01 R13). -/
def State.walkEntry (s : State) (d a : Nat) : Except Nat Word :=
  let home := homeDie (physKey (chipOfDie d) (a % 2 ^ 40))
  if s.reaches d home then .ok (s.tableWord (chipOfDie d) a) else .error home

/-- A fresh walk by a die of its package's tables from a root. -/
def State.walk (s : State) (d : Nat) (root : Word) (va : Nat) : Walked :=
  walkFrom (s.walkEntry d) (fun n => s.pick (.huge (va / 2 ^ 21)) n) va walkLevels root.toNat

/-- The translations a core may use: those it holds and a fresh walk, which a TLBI makes the only one (04 R102). -/
def State.lookup (s : State) (c : Nat) (root : Word) (va : Nat) : Walked :=
  let held := ((s.core c).tlb.filter fun t => t.root == root && t.base ≤ va && va < t.base + 2 ^ t.size).map fun t =>
    Walked.leaf t.leaf t.size
  let all := dedup (s.walk (dieOfCore c) root va :: held)
  s.pickFrom (.tlb (va / 2 ^ 16)) all (.fault 1)

/-! ### Home translation (04 R111) -/

/-- What a home finds for an address: the leaf of a walk, or the status of a refusal (18 R371). -/
inductive HomeFound where
  | walked (w : Walked)
  | refused (code : Nat)
  deriving DecidableEq, Repr

/-- The directory entry of a job and a channel (04 R111). -/
def State.directory (s : State) (d : Nat) (job : BitVec 12) (chan : Nat) : Except Nat Word :=
  s.walkEntry d ((s.die d).wdbase.toNat + (job.toNat * 16 + chan) * 8)

/-- The root that a directory entry names. -/
def directoryRoot (ent : Word) : Word := Word.ofNat ((ent.extractLsb' 14 34).toNat * 2 ^ 14)

/-- A walk of a window's tables for an address (04 R111). -/
def State.windowWalk (s : State) (ent : Word) (va : Nat) : Walked :=
  s.walk (globalDie va) (directoryRoot ent) (va % 2 ^ 51)

/-- The directory as it stands, and a fresh walk from it. One on a die that the home cannot reach is refused as
disconnected (01 R13, log 100). -/
def State.homeFresh (s : State) (job : BitVec 12) (va : Nat) : HomeFound :=
  if (s.die (globalDie va)).wdbase == 0 then .refused 1
  else match s.directory (globalDie va) job (globalChan va) with
    | .error _ => .refused 4
    | .ok ent => if ent.getLsbD 0 then .walked (s.windowWalk ent va) else .refused 1

/-- What a home may use: the directory as it stands, the leaves it holds, and fresh walks from the directory entries it
holds of the job and channel, until a TLBI of kind 4 (04 R111). -/
def State.homeChoices (s : State) (job : BitVec 12) (va : Nat) : List HomeFound :=
  let mine := (s.die (globalDie va)).homeTlb.filter fun t => t.1 == job && globalChan t.2.base == globalChan va
  s.homeFresh job va :: mine.flatMap fun t =>
    (if t.2.base ≤ va && va < t.2.base + 2 ^ t.2.size then [.walked (.leaf t.2.leaf t.2.size)] else [])
      ++ [.walked (s.windowWalk t.2.root va)]

/-- The byte of package memory behind a global-window address, at its home, with the leaf's type, or the refusal's status
(18 R371). -/
def State.homeLeaf (s : State) (job : BitVec 12) (acc : Acc) (va : Nat) : Except Nat (Nat × Nat) :=
  let d := globalDie va
  match s.pickFrom (.tlb (va / 2 ^ 16)) (dedup (s.homeChoices job va)) (.refused 1) with
  | .refused code => .error code
  | .walked (.fault _) => .error 2
  | .walked (.cut _) => .error 4
  | .walked (.leaf e size) =>
    let pa := leafAddr e size (va % 2 ^ 51) % 2 ^ 48
    if !leafAllows e acc true then .error 2
    else if 2 ≤ entryMt e then .error 3
    else if spaceOf pa != 0 || pa / 2 ^ 38 % 4 != d % 4 || pa / 2 ^ 34 % 16 != globalChan va then .error 3
    else .ok (physKey (chipOfDie d) pa, entryMt e)

/-- The byte of package memory behind a global-window address, at its home, or the refusal's status. -/
def State.homeAddr (s : State) (job : BitVec 12) (acc : Acc) (va : Nat) : Except Nat Nat :=
  (s.homeLeaf job acc va).map fun k => k.1

/-! ### Memory as a core sees it (04 R116, 05 R121, R124) -/

/-- What a store's element gives a byte of package memory. -/
def State.elemByte (s : State) (job : BitVec 12) (e : ReqElem) (key : Nat) : Option Byte :=
  match e.at_ with
  | .mem k _ => if k ≤ key && key < k + e.bytes then some (BitVec.ofNat 8 (e.data / 256 ^ (key - k))) else none
  | .global va => (List.range e.bytes).foldl (fun acc j => match s.homeAddr job .write (va + j) with
    | .ok k => if k = key then some (BitVec.ofNat 8 (e.data / 256 ^ j)) else acc
    | .error _ => acc) none
  | _ => none

/-- What the stores of a request give a byte of package memory. -/
def State.requestByte (s : State) (r : Request) (key : Nat) : Option Byte :=
  if r.kind != .store then none else r.elems.foldl (fun acc e => (s.elemByte r.job e key).or acc) none

/-- The byte that a core's retired stores give an address while they are not performed at their homes, newest last. -/
def State.heldByte (s : State) (c key : Nat) : Option Byte :=
  let sent := s.net.foldl (fun acc r =>
    if r.sent && coreOf r.hart == c then (s.requestByte r key).or acc else acc) none
  (s.core c).cellar.foldl (fun acc e => match e.kind with
    | .store cells _ _ => (Memory.find? cells.reverse key).or acc
    | .request id => match s.net.find? fun r => r.id == id with
      | some r => (s.requestByte r key).or acc
      | none => acc
    | _ => acc) sent

namespace State

/-- A byte of package memory as a core sees it. -/
def coreByte (s : State) (c key : Nat) : Byte := (s.heldByte c key).getD (s.mem.read key)

def coreBytes (s : State) (c key n : Nat) : List Byte := (List.range n).map fun i => s.coreByte c (key + i)

end State

/-! ### The L2 of a die (04 R106 to R109) -/

def lineOf (key : Nat) : Nat := key / 128

def L2Line.holds (l : L2Line) (line : Nat) : Bool :=
  match l.use with
  | .modified n _ => n == line
  | .pinned _ _ => false

def L2Line.isPinned (l : L2Line) : Bool :=
  match l.use with
  | .pinned _ _ => true
  | .modified _ _ => false

def L2Line.isFirst (l : L2Line) : Bool :=
  match l.use with
  | .modified _ first => first
  | .pinned _ _ => false

/-- What a way of a set is known to hold. -/
def Die.wayUse (k : Die) (set way : Nat) : Option L2Line := k.l2.find? fun l => l.set == set && l.way == way

/-- Ways of a set that are neither retired nor pinned. -/
def Die.openWays (k : Die) (set : Nat) : List Nat :=
  (List.range 24).filter fun w => !k.l2gone.getLsbD w && !((k.wayUse set w).map L2Line.isPinned).getD false

/-- Ways of a set in which a hint allocates; with a line in one of them that is the first to be replaced, that way
(04 R108, R109). -/
def Die.hintWays (k : Die) (h : Hint) (set : Nat) : List Nat :=
  let ws := match h with
    | .normal => k.openWays set
    | .noAlloc => []
    | .engine | .stream => (k.openWays set).filter fun w => k.l2ways.getLsbD w
  match ws.find? fun w => ((k.wayUse set w).map L2Line.isFirst).getD false with
  | some w => [w]
  | none => ws

/-- Modified lines leave the L2 of a die, written back to HBM4E. -/
def State.writeBack (s : State) (d : Nat) (leaves : L2Line → Bool) : State :=
  let gone := (s.die d).l2.filter leaves
  if gone.isEmpty then s
  else { s.modDie d fun k => { k with l2 := k.l2.filter fun l => !leaves l } with
    backing := s.backing.filter fun c => !(gone.any fun l => l.holds (lineOf c.1)) }

/-- A way of a set takes a line; what it held leaves. -/
def State.takeWay (s : State) (d : Nat) (l : L2Line) : State :=
  (s.writeBack d fun q => q.set == l.set && q.way == l.way).modDie d fun k => { k with l2 := k.l2 ++ [l] }

/-- The line of a byte is modified in its home's L2. -/
def State.lineModified (s : State) (key : Nat) : Bool := (s.die (homeDie key)).l2.any fun l => l.holds (lineOf key)

/-- An access to a line with a hint allocates it, or may: the L2 may hold it unmodified from then on, until the device
replaces it (04 R107, R108, log 66). -/
def State.bring (s : State) (h : Hint) (keys : List Nat) : State :=
  if h == .noAlloc then s
  else (dedup (keys.map lineOf)).foldl (fun s line =>
    let d := homeDie (128 * line)
    let k := s.die d
    if k.brought.contains line || (h != .normal && k.l2ways == 0) then s
    else s.modDie d fun k => { k with brought := line :: k.brought }) s

/-- A store meets the L2 of its home: it hits a modified line, or one that the device may hold unmodified in a way of
which nothing else is known; or misses, and allocates as its hint says or goes to HBM4E. Memory that is never cached has
no hint (04 R101, R107, R108, log 66). -/
def State.storeLine (s : State) (key : Nat) (hint : Option Hint) : State :=
  match hint with
  | none => s
  | some h =>
    if s.lineModified key then s
    else
      let d := homeDie key
      let line := lineOf key
      let k := s.die d
      let set := Config.l2Set line % 65536
      let clean := if k.brought.contains line then (k.openWays set).filter fun w => (k.wayUse set w).isNone else []
      let ways := dedup (k.hintWays h set ++ clean)
      let n := if (k.hintWays h set).isEmpty then ways.length + 1 else ways.length
      let s := s.bring h [key]
      match ways[s.pick (.line line) n]? with
      | some w => s.takeWay d ⟨set, w, .modified line (h == .stream)⟩
      | none => s

/-! ### Stores at their homes -/

/-- What stands for the issuing hart of a signal that a die sends by itself, and of the stores of its engines: it carries no
JOB, and a barrier checks none (log 20). -/
def deviceHart (d : Nat) : Nat := 2 ^ 18 + 1024 * d

def isDeviceHart (h : Nat) : Bool := 2 ^ 18 ≤ h

/-- The die that a hart's messages come from. -/
def fromDie (h : Nat) : Nat := dieOf h % 256

/-- Whose store is performed at a home: the core that saw it when it retired, the hart, the hint in force there (none for
memory that is never cached), the operation of a request, and the releases that it carries. -/
structure Writer where
  core : Option Nat
  src : Option Nat
  hint : Option Hint
  op : Option Nat
  rels : List Release := []
  deriving DecidableEq, Repr

/-- Type 0b01 turns every hint into no-allocate, and type 0b10 is never cached (04 R101, R108). -/
def mtHint (mt : Nat) (h : Hint) : Option Hint := if mt = 0 then some h else if mt = 1 then some .noAlloc else none

/-- The hint in force at an instruction's access to the global window: no-allocate unless it names an engine way
(04 R108). -/
def globalHint (h : Hint) : Hint := if h == .engine || h == .stream then h else .noAlloc

/-- The hint in force where an access of a job lies (04 R108). -/
def State.hintAt (s : State) (job : BitVec 12) (p : Place) (h : Hint) : Option Hint :=
  match p with
  | .mem _ mt => mtHint mt h
  | .global va => (match s.homeLeaf job .read va with
    | .ok k => mtHint k.2 (globalHint h)
    | .error _ => some .noAlloc)
  | _ => none

/-- A store of an engine of a die (04 R108). -/
def Writer.engine (d : Nat) : Writer := ⟨none, some (deviceHart d), some .engine, none, []⟩

namespace State

/-- The gang that a store's hart belongs to. -/
def gangRef (s : State) (src : Option Nat) : Option GangRef := src.bind fun h => (s.hart h).gang

/-- Cores other than the writer's that hold a store of a byte. -/
def maskedAt (s : State) (core : Option Nat) (key : Nat) : List Nat :=
  (s.cores.filter fun p => core ≠ some p.1 && !p.2.cellar.isEmpty || s.net.any fun r => r.sent && coreOf r.hart == p.1)
    |>.filterMap fun p => if core ≠ some p.1 && (s.heldByte p.1 key).isSome then some p.1 else none

/-- One byte of an access stored at its home: what it held is remembered for loads and fetches, and under a modified L2
line HBM4E keeps its own contents until the line is written back (04 R107, 05 R121, R417, 09 R269). -/
def homeByte (s : State) (w : Writer) (start key : Nat) (b : Byte) : State :=
  let s := s.storeLine key w.hint
  let old := s.mem.read key
  { s with
    mem := s.mem.write key b
    backing := if s.lineModified key && old ≠ b then (match Memory.find? s.backing key with
      | some c => if c = b then s.backing.setEntry key none else s.backing
      | none => s.backing.setEntry key (some old))
      else s.backing
    history := { key := key, old := old, core := w.core, src := w.src, gang := s.gangRef w.src, engine := false, home := true
                 masked := s.maskedAt w.core key, op := w.op, start := start, rels := w.rels } :: s.history }

/-- The bytes of one access stored at their homes (05 R125). -/
def homeWrite (s : State) (w : Writer) (cells : List Host.Cell) : State :=
  cells.foldl (fun t c => t.homeByte w s.history.length c.1 c.2) s

def writeHomeNat (s : State) (w : Writer) (key n v : Nat) : State := s.homeWrite w (cellsAt key (bytesOfNat n v))

end State

/-! ### Locations that requests still touch (05 R121) -/

/-- A scratchpad byte as a location, beyond every key of package memory. -/
def spadLoc (core off : Nat) : Nat := 2 ^ 56 + core * 2 ^ 22 + off

/-- What stands for the device accesses of one hart, which keep their order among themselves (05 R137). -/
def deviceLoc : Nat := 2 ^ 60

/-- A window address as a location of its own: loads of it keep their order (05 R138). -/
def windowLoc (va : Nat) : Nat := 2 ^ 64 + va

/-- Ranges of locations behind a range of global-window addresses, one for each granule that its home maps. -/
def State.globalRuns (s : State) (job : BitVec 12) (acc : Acc) (va n : Nat) : List (Nat × Nat) :=
  if n = 0 then []
  else (List.range ((va % 2 ^ 16 + n - 1) / 2 ^ 16 + 1)).filterMap fun k =>
    let lo := max va ((va / 2 ^ 16 + k) * 2 ^ 16)
    let hi := min (va + n) ((va / 2 ^ 16 + k + 1) * 2 ^ 16)
    match s.homeAddr job acc lo with
    | .ok key => some (key, hi - lo)
    | .error _ => none

/-- What a leaf reached by a walk of a core leaves held, and the lines of the tables that it read (04 R102). -/
def State.holdWalk (s : State) (c : Nat) (root : Word) (va : Nat) : State :=
  let d := dieOfCore c
  match s.walk d root va with
  | .leaf e size =>
    let t : TlbEntry := ⟨root, va / 2 ^ size * 2 ^ size, size, e⟩
    let reads := (walkReads (s.walkEntry d) va walkLevels root.toNat).map fun a => physKey (chipOfDie d) (a % 2 ^ 40)
    (s.bring .normal reads).modCore c fun k => if k.tlb.contains t then k else { k with tlb := t :: k.tlb }
  | _ => s

/-- The place n bytes further on. -/
def Place.shift (p : Place) (n : Nat) : Place :=
  match p with
  | .spad c o => .spad c (o + n)
  | .mem k mt => .mem (k + n) mt
  | .dev c pa => .dev c (pa + n)
  | .window va => .window (va + n)
  | .global va => .global (va + n)

/-- The locations of a place's n bytes, for ordering within a hart (05 R121, R137, R138). -/
def State.placeRuns (s : State) (job : BitVec 12) (acc : Acc) (p : Place) (n : Nat) : List (Nat × Nat) :=
  match p with
  | .spad c off => [(spadLoc c off, n)]
  | .mem k mt => (k, n) :: (if mt = 2 then [(deviceLoc, 1)] else [])
  | .global va => s.globalRuns job acc va n
  | .dev _ _ => [(deviceLoc, 1)]
  | .window va => [(windowLoc va, n)]

/-- Channels and tokens of the page that a key append names, as its header stands. -/
def State.pageNow (s : State) (r : Request) : Nat × Nat :=
  let hd := match r.elems.head?.map fun e => e.at_ with
    | some (.mem k _) => s.homeNat k 64
    | some (.global va) => ((s.homeAddr r.job .read va).map fun k => s.homeNat k 64).toOption.getD 0
    | some (.spad c off) => natOfBytes ((List.range 64).map fun i => s.spadByte c (off + i))
    | _ => 0
  (64 * 2 ^ min 2 (hd / 2 ^ 80 % 256), hd / 2 ^ 64 % 2 ^ 16)

/-- The locations of a piece of such a page, from a byte offset on, that the append may write: minima, maxima and the tokens
not yet held (09 R258, R259). -/
def State.pageRuns (s : State) (r : Request) (e : ReqElem) : List (Nat × Nat) :=
  let p := s.pageNow r
  let d := p.1
  [(0x40, 4 * d), (0x40 + 4 * d + 2 * d * p.2, 2 * d * (64 - p.2))].flatMap fun q =>
    let lo := max e.off q.1
    let hi := min (e.off + e.bytes) (q.1 + q.2)
    if hi ≤ lo then [] else s.placeRuns r.job .write (e.at_.shift (lo - e.off)) (hi - lo)

/-- The locations that an element of a request touches: an RGET's destination too, and the order of device accesses that
an RPUT's source belongs to. -/
def State.elemRuns (s : State) (r : Request) (e : ReqElem) : List (Nat × Nat) :=
  let acc : Acc := match r.kind with
    | .load | .get | .clean | .inval | .bound _ _ _ _ _ _ => .read
    | _ => .write
  let own := match r.kind with
    | .keyAppend _ => if e.off = 0 then s.placeRuns r.job acc e.at_ e.bytes else s.pageRuns r e
    | _ => s.placeRuns r.job acc e.at_ e.bytes
  own ++ (match r.kind, e.side with
    | .get, some p => s.placeRuns r.job .write p e.bytes
    | .put, some p => (s.placeRuns r.job .read p e.bytes).filter fun q => q.1 == deviceLoc
    | _, _ => [])

def State.requestRuns (s : State) (r : Request) : List (Nat × Nat) := r.elems.flatMap (s.elemRuns r)

def runsMeet (a b : List (Nat × Nat)) : Bool := a.any fun x => b.any fun y => x.1 < y.1 + y.2 && y.1 < x.1 + x.2

/-- A request of a hart that stands before a place in the order of retirement touches one of some locations. -/
def State.olderTouches (s : State) (h seq : Nat) (cares : ReqKind → Bool) (runs : List (Nat × Nat)) : Bool :=
  s.net.any fun r => r.hart == h && r.id < seq && cares r.kind && runsMeet (s.requestRuns r) runs

/-- A store that any hart of a core, or an engine of it, retired before a place in the order of retirement has not been
performed at its home, and touches one of some locations: inside the core it has been seen (05 R121, R123, R124). -/
def State.olderStores (s : State) (c seq : Nat) (runs : List (Nat × Nat)) : Bool :=
  let runs := runs.filter fun r => r.1 < 2 ^ 56
  (s.net.any fun r => coreOf r.hart == c && r.id < seq && r.kind == .store && runsMeet (s.requestRuns r) runs)
    || (s.core c).cellar.any fun e => e.seq < seq && (match e.kind with
      | .store cells _ _ => runsMeet (cells.map fun x => (x.1, 1)) runs
      | _ => false)

/-! ### What a load may return (05 R120 to R123) -/

/-- An entry of the store history changed what a core sees, or would have, but for a store of its own that it held. -/
def Overwritten.reaches (o : Overwritten) (c : Nat) : Bool := if o.home then o.core != some c else o.core == some c
def Overwritten.seenBy (o : Overwritten) (c : Nat) : Bool := o.reaches c && !(o.home && o.masked.contains c)

/-- The class of a hart of some gang, or of an engine of a die, as a hart sees it: its gang, core, die, package, or the pod
(05 R119). -/
def State.classOf (s : State) (h : Nat) (src : Option Nat) (gang : Option GangRef) : Fin 5 :=
  match src with
  | none => 4
  | some q =>
    if coreOf q = coreOf h then (if q = h || gang = (s.hart h).gang then 0 else 1)
    else if fromDie q = dieOf h then 2
    else if chipOfDie (fromDie q) = chipOf h then 3
    else 4

/-- The class of the agent behind an entry of the store history: an engine of the hart's core stands within core scope
(05 R119). -/
def State.classBehind (s : State) (h : Nat) (o : Overwritten) : Fin 5 :=
  if o.engine && o.core == some (coreOf h) then 1 else s.classOf h o.src o.gang

def Marks.least (m : Marks) : Nat := m.upTo.toList.foldl min (m.upTo[0])

/-- Marks that all reach a place in the history at least. -/
def Marks.raised (m : Marks) (at_ : Nat) : Marks :=
  { upTo := m.upTo.map fun n => max n at_, told := m.told.filter fun x => at_ < x.2 }

/-- A place in the history at or above one that a list gives for a location. -/
def reachedIn (l : List (Nat × Nat)) (e : Nat × Overwritten) : Bool := l.any fun x => x.1 == e.2.key && e.1 ≤ x.2

/-- Entries added to a list of locations with places, but for those that it has. -/
def joinSeen (l new : List (Nat × Nat)) : List (Nat × Nat) := (new.filter fun x => !l.contains x) ++ l

/-- What has reached a core in some locations since a place in the history, newest first, each with its place: the length
of the history once it stands. -/
def State.reached (s : State) (c : Nat) (keys : List Nat) (since : Nat) : List (Nat × Overwritten) :=
  let n := s.history.length
  if n ≤ since then []
  else ((List.range (n - since)).zip s.history).filterMap fun p =>
    if keys.contains p.2.key && p.2.reaches c then some (n - p.1, p.2) else none

/-- What has changed in some locations for a core since a place in the history. -/
def State.changes (s : State) (c : Nat) (keys : List Nat) (since : Nat) : List (Nat × Overwritten) :=
  (s.reached c keys since).filter fun e => e.2.seenBy c

/-- A load of a hart sees the store behind a change: one of its own, one of an engine that a watermark has passed, one that
its marks cover, or one that an earlier load of it saw (05 R121, R130, R132). -/
def State.mustSee (s : State) (h : Nat) (marks : Marks) (e : Nat × Overwritten) : Bool :=
  let o := e.2
  (o.src == some h && !o.engine) || reachedIn (s.core (coreOf h)).passed e
    || e.1 ≤ marks.upTo[(s.classBehind h o).val] || (2 ^ 56 ≤ o.key && e.1 ≤ marks.upTo[5])
    || reachedIn marks.told e || reachedIn (s.hart h).seen e

/-- The places in the history at which a load of some locations may be performed, latest first: before later stores of its
hart that its core has seen, and after what it must see. None, where a request of its hart from before it, which it waited
for, was performed after such a store had retired. -/
def State.loadTimes (s : State) (h : Nat) (marks : Marks) (born : Nat) (keys : List Nat) : List Nat :=
  let near := s.reached (coreOf h) keys (min born marks.least)
  let all := near.filter fun e => e.2.seenBy (coreOf h)
  let later (e : Nat × Overwritten) : Bool :=
    decide (born < e.1) && e.2.src == some h && !e.2.engine && !e.2.home && e.2.op.isNone
  let hi := (all.filter later).foldl (fun m e => min m e.2.start) s.history.length
  let lo := (near.filter fun e => s.mustSee h marks e && (decide (e.1 ≤ hi) || (e.2.op.isSome && e.2.src == some h))).foldl
    (fun m e => max m e.1) 0
  if hi < lo then [] else hi :: (all.filter fun e => lo ≤ e.2.start && e.1 ≤ hi).map fun e => e.2.start

/-- A location as a core saw it at a place in the history. -/
def State.byteThen (s : State) (c key at_ : Nat) : Byte :=
  match (s.changes c [key] at_).getLast? with
  | some e => e.2.old
  | none => if 2 ^ 56 ≤ key then s.spadByte ((key - 2 ^ 56) / 2 ^ 22) (key % 2 ^ 22) else s.coreByte c key

/-- The numbers that some locations held for a core at places in the history, each once, with the earliest of its
places. -/
def State.earliest (s : State) (c : Nat) (keys : List Nat) (times : List Nat) : List (Nat × Nat) :=
  let vals := times.map fun t => (natOfBytes (keys.map fun k => s.byteThen c k t), t)
  (dedup (vals.map fun v => v.1)).map fun v => (v, (vals.filter fun x => x.1 == v).foldl (fun m x => min m x.2) s.history.length)

/-- A byte as a core sees it without its stores to package memory from an operation on. -/
def State.byteBefore (s : State) (c op key : Nat) : Byte :=
  if 2 ^ 56 ≤ key then s.byteThen c key s.history.length
  else (State.heldByte ({ s with net := s.net.filter fun r => r.op < op }.modCore c fun k =>
    { k with cellar := k.cellar.filter fun e => e.seq < op }) c key).getD (s.mem.read key)

/-- The values that a load of some locations, as one access, may return, each with the earliest place at which it may
be performed. -/
def State.loadValues (s : State) (h : Nat) (marks : Marks) (born op : Nat) (keys : List Nat) : List (Nat × Nat) :=
  match s.loadTimes h marks born keys with
  | [] => [(natOfBytes (keys.map fun k => s.byteBefore (coreOf h) op k), s.history.length)]
  | ts => s.earliest (coreOf h) keys ts

/-- A load of some locations as one access of an element: its value, and the place at which it is performed, which the
device chooses. -/
def State.loadOnce (s : State) (h : Nat) (marks : Marks) (born op idx : Nat) (keys : List Nat) : Nat × Nat :=
  s.pickFrom (.read (keys.headD 0 + 2 ^ 64 * idx)) (s.loadValues h marks born op keys) (0, s.history.length)

/-- A load of some locations: one access, or one for each byte (05 R125, 09 R240). -/
def State.loadKeys (s : State) (h : Nat) (marks : Marks) (born op idx : Nat) (whole : Bool) (keys : List Nat) :
    Nat × List (Nat × Nat) :=
  if whole then
    let v := s.loadOnce h marks born op idx keys
    (v.1, keys.map fun k => (k, v.2))
  else
    let vs := keys.map fun k => (k, s.loadOnce h marks born op idx [k])
    (natOfBytes (vs.map fun v => BitVec.ofNat 8 v.2.1), vs.map fun v => (v.1, v.2.2))

/-- The values that locations of a source, read as one, may give a copy that a hart began at a place in the history, each
with the earliest place at which it may be read: what the hart must see of before that place, what its earlier requests have
written, or anything written since (05 R121, R132, 09 R250, R257). -/
def State.sourceValues (s : State) (h : Nat) (marks : Marks) (born op : Nat) (keys : List Nat) : List (Nat × Nat) :=
  let near := s.reached (coreOf h) keys (min born marks.least)
  let must (e : Nat × Overwritten) : Bool :=
    (decide (e.1 ≤ born) && s.mustSee h marks e) || (e.2.src == some h && !e.2.engine && e.2.op.any fun o => o < op)
  let lo := (near.filter must).foldl (fun m e => max m e.1) 0
  s.earliest (coreOf h) keys
    (s.history.length :: (near.filter fun e => lo ≤ e.2.start && e.2.seenBy (coreOf h)).map fun e => e.2.start)

/-- Locations of a cellar entry's bytes, or of those of its request. -/
def State.entryRuns (s : State) (e : CellarEntry) : List (Nat × Nat) :=
  match e.kind with
  | .store cells _ _ => cells.map fun x => (x.1, 1)
  | .undo cells _ _ => cells.map fun x => (spadLoc (coreOf e.hart) x.1, 1)
  | .request id => (match s.net.find? fun r => r.id == id with
    | some r => if r.kind == .store then s.requestRuns r else []
    | none => [])
  | _ => []

/-- Locations of stores that a hart's core holds, or that have left it and are not performed, of other harts and of
engines. -/
def State.othersRuns (s : State) (h : Nat) : List (Nat × Nat) :=
  (((s.core (coreOf h)).cellar.filter fun e => e.hart != h || e.engine).flatMap s.entryRuns)
    ++ (s.net.filter fun r => r.sent && r.kind == .store && r.hart != h && coreOf r.hart == coreOf h).flatMap s.requestRuns

/-- The releases that the store carries which a core sees in a location as of a place in the history (05 R129). -/
def State.relsAt (s : State) (c key at_ : Nat) : List Release :=
  match (s.history.drop (s.history.length - at_)).find? fun o => o.key == key && o.seenBy c with
  | some o => o.rels
  | none => []

/-- The releases that the stores carry which some reads have returned, each read a location with its place. -/
def State.relsOf (s : State) (c : Nat) (at_ : List (Nat × Nat)) : List Release :=
  if s.history.all fun o => o.rels.isEmpty then [] else dedup (at_.flatMap fun x => s.relsAt c x.1 x.2)

/-- The locations of a key append of which reads since a place in the history have returned a part, each with the place after
it: one that has read the new count sees the token and the extremes too (09 R259). -/
def State.wholeOf (s : State) (c since : Nat) (at_ : List (Nat × Nat)) : List (Nat × Nat) :=
  dedup (at_.flatMap fun x => match (s.changes c [x.1] since).find? fun e => e.1 ≤ x.2 with
    | none => []
    | some e =>
      let group := (s.history.reverse.drop e.2.start).takeWhile fun o => o.start == e.2.start
      if group.length ≤ 8 then [] else group.map fun o => (o.key, e.2.start + group.length))

/-- What a load returned stays seen, where a store since the hart's marks stands behind it, and so do the stores of other
agents that its core held and the releases that it has met (05 R121, R127, R129). -/
def State.note (s : State) (h : Nat) (at_ : List (Nat × Nat)) : State :=
  let c := coreOf h
  let since := (s.hart h).marks.least
  let new := at_.filter fun x => (s.changes c [x.1] since).any fun e => e.1 ≤ x.2
  let new := joinSeen new (s.wholeOf c since new)
  let runs := s.othersRuns h
  let held := if runs.isEmpty then [] else at_.filter fun x => runsMeet runs [(x.1, 1)]
  let rels := s.relsOf c at_
  if new.isEmpty && held.isEmpty && rels.isEmpty then s
  else s.modHart h fun k => { k with
    seen := joinSeen k.seen new, reads := joinSeen k.reads held, met := rels.filter (fun r => !k.met.contains r) ++ k.met }

/-! ### Releases and acquires (05 R126 to R131) -/

/-- A scope as the farthest class of agents within it; none for a hart alone. -/
def Scope.level : Scope → Option Nat
  | .hart => none
  | .gang => some 0
  | .core => some 1
  | .die => some 2
  | .chip => some 3
  | .pod => some 4

/-- For each hart the farther of two places in the order of retirement. -/
def joinPast (a b : List (Nat × Nat)) : List (Nat × Nat) :=
  b.foldl (fun l x => match l.find? fun y => y.1 == x.1 with
    | some y => if y.2 < x.2 then x :: l.filter fun y => y.1 != x.1 else l
    | none => x :: l) a

/-- What a hart's accesses until now have seen and are ordered after, with its own stores or without (05 R127, R130). -/
def State.knows (s : State) (h : Nat) (own : Bool) : Known :=
  let k := s.hart h
  ⟨k.marks, k.seen, k.reads, if own then joinPast k.past [(h, s.opSeq)] else k.past⟩

/-- A release that a hart makes now, at a level of scope; a fence that orders loads alone passes on what they have read. -/
def State.released (s : State) (h n : Nat) (own : Bool) : Release := ⟨h, (s.hart h).gang, n, s.knows h own⟩

/-- The releases that a hart's next access carries: its fences, and one of its own if it releases at a scope. -/
def State.carried (s : State) (h : Nat) (rel : Bool) (sc : Scope) : List Release :=
  let own := match rel, Scope.level sc with
    | true, some n => [s.released h n true]
    | _, _ => []
  own ++ (s.hart h).pub

/-- A hart's later stores carry a fence at a scope, in place of its fences at no wider ones that it takes in (05 R126). -/
def State.publish (s : State) (h : Nat) (sc : Scope) (own : Bool) : State :=
  match Scope.level sc with
  | none => s
  | some n => s.modHart h fun k => { k with
      pub := s.released h n own :: k.pub.filter fun r => n < r.level || (!own && r.known.past.any fun p => p.1 == h) }

/-- A release reaches a hart that acquires at a level of scope: each stands within the smaller of the two scopes of the
other (05 R129). -/
def State.hears (s : State) (h n : Nat) (r : Release) : Bool :=
  decide ((s.classOf h (some r.hart) r.gang).val ≤ min n r.level)

/-- A hart takes over what a releasing agent knew; of scratchpads, those of its own core. -/
def Hart.learn (k : Hart) (own : Bool) (r : Known) : Hart :=
  { k with
    marks := {
      upTo := Vector.ofFn fun (i : Fin 6) => if i.val = 5 && !own then k.marks.upTo[i] else max k.marks.upTo[i] r.marks.upTo[i]
      told := joinSeen k.marks.told (joinSeen r.marks.told r.seen) }
    reads := joinSeen k.reads r.reads
    past := joinPast k.past r.past }

/-- A hart acquires at a scope from some releases: its later loads see every store of an agent within the scope that stands,
since they are performed after the acquire, and what each release whose scope it shares has known (05 R128 to R130). A mark
of an agent within the scope is covered by what stands. -/
def State.acquireFrom (s : State) (h : Nat) (sc : Scope) (rels : List Release) : State :=
  match Scope.level sc with
  | none => s
  | some n =>
    let now := s.history.length
    let heard := rels.filter (s.hears h n)
    s.modHart h fun k =>
      let k := heard.foldl (fun k r => k.learn (coreOf r.hart == coreOf h) r.known) k
      { k with marks := { k.marks with upTo := Vector.ofFn fun (i : Fin 6) => if i.val ≤ n then now else k.marks.upTo[i] } }

/-- A hart's later accesses all come after a place in the history. -/
def Hart.after (h : Hart) (at_ : Nat) : Hart :=
  { h with
    marks := h.marks.raised at_
    seen := h.seen.filter fun x => at_ < x.2 }

/-- The home holds the leaf and the directory entry of a successful walk (04 R111). -/
def State.holdHome (s : State) (job : BitVec 12) (va : Nat) : State :=
  let d := globalDie va
  match s.directory d job (globalChan va), s.homeFresh job va with
  | .ok ent, .walked (.leaf e size) =>
    let t : BitVec 12 × TlbEntry := (job, ⟨ent, va / 2 ^ size * 2 ^ size, size, e⟩)
    let reads := (walkReads (s.walkEntry d) (va % 2 ^ 51) walkLevels (directoryRoot ent).toNat).map fun a =>
      physKey (chipOfDie d) (a % 2 ^ 40)
    let dir := physKey (chipOfDie d) (((s.die d).wdbase.toNat + (job.toNat * 16 + globalChan va) * 8) % 2 ^ 40)
    (s.bring .engine (dir :: reads)).modDie d fun k => if k.homeTlb.contains t then k else { k with homeTlb := t :: k.homeTlb }
  | _, _ => s

/-! ### Memory as the graph sequencer sees it (02 R36) -/

/-- The byte behind a global-window address with the leaf's type, as an engine of a die reaches it, or its home's refusal with
the address; none if the home cannot be reached. -/
def State.farFound (s : State) (d : Nat) (job : BitVec 12) (acc : Acc) (va : Nat) : Option (Except (Nat × Nat) (Nat × Nat)) :=
  if s.reaches d (globalDie va) then some ((s.homeLeaf job acc va).mapError fun c => (c, va)) else none

/-- The place of a byte and its leaf's type for the sequencer of a die, or a home's refusal with the address: through a
PTBASE, as a supervisor access with a job. Another die is reached by its link alone (01 R13). -/
def State.seqFound (s : State) (d : Nat) (ptbase : Word) (job : BitVec 12) (acc : Acc) (va : Nat) :
    Option (Except (Nat × Nat) (Nat × Nat)) :=
  if 2 ^ 63 ≤ va then s.farFound d job acc va
  else if 2 ^ 57 ≤ va then none
  else match s.walk d ptbase va with
    | .fault _ | .cut _ => none
    | .leaf e size =>
      let pa := leafAddr e size va % 2 ^ 48
      let key := physKey (chipOfDie d) pa
      if !leafAllows e acc false then none
      else if entryMt e == 3 then
        (if acc == .read then s.farFound d job .read (2 ^ 63 + leafAddr e size va % 2 ^ 63) else none)
      else if spaceOf pa != 0 || !s.reaches d (homeDie key) then none
      else some (.ok (key, entryMt e))

/-- The place of a byte and its leaf's type, if the sequencer of a die finds it. -/
def State.seqLeaf (s : State) (d : Nat) (ptbase : Word) (job : BitVec 12) (acc : Acc) (va : Nat) : Option (Nat × Nat) :=
  (s.seqFound d ptbase job acc va).bind Except.toOption

/-- The place of a byte for the sequencer of a die. -/
def State.seqKey (s : State) (d : Nat) (ptbase : Word) (job : BitVec 12) (acc : Acc) (va : Nat) : Option Nat :=
  (s.seqLeaf d ptbase job acc va).map fun k => k.1

/-- A number of n bytes, all within one page, read by the sequencer. -/
def State.seqRead (s : State) (d : Nat) (ptbase : Word) (job : BitVec 12) (va n : Nat) : Option Nat :=
  (s.seqKey d ptbase job .read va).map fun k => s.homeNat k n

def State.seqWrite (s : State) (d : Nat) (ptbase : Word) (job : BitVec 12) (va n v : Nat) : State :=
  match s.seqLeaf d ptbase job .write va with
  | some k => s.writeHomeNat { Writer.engine d with hint := mtHint k.2 .engine } k.1 n v
  | none => s

/-! ### Failing a graph (02 R38, 15 R322) -/

/-- STATUS with a new state and a failure's node and cause; RUNS stands (02 R38). -/
def statusWord (old : Nat) (state node cause : Nat) (rearm : Bool) : Nat :=
  old / 2 ^ 32 * 2 ^ 32 + node % 2 ^ 16 * 2 ^ 16 + cause % 256 * 256 + (if rearm then 4 else 0) + state

/-- A hart that leaves its gang's use. -/
def Hart.release (h : Hart) : Hart :=
  { h with run := .free, gang := none, queue := [], tail := none, inGbar := false, inNbaw := none }

/-- What a rollback of a core would restore now (19 R392). -/
def State.point (s : State) (c : Nat) : CorePoint :=
  let k := s.core c
  ⟨k.clock, k.nb, k.defq, k.racks, k.spmode,
    (List.range 8).filterMap fun n => (s.hart (8 * c + n)).inNbaw.map fun a => (8 * c + n, a)⟩

/-- Racking commands of some harts leave a core's channels, and the channels go on with what is left. -/
def State.dropRacks (s : State) (c : Nat) (harts : List Nat) : State :=
  let mine (ch : RackChannel) : Bool := ch.cmds.any fun m => harts.contains m.hart
  let hit := ((List.range 8).zip (s.core c).racks.toList).filter fun p => mine p.2
  if hit.isEmpty then s
  else
    let drop (ch : RackChannel) : RackChannel := { ch with cmds := ch.cmds.filter fun m => !harts.contains m.hart }
    (s.modCore c fun k => { k with
      racks := k.racks.map drop, points := k.points.map fun p => { p with racks := p.racks.map drop } }).due
        (hit.map fun p => .rackingCopyLand c p.1 0)

/-- A member whose gang is gone; a READY that the coordinator holds stays with it (17 R361). -/
def MemberStage.lost (m : MemberStage) : MemberStage := .dropped (m == .ready || m == .committed || m == .dropped true)

/-- Collective instances of a lost saved gang are discarded at its members (17 R361). -/
def State.dropParts (s : State) (ops : List Nat) : State :=
  if ops.isEmpty then s
  else { s with pod := { s.pod with colls := s.pod.colls.map fun c => { c with
    parts := c.parts.map fun p => if p.saved && ops.contains p.op then { p with stage := p.stage.lost } else p } } }

/-- The operations that a save record holds. -/
def SaveRecord.opIds (r : SaveRecord) : List Nat := r.ops.flatMap fun o => o.2.map fun q => q.id

/-- Requests to the engine whose gang is gone are dropped, and so is a frozen one. -/
def Die.pruneEngine (k : Die) : Die :=
  let stands (q : Nat) : Bool := (k.placed ++ k.handed).any fun g => g.key == q && g.saving
  { k with saveQueue := k.saveQueue.filter stands
           frozenOp := k.frozenOp.filter fun f => stands f.gang }

/-- Pinned lines of a die's L2 whose reservation has been freed are unpinned (04 R106). -/
def Die.unpin (k : Die) : Die :=
  if !(k.l2.any L2Line.isPinned) then k
  else { k with l2 := k.l2.filter fun l => match l.use with
    | .modified _ _ => true
    | .pinned c line => (k.placed ++ k.handed.filter fun g => g.saving).any fun g =>
        g.core == c && g.resOff ≤ 128 * line && 128 * line < g.resOff + g.resSize }

/-- Stops every placed gang of a graph on a die, frees its harts and scratchpad, and forgets its waiting gangs. -/
def State.stopGraph (s : State) (d : Nat) (graph : Word) : State :=
  let k := s.die d
  let mine := k.placed.filter fun g => g.graph == graph
  let s := mine.foldl (fun s g => (g.harts.filter fun h => !g.exited.contains h).foldl (fun s h => s.modHart h Hart.release) s) s
  let s := mine.foldl (fun s g => s.dropRacks g.core g.harts) s
  let s := s.dropParts ((k.records.filter fun g => g.graph == graph).flatMap SaveRecord.opIds)
  s.modDie d fun k => Die.unpin <| Die.pruneEngine { k with
    placed := k.placed.filter fun g => g.graph != graph
    handed := k.handed.filter fun g => g.graph != graph
    records := k.records.filter fun g => g.graph != graph
    ready := k.ready.filter fun g => g.graph != graph }

/-! ### Taking a trap, and returning from one (15 R321 to R331) -/

/-- ecause of a trap (15 R325). -/
def Trap.cause (t : Trap) (member : Nat) : Word :=
  Word.ofNat (t.imm.toNat * 2 ^ 40 + member % 4 * 2 ^ 34 + t.acc % 4 * 2 ^ 32 + t.sub % 2 ^ 16 * 2 ^ 16 + t.code % 256)

/-- frhdr of a trap's record (15 R328). -/
def Trap.header (t : Trap) (member : Nat) : Word :=
  let ctr := match t.ctr with
    | some c => 2 ^ 36 + c.toNat * 2 ^ 12
    | none => 0
  Word.ofNat (2 ^ 63 + (if t.ovf then 2 ^ 62 else 0) + t.entries.length % 2 ^ 11 * 2 ^ 48 + ctr + member % 4 * 2 ^ 34
    + t.elem % 2 ^ 16 * 2 ^ 16 + t.code % 256)

/-- The code of an environment call (15 R319). -/
def ecallCode : Nat := 0x15

/-- The fault record that a trap leaves in its hart: for an environment call none (15 R321, R327, 02 R56). A status that
a counter held is raised once and then removed (15 R330). -/
def Trap.record (t : Trap) (member : Nat) (h : Hart) : Hart :=
  let h := match t.ctr with
    | some c => { h with stats := h.stats.eraseP fun st => st.ctr == c }
    | none => h
  if t.code = ecallCode then { h with frhdr := h.frhdr &&& ~~~(0x8000000000000000 : Word) }
  else { h with frhdr := t.header member, frEntries := t.entries }

/-- epc, ecause, eaddr, estat and the mode at a trap's entry, and the supervisor's pc (15 R321). -/
def Trap.enter (t : Trap) (member : Nat) (h : Hart) : Hart :=
  { t.record member h with
    epc := if t.code = ecallCode then h.pc + 12 else h.pc
    ecause := t.cause member
    eaddr := t.eaddr
    pm := h.sup
    queue := []
    tail := none
    exl := true
    recSet := t.code ≠ ecallCode
    sup := true
    pc := h.svec }

/-- An entry of the cellar of a hart's core as of a cycle, for the hart or for an engine of the core, with the length of the
history before its bytes; it is due to seal (04 R114). -/
def State.enterAt (s : State) (h : Nat) (engine : Bool) (cycle size born : Nat) (k : CellarKind) : State :=
  let c := coreOf h
  let e : CellarEntry := ⟨s.opSeq, h, engine, cycle, false, size, born, k⟩
  let s := { s.modCore c (fun q => { q with cellar := q.cellar ++ [e] }) with opSeq := s.opSeq + 1 }
  if s.agenda.contains (.cellarSeal c) then s else s.due [.cellarSeal c]

/-- An entry of the cellar that is made now. -/
def State.enter (s : State) (h : Nat) (engine : Bool) (size born : Nat) (k : CellarKind) : State :=
  s.enterAt h engine (s.core (coreOf h)).clock size born k

/-- An entry of the cellar for the hart in focus. -/
def State.hold (s : State) (size : Nat) (k : CellarKind) : State := s.enter s.me false size s.history.length k

/-- Taking a trap: the ONE entry that every exception uses. A hart whose svec is 0, or whose EXL is set, takes no
handler and its graph fails, once that is sealed (15 R321, R322, 19 R391). -/
def State.takeTrapAs (t : Trap) (member : Nat) (s : State) : State :=
  let h := s.my
  let s := { s with disp := .trapped t }
  let fail (s : State) (cause : Nat) : State :=
    match h.gang with
    | none => s
    | some g => s.hold 0 (.failure g.graph g.node cause)
  if h.exl then fail (s.setMy { t.record member h with run := .halted, queue := [], tail := none }) 0x11
  else if h.svec = 0 then fail (s.setMy { t.enter member h with pc := h.pc, sup := h.sup, run := .halted }) 0x10
  else s.setMy (t.enter member h)

/-- A trap of a one-word convoy. -/
def State.takeTrap (t : Trap) (s : State) : State := s.takeTrapAs t 0

/-- ERET's return: epc and the saved mode, EXL, REC and the record's V cleared; every producer that retired before
counts as complete, and the fetch begins afresh (15 R331, 16 R341, 05 R417). -/
def State.returnFromTrap (s : State) : State :=
  let h := s.my
  { s.setMy { h with
      pc := h.epc, sup := h.pm, exl := false, recSet := false
      frhdr := h.frhdr &&& ~~~(0x8000000000000000 : Word)
      early := [], fetchMark := s.history.length } with disp := .jumped }

/-! ### How an instruction leaves its hart -/

namespace State

/-- The word retires, and the next word follows (06 R142). -/
def retire (s : State) : State := { s.setMy { s.my with pc := s.my.pc + 12 } with disp := .retired }

/-- The word retires and transfers control. -/
def jumpTo (s : State) (a : Word) : State := { s.setMy { s.my with pc := a } with disp := .jumped }

/-- The word has not retired, and is issued again. -/
def block (s : State) : State := { s with disp := .blocked }

end State

end Sys2Proof.Machine
end

