-- ==== Sys2Proof/Machine/Devices.lean ====
section
/-! DEFINITION. The device registers of physical SPACE 0x01: which accesses they take, what they read and what a write
does (11 R293 to R303). -/
namespace Sys2Proof.Machine

/-- The die of a package that a physical address names, and the offset within it. -/
def devDie (chip pa : Nat) : Nat := 4 * chip + pa / 2 ^ 38 % 4
def devOffset (pa : Nat) : Nat := pa % 2 ^ 38

/-- What an offset names (11 R293). -/
inductive DevReg where
  | link (peer off : Nat)
  | island (i off : Nat)
  | bridge (off : Nat)
  | mailbox (off : Nat)
  deriving DecidableEq, Repr

/-- The register at an offset of a die; none for an offset not listed. The bridge and the mailbox are present on die 0
(11 R293). -/
def devReg (die off : Nat) : Option DevReg :=
  if off < 0x8000 then some (.link (off / 0x80) (off % 0x80))
  else if 0x10000 ≤ off && off < 0x10800 then some (.island ((off - 0x10000) / 0x10) (off % 0x10))
  else if die % 4 = 0 && 0x20000 ≤ off && off < 0x20020 then some (.bridge (off - 0x20000))
  else if die % 4 = 0 && (off = 0x30000 || off = 0x30008 || (0x30100 ≤ off && off < 0x31000)) then
    some (.mailbox (off - 0x30000))
  else none

/-- An access to a device register is aligned, of 8 bytes, at a listed offset (11 R293). -/
def devAccessOk (chip pa bytes : Nat) : Bool :=
  bytes == 8 && pa % 8 == 0 && (devReg (devDie chip pa) (devOffset pa)).isSome

/-- HLTH0 of a lane (11 R294). -/
def Lane.hlth0 (l : Lane) : Word :=
  Word.ofNat (l.rxp.toNat * 2 ^ 56 + l.pfe.toNat * 2 ^ 48 + l.skew.toNat * 2 ^ 40 + (if l.skov then 2 ^ 39 else 0)
    + l.margin.toNat * 2 ^ 37 + (if l.lock then 2 ^ 36 else 0) + l.lst.toNat * 2 ^ 34)

def Lane.hlth1 (l : Lane) : Word := l.corr ++ l.unc

def laneAt (k : Link) (n : Nat) : Lane := k.lanes.toList.getD n Lane.reset

def Link.setLane (k : Link) (n : Nat) (l : Lane) : Link :=
  { k with lanes := Vector.ofFn fun (i : Fin 4) => if i.val = n then l else k.lanes[i] }

/-- LSTAT (11 R295). -/
def Link.lstat (k : Link) : Word :=
  Word.ofNat (k.act.toNat * 2 ^ 8 + k.lps.toNat * 2 ^ 4 + (if k.busy then 4 else 0) + (if k.refused then 2 else 0)
    + (if k.up then 1 else 0))

def State.island (s : State) (d i : Nat) : Island := Tab.get (s.die d).islands Island.reset i

def State.modIsland (s : State) (d i : Nat) (f : Island → Island) : State :=
  s.modDie d fun k => { k with islands := Tab.set k.islands i (f (Tab.get k.islands Island.reset i)) }

/-- Two chip numbers of one rack of 16 (01 R20). -/
def sameRack (a b : Nat) : Bool := a / 16 == b / 16

/-- The package's bridge port is enabled: of its rack, the package present that the pod configuration names, or the first
one present if it names none (01 R21). -/
def State.bridgeOn (s : State) (chip : Nat) : Bool :=
  s.pod.chips.contains chip && (match s.pod.bridges.find? fun b => sameRack b chip && s.pod.chips.contains b with
    | some b => b == chip
    | none => !(s.pod.chips.any fun c => sameRack c chip && c < chip))

/-- A read of a device register. -/
def State.devRead (s : State) (chip pa : Nat) : Word :=
  let d := devDie chip pa
  let p := s.pkg chip
  match devReg d (devOffset pa) with
  | some (.link peer off) =>
    if peer == d then 0
    else
      let k := s.link d peer
      if off = 0 then Word.ofNat (k.req.toNat * 2 ^ 8 + k.lpsReq.toNat * 2 ^ 4)
      else if off = 8 then k.lstat
      else if off = 0x10 then k.txfl
      else if off = 0x18 then k.rxfl
      else if off < 0x40 then 0
      else
        let l := laneAt k ((off - 0x40) / 0x10)
        if off % 0x10 < 8 then l.hlth0 else l.hlth1
  | some (.island i off) =>
    let k := s.island d i
    if off = 0 then Word.ofNat ((if k.gated then 2 ^ 16 else 0) + (if k.gate then 2 ^ 15 else 0) + k.freq.toNat)
    else k.cur.setWidth 64
  | some (.bridge off) =>
    if off = 0 then Word.ofNat ((if p.x16 then 32 else 0) + p.rate.toNat * 2 + (if s.bridgeOn chip then 1 else 0))
    else if off = 8 then p.apbase
    else if off = 0x10 then p.apjob.setWidth 64
    else 0
  | some (.mailbox off) =>
    if off = 0 then p.mbCmd
    else if off = 8 then p.mbStatus
    else Word.ofNat (natOfBytes ((List.range 8).map fun i => p.mbData.getD (off - 0x100 + i) 0))
  | none => 0

/-! ### Light in use (11 R297, R298) -/

/-- Light that a package's transmit lanes take, in mW. -/
def State.lightUse (s : State) (chip : Nat) : Nat :=
  ([0, 1, 2, 3] : List Nat).foldl (fun n q =>
    let d := 4 * chip + q
    let listed := (s.die d).links.filter fun p => p.1 < 256 && p.1 ≠ d
    let lit := s.bootLit d - (listed.filter fun p => linkIndex d p.1 < s.bootLit d).length
    n + 4 * Config.laneLight 0 * lit + listed.foldl (fun m p => m + 4 * Config.laneLight p.2.lps.toNat) 0) 0

/-! ### Lane sets and laser power (11 R295 to R297) -/

/-- The planes of a set. -/
def planes (p : Nat → Bool) : BitVec 4 := BitVec.ofNat 4 (([0, 1, 2, 3] : List Nat).foldl (fun m n => if p n then m + 2 ^ n else m) 0)

/-- The lanes of a request that can be used: locked, and not dropped (log 27). -/
def Link.usable (k : Link) (req : BitVec 4) : BitVec 4 :=
  planes fun n => req.getLsbD n && (laneAt k n).lock && (laneAt k n).lst != 2

/-- The message of a vector: the address and the data that the host programmed (11 R299). -/
def Package.message (p : Package) (vec : BitVec 6) : BitVec 6 × Word × Word := (vec, Tab.get p.msixTable (0, 0) vec.toNat)

/-- Lanes of a set. -/
def lanesIn (m : BitVec 4) : Nat := (([0, 1, 2, 3] : List Nat).filter m.getLsbD).length

namespace State

/-- A transition of a link begins: its marker is sent, a flit on every lane of the old set (11 R293, R296). -/
def beginTransition (s : State) (d peer : Nat) (next : BitVec 4) (lps : Option (BitVec 2)) : State :=
  let s := s.modLink d peer fun k => { k with
    busy := true, next := next, nextLps := lps, txfl := k.txfl + Word.ofNat (lanesIn k.act) }
  if s.agenda.contains (.markerFlit d peer) then s else s.due [.markerFlit d peer]

/-- REQ written: held while a transition runs; refused if no lane is left (11 R296). -/
def writeReq (s : State) (d peer : Nat) (req : BitVec 4) : State :=
  let k := s.link d peer
  if k.busy then s.modLink d peer fun k => { k with heldReq := some req }
  else if k.usable req = 0 then s.modLink d peer fun k => { k with refused := true }
  else (s.modLink d peer fun k => { k with req := req, refused := false }).beginTransition d peer (k.usable req) none

/-- A request for a laser power state is refused (11 R297). -/
def refusesLps (s : State) (d peer : Nat) (lps : BitVec 2) : Bool :=
  let k := s.link d peer
  let chip := chipOfDie d
  (lps == 1 && ([0, 1, 2, 3] : List Nat).any fun n => k.act.getLsbD n && 2 ≤ (laneAt k n).margin.toNat)
    || (Config.laneLight k.lps.toNat < Config.laneLight lps.toNat
      && (s.pkg chip).grant.toNat < s.lightUse chip + 4 * Config.laneLight lps.toNat - 4 * Config.laneLight k.lps.toNat)

/-- LPS written: held while a transition runs, refused by the rules of light, and otherwise a transition with the lane
set unchanged; lanes that leave L3 relock first (11 R296, R297). -/
def writeLps (s : State) (d peer : Nat) (lps : BitVec 2) : State :=
  let s := s.modLink d peer fun k => { k with lpsReq := lps }
  let k := s.link d peer
  if k.busy then s.modLink d peer fun k => { k with heldLps := some lps }
  else if lps = k.lps then s
  else if s.refusesLps d peer lps then s.modLink d peer fun k => { k with refused := true }
  else
    let s := s.modLink d peer fun k => { k with refused := false }
    if k.lps = 3 then (s.modLink d peer fun k => { k with lps := lps, busy := true, relock := true }).due [.l3Relock d peer]
    else s.beginTransition d peer k.act (some lps)

/-! ### Islands (11 R303) -/

/-- FREQ written: a multiple of 100 from 100 to 2,000; other values are ignored. -/
def writeFreq (s : State) (d i : Nat) (mhz : BitVec 12) : State :=
  if mhz.toNat % 100 ≠ 0 || mhz = 0 || 2000 < mhz.toNat then s
  else (s.modIsland d i fun k => { k with freq := mhz }).due [.freqChangeApplied d i]

/-- GATE written, for a core island. -/
def writeGate (s : State) (d i : Nat) (gate : Bool) : State :=
  if 96 ≤ i || (s.island d i).gate == gate then s
  else (s.modIsland d i fun k => { k with gate := gate, woken := false }).due
    [if gate then .islandGateEntry d i else .islandUngate d i]

/-! ### The bridge and the mailbox (11 R299 to R302) -/

/-- A vector raised, by a port that is enabled: its message is written. -/
def raiseVector (s : State) (chip : Nat) (vec : BitVec 6) : State :=
  if s.bridgeOn chip then s.modPkg chip fun p => { p with msix := p.msix ++ [p.message vec] } else s

end State

/-- Bytes of a list replaced from a place on; the list grows as needed. -/
def replaceBytes (l : List Byte) (off : Nat) (bs : List Byte) : List Byte :=
  (List.range (max l.length (off + bs.length))).map fun i =>
    if off ≤ i ∧ i < off + bs.length then bs.getD (i - off) 0 else l.getD i 0

/-- Bytes of the mailbox's DATA. -/
def mailboxBytes : Nat := 3840

/-- The result of a mailbox command: DATA from its first byte on, CMD and STATUS. -/
def Package.mailbox (p : Package) (cmd : Word) (data : List Byte) : Package :=
  { p with mbCmd := cmd, mbStatus := 1, mbData := replaceBytes p.mbData 0 (data.take mailboxBytes) }

/-- CMD 1: the measurement log, with zeros after it. -/
def Package.giveLog (p : Package) : Package :=
  p.mailbox 1 (p.measured ++ List.replicate (mailboxBytes - p.measured.length) 0)

/-- CMD 2: the identity certificate chain. -/
def Package.giveChain (p : Package) (chip : Nat) : Package := p.mailbox 2 (Config.certChain chip)

/-- CMD 3: a signature of 3,072 bits over the nonce in DATA and the log. -/
def Package.attest (p : Package) (chip : Nat) : Package :=
  let sig := Config.attest chip ((List.range 32).map fun i => p.mbData.getD i 0) p.measured
  p.mailbox 3 ((List.range 384).map fun i => sig.getD i 0)

/-- A value written to CMD (11 R302). -/
def Package.command (p : Package) (chip : Nat) (v : Word) : Package :=
  if v = 1 then p.giveLog
  else if v = 2 then p.giveChain chip
  else if v = 3 then p.attest chip
  else { p with mbCmd := v, mbStatus := 2 }

/-- A write to a device register. Islands above 95 ignore the writes of supervisor code (11 R303). -/
def State.devWrite (s : State) (chip pa : Nat) (v : Word) : State :=
  let d := devDie chip pa
  match devReg d (devOffset pa) with
  | some (.link peer off) =>
    if peer == d then s
    else if off = 0 then (s.writeReq d peer (v.extractLsb' 8 4)).writeLps d peer (v.extractLsb' 4 2)
    else if off = 8 then
      (if v.getLsbD 1 then s.modLink d peer fun k => { k with refused := false } else s)
    else if 0x40 ≤ off && 8 ≤ off % 0x10 then
      s.modLink d peer fun k =>
        let n := (off - 0x40) / 0x10
        k.setLane n { laneAt k n with corr := v.extractLsb' 16 48, unc := v.extractLsb' 0 16 }
    else s
  | some (.island i off) =>
    if off = 0 && i < 96 then (s.writeFreq d i (v.extractLsb' 0 12)).writeGate d i (v.getLsbD 15) else s
  | some (.bridge off) =>
    if off = 8 then s.modPkg chip fun p =>
      { p with apbase := ((v >>> 36) <<< 36) ||| 0x8000000000000000 }
    else if off = 0x10 then s.modPkg chip fun p => { p with apjob := v.setWidth 12 }
    else if off = 0x18 then s.raiseVector chip (v.setWidth 6)
    else s
  | some (.mailbox off) =>
    if off = 0 then s.modPkg chip fun p => p.command chip v
    else if off = 8 then s
    else s.modPkg chip fun p => { p with mbData := replaceBytes p.mbData (off - 0x100) (bytesOfNat 8 v.toNat) }
  | none => s

end Sys2Proof.Machine
end

