-- ==== Sys2Proof/Machine/Numeric.lean ====
section
/-! DEFINITION. The number formats, their exact values, and the one rounding that every floating result takes
(03 R73 to R83, R416). -/
namespace Sys2Proof

/-! ### Integer formats (03 R76) -/

/-- Width in bits of an element, a raw element counting as 32; e2m1 is 4, tern and mask8 count by the byte. -/
def Fmt.bits : Fmt → Nat
  | .i8 | .n8 | .e4m3 | .e5m2 | .e8m0 | .tern | .mask8 => 8
  | .i16 | .bf16 | .fp16 => 16
  | .raw | .i32 | .fp32 => 32
  | .i64 => 64
  | .e2m1 => 4

def Fmt.isInt : Fmt → Bool
  | .i8 | .n8 | .i16 | .i32 | .i64 => true
  | _ => false

/-- The formats of vector arithmetic that are floating (03 R70). -/
def Fmt.isFloat : Fmt → Bool
  | .fp32 | .bf16 | .fp16 => true
  | _ => false

namespace Machine

/-- The flags that one element raises (03 R66). -/
structure Raised where
  nfs : Bool := false
  sat : Bool := false
  iv : Bool := false
  dz : Bool := false
  ovf : Bool := false
  unf : Bool := false
  nx : Bool := false
  deriving DecidableEq, Repr

def Raised.or (a b : Raised) : Raised :=
  ⟨a.nfs || b.nfs, a.sat || b.sat, a.iv || b.iv, a.dz || b.dz, a.ovf || b.ovf, a.unf || b.unf, a.nx || b.nx⟩

def Raised.ofIv (b : Bool) : Raised := { iv := b }

/-- An exact value: a NaN (signalling or quiet), an infinity, or ±m·2^e, a zero having its sign. -/
inductive Val where
  | nan (sig : Bool)
  | inf (neg : Bool)
  | fin (neg : Bool) (m : Nat) (e : Int)
  deriving DecidableEq, Repr

namespace Val

def zero : Val := .fin false 0 0
def one : Val := .fin false 1 0

def isNan : Val → Bool
  | .nan _ => true
  | _ => false

def isSig : Val → Bool
  | .nan s => s
  | _ => false

def isInf : Val → Bool
  | .inf _ => true
  | _ => false

def isZero : Val → Bool
  | .fin _ m _ => m == 0
  | _ => false

def isNeg : Val → Bool
  | .nan _ => false
  | .inf n => n
  | .fin n _ _ => n

def ofInt (i : Int) : Val := .fin (decide (i < 0)) i.natAbs 0

end Val

/-- An element read as an integer of its format: two's complement, n8 unsigned. -/
def intOf (f : Fmt) (bits : Nat) : Int :=
  if f == .n8 then (bits : Int) else (BitVec.ofNat f.bits bits).toInt

/-- An integer wrapped to the format's width (03 R83). -/
def wrapInt (f : Fmt) (i : Int) : Nat := (BitVec.ofInt f.bits i).toNat

def intMin (f : Fmt) : Int := if f == .n8 then 0 else -(2 ^ (f.bits - 1) : Int)
def intMax (f : Fmt) : Int := if f == .n8 then 255 else 2 ^ (f.bits - 1) - 1

/-- An integer clamped to the format's range, with whether it was clamped. -/
def clampInt (f : Fmt) (i : Int) : Int × Bool :=
  if i < intMin f then (intMin f, true) else if intMax f < i then (intMax f, true) else (i, false)

/-! ### Floating formats (03 R73 to R75) -/

/-- A floating format: exponent and mantissa bits, bias, and its special codes. -/
structure FpFmt where
  eb : Nat
  mb : Nat
  bias : Int
  /-- the top exponent holds infinity and NaNs -/
  ieee : Bool
  /-- the all-ones code is the only NaN (e4m3) -/
  topNan : Bool
  deriving DecidableEq, Repr

def fpFmt : Fmt → FpFmt
  | .bf16 => ⟨8, 7, 127, true, false⟩
  | .fp16 => ⟨5, 10, 15, true, false⟩
  | .e5m2 => ⟨5, 2, 15, true, false⟩
  | .e4m3 => ⟨4, 3, 7, false, true⟩
  | .e2m1 => ⟨2, 1, 1, false, false⟩
  | _ => ⟨8, 23, 127, true, false⟩

def FpFmt.width (f : FpFmt) : Nat := 1 + f.eb + f.mb

/-- The largest finite code, without its sign. -/
def FpFmt.maxCode (f : FpFmt) : Nat :=
  if f.ieee then (2 ^ f.eb - 1) * 2 ^ f.mb - 1
  else if f.topNan then 2 ^ (f.eb + f.mb) - 2
  else 2 ^ (f.eb + f.mb) - 1

def FpFmt.infCode (f : FpFmt) : Nat := (2 ^ f.eb - 1) * 2 ^ f.mb

/-- The canonical NaN (03 R73); e2m1 has none, and gives 0 (03 R81). -/
def FpFmt.nanCode (f : FpFmt) : Nat :=
  if f.ieee then f.infCode + 2 ^ (f.mb - 1)
  else if f.topNan then 2 ^ (f.eb + f.mb) - 1
  else 0

def FpFmt.signed (f : FpFmt) (neg : Bool) (code : Nat) : Nat := if neg then code + 2 ^ (f.eb + f.mb) else code

/-- The exact value of a code. -/
def decodeFp (f : FpFmt) (bits : Nat) : Val :=
  let code := bits % 2 ^ (f.eb + f.mb)
  let neg := bits / 2 ^ (f.eb + f.mb) % 2 == 1
  let ex := code / 2 ^ f.mb
  let man := code % 2 ^ f.mb
  if f.ieee && ex == 2 ^ f.eb - 1 then
    if man == 0 then .inf neg else .nan (man / 2 ^ (f.mb - 1) == 0)
  else if f.topNan && code == 2 ^ (f.eb + f.mb) - 1 then .nan false
  else if ex == 0 then .fin neg man (1 - f.bias - f.mb)
  else .fin neg (man + 2 ^ f.mb) ((ex : Int) - f.bias - f.mb)

/-- An e8m0 scale (03 R75). -/
def decodeE8m0 (bits : Nat) : Val :=
  if bits % 256 == 255 then .nan false else .fin false 1 ((bits % 256 : Nat) - 127 : Int)

/-- The number of bits of a natural number. -/
def bitLen (n : Nat) : Nat := if n == 0 then 0 else Nat.log2 n + 1

/-- Whether rounding goes up in magnitude: `rem` against `half`, and a nonzero part below both (03 R79). -/
def roundUp (rm : Rm) (neg odd : Bool) (rem half : Nat) (sticky : Bool) : Bool :=
  let exact := rem == 0 && !sticky
  match rm with
  | .rne => decide (half < rem) || (rem == half && (sticky || odd))
  | .rna => decide (half ≤ rem)
  | .rtz => false
  | .rdn => neg && !exact
  | .rup => !neg && !exact

/-- The code that magnitude (m + δ)·2^e rounds to, δ being nonzero below 1 when `sticky`, with its flags
(03 R80, R81). A sticky magnitude is given with more bits than the format keeps. -/
def roundMag (f : FpFmt) (rm : Rm) (neg : Bool) (m : Nat) (e : Int) (sticky : Bool) : Nat × Raised :=
  if m == 0 && !sticky then (f.signed neg 0, {})
  else
    let top := e + (bitLen m : Int) - 1
    let emin : Int := 1 - f.bias
    let q := (if top < emin then emin else top) - f.mb
    let sh := (q - e).toNat
    let kept := if q ≤ e then m * 2 ^ (e - q).toNat else m / 2 ^ sh
    let rem := if q ≤ e then 0 else m % 2 ^ sh
    let half := if q ≤ e then 1 else 2 ^ (sh - 1)
    let inexact := rem != 0 || sticky
    let kept' := if roundUp rm neg (kept % 2 == 1) rem half sticky then kept + 1 else kept
    let code := kept' + (q - (emin - f.mb)).toNat * 2 ^ f.mb
    if f.maxCode < code then
      let toInf := f.ieee && (match rm with
        | .rne | .rna => true
        | .rtz => false
        | .rdn => neg
        | .rup => !neg)
      (f.signed neg (if toInf then f.infCode else f.maxCode), { ovf := true, nx := true })
    else
      (f.signed neg code, { nx := inexact, unf := inexact && decide (top < emin) })

/-- The code of an exact value in a floating format (03 R80 to R82). A quiet NaN raises nothing where the format has
NaNs; an infinity saturates with IV where the format has none. -/
def roundVal (f : FpFmt) (rm : Rm) (v : Val) : Nat × Raised :=
  match v with
  | .nan sig => (f.nanCode, { iv := sig || !(f.ieee || f.topNan) })
  | .inf neg => if f.ieee then (f.signed neg f.infCode, {}) else (f.signed neg f.maxCode, { iv := true })
  | .fin neg m e => roundMag f rm neg m e false

/-! ### Exact arithmetic on values (03 R82, R416) -/

def Val.neg : Val → Val
  | .nan s => .nan s
  | .inf n => .inf (!n)
  | .fin n m e => .fin (!n) m e

def Val.abs : Val → Val
  | .nan s => .nan s
  | .inf _ => .inf false
  | .fin _ m e => .fin false m e

/-- ±m·2^e as an integer multiple of 2^lo, for lo at most e. -/
def scaledInt (neg : Bool) (m : Nat) (e lo : Int) : Int :=
  let k : Int := (m : Int) * 2 ^ (e - lo).toNat
  if neg then -k else k

/-- The exact product, with whether it is invalid: a signalling NaN, or zero times infinity. -/
def mulVal (a b : Val) : Val × Bool :=
  match a, b with
  | .nan s, b => (.nan false, s || b.isSig)
  | _, .nan s => (.nan false, s)
  | .inf n, b => if b.isZero then (.nan false, true) else (.inf (n != b.isNeg), false)
  | a, .inf n => if a.isZero then (.nan false, true) else (.inf (n != a.isNeg), false)
  | .fin n m e, .fin n' m' e' => (.fin (n != n') (m * m') (e + e'), false)

/-- The sign that a zero sum of finite terms takes (03 R416). -/
def zeroSumNeg (rm : Rm) (terms : List Val) : Bool :=
  if terms.isEmpty then false
  else if terms.all fun t => t.isZero && t.isNeg then true
  else if terms.all fun t => t.isZero && !t.isNeg then false
  else rm == .rdn

def minExp (terms : List Val) : Int :=
  terms.foldl (fun lo t => match t with
    | .fin _ m e => if m != 0 && e < lo then e else lo
    | _ => lo) 0

/-- The exact sum of any number of terms, with whether it is invalid (03 R82, R416). A quiet NaN among the terms gives a NaN and
no IV, opposite infinities beside it or not (DESIGN CHOICE, log 94). -/
def sumVals (rm : Rm) (terms : List Val) : Val × Bool :=
  if terms.any Val.isNan then (.nan false, terms.any Val.isSig)
  else
    let pos := terms.any fun t => t.isInf && !t.isNeg
    let neg := terms.any fun t => t.isInf && t.isNeg
    if pos && neg then (.nan false, true)
    else if pos then (.inf false, false)
    else if neg then (.inf true, false)
    else
      let lo := minExp terms
      let s := terms.foldl (fun acc t => match t with
        | .fin n m e => if m == 0 then acc else acc + scaledInt n m e lo
        | _ => acc) (0 : Int)
      if s = 0 then (.fin (zeroSumNeg rm terms) 0 0, false)
      else (.fin (decide (s < 0)) s.natAbs lo, false)

def addVal (rm : Rm) (a b : Val) : Val × Bool := sumVals rm [a, b]

/-- a·b + c exactly (08 R211): zero times infinity is invalid even when c is a NaN. -/
def fmaVal (rm : Rm) (a b c : Val) : Val × Bool :=
  let p := mulVal a b
  let s := addVal rm p.1 c
  (s.1, p.2 || s.2)

/-- Order of two values that are no NaN; −0 equals +0. -/
def cmpVal (a b : Val) : Ordering :=
  match a, b with
  | .inf n, .inf n' => if n == n' then .eq else if n then .lt else .gt
  | .inf n, _ => if n then .lt else .gt
  | _, .inf n => if n then .gt else .lt
  | .fin n m e, .fin n' m' e' =>
    let lo := if e < e' then e else e'
    compare (scaledInt n m e lo) (scaledInt n' m' e' lo)
  | _, _ => .eq

/-- Whether a is below b in the order of min and max, where −0 is below +0 (03 R89, 08 R210). -/
def belowVal (a b : Val) : Bool :=
  match cmpVal a b with
  | .lt => true
  | .gt => false
  | .eq => a.isZero && b.isZero && a.isNeg && !b.isNeg

/-- Floating minimum or maximum (08 R210). -/
def minMaxVal (isMax : Bool) (a b : Val) : Val × Bool :=
  if a.isNan || b.isNan then (.nan false, a.isSig || b.isSig)
  else if belowVal a b then (if isMax then b else a, false)
  else (if isMax then a else b, false)

/-! ### Division, roots, powers and logarithms: magnitudes with a sticky part (08 R212) -/

/-- The integer square root, by its bits from the highest. -/
def isqrt (n : Nat) : Nat :=
  let k := bitLen n / 2 + 1
  (List.range k).foldl (fun r i =>
    let c := r + 2 ^ (k - 1 - i)
    if c * c ≤ n then c else r) 0

/-- The quotient of two magnitudes: (m + δ)·2^e. -/
def divMag (m m' : Nat) (e e' : Int) : Nat × Int × Bool :=
  let k := 80 + bitLen m'
  let n := m * 2 ^ k
  (n / m', e - e' - k, n % m' != 0)

/-- The square root of a magnitude. -/
def sqrtMag (m : Nat) (e : Int) : Nat × Int × Bool :=
  let k : Nat := if e % 2 == 0 then 160 else 161
  let n := m * 2 ^ k
  let r := isqrt n
  (r, (e - k) / 2, r * r != n)

/-- The reciprocal square root of a magnitude. -/
def rsqrtMag (m : Nat) (e : Int) : Nat × Int × Bool :=
  let m' := if e % 2 == 0 then m else 2 * m
  let h := if e % 2 == 0 then e / 2 else (e - 1) / 2
  let k := 100 + bitLen m'
  let r := isqrt (2 ^ (2 * k) / m')
  (r, -(k : Int) - h, r * r * m' != 2 ^ (2 * k))

/-- Fraction bits that powers and logarithms are computed with. -/
def seriesBits : Nat := 320

/-- ln 2 with `seriesBits` fraction bits, by the series of 1/(k·2^k). -/
def ln2Fixed : Nat :=
  ((List.range 345).foldl (fun acc i => acc + 2 ^ (seriesBits + 24) / ((i + 1) * 2 ^ (i + 1))) 0) / 2 ^ 24

/-- 2^f with `seriesBits` fraction bits, for f in [0, 1), by the exponential series. -/
def exp2Fixed (f : Nat) : Nat :=
  let t := f * ln2Fixed / 2 ^ seriesBits
  ((List.range 96).foldl (fun (s : Nat × Nat) i =>
    let term := s.2 * t / 2 ^ seriesBits / (i + 1)
    (s.1 + term, term)) (2 ^ seriesBits, 2 ^ seriesBits)).1

/-- 2^x of a finite nonzero x that is no integer or lies far outside every range: (m + δ)·2^e (log 12). -/
def exp2Mag (neg : Bool) (m : Nat) (e : Int) : Nat × Int × Bool :=
  if (12 : Int) < e + bitLen m then (2 ^ 64, if neg then -4096 else 4096, true)
  else
    let fx : Int := scaledInt neg (m * 2 ^ (e + seriesBits).toNat / 2 ^ (-(e + seriesBits)).toNat) 0 0
    let n := fx / (2 ^ seriesBits : Int)
    let f := (fx - n * (2 ^ seriesBits : Int)).toNat
    if f == 0 then (2 ^ 64, n - 64, false)
    else (exp2Fixed f / 2 ^ 16, n - (seriesBits : Int) + 16, true)

/-- Fraction bits of a logarithm, and the working precision of its squarings. -/
def logBits : Nat := 170
def logWork : Nat := 420

/-- log2 of y in [1, 2), given with `logWork` fraction bits: `logBits` fraction bits, truncated. -/
def log2Fixed (y : Nat) : Nat :=
  ((List.range logBits).foldl (fun (s : Nat × Nat) _ =>
    let y2 := s.1 * s.1 / 2 ^ logWork
    if 2 ^ (logWork + 1) ≤ y2 then (y2 / 2, 2 * s.2 + 1) else (y2, 2 * s.2)) (y, 0)).2

/-- log2 of a positive magnitude: its sign and (m + δ)·2^e (log 12). -/
def log2Mag (m : Nat) (e : Int) : Bool × Nat × Int × Bool :=
  let len := bitLen m
  let n := e + len - 1
  if m == 2 ^ (len - 1) then (decide (n < 0), n.natAbs, 0, false)
  else
    let frac := log2Fixed (m * 2 ^ logWork / 2 ^ (len - 1))
    if 0 ≤ n then (false, n.toNat * 2 ^ logBits + frac, -(logBits : Int), true)
    else (true, (-n).toNat * 2 ^ logBits - frac - 1, -(logBits : Int), true)

/-- A result that is the magnitude (m + δ)·2^e, rounded once. -/
def roundTriple (f : FpFmt) (rm : Rm) (neg : Bool) (t : Nat × Int × Bool) : Nat × Raised :=
  roundMag f rm neg t.1 t.2.1 t.2.2

/-- The canonical NaN with IV or without. -/
def nanResult (f : FpFmt) (iv : Bool) : Nat × Raised := (f.nanCode, { iv := iv })

/-- Floating division (08 R212). -/
def fpDiv (f : FpFmt) (rm : Rm) (a b : Val) : Nat × Raised :=
  match a, b with
  | .nan s, b => nanResult f (s || b.isSig)
  | _, .nan s => nanResult f s
  | .inf _, .inf _ => nanResult f true
  | .inf n, .fin n' _ _ => (f.signed (n != n') f.infCode, {})
  | .fin n _ _, .inf n' => (f.signed (n != n') 0, {})
  | .fin n m e, .fin n' m' e' =>
    if m' == 0 then
      if m == 0 then nanResult f true else (f.signed (n != n') f.infCode, { dz := true })
    else if m == 0 then (f.signed (n != n') 0, {})
    else roundTriple f rm (n != n') (divMag m m' e e')

/-- VSQRT, VRCP, VRSQ, VEXP2 and VLOG2 on one element (08 R212). -/
def fpSqrt (f : FpFmt) (rm : Rm) (a : Val) : Nat × Raised :=
  match a with
  | .nan s => nanResult f s
  | .inf n => if n then nanResult f true else (f.infCode, {})
  | .fin n m e =>
    if m == 0 then (f.signed n 0, {}) else if n then nanResult f true else roundTriple f rm false (sqrtMag m e)

def fpRcp (f : FpFmt) (rm : Rm) (a : Val) : Nat × Raised :=
  match a with
  | .nan s => nanResult f s
  | .inf n => (f.signed n 0, {})
  | .fin n m e =>
    if m == 0 then (f.signed n f.infCode, { dz := true }) else roundTriple f rm n (divMag 1 m 0 e)

def fpRsq (f : FpFmt) (rm : Rm) (a : Val) : Nat × Raised :=
  match a with
  | .nan s => nanResult f s
  | .inf n => if n then nanResult f true else (0, {})
  | .fin n m e =>
    if m == 0 then (f.signed n f.infCode, { dz := true })
    else if n then nanResult f true else roundTriple f rm false (rsqrtMag m e)

def fpExp2 (f : FpFmt) (rm : Rm) (a : Val) : Nat × Raised :=
  match a with
  | .nan s => nanResult f s
  | .inf n => (if n then 0 else f.infCode, {})
  | .fin n m e => if m == 0 then roundVal f rm Val.one else roundTriple f rm false (exp2Mag n m e)

def fpLog2 (f : FpFmt) (rm : Rm) (a : Val) : Nat × Raised :=
  match a with
  | .nan s => nanResult f s
  | .inf n => if n then nanResult f true else (f.infCode, {})
  | .fin n m e =>
    if m == 0 then (f.signed true f.infCode, { dz := true })
    else if n then nanResult f true
    else
      let t := log2Mag m e
      roundTriple f rm t.1 t.2

/-- A finite magnitude rounded to an integer in a mode (08 R212, 03 R83). -/
def roundInt (rm : Rm) (neg : Bool) (m : Nat) (e : Int) : Nat × Bool :=
  if 0 ≤ e then (m * 2 ^ e.toNat, false)
  else
    let sh := (-e).toNat
    let kept := m / 2 ^ sh
    let rem := m % 2 ^ sh
    (if roundUp rm neg (kept % 2 == 1) rem (2 ^ (sh - 1)) false then kept + 1 else kept, rem != 0)

/-- VROUND on one element: an integral value of the same format, without NX (08 R212). -/
def fpRound (f : FpFmt) (rm : Rm) (a : Val) : Nat × Raised :=
  match a with
  | .nan s => nanResult f s
  | .inf n => (f.signed n f.infCode, {})
  | .fin n m e =>
    let r := roundInt rm n m e
    ((roundMag f .rtz n r.1 0 false).1, {})

/-- A floating value converted to an integer format (03 R83). -/
def toIntFmt (t : Fmt) (rm : Rm) (v : Val) : Nat × Raised :=
  match v with
  | .nan _ => (0, { iv := true })
  | .inf n => (wrapInt t (if n then intMin t else intMax t), { iv := true })
  | .fin n m e =>
    let r := roundInt rm n m e
    let i : Int := if n then -(r.1 : Int) else r.1
    let c := clampInt t i
    if c.2 then (wrapInt t c.1, { iv := true }) else (wrapInt t i, { nx := r.2 })

/-! ### Elements of any format as values -/

/-- The exact value of an element's bits; tern elements are trits given as 0, 1, 2. -/
def elemVal (f : Fmt) (bits : Nat) : Val :=
  match f with
  | .i8 | .n8 | .i16 | .i32 | .i64 => Val.ofInt (intOf f bits)
  | .e8m0 => decodeE8m0 bits
  | .tern => Val.ofInt ((bits % 3 : Nat) - 1 : Int)
  | .raw | .mask8 => Val.ofInt (intOf .i32 bits)
  | _ => decodeFp (fpFmt f) bits

/-- One element converted from format s to t (08 R217, 03 R80 to R83). An integer that a target of the same width cannot hold
saturates there with SAT, which R83 states for narrower targets only (DESIGN CHOICE, log 93). -/
def convertElem (s t : Fmt) (rm : Rm) (bits : Nat) : Nat × Raised :=
  let v := elemVal s bits
  if t.isInt then
    if s.isInt || s == .tern then
      match v with
      | .fin n m _ =>
        let c := clampInt t (if n then -(m : Int) else m)
        (wrapInt t c.1, { sat := c.2 })
      | _ => (0, {})
    else toIntFmt t rm v
  else
    let r := roundVal (fpFmt t) rm v
    match v with
    | .nan _ => if s == .e8m0 then (r.1, { r.2 with iv := true }) else r
    | _ => r

/-- The value of a block-scale byte: its NaNs are quiet and raise nothing by themselves (03 R86, R88). -/
def scaleVal (f : ScaleFmt) (byte : Nat) : Val :=
  let v := match f with
    | .e8m0 => decodeE8m0 byte
    | .e5m2 => decodeFp (fpFmt .e5m2) byte
    | .e4m3 => decodeFp (fpFmt .e4m3) byte
  if v.isNan then .nan false else v

end Machine

end Sys2Proof
end

