-- ==== Sys2Proof/Machine/Operands.lean ====
section
/-! DEFINITION. Operand forms: registers read and written through the fields of a word, elements of vector registers,
and the registers that each instruction reads and writes (03 R58 to R62, 06 R143 to R146, 08 R203 to R206). -/
namespace Sys2Proof

def Operand.modifier : Operand → Modifier
  | .main _ m | .oper _ m | .last _ m => m
  | .const _ => .plain

/-- A source that carries a format tag: no constant and no broadcast (03 R70). -/
def Operand.tagged (o : Operand) : Bool :=
  match o with
  | .const _ => false
  | o => o.modifier != .broadcast

namespace Machine

/-! ### Registers -/

namespace Hart

def xr (h : Hart) (i : BitVec 6) : Word := if i = 0 then 0 else h.x[i.toNat]'i.isLt

/-- A predicate; p0 reads all ones (03 R58). -/
def pr (h : Hart) (i : BitVec 4) : BitVec 1024 := if i = 0 then BitVec.allOnes 1024 else h.p[i.toNat]'i.isLt

def vr (h : Hart) (i : BitVec 6) : TReg 8192 := h.v[i.toNat]'i.isLt
def zr (h : Hart) (i : BitVec 3) : TReg 20480 := h.z[i.toNat]'i.isLt
def or (h : Hart) (i : BitVec 3) : TReg 8192 := h.o[i.toNat]'i.isLt
def lr (h : Hart) (i : BitVec 2) : TReg 8192 := h.l[i.toNat]'i.isLt

/-- A register is rewritten as a whole: no early read and no poison of it remain. -/
def rewritten (h : Hart) (r : RegId) : Hart :=
  { h with early := h.early.filter fun e => e.reg ≠ r, poison := h.poison.filter fun e => e.reg ≠ r }

/-- A write to x0 is discarded (03 R59). -/
def setX (h : Hart) (i : BitVec 6) (v : Word) : Hart :=
  if i = 0 then h else { h.rewritten (.x i) with x := h.x.set i.toNat v i.isLt }

/-- A write to p0 is discarded (03 R59). -/
def setP (h : Hart) (i : BitVec 4) (v : BitVec 1024) : Hart :=
  if i = 0 then h else { h.rewritten (.p i) with p := h.p.set i.toNat v i.isLt }

def setV (h : Hart) (i : BitVec 6) (v : TReg 8192) : Hart := { h with v := h.v.set i.toNat v i.isLt }
def setZ (h : Hart) (i : BitVec 3) (v : TReg 20480) : Hart := { h with z := h.z.set i.toNat v i.isLt }
def setO (h : Hart) (i : BitVec 3) (v : TReg 8192) : Hart := { h with o := h.o.set i.toNat v i.isLt }
def setL (h : Hart) (i : BitVec 2) (v : TReg 8192) : Hart := { h with l := h.l.set i.toNat v i.isLt }

/-- l0 receives a 64-bit result: zeros above, tag i64 (03 R61). -/
def setL0 (h : Hart) (v : Word) : Hart := (h.rewritten (.l 0)).setL 0 ⟨.i64, v.setWidth 8192⟩

/-- The contents of a register, by name. -/
def regVal (h : Hart) : RegId → RegVal
  | .x i => .scalar (h.xr i)
  | .v i => .vec (h.vr i)
  | .p i => .pred (h.pr i)
  | .z i => .accum (h.zr i)
  | .o i => .vec (h.or i)
  | .l i => .vec (h.lr i)

/-- A register replaced by given contents, as a reader sees it. -/
def withReg (h : Hart) (r : RegId) (c : RegVal) : Hart :=
  match r, c with
  | .x i, .scalar v => { h with x := h.x.set i.toNat v i.isLt }
  | .v i, .vec v => h.setV i v
  | .p i, .pred v => { h with p := h.p.set i.toNat v i.isLt }
  | .z i, .accum v => h.setZ i v
  | .o i, .vec v => h.setO i v
  | .l i, .vec v => h.setL i v
  | _, _ => h

/-- A scalar source: x register, l0 or constant (07 R172). -/
def xSrc (h : Hart) (o : Operand) : Word :=
  match o with
  | .main i _ => h.xr i
  | .last _ _ => (h.lr 0).bits.setWidth 64
  | .const k => k.signExtend 64
  | .oper _ _ => 0

/-- A scalar result: the register, if one is named, and l0 (03 R61, 06 R145). -/
def putX (h : Hart) (d : Operand) (v : Word) : Hart :=
  match d with
  | .main i _ => (h.setX i v).setL0 v
  | _ => h.setL0 v

/-- A scalar result that reaches no L entry (03 R61, VEXT). -/
def putXOnly (h : Hart) (d : Operand) (v : Word) : Hart :=
  match d with
  | .main i _ => h.setX i v
  | _ => h

/-- The predicate, accumulator, counter, barrier or loop counter that a tier-M field names. -/
def predOf (o : Operand) : BitVec 4 :=
  match o with
  | .main i _ => i.setWidth 4
  | _ => 0

def accOf (o : Operand) : BitVec 3 :=
  match o with
  | .main i _ => i.setWidth 3
  | _ => 0

def pSrc (h : Hart) (o : Operand) : BitVec 1024 := h.pr (predOf o)

end Hart

def idxOf (o : Operand) : BitVec 6 :=
  match o with
  | .main i _ => i
  | .oper i _ => i.setWidth 6
  | .last i _ => i.setWidth 6
  | .const _ => 0

def ctrOf (o : Operand) : BitVec 3 := (idxOf o).setWidth 3
def lvlOf (o : Operand) : BitVec 2 := (idxOf o).setWidth 2

/-! ### Guards (06 R146, 03 R60) -/

/-- Bit k of a guard. -/
def Hart.guardBit (h : Hart) (g : Guard) (k : Nat) : Bool := ((h.pr g.p).getLsbD k) != g.inv

/-- The predicate bit that governs element i of a format. -/
def predIndex (f : Fmt) (i : Nat) : Nat :=
  match f with
  | .e2m1 => i / 2
  | .tern => i / 5
  | _ => i

def Hart.selects (h : Hart) (g : Guard) (f : Fmt) (i : Nat) : Bool := h.guardBit g (predIndex f i)

/-! ### Elements -/

/-- Elements of a format in one register of a core, from its vlmax (07 R181). -/
def elemsPer (f : Fmt) (vm : Nat) : Nat :=
  match f with
  | .raw | .i32 | .fp32 => vm
  | .i16 | .bf16 | .fp16 => 2 * vm
  | .i8 | .n8 | .e4m3 | .e5m2 | .e8m0 | .mask8 => 4 * vm
  | .e2m1 => 8 * vm
  | .tern => 20 * vm
  | .i64 => vm / 2

/-- vlmax of a core (09 R398): 64 for each lane group it reports. -/
def Core.vlmax (c : Core) : Nat := 64 * c.groups

/-- Bits of one element that moves as a unit: e2m1, tern and mask8 move as bytes (08 R225, 09 R239). -/
def moveBits (f : Fmt) : Nat :=
  match f with
  | .e2m1 | .tern | .mask8 => 8
  | _ => f.bits

/-- Units of a format in one register. -/
def movesPer (f : Fmt) (vm : Nat) : Nat :=
  match f with
  | .e2m1 | .tern | .mask8 => 4 * vm
  | _ => elemsPer f vm

/-- Units that n elements take: vl counts elements, and in forms that move bytes the last byte is moved whole though only a part
of it lies below n (DESIGN CHOICE, log 106; 09 R239 states it for memory words). -/
def movesOf (f : Fmt) (n : Nat) : Nat :=
  match f with
  | .e2m1 => (n + 1) / 2
  | .tern => (n + 4) / 5
  | _ => n

/-- Element i of w bits. -/
def getElem {k : Nat} (b : BitVec k) (w i : Nat) : Nat := (b.extractLsb' (w * i) w).toNat

/-- Element i of w bits replaced. -/
def setElem {k : Nat} (b : BitVec k) (w i v : Nat) : BitVec k :=
  (b &&& ~~~((BitVec.ofNat k (2 ^ w - 1)) <<< (w * i))) ||| ((BitVec.ofNat k (v % 2 ^ w)) <<< (w * i))

/-- Elements replaced in order, the last one of an index standing. -/
def setElems {k : Nat} (b : BitVec k) (w : Nat) (ws : List (Nat × Nat)) : BitVec k :=
  ws.foldl (fun b p => setElem b w p.1 p.2) b

/-- Digit i of a register of trits: 0, 1 or 2 for −1, 0 and +1; an illegal byte has digits of value 0 (03 R77). -/
def getTrit {k : Nat} (b : BitVec k) (i : Nat) : Nat :=
  let byte := getElem b 8 (i / 5)
  if 243 ≤ byte then 1 else byte / 3 ^ (i % 5) % 3

/-- Digit i rewritten; the other digits of an illegal byte are taken as 0 (08 R220, 16 R343). -/
def setTrit {k : Nat} (b : BitVec k) (i t : Nat) : BitVec k :=
  let old := getElem b 8 (i / 5)
  let byte := if 243 ≤ old then 121 else old
  let digit := byte / 3 ^ (i % 5) % 3
  setElem b 8 (i / 5) (byte - digit * 3 ^ (i % 5) + t * 3 ^ (i % 5))

/-- The bits of one element of a format. -/
def fmtElem {k : Nat} (b : BitVec k) (f : Fmt) (i : Nat) : Nat :=
  if f == .tern then getTrit b i else getElem b f.bits i

/-- The register that a vector operand names. -/
def Hart.vecReg (h : Hart) (o : Operand) : TReg 8192 :=
  match o with
  | .main i _ => h.vr i
  | .oper i _ => h.or i
  | .last i _ => h.lr i
  | .const _ => TReg.zero 8192

/-- Formats whose elements have a sign bit. -/
def signBit (f : Fmt) : Bool :=
  match f with
  | .fp32 | .bf16 | .fp16 | .e4m3 | .e5m2 | .e2m1 => true
  | _ => false

/-- A modifier's effect on an element of w bits (06 R144). -/
def applyMod (f : Fmt) (m : Modifier) (v : Nat) : Nat :=
  let w := f.bits
  let neg (v : Nat) : Nat := if signBit f then (if 2 ^ (w - 1) ≤ v then v - 2 ^ (w - 1) else v + 2 ^ (w - 1)) else (2 ^ w - v) % 2 ^ w
  let abs (v : Nat) : Nat :=
    if signBit f then v % 2 ^ (w - 1) else if f != .n8 && 2 ^ (w - 1) ≤ v then (2 ^ w - v) % 2 ^ w else v
  match m with
  | .plain | .broadcast => v
  | .negate => neg v
  | .absolute => abs v
  | .negAbs => neg (abs v)

/-- A tier-K source in a format: modulo 2^w for integers, rounded RNE for floating formats; a byte where the format is
neither (08 R205, log 13). -/
def constElem (f : Fmt) (k : BitVec 10) : Nat :=
  match f with
  | .fp32 | .bf16 | .fp16 | .e4m3 | .e5m2 | .e2m1 => (roundVal (fpFmt f) .rne (Val.ofInt k.toInt)).1
  | .tern => (k.toInt + 1).toNat % 3
  | _ => (BitVec.ofInt f.bits k.toInt).toNat

/-- Element i of a vector source in a format, after its modifier (06 R144, 08 R205). -/
def Hart.srcElem (h : Hart) (o : Operand) (f : Fmt) (i : Nat) : Nat :=
  match o with
  | .const k => constElem f k
  | .main x .broadcast => if f == .tern then getTrit (h.xr x) (i % 5) else (h.xr x).toNat % 2 ^ f.bits
  | o => applyMod f o.modifier (fmtElem (h.vecReg o).bits f i)

/-- Unit i of a vector source that moves in units (08 R209, R225). -/
def Hart.srcUnit (h : Hart) (o : Operand) (f : Fmt) (i : Nat) : Nat :=
  match f with
  | .e2m1 => h.srcElem o f (2 * i) + 16 * h.srcElem o f (2 * i + 1)
  | .tern | .mask8 => match o with
    | .const k => k.toNat % 256
    | .main x .broadcast => (h.xr x).toNat % 256
    | o => getElem (h.vecReg o).bits 8 i
  | f => h.srcElem o f i

/-! ### Vector results (03 R61, R69) -/

/-- A rewriting of a register's bits covers the whole register. -/
def coversAll {n : Nat} (f : BitVec n → BitVec n) : Bool := f 0 == f (BitVec.allOnes n)

/-- A rewriting of a register's bits and tag applied to contents from before one of its producers. -/
def RegVal.patched {n : Nat} (v : RegVal) (f : BitVec n → BitVec n) (tag : Fmt) : RegVal :=
  let g {m : Nat} (b : BitVec m) : BitVec m := (f (b.setWidth n)).setWidth m
  match v with
  | .scalar b => .scalar (g b)
  | .vec t => .vec ⟨tag, g t.bits⟩
  | .pred b => .pred (g b)
  | .accum t => .accum ⟨tag, g t.bits⟩

/-- A register's bits are rewritten: as a whole, nothing of its earlier producers remains; in part, the poison of the rest
does, and what a reader misses of an earlier producer is the rest alone (06 R148, 19 R400). -/
def Hart.touched {n : Nat} (h : Hart) (r : RegId) (f : BitVec n → BitVec n) (tag : Fmt) : Hart :=
  if h.early.isEmpty && h.poison.isEmpty then h
  else if coversAll f then h.rewritten r
  else { h with early := h.early.map fun e => if e.reg = r then { e with old := e.old.patched f tag } else e }

/-- A predicate's bits rewritten; a write to p0 is discarded (03 R59). -/
def Hart.putP (h : Hart) (i : BitVec 4) (f : BitVec 1024 → BitVec 1024) : Hart :=
  if i = 0 then h
  else
    let k := h.touched (.p i) f .raw
    { k with p := k.p.set i.toNat (f (h.pr i)) i.isLt }

/-- The register that a vector destination names takes new bits and a tag; a discarded result changes none. -/
def Hart.setVec (h : Hart) (d : Operand) (f : BitVec 8192 → BitVec 8192) (tag : Fmt) : Hart :=
  let new (t : TReg 8192) : TReg 8192 := ⟨tag, f t.bits⟩
  match d with
  | .main i _ => (h.touched (.v i) f tag).setV i (new (h.vr i))
  | .oper i _ => (h.touched (.o i) f tag).setO i (new (h.or i))
  | .last i _ => (h.touched (.l i) f tag).setL i (new (h.lr i))
  | .const _ => h

/-- A vector result: its destination and its L entry, each keeping the elements that are not written. -/
def Hart.putVec (h : Hart) (d : Operand) (l : BitVec 2) (f : BitVec 8192 → BitVec 8192) (tag : Fmt) : Hart :=
  (h.setVec d f tag).setVec (.last l .plain) f tag

end Machine

open Machine

/-! ### Registers read and written (06 R148 to R150, R156) -/

/-- The register behind a vector field. -/
def vecRegs (o : Operand) : List RegId :=
  match o with
  | .main i .broadcast => if i = 0 then [] else [.x i]
  | .main i _ => [.v i]
  | .oper i _ => [.o i]
  | .last i _ => [.l i]
  | .const _ => []

def xRegs (o : Operand) : List RegId :=
  match o with
  | .main i _ => if i = 0 then [] else [.x i]
  | .last _ _ => [.l 0]
  | _ => []

/-- The registers behind a field, by its role. -/
def Role.regs (r : Role) (o : Operand) : List RegId :=
  match r with
  | .xSrc | .xDst => xRegs o
  | .vSrcMod | .vSrcConv | .vSrc | .vStore | .vReg | .vDst | .vDstKept | .vMain => vecRegs o
  | .pred => let i := Hart.predOf o; if i = 0 then [] else [.p i]
  | .acc => [.z (Hart.accOf o)]
  | .vGroup _ len => (List.range len).map fun k => .v (idxOf o + BitVec.ofNat 6 k)
  | .unused | .counter | .loopCtr | .barrier | .konst _ => []

/-- The D field is a source: the roles of sources, the accumulator of ZST, and those that read and write it. -/
def Instr.dRead (i : Instr) : Bool :=
  match i with
  | .zst _ _ | .mma _ _ | .mmas _ _ | .tmma _ _ | .lih _ _ | .lit _ _ | .loopvl _ _ => true
  | .amo op _ _ _ | .vamo op _ _ _ => op == .cas
  | i => match i.shape with
    | some s => s.d == .xSrc || s.d == .vStore
    | none => false

/-- The D field is a destination. -/
def Instr.dWritten (i : Instr) : Bool :=
  match i with
  | .zst _ _ => false
  | i => match i.shape with
    | some s => !(s.d == .xSrc || s.d == .vStore)
    | none => false

/-- The A field is a destination: DRAIN's count. -/
def Instr.aWritten : Instr → Bool
  | .drain _ _ => true
  | _ => false

/-- The B field is a destination: QPOP's count. -/
def Instr.bWritten : Instr → Bool
  | .qpop _ _ => true
  | _ => false

/-- The L entries that an instruction writes (03 R61). -/
def Instr.lWritten (i : Instr) : List (BitVec 2) :=
  match i with
  | .vext _ => []
  | .vunionKz _ | .vunionDz _ | .drain _ _ | .qpop _ _ => [0, 1]
  | .vcst _ _ => [0]
  | .vld _ _ | .vlds _ _ | .vldw _ _ | .vldx _ _ | .vldxo _ _ | .vldg _ _ => [2]
  | .zdrain _ _ => [3]
  | i => match i.shape with
    | some s =>
      if s.d == .xDst then [0]
      else match s.d with
        | .vDst | .vDstKept | .vGroup _ _ => [1]
        | _ => []
    | none => []

/-- Registers named by the fields of XT, in their order. -/
def Instr.xtRegs : Instr → List RegId
  | .sel _ c _ => xRegs c
  | .vfma _ c _ => vecRegs c
  | .vscl _ x => if x.blen == .none then [] else [.v x.sa]
  | .vdotb _ x => (if x.blen == .none then [] else [.v x.sa, .v x.sb]) ++ (if x.cnt = 0 then [] else [.x x.cnt])
  | .mma _ x => if x.blen == .none then [] else [.v x.sa, .v x.sb]
  | .mmas _ x => (if x.blen == .none then [] else [.v x.sa]) ++ (if x.sb = 0 then [] else [.x x.sb])
  | .zdrain _ x => if x.blen == .none then [] else [.v x.sa, .v x.sb]
  | _ => []

/-- The guard's predicate, when it is not p0. -/
def guardRegs (w : Wd) : List RegId := if w.grd.p = 0 then [] else [.p w.grd.p]

/-- Whether the A and B fields are read whole. MMAS reads five registers of its tile. -/
def Instr.bRegs (i : Instr) (s : Shape) (w : Wd) : List RegId :=
  match i with
  | .mmas _ _ => Role.regs (.vGroup 8 5) w.b
  | _ => s.b.regs w.b

/-- The registers that an instruction reads, in operand order: D when it is read, A, B, XT, guard (16 R340, R341); of
the fields named by their SUBs, those that can be read (06 R143). -/
def Instr.readsOf (i : Instr) (ok : Nat → Bool) : List RegId :=
  match i.shape, i.wd with
  | some s, some w =>
    (if i.dRead && ok 3 then s.d.regs w.d else []) ++ (if i.aWritten || !ok 4 then [] else s.a.regs w.a)
      ++ (if i.bWritten || !ok 5 then [] else i.bRegs s w) ++ (if ok 6 then i.xtRegs else [])
      ++ (if ok 2 then guardRegs w else [])
  | _, _ => []

def Instr.reads (i : Instr) : List RegId := i.readsOf fun _ => true

/-- The registers that an instruction writes. VLDG and VCST rewrite their guard, VQNT its scale register. -/
def Instr.writesOf (i : Instr) (ok : Nat → Bool) : List RegId :=
  match i.shape, i.wd with
  | some s, some w =>
    (if i.dWritten && ok 3 then s.d.regs w.d else []) ++ (if i.aWritten && ok 4 then s.a.regs w.a else [])
      ++ (if i.bWritten && ok 5 then s.b.regs w.b else [])
      ++ (match i with
        | .vldg _ _ | .vcst _ _ => guardRegs w
        | .vqnt _ x => [.v x.sa]
        | _ => [])
      ++ i.lWritten.map RegId.l
  | _, _ => []

def Instr.writes (i : Instr) : List RegId := i.writesOf fun _ => true

/-- Which pipe a word runs in: the vector queue, or the scalar sequencer (06 R155). -/
def Instr.inVectorQueue (i : Instr) : Bool := i.isWord && 0x10 ≤ i.opcode.1.toNat

/-- The fixed latency of a vector instruction's result, in the format it ran in (06 R148, R162). The bitwise forms in
a floating format take R162's 8 rather than the 6 of R148's class (DESIGN CHOICE, log 96). -/
def Instr.latency (i : Instr) (f : Fmt) : Option Nat :=
  let byFmt := if f.isFloat then 8 else 6
  match i with
  | .vadd _ _ | .vsub _ _ | .vmul _ _ | .vmulh _ _ | .vfma _ _ _ | .vmin _ _ | .vmax _ _ | .vabs _ _ | .vneg _ _
  | .vand _ _ | .vor _ _ | .vxor _ _ | .vandn _ _ | .vshl _ _ | .vshr _ _ | .vshra _ _ | .vadds _ _ | .vsubs _ _
  | .vcmp _ _ => some byFmt
  | .vdiv _ _ | .vsqrt _ _ | .vrcp _ _ | .vrsq _ _ | .vexp2 _ _ | .vlog2 _ _ => some 14
  | .vclass _ _ | .vsel _ | .viota _ => some 6
  | .vround _ _ | .vcvt _ _ | .vscl _ _ | .trnpk _ | .trnup _ => some 8
  | .vperm _ | .vsldu _ | .vsldd _ | .vbcast _ | .vext _ | .vins _ | .vzip _ | .vunzip _ | .vrev _ | .vcomp _
  | .vexpnd _ => some 10
  | _ => none

/-- Instructions of variable latency without a counter (06 R150, R162). -/
def Instr.interlocked : Instr → Bool
  | .mul _ | .mulh _ | .mulhn _ | .div _ | .divn _ | .rem _ | .remn _ | .vqnt _ _ | .vred _ _ _ | .vscan _ _ _
  | .vdotb _ _ | .vunionKz _ | .vunionDz _ | .vprn48 _ | .zclr _ | .zadd _ => true
  | _ => false

/-- The wait counter that an instruction counts on (06 R150). -/
def Instr.counter : Instr → Option (BitVec 3)
  | .defer _ x | .drain _ x | .qapp _ x | .qpop _ x | .qlen _ x | .ld _ x | .st _ x | .pref _ x | .vld _ x | .vst _ x
  | .vlds _ x | .vsts _ x | .vldw _ x | .vstw _ x | .vldx _ x | .vldxo _ x | .vstx _ x | .vstxo _ x | .vldg _ x
  | .vcst _ x | .amo _ _ _ x | .vamo _ _ _ x | .rput _ x | .rget _ x | .rfence _ x | .rsig _ _ x | .collAr _ _ x
  | .collRs _ _ x | .collAg _ x | .collBc _ x | .kapp _ x | .kbnd _ x | .khrv _ x | .rkpush _ x | .rkpop _ x
  | .rkwm _ x | .rkwait _ x | .clean _ x | .inval _ x | .invro _ x | .zerol _ x | .zld _ x | .zst _ x => some x.ctr
  | .mma _ x | .mmas _ x | .tmma _ x | .zdrain _ x => some x.ctr
  | _ => none

def Instr.isMatrix : Instr → Bool
  | .mma _ _ | .mmas _ _ | .tmma _ _ => true
  | _ => false

end Sys2Proof
end

