-- ==== Sys2Proof/Machine/Flags.lean ====
section
/-! DEFINITION. The flag computations: what the elements of a member raise, and how a retiring member merges it into
fflags and the first-index registers (03 R66, R84, R85). -/
namespace Sys2Proof.Machine

/-- The lower of a recorded index and a new one. -/
def lowIndex (a b : Option Nat) : Option Nat :=
  match a, b with
  | some x, some y => some (if x ≤ y then x else y)
  | some x, none => some x
  | none, b => b

def Flags.merge (a b : Flags) : Flags :=
  ⟨lowIndex a.nfs b.nfs, lowIndex a.sat b.sat, lowIndex a.iv b.iv, lowIndex a.dz b.dz, lowIndex a.ovf b.ovf,
    lowIndex a.unf b.unf, lowIndex a.nx b.nx⟩

/-- What one element raises, under its index. -/
def Flags.at (i : Nat) (r : Raised) : Flags :=
  let f (b : Bool) : Option Nat := if b then some i else Option.none
  ⟨f r.nfs, f r.sat, f r.iv, f r.dz, f r.ovf, f r.unf, f r.nx⟩

/-- What a list of elements raises. -/
def Flags.of (l : List (Nat × Raised)) : Flags := l.foldl (fun f p => f.merge (Flags.at p.1 p.2)) Flags.none

/-- fflags bits of the classes that were raised (03 R66). -/
def Flags.bits (f : Flags) : BitVec 7 :=
  let b (o : Option Nat) (n : Nat) : BitVec 7 := if o.isSome then BitVec.ofNat 7 (2 ^ n) else 0
  b f.nfs 6 ||| b f.sat 5 ||| b f.iv 4 ||| b f.dz 3 ||| b f.ovf 2 ||| b f.unf 1 ||| b f.nx 0

/-- A first-index register takes the lower of its value and a new index (03 R84). -/
def firstIndex (held : Word) (o : Option Nat) : Word :=
  match o with
  | none => held
  | some i => if i < held.toNat then Word.ofNat i else held

/-- A member's flags merged at its retirement, or a counted operation's at its completion (03 R84). -/
def Hart.mergeFlags (h : Hart) (f : Flags) : Hart :=
  { h with
    fflags := h.fflags ||| f.bits
    fxi := ⟨firstIndex h.fxi.iv f.iv, firstIndex h.fxi.dz f.dz, firstIndex h.fxi.ovf f.ovf, firstIndex h.fxi.unf f.unf,
      firstIndex h.fxi.nx f.nx, firstIndex h.fxi.sat f.sat, firstIndex h.fxi.nfs f.nfs⟩ }

end Sys2Proof.Machine
end

