-- ==== Sys2Proof/Machine/Formats.lean ====
section
/-! DEFINITION. Formats from FMT or from the tags, the tag checks with their SUBs, and the tags that each instruction
sets (03 R69 to R71, 06 R161 step 4, 10 R274, 16 R340). -/
namespace Sys2Proof.Machine

/-- A failed check of step 4: the trap code (5 reserved field, 6 tag mismatch) and its SUB. -/
abbrev TagErr := Nat × Nat

def mismatch (sub : Nat) : Except TagErr Fmt := .error (6, sub)

/-! ### Accepted formats (03 R70) -/

def arithFmts : List Fmt := [.i8, .n8, .i16, .i32, .i64, .fp32, .bf16, .fp16]
def intFmts : List Fmt := [.i8, .n8, .i16, .i32, .i64]
def floatFmts : List Fmt := [.fp32, .bf16, .fp16]
def smallFmts : List Fmt := [.e2m1, .e4m3, .e5m2, .i8]
def pruneFmts : List Fmt := [.i8, .n8, .i16, .e4m3, .e5m2, .bf16, .fp16, .fp32]
def sparseFmts : List Fmt := [.e4m3, .e5m2, .i8, .bf16]
def denseFmts : List Fmt := .e2m1 :: sparseFmts

def scaleTag : ScaleFmt → Fmt
  | .e8m0 => .e8m0
  | .e5m2 => .e5m2
  | .e4m3 => .e4m3

/-- The tagged sources among operands, each with the SUB that names it. -/
def taggedTags (h : Hart) (ops : List (Nat × Operand)) : List (Nat × Fmt) :=
  (ops.filter fun p => p.2.tagged).map fun p => (p.1, (h.vecReg p.2).tag)

/-- The format of an instruction that takes it from FMT or from equal tags, in a class: the tags are held against FMT or
against one another first, and the format that results against the class (03 R70, log 35). -/
def formatOf (fmt : Fmt) (srcs : List (Nat × Fmt)) (accept : List Fmt) : Except TagErr Fmt :=
  if fmt != .raw then
    match srcs.find? fun p => p.2 != fmt && p.2 != .raw with
    | some p => mismatch p.1
    | none => if accept.contains fmt then .ok fmt else mismatch 1
  else match srcs with
    | [] => mismatch 2
    | (n, t) :: rest =>
      if t == .raw then mismatch n
      else match rest.find? fun p => p.2 != t with
        | some p => mismatch p.1
        | none => if accept.contains t then .ok t else mismatch n

/-- The tag that all sources carry, else raw (03 R71). -/
def commonTag (srcs : List (Nat × Fmt)) : Fmt :=
  match srcs with
  | [] => .raw
  | (_, t) :: rest => if rest.all fun p => p.2 == t then t else .raw

/-- The format and result tag of a tag-neutral instruction (03 R71). -/
def neutralOf (fmt : Fmt) (srcs : List (Nat × Fmt)) : Except TagErr Fmt :=
  if fmt != .raw then match srcs.find? fun p => p.2 != fmt && p.2 != .raw with
    | some p => mismatch p.1
    | none => .ok fmt
  else .ok (commonTag srcs)

/-- A source whose tag must be one of a list. -/
def needTag (t : Fmt) (sub : Nat) (accept : List Fmt) (r : Except TagErr Fmt) : Except TagErr Fmt :=
  if accept.contains t then r else mismatch sub

/-- The part k lies below the part ratio V_N / V_W of a conversion between two formats (08 R216). -/
def partBelow (s t : Fmt) (k : Nat) : Bool :=
  let a := elemsPer s 256
  let b := elemsPer t 256
  decide (k * min a b < max a b)

/-- The part k that field B names. -/
def partOf (w : Wd) : Nat :=
  match w.b with
  | .const k => k.toNat
  | _ => 0

/-- The tag of a main-file v register. -/
def vTag (h : Hart) (i : BitVec 6) : Fmt := (h.vr i).tag

/-- The scale registers in use carry the scale format's tag or raw (03 R70, R86). -/
def scalesOk (h : Hart) (x : Xx) (regs : List (BitVec 6)) : Bool :=
  x.blen == .none || regs.all fun r => vTag h r == scaleTag x.sfmt || vTag h r == .raw

def withScales (h : Hart) (x : Xx) (regs : List (BitVec 6)) (r : Except TagErr Fmt) : Except TagErr Fmt :=
  match r with
  | .ok f => if scalesOk h x regs then .ok f else mismatch 6
  | e => e

/-- The registers of a tile or group, with the SUB of field B. -/
def tileTags (h : Hart) (base : BitVec 6) (n : Nat) : List (Nat × Fmt) :=
  (List.range n).map fun j => (5, vTag h (base + BitVec.ofNat 6 j))

/-- The accumulator format of the Fresco (10 R274). -/
def accFmt (f : Fmt) : Fmt := if f == .i8 then .i32 else .fp32

/-- The accumulator that a matrix operation adds to carries its format or raw (10 R274). -/
def withAccum (h : Hart) (w : Wd) (r : Except TagErr Fmt) : Except TagErr Fmt :=
  match r with
  | .ok f =>
    let need := if f == .tern then .i32 else accFmt f
    let t := (h.zr (Hart.accOf w.d)).tag
    if t == need || t == .raw then .ok f else mismatch 7
  | e => e

/-- The format in which a member runs, or the tag check that fails, as the tags stand (16 R340). -/
def Instr.tagFormat (i : Instr) (h : Hart) : Except TagErr Fmt :=
  match i with
  | .vadd w _ | .vsub w _ | .vmul w _ | .vmin w _ | .vmax w _ | .vdiv w _ | .vcmp _ w =>
    formatOf w.fmt (taggedTags h [(4, w.a), (5, w.b)]) arithFmts
  | .vmulh w _ | .vshl w _ | .vshr w _ | .vshra w _ | .vadds w _ | .vsubs w _ =>
    formatOf w.fmt (taggedTags h [(4, w.a), (5, w.b)]) intFmts
  | .vfma w c _ => formatOf w.fmt (taggedTags h [(4, w.a), (5, w.b), (6, c)]) arithFmts
  | .vabs w _ | .vneg w _ | .vred _ w _ | .vscan _ w _ => formatOf w.fmt (taggedTags h [(4, w.a)]) arithFmts
  | .vsqrt w _ | .vrcp w _ | .vrsq w _ | .vexp2 w _ | .vlog2 w _ | .vclass w _ | .vround w _ =>
    formatOf w.fmt (taggedTags h [(4, w.a)]) floatFmts
  | .vand w _ | .vor w _ | .vxor w _ | .vandn w _ | .vsel w | .vzip w | .vunzip w =>
    neutralOf w.fmt (taggedTags h [(4, w.a), (5, w.b)])
  | .vperm w =>
    match neutralOf w.fmt (taggedTags h [(4, w.a)]) with
    | .ok f => if w.b.tagged then needTag (h.vecReg w.b).tag 5 (.raw :: intFmts) (.ok f) else .ok f
    | e => e
  | .vsldu w | .vsldd w | .vbcast w | .vext w | .vrev w => neutralOf w.fmt (taggedTags h [(4, w.a)])
  | .viota w => if w.fmt == .raw then .ok .i32 else if intFmts.contains w.fmt then .ok w.fmt else mismatch 1
  | .vins w => .ok (if w.fmt == .raw then (if w.d.tagged then (h.vecReg w.d).tag else .raw) else w.fmt)
  | .vcomp w | .vexpnd w =>
    if w.fmt == .mask8 then mismatch 1
    else if w.fmt == .raw && !w.a.tagged then mismatch 2
    else if w.a.tagged && (h.vecReg w.a).tag == .mask8 then mismatch 4
    else neutralOf w.fmt (taggedTags h [(4, w.a)])
  | .vcvt w _ =>
    let t := (h.vecReg w.a).tag
    if t == .raw || t == .mask8 then mismatch 4 else .ok t
  | .vqnt w _ => if smallFmts.contains w.fmt then needTag (h.vecReg w.a).tag 4 floatFmts (.ok (h.vecReg w.a).tag) else mismatch 1
  | .vscl w x =>
    if floatFmts.contains w.fmt then
      withScales h x [x.sa] (needTag (h.vecReg w.a).tag 4 smallFmts (.ok (h.vecReg w.a).tag))
    else mismatch 1
  | .trnpk w => needTag (h.vecReg w.a).tag 4 [.i8] (.ok .i8)
  | .trnup w => needTag (h.vecReg w.a).tag 4 [.tern] (.ok .tern)
  | .vdotb w x =>
    withScales h x [x.sa, x.sb] (formatOf w.fmt (taggedTags h [(4, w.a), (5, w.b)]) smallFmts)
  | .vunionKz w | .vunionDz w =>
    match formatOf w.fmt [(4, vTag h (idxOf w.a + 1)), (5, vTag h (idxOf w.b + 1))] arithFmts with
    | .error (c, 4) => .error (c, 4)
    | r => needTag (vTag h (idxOf w.a)) 4 [.i32, .raw] (needTag (vTag h (idxOf w.b)) 5 [.i32, .raw] r)
  | .vprn48 w => formatOf w.fmt (taggedTags h [(4, w.a)]) pruneFmts
  | .drain w _ => if [.raw, .i32, .fp32].contains w.fmt then .ok w.fmt else mismatch 1
  | .qapp w _ => if w.b.tagged then needTag (h.vecReg w.b).tag 5 [.i32, .raw] (.ok .i32) else .ok .i32
  | .ld w _ | .st w _ => if [.e2m1, .tern, .mask8].contains w.fmt then mismatch 1 else .ok w.fmt
  | .vst w _ | .vsts w _ | .vcst w _ => neutralOf w.fmt (taggedTags h [(3, w.d)]) |>.map fun _ => w.fmt
  | .vstx w _ | .vstxo w _ =>
    match neutralOf w.fmt (taggedTags h [(3, w.d)]) with
    | .ok _ => needTag (vTag h (idxOf w.b)) 5 [.i32, .raw, .i64] (.ok w.fmt)
    | e => e
  | .vldx w _ | .vldxo w _ => needTag (vTag h (idxOf w.b)) 5 [.i32, .raw, .i64] (.ok w.fmt)
  | .vldg w _ => needTag (vTag h (idxOf w.b)) 5 [.i32, .raw] (.ok w.fmt)
  | .vld w _ | .vlds w _ | .vldw w _ => .ok w.fmt
  | .amo op _ w _ =>
    if [.i32, .i64, .fp32].contains w.fmt && !(w.fmt == .fp32 && [.and, .or, .xor].contains op) then .ok w.fmt
    else mismatch 1
  | .vamo op _ w _ =>
    if [.i32, .i64, .fp32, .bf16].contains w.fmt && !(w.fmt.isFloat && [.and, .or, .xor].contains op) then
      match formatOf w.fmt (if op == .cas then taggedTags h [(3, w.d)] else []) arithFmts with
      | .ok _ => needTag (vTag h (idxOf w.b)) 5 [.i32, .raw, .i64]
          (formatOf w.fmt [(5, vTag h (idxOf w.b + 1))] arithFmts)
      | e => e
    else mismatch 1
  | .collAr _ w _ | .collRs _ w _ =>
    if [.i32, .i64, .fp32, .bf16, .fp16].contains w.fmt then .ok w.fmt else mismatch 1
  | .collAg w _ | .collBc w _ => if [.raw, .e2m1, .tern, .mask8].contains w.fmt then mismatch 1 else .ok w.fmt
  | .kapp w _ => formatOf .raw (taggedTags h [(5, w.b)]) [.fp32, .bf16]
  | .kbnd w _ => formatOf .raw (taggedTags h [(4, w.a)]) [.fp32, .bf16]
  | .mma w x =>
    withAccum h w (withScales h x [x.sa, x.sb]
      (formatOf w.fmt ((4, (h.vecReg w.a).tag) :: tileTags h (idxOf w.b) 8) denseFmts))
  | .mmas w x =>
    withAccum h w (withScales h x [x.sa]
      (match formatOf w.fmt ((4, (h.vecReg w.a).tag) :: tileTags h (idxOf w.b) 4) sparseFmts with
        | .ok f => needTag (vTag h (idxOf w.b + 4)) 5 [.mask8, .raw] (.ok f)
        | e => e))
  | .tmma w _ =>
    withAccum h w (
      if w.fmt == .raw then
        needTag (h.vecReg w.a).tag 4 [.i8] (match (tileTags h (idxOf w.b) 8).find? fun p => p.2 != .tern with
          | some p => mismatch p.1
          | none => .ok .tern)
      else if w.fmt == .tern then
        needTag (h.vecReg w.a).tag 4 [.i8, .raw]
          (match (tileTags h (idxOf w.b) 8).find? fun p => p.2 != .tern && p.2 != .raw with
          | some p => mismatch p.1
          | none => .ok .tern)
      else mismatch 1)
  | .zclr w | .zld w _ => if [.raw, .fp32, .i32].contains w.fmt then .ok w.fmt else mismatch 1
  | .zst w _ =>
    if [.raw, .fp32, .i32].contains w.fmt then
      (if w.fmt == .raw then .ok w.fmt else needTag (h.zr (Hart.accOf w.d)).tag 3 [w.fmt, .raw] (.ok w.fmt))
    else mismatch 1
  | .zadd w =>
    if [.raw, .fp32, .i32].contains w.fmt then
      formatOf w.fmt [(4, (h.zr (Hart.accOf w.a)).tag), (5, (h.zr (Hart.accOf w.b)).tag)] [.fp32, .i32]
    else mismatch 1
  | .zdrain w x =>
    if [.fp32, .bf16].contains w.fmt then
      withScales h x [x.sa, x.sb] (needTag (h.zr (Hart.accOf w.a)).tag 4 [.fp32, .i32, .raw] (.ok w.fmt))
    else mismatch 1
  | _ => .ok .raw

/-- The format in which a source is read for its sign modifier, when FMT does not name it (06 R144). -/
def tagRead (h : Hart) (f : Fmt) (neutral : Bool) (o : Operand) : Fmt := if neutral then (h.vecReg o).tag else f

/-- The reserved-field limits that depend on a format taken from tags (06 R161 step 4). The sign modifier of TRNUP's source,
whose format no FMT names, is among them (DESIGN CHOICE, log 97). -/
def Instr.tagLimits (i : Instr) (h : Hart) (f : Fmt) : Option TagErr :=
  let parts (w : Wd) (s t : Fmt) : Option TagErr := if partBelow s t (partOf w) then none else some (5, 5)
  let sign (w : Wd) (neutral : Bool) (ops : List (Nat × Operand)) : Option TagErr :=
    if w.fmt != .raw then none
    else (ops.find? fun p => p.2.tagged && !signModOk (tagRead h f neutral p.2) p.2).map fun p => (5, p.1)
  match i with
  | .vcvt w _ => (parts w f w.fmt).or (if signModOk f w.a then none else some (5, 4))
  | .vqnt w _ | .vscl w _ => parts w f w.fmt
  | .trnpk w => parts w .i8 .tern
  | .trnup w => (parts w .tern .i8).or (if signModOk .tern w.a then none else some (5, 4))
  | .mma _ x | .mmas _ x => if x.blen != .none && (f == .i8 || f == .bf16) then some (5, 6) else none
  | .vand w _ | .vor w _ | .vxor w _ | .vandn w _ | .vsel w => sign w true [(4, w.a), (5, w.b)]
  | _ => none

/-- The format of a member, or the check of step 4 that fails (06 R161). -/
def Instr.resolve (i : Instr) (h : Hart) : Except TagErr Fmt :=
  match Instr.tagFormat i h with
  | .error e => .error e
  | .ok f => match Instr.tagLimits i h f with
    | some e => .error e
    | none => .ok f

/-- The format that a member which passed its checks runs in. -/
def Instr.format (i : Instr) (h : Hart) : Fmt :=
  match Instr.tagFormat i h with
  | .ok f => f
  | .error _ => .raw

/-- The element width of a permute comes from its first source's format: a constant is read in the instruction's own
(03 R70, 08 R225). -/
def Instr.permuteFmt (i : Instr) (w : Wd) (h : Hart) : Fmt :=
  if w.fmt == .raw && w.a.tagged then (h.vecReg w.a).tag else Instr.format i h

/-- The tag of a source, or the instruction's format where the source carries none (08 R222). -/
def sourceTag (h : Hart) (f : Fmt) (o : Operand) : Fmt := if o.tagged then (h.vecReg o).tag else f

/-- The registers whose tags an instruction sets, with those tags (03 R69). -/
def Instr.setsTags (i : Instr) (h : Hart) : List (RegId × Fmt) :=
  let f := Instr.format i h
  let both (d : Operand) (l : BitVec 2) (t : Fmt) : List (RegId × Fmt) := (vecRegs d).map (·, t) ++ [(.l l, t)]
  let pair (w : Wd) (t u : Fmt) : List (RegId × Fmt) := [(.v (idxOf w.d), t), (.v (idxOf w.d + 1), u), (.l 1, t)]
  match i with
  | .vadd w _ | .vsub w _ | .vmul w _ | .vmulh w _ | .vfma w _ _ | .vmin w _ | .vmax w _ | .vabs w _ | .vneg w _
  | .vand w _ | .vor w _ | .vxor w _ | .vandn w _ | .vshl w _ | .vshr w _ | .vshra w _ | .vadds w _ | .vsubs w _
  | .vdiv w _ | .vsqrt w _ | .vrcp w _ | .vrsq w _ | .vexp2 w _ | .vlog2 w _ | .vround w _ | .vsel w
  | .vscan _ w _ | .vperm w | .vsldu w | .vsldd w | .vbcast w | .viota w | .vins w | .vzip w | .vunzip w | .vrev w
  | .vcomp w | .vexpnd w | .vamo _ _ w _ => both w.d 1 f
  | .vred _ w _ => both w.d 1 (sourceTag h f w.a)
  | .vclass w _ => both w.d 1 (if f == .fp32 then .i32 else .i16)
  | .vcvt w _ | .vscl w _ => both w.d 1 w.fmt
  | .vqnt w x => both w.d 1 w.fmt ++ [(.v x.sa, scaleTag x.sfmt)]
  | .trnpk w => both w.d 1 .tern
  | .trnup w => both w.d 1 .i8
  | .vdotb w _ => both w.d 1 .fp32
  | .vunionKz w | .vunionDz w => pair w .i32 f
  | .vprn48 w => pair w f .mask8
  | .drain w _ =>
    (List.range (deferCount w.b + 1)).map (fun k => (RegId.v (idxOf w.d + BitVec.ofNat 6 k), if k = 0 then .i32 else w.fmt))
      ++ [(.l 1, .i32)]
  | .qpop w _ => both w.d 1 .i32
  | .vld w _ | .vlds w _ | .vldw w _ | .vldx w _ | .vldxo w _ | .vldg w _ => both w.d 2 w.fmt
  | .mma w _ | .mmas w _ => [(.z (Hart.accOf w.d), accFmt f)]
  | .tmma w _ => [(.z (Hart.accOf w.d), .i32)]
  | .zclr w | .zld w _ => [(.z (Hart.accOf w.d), w.fmt)]
  | .zadd w => [(.z (Hart.accOf w.d), f)]
  | .zdrain w _ => both w.d 3 w.fmt
  | _ => []

def Hart.setTag (h : Hart) (r : RegId) (t : Fmt) : Hart :=
  match r with
  | .v i => h.setV i ⟨t, (h.vr i).bits⟩
  | .o i => h.setO i ⟨t, (h.or i).bits⟩
  | .l i => h.setL i ⟨t, (h.lr i).bits⟩
  | .z i => h.setZ i ⟨t, (h.zr i).bits⟩
  | _ => h

/-- The tags that a later member of the convoy will see (06 R156). -/
def Instr.planTags (i : Instr) (h : Hart) : Hart :=
  (Instr.setsTags i h).foldl (fun h p => h.setTag p.1 p.2) h

end Sys2Proof.Machine
end

