-- ==== Sys2Proof/Machine/Issue.lean ====
section
/-! DEFINITION. What every word meets before its own effect: the checks of a one-word convoy in their order, the
interlocks, the register contents a reader sees, the scalar guard; and how counted and interlocked operations start
(06 R146 to R150, R161, 15 R318 to R320, 16 R333 to R341, 19 R400). -/
namespace Sys2Proof.Machine

/-! ### Checks before issue (06 R161, 15 R319) -/

/-- The matrix forms that need a full vlmax (10 R270). -/
def Instr.needsFullVlmax : Instr → Bool
  | .mma _ _ | .mmas _ _ | .tmma _ _ | .zdrain _ _ => true
  | _ => false

/-- The word is undefined, or a matrix form on a short vlmax (16 R338). -/
def Instr.undefinedHere (i : Instr) (vm : Nat) : Bool :=
  match i with
  | .undefinedOpcode _ => true
  | i => Instr.needsFullVlmax i && decide (vm < 256)

/-- The privileged forms (15 R319). -/
def Instr.privileged : Instr → Bool
  | .eret _ | .tlbi _ | .inval _ _ => true
  | _ => false

/-- SUB of a short stall: file and index of the register read early (15 R326). -/
def RegId.stallSub : RegId → Nat
  | .x i => i.toNat
  | .v i => 0x1000 + i.toNat
  | .p i => 0x2000 + i.toNat
  | .z i => 0x3000 + i.toNat
  | .o i => 0x4000 + i.toNat
  | .l i => 0x5000 + i.toNat

/-- A matrix operation takes the running sum of an earlier one on its accumulator, and waits for nothing (10 R283). -/
def Instr.chainsOn (i : Instr) (r : RegId) (matrix : Bool) : Bool :=
  i.isMatrix && matrix && (match r with
    | .z _ => true
    | _ => false)

/-- The producers of a register whose results a word would read too early, oldest first; those of its own convoy are read
at once (06 R156). -/
def Instr.earlyOf (i : Instr) (h : Hart) (r : RegId) : List Early :=
  h.early.filter fun e => e.reg == r && !e.own && !(Instr.chainsOn i r (match e.op with
    | some id => h.ops.any fun o => o.id == id && o.matrix
    | none => false))

/-- The registers that a word would read too early, in operand order, each with those producers. Reads that pass between
the pipes are never early (06 R148 to R150, 16 R341). -/
def Instr.earlyReads (i : Instr) (h : Hart) : List (RegId × List Early) :=
  if !i.inVectorQueue || h.early.isEmpty then []
  else ((dedup i.reads).map fun r => (r, Instr.earlyOf i h r)).filter fun e => !e.2.isEmpty

/-- The first check that a one-word convoy fails, in the order of 15 R319. -/
def State.precheck (s : State) (i : Instr) : Option Trap :=
  let h := s.my
  if Instr.undefinedHere i s.myCore.vlmax then some { code := 3 }
  else if !i.reservedSubs.isEmpty then some { code := 5, sub := s.pickFrom .sub i.reservedSubs 0 }
  else match Instr.resolve i h with
    | .error e => some { code := e.1, sub := e.2 }
    | .ok _ =>
      match (if h.chk then Instr.earlyReads i h else []) with
      | e :: _ => some { code := 7, sub := RegId.stallSub e.1 }
      | [] => if Instr.privileged i && !h.sup then some { code := 8 } else none

/-! ### Interlocks (06 R149, R150, 10 R283) -/

/-- The word waits for an operation under way: it reads a register that the operation has not yet written, or writes
one, or its counter is full. -/
def Instr.waitsOn (i : Instr) (h : Hart) : Bool :=
  (h.ops.any fun o =>
    (o.regs.any fun r => i.reads.contains r && (!o.nb || !i.inVectorQueue) && !Instr.chainsOn i r o.matrix)
      || (o.regs.any fun r => i.writes.contains r && !Instr.chainsOn i r o.matrix))
  || (match i.counter with
    | some c => (h.w[c.toNat]'c.isLt) == 0xFFFF
    | none => false)

/-! ### What a reader sees -/

def RegId.code : RegId → Nat
  | .x i => i.toNat
  | .v i => 64 + i.toNat
  | .p i => 128 + i.toNat
  | .z i => 144 + i.toNat
  | .o i => 152 + i.toNat
  | .l i => 160 + i.toNat

/-- The producer whose result a register read early does not show, as the device chooses; none for the new contents
(06 R148, R150, log 76). -/
def State.staleChoice (s : State) (e : RegId × List Early) : Option Early :=
  s.pickFrom (.stale (RegId.code e.1)) (none :: e.2.map some) none

/-- The word reads the result of a non-blocking operation that has not come, and the device makes it wait for the new
contents (06 R150). -/
def State.awaitsNew (s : State) (i : Instr) : Bool :=
  (Instr.earlyReads i s.my).any fun e => (s.staleChoice e).isNone && e.2.any fun p => (match p.op with
    | some id => s.my.ops.any fun o => o.id == id && !o.landed
    | none => false)

/-- The hart as the word reads it: for each register read early, the device chooses its contents from before a producer
or the new ones, for the whole register (06 R148, R150). -/
def State.readView (s : State) (i : Instr) : Hart :=
  (Instr.earlyReads i s.my).foldl (fun h e => match s.staleChoice e with
    | some p => h.withReg p.reg p.old
    | none => h) s.my

/-- A poisoned register that the word reads traps with DATA_LOST (19 R400). -/
def State.poisonTrap (s : State) (i : Instr) : Option Trap :=
  if s.my.poison.isEmpty then none
  else match i.reads.filterMap (fun r => s.my.poison.find? fun p => p.reg == r) with
    | [] => none
    | p :: _ => match p.src with
      | some a => some { code := 0x11, sub := 4, eaddr := a }
      | none => some { code := 0x11, sub := 5, eaddr := Word.ofNat (RegId.stallSub p.reg) }

/-- The guard of scalar, control and scalar memory words reads bit 0 (06 R146, 09 R238). -/
def Instr.scalarGuard (i : Instr) : Bool :=
  i.isWord && (match i.opcode.1.toNat with
    | 0x20 | 0x24 | 0x28 => true
    | 0x23 => match i with
      | .amo _ _ _ _ => true
      | _ => false
    | n => decide (n < 0x10))

/-- The scalar guard lets the word act. -/
def Instr.guardOk (i : Instr) (r : Hart) : Bool :=
  match i.wd with
  | some w => !Instr.scalarGuard i || r.guardBit w.grd 0
  | none => true

/-- The effect of a word that reads a poisoned register: its own operand and memory checks trap first, by the order of
the causes (15 R319, R320). -/
def State.lostFirst (s t : State) (lost : Trap) : State :=
  match t.disp with
  | .trapped own => if own.code < lost.code then t else s.takeTrap lost
  | _ => s.takeTrap lost

/-- A word issued as a one-word convoy: its checks, its interlocks and its guard, then its own effect `k`, given the
hart as the word reads it. -/
def State.issue (s : State) (i : Instr) (k : Hart → State → State) : State :=
  match s.precheck i with
  | some t => s.takeTrap t
  | none =>
    if Instr.waitsOn i s.my || s.awaitsNew i then s.block
    else
      let r := s.readView i
      if !Instr.guardOk i r then s.retire
      else match s.poisonTrap i with
        | some t => s.lostFirst (k r s) t
        | none => k r s

/-- The outcome of an issued word: a next state always. -/
def issued (i : Instr) (s : State) (k : Hart → State → State) : Host.Outcome State Fault Refusal := .next (s.issue i k)

/-- A register filled with zeros or with ones. -/
def Hart.filled (h : Hart) (r : RegId) (ones : Bool) : Hart :=
  let b (n : Nat) : BitVec n := if ones then BitVec.allOnes n else 0
  h.withReg r (match h.regVal r with
    | .scalar _ => .scalar (b 64)
    | .vec t => .vec ⟨t.tag, b 8192⟩
    | .pred _ => .pred (b 1024)
    | .accum t => .accum ⟨t.tag, b 20480⟩)

/-! ### Operations that complete later (06 R150) -/

/-- Registers that a scalar result overwrites whole. -/
def RegId.isScalar : RegId → Bool
  | .x _ => true
  | .l i => i == 0
  | _ => false

/-- Nothing of their earlier producers, nor poison, remains in the registers that an operation has overwritten whole
(06 R148, 19 R400). -/
def Hart.overwritten (h : Hart) (o : Op) : Hart :=
  if o.status.isSome then h
  else { h with
    early := h.early.filter fun e => !o.whole.contains e.reg || e.op == some o.id
    poison := h.poison.filter fun p => !o.whole.contains p.reg }

namespace State

/-- The step that completes an operation. -/
def completion (h : Nat) (o : Op) : Instr :=
  if o.matrix then .matrixOpComplete h o.id
  else match o.ctr with
    | some _ => .counterFall h o.id
    | none => .interlockedResult h o.id

/-- Starts an operation of the hart in focus for a word that retires: its counter rises, its registers are held, and
under NB = 1 later readers may still see their contents from before, taken from `old`. An operation whose result is
produced at once is due to complete. -/
def startOp (s : State) (i : Instr) (old : Hart) (landed : Bool) (flags : Flags) : State :=
  let nb := (i.wd.map fun w => w.nb).getD false
  let o : Op :=
    { id := s.opSeq, ctr := i.counter, regs := i.writes, nb := nb, matrix := i.isMatrix, flags := flags, landed := landed
      status := none, shield := [], whole := if landed then [] else i.writes.filter RegId.isScalar, when := 0
      cycle := s.myCore.clock, mark := none }
  let s := { s with opSeq := s.opSeq + 1 }
  let s := s.upd fun h =>
    let h := { h with ops := h.ops ++ [o] }
    let h := match o.ctr with
      | some c => { h with w := h.w.set c.toNat ((h.w[c.toNat]'c.isLt) + 1) c.isLt }
      | none => h
    if nb then { h with early := h.early ++ i.writes.map fun r => ⟨r, old.regVal r, 0, true, some o.id, false⟩ } else h
  if landed then s.due [completion s.me o] else s

/-- Retires a word whose result is ready but held as variable latency holds it (06 R150). -/
def retireOp (s : State) (i : Instr) (old : Hart) (flags : Flags) : State := (s.startOp i old true flags).retire

/-- What a rollback of the core will need (19 R392). -/
def logFor (s : State) (h : Nat) (e : HartEvent) : State :=
  s.modCore (coreOf h) fun c => { c with log := c.log ++ [⟨c.clock, h, e⟩] }

/-- An operation changed by a function. -/
def modOp (s : State) (h op : Nat) (f : Op → Op) : State :=
  s.modHart h fun k => { k with ops := k.ops.map fun q => if q.id == op then f q else q }

/-- An operation's result has landed: its completion is due. -/
def land (s : State) (h op : Nat) : State :=
  match (s.hart h).ops.find? fun o => o.id == op with
  | none => s
  | some o => if o.landed then s
    else ((s.modOp h op fun q => { q with landed := true }).modHart h fun k => k.overwritten o).due [completion h o]

/-- An operation has been performed at a place in the history, so far as is known (05 R135). -/
def performed (s : State) (h op at_ : Nat) : State := s.modOp h op fun q => { q with when := max q.when at_ }

/-- A status that the operation will leave on its counter, unless that of a lower element stands (15 R330, 18 R372). -/
def noteStatus (s : State) (h op : Nat) (f : Failure) : State :=
  s.modOp h op fun q => match q.ctr with
    | none => q
    | some c => if (q.status.map fun old => decide (old.elem ≤ f.elem)).getD false then q
      else { q with status := some ⟨c, f.code, f.sub, f.eaddr, f.acc, f.elem⟩ }

/-- Completes a landed operation: its count falls, its registers are released, its flags merge, and its status stays on
the counter (03 R84, 06 R150, 15 R330). -/
def finishOp (s : State) (h op : Nat) : State :=
  match (s.hart h).ops.find? fun o => o.id == op with
  | none => s
  | some o =>
    if !o.landed then s
    else (s.logFor h (.completed o)).modHart h fun k =>
      let k := { k with
        ops := k.ops.filter fun q => q.id ≠ op
        early := k.early.filter fun e => e.op ≠ some op
        stats := match o.status with
          | some st => k.stats ++ [st]
          | none => k.stats }
      let k := match o.ctr with
        | some c => { k with
            w := k.w.set c.toNat ((k.w[c.toNat]'c.isLt) - 1) c.isLt
            waitMarks := k.waitMarks.set c.toNat (max (k.waitMarks[c.toNat]'c.isLt) o.when) c.isLt }
        | none => k
      k.mergeFlags o.flags

end State

end Sys2Proof.Machine
end

