-- ==== Sys2Proof/Machine/Access.lean ====
section
/-! DEFINITION. Memory accesses of a hart: where each element lies, its faults with their record, loads, stores and
their entry into the cellar (04 R96 to R117, 05 R122 to R125, 09 R237 to R246, 15 R320, R327, 16 R346). -/
namespace Sys2Proof.Machine

/-! ### Placing one byte (04 R96 to R104) -/

/-- Why an access fails: code, SUB and the record's KIND (15 R326, R328). -/
structure AccErr where
  code : Nat
  sub : Nat
  kind : Nat
  deriving DecidableEq, Repr

def accessErr (sub : Nat) : AccErr := ⟨0x0E, sub, 2⟩
def pageErr (sub : Nat) : AccErr := ⟨0x0F, sub, if sub = 3 then 1 else 0⟩

/-- The order of faults within one element (15 R320). -/
def AccErr.rank (e : AccErr) : Nat :=
  if e.code = 0x0F then 1 else if e.code = 0x10 then 3 else if e.sub = 4 || e.sub = 5 || e.sub = 6 || e.sub = 8 then 2 else 0

/-- The gang's reservation covers an offset of the scratchpad window (04 R104). -/
def Hart.reserves (h : Hart) (off : Nat) : Bool := h.resOff ≤ off && off < h.resOff + h.resSize

/-- The failure of a place on a die that the hart's die cannot reach (01 R13, 18 R373, log 77). -/
def cutOff (d : Nat) : AccErr := ⟨0x10, d, 3⟩

/-- A translated local address (04 R99 to R102). -/
def State.translated (s : State) (hk : Nat) (acc : Acc) (va : Nat) : Except AccErr Place :=
  let h := s.hart hk
  match s.lookup (coreOf hk) h.ptbase va with
  | .fault sub => .error (pageErr sub)
  | .cut d => .error (cutOff d)
  | .leaf e size =>
    if !leafAllows e acc (!h.sup) then .error (pageErr 3)
    else if entryMt e = 3 then
      if acc = .write then .error (accessErr 5)
      else if acc = .atomic then .error (accessErr 6)
      else .ok (.window (2 ^ 63 + leafAddr e size va % 2 ^ 63))
    else
      let pa := leafAddr e size va % 2 ^ 48
      if spaceOf pa ≥ 2 then .error (accessErr 4)
      else if entryMt e = 2 && acc = .atomic then .error (accessErr 6)
      else if spaceOf pa = 1 then .ok (.dev (chipOf hk) pa)
      else .ok (.mem (physKey (chipOf hk) pa) (entryMt e))

/-- Where one byte of an access lies, or why the access fails there before any link is asked. -/
def State.placeOf (s : State) (hk : Nat) (acc : Acc) (va : Nat) : Except AccErr Place :=
  if 2 ^ 63 ≤ va then .ok (.global va)
  else if va < 2 ^ 57 then s.translated hk acc va
  else if Config.scratchBase ≤ va && va < Config.scratchBase + 2 ^ 22 then
    if (s.hart hk).reserves (va - Config.scratchBase) then .ok (.spad (coreOf hk) (va - Config.scratchBase))
    else .error (accessErr 7)
  else .error (accessErr 1)

/-- The die that performs accesses to a place; none for a scratchpad. -/
def Place.dieOf? (p : Place) : Option Nat :=
  match p with
  | .global va | .window va => some (globalDie va)
  | .mem key _ => some (homeDie key)
  | .dev chip pa => some (devDie chip pa)
  | .spad _ _ => none

/-- A place is that of a hart's scratchpad, or lies on a die that a request of the hart's die can reach (01 R13). -/
def State.linked (s : State) (hk : Nat) (p : Place) : Except AccErr Place :=
  match p.dieOf? with
  | some d => if s.reaches (dieOf hk) d then .ok p else .error (cutOff d)
  | none => .ok p

/-! ### Elements -/

/-- One element access: its index, its first byte, its size, and whether it must be naturally aligned. -/
structure Elem where
  idx : Nat
  va : Nat
  bytes : Nat
  atomic : Bool
  deriving DecidableEq, Repr

/-- A checked element: its places in address order, each with the bytes it holds. -/
structure Placed where
  elem : Elem
  parts : List (Place × Nat)
  deriving DecidableEq, Repr

/-- Bytes of an element in its first granule of 64 KiB. -/
def Elem.firstPart (e : Elem) : Nat := min e.bytes (2 ^ 16 - e.va % 2 ^ 16)

/-- The address lies in no region, or outside the gang's reservation (04 R96, R104). -/
def Hart.regionErr (h : Hart) (va : Nat) : Option AccErr :=
  if 2 ^ 63 ≤ va || va < 2 ^ 57 then none
  else if Config.scratchBase ≤ va && va < Config.scratchBase + 2 ^ 22 then
    (if h.reserves (va - Config.scratchBase) then none else some (accessErr 7))
  else some (accessErr 1)

/-- Failures of an element's alignment, or of a crossing of bits [62:51], with that of its region: where the form of an
address fails in two ways, the manual does not say which SUB is reported (15 R320, R326). -/
def State.formErrs (s : State) (hk : Nat) (e : Elem) : List AccErr :=
  let last := (e.va + e.bytes - 1) % 2 ^ 64
  let forms := (if e.atomic && e.va % e.bytes ≠ 0 then [accessErr 2] else [])
    ++ (if 2 ^ 63 ≤ e.va && e.va / 2 ^ 51 ≠ last / 2 ^ 51 then [accessErr 3] else [])
  if forms.isEmpty then [] else forms ++ ((s.hart hk).regionErr e.va).toList

/-- The place of a part of an element, n bytes of all: a device register takes whole accesses of its own size alone, and
another die is reached by its link (15 R320). -/
def State.placePart (s : State) (hk : Nat) (acc : Acc) (all n va : Nat) : Except AccErr Place :=
  match s.placeOf hk acc va with
  | .error x => .error x
  | .ok (.dev c pa) => if n = all && devAccessOk c pa n then s.linked hk (.dev c pa) else .error (accessErr 8)
  | .ok p => s.linked hk p

/-- The places of an element's bytes, or its failures with the byte where each part begins. -/
def State.placeElem (s : State) (hk : Nat) (acc : Acc) (e : Elem) : Except (List (Nat × AccErr)) Placed :=
  match s.formErrs hk e with
  | x :: rest => .error [(e.va, s.pickFrom .sub (x :: rest) x)]
  | [] =>
    let n := e.firstPart
    match s.placePart hk acc e.bytes n e.va with
    | .ok p =>
      if n = e.bytes then .ok ⟨e, [(p, n)]⟩
      else
        let va2 := (e.va + n) % 2 ^ 64
        match s.placePart hk acc e.bytes (e.bytes - n) va2 with
        | .ok q => .ok ⟨e, [(p, n), (q, e.bytes - n)]⟩
        | .error y => .error [(va2, y)]
    | .error x =>
      if n = e.bytes then .error [(e.va, x)]
      else
        let va2 := (e.va + n) % 2 ^ 64
        match s.placePart hk acc e.bytes (e.bytes - n) va2 with
        | .ok _ => .error [(e.va, x)]
        | .error y => .error [(e.va, x), (va2, y)]

/-- The failure that an element reports (15 R320). -/
def worstErr : List (Nat × AccErr) → AccErr
  | [] => accessErr 1
  | (_, e) :: rest => rest.foldl (fun a p => if p.2.rank < a.rank then p.2 else a) e

def Acc.code : Acc → Nat
  | .read => 0
  | .write => 1
  | .atomic => 2
  | .fetch => 3

/-- The record's entries: one for each granule, by the lowest element that fails in it (15 R327). -/
def recordEntries (acc : Acc) (fails : List (Elem × List (Nat × AccErr))) : List Word :=
  let all := fails.flatMap fun p => p.2.map fun q => (q.1 / 2 ^ 16 % 2 ^ 48, q.2.kind, p.1.idx)
  (all.foldl (fun (seen : List (Nat × Nat × Nat)) g => if seen.any fun x => x.1 == g.1 then seen else seen ++ [g]) []).map
    fun g => Word.ofNat (g.1 * 2 ^ 16 + acc.code * 2 ^ 14 + g.2.1 * 2 ^ 12 + g.2.2 % 2 ^ 12)

/-- The trap of a member whose accesses fail, with its record (15 R320, R326, R327). -/
def accessTrap (acc : Acc) (fails : List (Elem × List (Nat × AccErr))) : Option Trap :=
  match fails with
  | [] => none
  | (e, errs) :: _ =>
    let w := worstErr errs
    let entries := recordEntries acc fails
    some { code := w.code, sub := w.sub, eaddr := Word.ofNat e.va, acc := acc.code, elem := e.idx
           entries := entries.take 256, ovf := decide (256 < entries.length) }

/-- Every element of a member checked, in ascending order. -/
def State.placeAll (s : State) (hk : Nat) (acc : Acc) (es : List Elem) : Except Trap (List Placed) :=
  let rs := es.map fun e => (e, s.placeElem hk acc e)
  let fails := rs.filterMap fun r => match r.2 with
    | .error errs => some (r.1, errs)
    | .ok _ => none
  match accessTrap acc fails with
  | some t => .error t
  | none => .ok (rs.filterMap fun r => match r.2 with
    | .ok p => some p
    | .error _ => none)

/-- The translations that a member's walks leave held (04 R102). -/
def State.holdElems (s : State) (hk : Nat) (es : List Elem) : State :=
  es.foldl (fun s e =>
    let one (s : State) (va : Nat) : State := if va < 2 ^ 57 then s.holdWalk (coreOf hk) (s.hart hk).ptbase va else s
    let s := one s e.va
    if e.firstPart = e.bytes then s else one s (e.va + e.firstPart)) s

/-! ### Watermarks (05 R133, 09 R266) -/

namespace RackCmd

def word (c : RackCmd) (i : Nat) : Word := c.words.getD i 0

/-- A field of a word of the command. -/
def field (c : RackCmd) (i lo n : Nat) : Nat := ((c.word i).extractLsb' lo n).toNat

def kind (c : RackCmd) : Nat := c.field 0 6 2
def levels (c : RackCmd) : Nat := c.field 0 3 3 + 1
def chan (c : RackCmd) : Nat := c.field 0 0 3
def tag (c : RackCmd) : Nat := c.field 0 24 4

/-- Trip count and strides of a level (09 R263). -/
def trip (c : RackCmd) (l : Nat) : Nat := c.field (3 + l / 2) (32 * (l % 2)) 32
def srcStride (c : RackCmd) (l : Nat) : Int := ((c.word (6 + l / 2)).extractLsb' (32 * (l % 2)) 32).toInt
def dstStride (c : RackCmd) (l : Nat) : Int := ((c.word (9 + l / 2)).extractLsb' (32 * (l % 2)) 32).toInt

/-- Copies that one step of a level covers. -/
def below (c : RackCmd) (l : Nat) : Nat := (List.range l).foldl (fun n j => n * c.trip j) 1

/-- The copies of the command. -/
def total (c : RackCmd) : Nat :=
  match c.list with
  | some k => k.count
  | none => c.below c.levels

/-- The loop index of a level at copy n, with level 0 innermost. -/
def loopIndex (c : RackCmd) (n l : Nat) : Nat := n / c.below l % c.trip l

/-- Kinds 0 and list-driven commands copy to memory. -/
def toMemory (c : RackCmd) : Bool := c.list.isSome || c.kind == 0

/-- An address or offset after the strides of copy n. -/
def strided (c : RackCmd) (base : Int) (stride : Nat → Int) (n : Nat) : Int :=
  (List.range c.levels).foldl (fun a l => a + (c.loopIndex n l : Int) * stride l) base

/-- Copy n: addresses in the local space, or for kinds 1 and 2 a byte offset into the register group (09 R265). -/
def copy (c : RackCmd) (n : Nat) : RackCopy :=
  match c.list with
  | some k => ⟨(k.base + k.entries.getD n 0 * k.stride) % 2 ^ 64, k.dst + n * k.stride, k.stride⟩
  | none => ⟨(BitVec.ofInt 64 (c.strided (c.word 1).toNat c.srcStride n)).toNat,
      (c.strided (if c.kind = 0 then (c.word 2).toNat else 0) c.dstStride n).toNat, c.field 0 32 16⟩

/-- The declared range (09 R262, R263). -/
def rangeLo (c : RackCmd) : Nat :=
  match c.list with
  | some k => k.dst
  | none => if c.kind = 0 then (c.word 12).toNat else 0
def rangeHi (c : RackCmd) : Nat :=
  match c.list with
  | some k => k.dst + k.count * k.stride
  | none => if c.kind = 0 then (c.word 12).toNat + (c.word 13).toNat else 0

/-- Copies that have not landed. -/
def missing (c : RackCmd) : List Nat := (List.range c.total).filter fun n => !c.landed.contains n

/-- The lowest destination of a copy that has not landed, or the end of the range (09 R266). -/
def watermark (c : RackCmd) : Nat :=
  if !c.toMemory then 0
  else match c.missing with
    | [] => c.rangeHi
    | n :: rest => rest.foldl (fun m q => min m (c.copy q).dst) (c.copy n).dst

end RackCmd

/-- The watermark of a channel's oldest incomplete command, or the end of its last range (09 R267). -/
def RackChannel.mark (ch : RackChannel) : Word :=
  match ch.cmds with
  | [] => ch.lastEnd
  | c :: _ => Word.ofNat c.watermark

/-- An address lies in a declared range, at or above its watermark. -/
def Core.stalls (c : Core) (va : Nat) : Bool :=
  c.racks.toList.any fun ch => ch.cmds.any fun m => m.rangeLo ≤ va && va < m.rangeHi && m.watermark ≤ va

def Core.stallsAny (c : Core) (es : List Elem) : Bool :=
  (c.racks.toList.any fun ch => !ch.cmds.isEmpty) && es.any fun e => (List.range e.bytes).any fun i => c.stalls (e.va + i)

/-! ### Reading -/

/-- The line of a read-only window that a die holds for an address, filled for a job (04 R112). -/
def State.windowLine (s : State) (d : Nat) (job : BitVec 12) (va : Nat) : Option WindowLine :=
  (s.die d).window.find? fun l => l.job == job && l.base == va / 128 * 128

/-- A byte of a line held. -/
def State.windowByte (s : State) (d : Nat) (job : BitVec 12) (va : Nat) : Option Byte :=
  (s.windowLine d job va).map fun l => l.bytes.getD (va % 128) 0

/-- Poison of a byte of a line held: the physical address of its granule (19 R400). -/
def State.windowPoison (s : State) (d : Nat) (job : BitVec 12) (va : Nat) : Option Word :=
  (s.windowLine d job va).bind fun l =>
    let base := (l.key + va % 128) / 32 * 32
    if l.poison.contains base then some (Word.ofNat (base % 2 ^ 48)) else none

/-- Scratchpad and package memory as locations. -/
def Place.keys (p : Place) (n : Nat) : List Nat :=
  match p with
  | .spad c off => (List.range n).map fun i => spadLoc c (off + i)
  | .mem key _ => (List.range n).map fun i => key + i
  | _ => []

/-- The element is one access, and not one for each of its bytes (05 R125, 09 R240). -/
def Elem.whole (e : Elem) : Bool := [1, 2, 4, 8].contains e.bytes && e.va % e.bytes == 0

/-- A part of a place that a hart reads at once, with the places in the history at which its bytes are read. -/
def State.partNow (s : State) (h : Nat) (marks : Marks) (idx : Nat) (whole : Bool) (p : Place) (n : Nat) :
    Nat × List (Nat × Nat) :=
  match p with
  | .window va =>
    (natOfBytes ((List.range n).map fun i => (s.windowByte (dieOf h) (s.hart h).jobtag (va + i)).getD 0), [])
  | p => s.loadKeys h marks s.history.length s.opSeq idx whole (p.keys n)

/-- The value of a checked element that a hart reads at once. -/
def State.elemNow (s : State) (h : Nat) (marks : Marks) (p : Placed) : Nat × List (Nat × Nat) :=
  p.parts.foldr (fun q acc =>
    let v := s.partNow h marks p.elem.idx p.elem.whole q.1 q.2
    (v.1 + 2 ^ (8 * q.2) * acc.1, v.2 ++ acc.2)) (0, [])

/-- Marks that cover the places at which some bytes were read. -/
def raiseMarks (marks : Marks) (at_ : List (Nat × Nat)) : Marks :=
  marks.raised (at_.foldl (fun m x => max m x.2) 0)

/-- Elements read at once by a hart, by index; the ordered forms read one after another, and one that has read a part of a
key append sees the rest (05 R122, 09 R259). -/
def State.elemsNow (s : State) (h : Nat) (ordered : Bool) : Marks → List Placed → List (Nat × Nat × List (Nat × Nat))
  | _, [] => []
  | marks, p :: rest =>
    let v := s.elemNow h marks p
    let marks := { marks with told := joinSeen marks.told (s.wholeOf (coreOf h) marks.least v.2) }
    (p.elem.idx, v) :: s.elemsNow h ordered (if ordered then raiseMarks marks v.2 else marks) rest

/-- A place that a hart reads at once, unless the device performs its loads late: its scratchpad, memory of its own die
that is no device's, and a window's line that its die holds and has not replaced (04 R112, R116, 05 R120). -/
def State.atOnce (s : State) (h : Nat) (p : Placed) : Bool :=
  p.parts.all fun q => match q.1 with
    | .spad _ _ => !(s.hart h).late
    | .mem key mt => mt != 2 && homeDie key == dieOf h && !(s.hart h).late
    | .window va => (List.range q.2).all fun j =>
        (s.windowByte (dieOf h) (s.hart h).jobtag (va + j)).isSome && s.pick (.line ((va + j) / 128)) 2 = 0
    | _ => false

/-- One of a core's held stores overwrites a whole granule of 32 bytes, and with it a lost copy (19 R400). -/
def State.heldOver (s : State) (c base : Nat) : Bool :=
  let covers (b : Nat → Option Byte) : Bool := (List.range 32).all fun i => (b (base + i)).isSome
  (s.core c).cellar.any fun e => (match e.kind with
    | .store cells _ _ => covers (Memory.find? cells)
    | _ => false)
  || s.net.any fun r => coreOf r.hart == c && r.kind == .store && covers (s.requestByte r)

/-- Poison of a place's granule as a core meets it: the address that a load records (19 R400). -/
def State.placePoison (s : State) (c : Nat) (p : Place) : Option Word :=
  match p with
  | .spad k off =>
    if (s.core k).poison.any fun g => g.base == off / 32 * 32 then some (Word.ofNat (Config.scratchBase + off / 32 * 32))
    else none
  | .mem key _ =>
    let base := key / 32 * 32
    if (s.poison.any fun g => g.base == base) && !s.heldOver c base then some (Word.ofNat (base % 2 ^ 48)) else none
  | _ => none

/-- The first element of the hart in focus that meets poison, with the address that a load records. -/
def State.elemsPoison (s : State) (ps : List Placed) : Option (Nat × Word) :=
  if s.poison.isEmpty && ps.all (fun p => p.parts.all fun q => match q.1 with
      | .spad k _ => (s.core k).poison.isEmpty
      | .window _ => (s.die (dieOf s.me)).window.all fun l => l.poison.isEmpty
      | _ => true) then none
  else (ps.flatMap fun p => p.parts.flatMap fun q => (List.range q.2).filterMap fun i =>
    (match q.1 with
      | .window va => s.windowPoison (dieOf s.me) s.my.jobtag (va + i)
      | pl => s.placePoison (coreOf s.me) (pl.shift i)).map fun a => (p.elem.idx, a)).head?

/-- DATA_LOST for an access to poisoned memory, with the element that meets it (15 R328, 19 R399, R400). -/
def State.lostTrap (s : State) (ps : List Placed) : Option Trap :=
  (s.elemsPoison ps).map fun a =>
    let l2 := s.poison.any fun g => g.l2 && g.base == physKey (chipOf s.me) a.2.toNat
    { code := 0x11, sub := if Config.scratchBase ≤ a.2.toNat then 3 else if l2 then 2 else 1, eaddr := a.2, elem := a.1 }

/-- A place lies in a granule that was lost and that no convoy has consumed yet. -/
def State.placeFresh (s : State) (c : Nat) (p : Place) : Bool :=
  match p with
  | .spad k off => (s.core k).poison.any fun g => g.fresh && g.base == off / 32 * 32
  | .mem key _ => (s.poison.any fun g => g.fresh && g.base == key / 32 * 32) && !s.heldOver c (key / 32 * 32)
  | _ => false

/-- The trap of the first convoy that consumes a lost copy, a load too (19 R399). -/
def State.freshTrap (s : State) (ps : List Placed) : Option Trap :=
  s.lostTrap (ps.filter fun p => p.parts.any fun q => (List.range q.2).any fun i => s.placeFresh (coreOf s.me) (q.1.shift i))

/-- What a convoy has met is poisoned from then on. -/
def knownIn (a : Nat) (l : List GranPoison) : List GranPoison :=
  l.map fun g => if g.base = a then { g with fresh := false } else g

/-- The lost copy that a trap names is known (19 R399, R400). -/
def State.known (s : State) (t : Trap) : State :=
  if t.code ≠ 0x11 || 3 < t.sub then s
  else
    let s := { s with poison := knownIn (physKey (chipOf s.me) t.eaddr.toNat) s.poison }
    if (s.myCore.poison.any fun g => g.fresh) then
      s.setMyCore { s.myCore with poison := knownIn (t.eaddr.toNat - Config.scratchBase) s.myCore.poison }
    else s

/-! ### The cellar (04 R114 to R117) -/

/-- Bytes held in a core's cellar. -/
def Core.cellarUsed (c : Core) : Nat := c.cellar.foldl (fun n e => n + e.size) 0

/-- A member whose entries need so many bytes fits (04 R117). -/
def Core.cellarFits (c : Core) (n : Nat) : Bool := c.cellarUsed + n ≤ Config.cellarBytes

def roundUp32 (n : Nat) : Nat := (n + 31) / 32 * 32

/-- The runs of bytes that a store's elements leave in some kind of place, each by its first address and its size:
contiguous, from consecutive active elements, within one granule (04 R117). -/
def runsOf (kind : Place → Bool) (ps : List Placed) : List (Nat × Nat) :=
  let parts := ps.flatMap fun p => (p.parts.foldl (fun (acc : List (Nat × Nat × Bool) × Nat) q =>
    (acc.1 ++ [(acc.2, q.2, kind q.1)], acc.2 + q.2)) ([], p.elem.va)).1
  (parts.foldl (fun (acc : List (Nat × Nat) × Option Nat) (q : Nat × Nat × Bool) =>
    if !q.2.2 then (acc.1, none)
    else match acc.1, acc.2 with
      | (a, n) :: ns, some next =>
        if q.1 = next && q.1 % 2 ^ 16 ≠ 0 then ((a, n + q.2.1) :: ns, some (next + q.2.1))
        else ((q.1, q.2.1) :: (a, n) :: ns, some (q.1 + q.2.1))
      | ns, _ => ((q.1, q.2.1) :: ns, some (q.1 + q.2.1))) ([], none)).1

/-- The sizes of those runs. -/
def storeRuns (kind : Place → Bool) (ps : List Placed) : List Nat := (runsOf kind ps).map fun r => r.2

/-- What held stores of such runs take, and what undo records of them take (04 R117). -/
def heldSize (runs : List Nat) : Nat := runs.foldl (fun n r => n + roundUp32 r + 32) 0
def undoSize (runs : List Nat) : Nat := runs.foldl (fun n r => n + roundUp32 r) 0

/-- The dies that some elements' requests go to. -/
def remoteDies (es : List ReqElem) : List Nat := dedup (es.filterMap fun e => e.at_.dieOf?)

/-- Bytes in pieces: those of one aligned part of 8 bytes that are all there together, any other by itself (09 R250,
R265). -/
def eights (cells : List Host.Cell) : List (List Host.Cell) :=
  let blocks := cells.foldr (fun x acc => match acc with
    | (y :: g) :: rest => if x.1 + 1 = y.1 && x.1 / 8 = y.1 / 8 then (x :: y :: g) :: rest else [x] :: acc
    | acc => [x] :: acc) []
  blocks.flatMap fun g => if g.length = 8 then [g] else g.map fun x => [x]

namespace State

/-- Changes of some locations seen inside a core at once, by a hart, by an engine for it, or by no hart of it, access by
access, each with what it replaces (05 R124, R125). -/
def remember (s : State) (c : Nat) (src : Option Nat) (engine : Bool) (op : Option Nat) (rels : List Release)
    (accesses : List (List (Nat × Byte))) : State :=
  accesses.foldl (fun t g => { t with
    history := (g.map fun x => ({ key := x.1, old := x.2, core := some c, src := src, gang := s.gangRef src, engine := engine
                                  home := false, masked := [], op := op, start := t.history.length, rels := rels } : Overwritten)).reverse
      ++ t.history }) s

/-- What bytes stored to package memory replace, as the core sees it. -/
def replaced (s : State) (c : Nat) (keys : List Nat) : List (Nat × Byte) := keys.map fun k => (k, s.coreByte c k)

/-- An engine's store to package memory enters the cellar (04 R114, 19 R391). -/
def holdStore (s : State) (h size : Nat) (hint : Option Hint) (cells : List Host.Cell) (op : Option Nat) : State :=
  (s.remember (coreOf h) (some h) true none [] ((eights cells).map fun g => s.replaced (coreOf h) (g.map fun x => x.1))).enter
    h true size s.history.length (.store cells hint op)

/-- The set that holds a line of a scratchpad made of pinned lines (04 R106). -/
def pinSet (core line : Nat) : Nat := line % 8192 + 8192 * (core % 128 % 8)

/-- With MODE 1, the lines of a core's scratchpad that are touched are pinned in its die's L2 (04 R106). -/
def pinLines (s : State) (c : Nat) (offs : List Nat) : State :=
  if !(s.core c).spmode then s
  else (dedup (offs.map fun o => o / 128)).foldl (fun s line =>
    let d := dieOfCore c
    let use := L2Use.pinned c line
    if (s.die d).l2.any fun l => l.use == use then s
    else
      let set := pinSet c line
      match ((s.die d).openWays set)[s.pick (.line (2 ^ 60 + line)) ((s.die d).openWays set).length]? with
      | some w => s.takeWay d ⟨set, w, use⟩
      | none => s) s

/-- Bytes written to a core's scratchpad by a hart, by an engine for it, or by no hart of it, access by access, with the
releases that they carry; a granule overwritten whole loses its poison. -/
def spadWrite (s : State) (src : Option Nat) (engine : Bool) (op : Option Nat) (rels : List Release) (c : Nat)
    (accesses : List (List Host.Cell)) : State :=
  let cells := accesses.flatten
  let s := (s.remember c src engine op rels (accesses.map fun g => g.map fun x => (spadLoc c x.1, s.spadByte c x.1))).pinLines c
    (cells.map fun x => x.1)
  s.modCore c fun q => { q with
    spad := q.spad.writeCells cells
    poison := q.poison.filter fun g => !((List.range 32).all fun i => cells.any fun x => x.1 == g.base + i) }

/-- A scratchpad store for a hart is written at once, with an undo record of a cycle (04 R115). -/
def holdSpadAt (s : State) (h : Nat) (engine : Bool) (cycle size : Nat) (rels : List Release) (accesses : List (List Host.Cell))
    (op : Option Nat) : State :=
  let c := coreOf h
  let old := accesses.flatten.map fun x => (x.1, s.spadByte c x.1)
  let lost := (s.core c).poison
  let t := s.spadWrite (some h) engine none rels c accesses
  t.enterAt h engine cycle size s.history.length (.undo old (lost.filter fun g => !(t.core c).poison.contains g) op)

/-- A scratchpad store made now. -/
def holdSpad (s : State) (h : Nat) (engine : Bool) (size : Nat) (rels : List Release) (accesses : List (List Host.Cell))
    (op : Option Nat) : State :=
  s.holdSpadAt h engine (s.core (coreOf h)).clock size rels accesses op

/-- A request of the hart in focus. -/
def request (s : State) (id op : Nat) (kind : ReqKind) (elems : List ReqElem) (dest : ReqDest) : Request :=
  { id := id, hart := s.me, job := s.my.jobtag, op := op, kind := kind, elems := elems, dest := dest, failed := none
    sent := false, silent := false, acquire := none, ordered := false, hint := .normal, marks := s.my.marks
    born := s.history.length, rels := s.my.pub, heard := [] }

/-- A request enters the net and the cellar. -/
def holdRequest (s : State) (size : Nat) (r : Request) : State :=
  ({ s with opSeq := r.id + 1, net := s.net ++ [r] }).hold size (.request r.id)

/-- A load of the hart in focus leaves the core at once (04 R116). -/
def sendRequest (s : State) (r : Request) : State :=
  let s : State := { s with opSeq := r.id + 1, net := s.net ++ [{ r with sent := true }] }
  ((remoteDies r.elems).foldl (fun s d => s.sendTo (dieOf s.me) d 0) s).due [.globalWindowAccessAtHome r.id]

end State

/-! ### Stores (05 R122) -/

/-- Elements that lie one after another meet nowhere. -/
def rising : List Placed → Bool
  | [] => true
  | [_] => true
  | p :: q :: rest =>
    (match p.parts, q.parts with
    | [(.mem a _, n)], (.mem b _, _) :: _ => decide (a + n ≤ b)
    | [(.spad c a, n)], (.spad d b, _) :: _ => c == d && decide (a + n ≤ b)
    | [(.global a, n)], (.global b, _) :: _ => decide (a + n ≤ b)
    | _, _ => false) && rising (q :: rest)

/-- One access for each byte of a part. -/
def ReqElem.bytewise (e : ReqElem) : List ReqElem :=
  (List.range e.bytes).map fun j =>
    { e with off := e.off + j, at_ := e.at_.shift j, bytes := 1, data := e.data / 256 ^ j % 256 }

/-- One access for each aligned part of 8 bytes. -/
def ReqElem.eightwise (e : ReqElem) : List ReqElem :=
  (List.range (e.bytes / 8)).map fun j =>
    { e with off := e.off + 8 * j, at_ := e.at_.shift (8 * j), bytes := 8, data := e.data / 256 ^ (8 * j) % 256 ^ 8 }

/-- Memory of type 0b10 or a device register: one access for each element, in program order (04 R101). -/
def Place.isDevice : Place → Bool
  | .mem _ mt => mt == 2
  | .dev _ _ => true
  | _ => false

/-- The accesses of an element's part: one where it is atomic or lies in a device, else one for each aligned 8 bytes of a
line, and for each byte of a misaligned element (04 R101, 05 R125, 09 R240). -/
def Elem.accesses (e : Elem) (r : ReqElem) : List ReqElem :=
  if e.whole || r.at_.isDevice then [r] else if e.va % 8 == 0 && r.bytes % 8 == 0 then r.eightwise else r.bytewise

/-- The accesses of an element, each with its part of the data. -/
def Placed.accesses (p : Placed) (data : Nat) : List ReqElem :=
  (p.parts.foldl (fun (acc : List ReqElem × Nat) q =>
    (acc.1 ++ p.elem.accesses ⟨p.elem.idx, acc.2, q.1, q.2, data / 256 ^ acc.2 % 256 ^ q.2, 0, none, p.elem.va⟩, acc.2 + q.2)) ([], 0)).1

/-- The accesses of a store in the order in which those that meet take effect. Among elements that store to one location
the device chooses the last, for each byte of a misaligned one by itself; the ordered forms go by index (05 R122, R125). -/
def State.storeAccesses (s : State) (ordered : Bool) (ps : List (Placed × Nat)) : List ReqElem :=
  let es := ps.flatMap fun p => p.1.accesses p.2
  if ordered || rising (ps.map fun p => p.1) then es else s.shuffle 0 es.length es

/-- A scope at which a store completes only once performed at its home (05 R135). -/
def Scope.wide : Scope → Bool
  | .die | .chip | .pod => true
  | _ => false

/-- Elements with a part of a kind of place. -/
def placedIn (f : Place → Bool) (ps : List Placed) : List Placed := ps.filter fun p => p.parts.any fun q => f q.1

def Place.isMem : Place → Bool
  | .mem _ _ => true
  | _ => false

def Place.isSpad : Place → Bool
  | .spad _ _ => true
  | _ => false

def Place.isDev : Place → Bool
  | .dev _ _ => true
  | _ => false

def Place.isGlobal : Place → Bool
  | .global _ => true
  | _ => false

/-- Memory that stores reach by one request for all elements. -/
def Place.isPlain (p : Place) : Bool := !p.isSpad && !p.isDevice

/-- What a store's elements need of the cellar (04 R117). -/
def storeNeed (ps : List Placed) : Nat :=
  heldSize (storeRuns Place.isPlain ps) + heldSize (storeRuns Place.isDevice ps) + undoSize (storeRuns Place.isSpad ps)

/-- The cells that accesses leave in a scratchpad, access by access. -/
def spadCells (es : List ReqElem) : List (List Host.Cell) :=
  es.filterMap fun e => match e.at_ with
    | .spad _ off => some (cellsAt off (bytesOfNat e.bytes e.data))
    | _ => none

/-- The room of a device access in the cellar: of the run of a store that it belongs to, which its last access carries
(04 R117). -/
def runRoom (runs : List (Nat × Nat)) (e : ReqElem) (rest : List ReqElem) : Nat :=
  let holds (r : Nat × Nat) (e : ReqElem) : Bool := r.1 ≤ e.va + e.off && e.va + e.off < r.1 + r.2
  match runs.find? fun r => holds r e with
  | some r => if rest.any fun x => x.at_.isDevice && holds r x then 0 else heldSize [r.2]
  | none => 0

namespace State

/-- The locations of package memory that an access of a job stores to. -/
def storeKeys (s : State) (job : BitVec 12) (e : ReqElem) : List Nat :=
  match e.at_ with
  | .mem k _ => (List.range e.bytes).map fun i => k + i
  | .global va => (List.range e.bytes).filterMap fun i => (s.homeAddr job .write (va + i)).toOption
  | _ => []

/-- A held store of the hart in focus: its core sees it at once, access by access, and it is performed at its homes once it
has left. -/
def holdAccesses (s : State) (op : Nat) (silent ordered : Bool) (hint : Hint) (size : Nat) (es : List ReqElem) : State :=
  let id := s.opSeq
  let r := s.request id op .store es .nowhere
  let groups := es.map fun e => s.replaced (coreOf s.me) (s.storeKeys s.my.jobtag e)
  (s.remember (coreOf s.me) (some s.me) false none s.my.pub groups).holdRequest size
    { r with silent := silent, ordered := ordered, hint := hint }

/-- An access to type 0b10 memory or to a device register waits in the cellar on its own (04 R101). -/
def holdDevice (s : State) (op : Nat) (wide : Bool) (size : Nat) (e : ReqElem) : State :=
  match e.at_ with
  | .dev c pa => s.hold size (.devWrite c pa e.bytes e.data (if wide then some op else none) e.idx e.va)
  | _ => s.holdAccesses op (!wide) false .noAlloc size [e]

/-- The accesses of a store to memory and to devices enter the cellar in their order: those to plain memory between two
device accesses as one request, and the last of these with the room that they all take (05 R122). -/
def holdRuns (s : State) (op : Nat) (ordered wide : Bool) (hint : Hint) (room : Nat) (runs : List (Nat × Nat)) :
    List ReqElem → List ReqElem → State
  | [], plain => if plain.isEmpty then s else s.holdAccesses op (!wide) ordered hint room plain
  | e :: rest, plain =>
    if !e.at_.isDevice then s.holdRuns op ordered wide hint room runs rest (plain ++ [e])
    else
      let last := rest.all fun x => x.at_.isDevice
      let t := if plain.isEmpty then s else s.holdAccesses op (!wide) ordered hint (if last then room else 0) plain
      (t.holdDevice op wide (runRoom runs e rest) e).holdRuns op ordered wide hint room runs rest []

/-- The stores of a member take effect at its retirement: scratchpad at once, memory by held requests, type 0b10 and
device registers one by one. `op` waits for what a wide scope covers. -/
def performStores (s : State) (ordered wide : Bool) (hint : Hint) (ps : List (Placed × Nat)) (op : Nat) : State :=
  let es := s.storeAccesses ordered ps
  let all := ps.map fun p => p.1
  let sp := spadCells es
  let s := if sp.isEmpty then s
    else s.holdSpad s.me false (undoSize (storeRuns Place.isSpad all)) s.my.pub sp (if wide then some op else none)
  let s := s.holdRuns op ordered wide hint (heldSize (storeRuns Place.isPlain all)) (runsOf Place.isDevice all)
    (es.filter fun e => !e.at_.isSpad) []
  s.performed s.me op s.history.length

end State

end Sys2Proof.Machine
end

