-- ==== Sys2Proof/Machine/Fetch.lean ====
section
/-! DEFINITION. Fetching convoys, the checks of a whole convoy before it issues, and the arbiter of a core
(02 R27 to R31, 05 R417, 06 R142, R147 to R161, 15 R319, R320, 16 R338, R339). -/
namespace Sys2Proof.Machine

/-! ### Instruction fetch (06 R142, 05 R417) -/

/-- A fetch that fails: code 0x01 or 0x02, SUB and the failing word's address; or code 0x10 with the die that cannot be
reached, its record naming the word's granule (15 R325 to R328, log 100). -/
def fetchTrap (code sub va : Nat) : Trap :=
  if code = 0x10 then
    { code := code, sub := sub, eaddr := Word.ofNat va, acc := Acc.code .fetch
      entries := recordEntries .fetch [(⟨0, va, 12, false⟩, [(va, cutOff sub)])] }
  else { code := code, sub := sub, eaddr := Word.ofNat va }

/-- Where a byte of an instruction lies (04 R102, 15 R326). -/
def State.fetchPlace (s : State) (hk va : Nat) : Except (Nat × Nat) Nat :=
  let h := s.hart hk
  if 2 ^ 63 ≤ va then .error (1, 5)
  else if 2 ^ 57 ≤ va then .error (1, 7)
  else match s.lookup (coreOf hk) h.ptbase va with
    | .fault sub => .error (2, sub)
    | .cut d => .error (0x10, d)
    | .leaf e size =>
      let pa := leafAddr e size va % 2 ^ 48
      if entryMt e = 3 then .error (1, 5)
      else if spaceOf pa ≠ 0 then .error (1, 6)
      else if !leafAllows e .fetch (!h.sup) then .error (2, 3)
      else
        let key := physKey (chipOf hk) pa
        if s.reaches (dieOf hk) (homeDie key) then .ok key else .error (0x10, homeDie key)

/-- A byte as a fetch may return it: as it stands, or as it stood before a store since the hart's latest fetch barrier
(05 R417). -/
def State.fetchByte (s : State) (hk key : Nat) : Byte :=
  let c := coreOf hk
  let old := (s.changes c [key] (s.hart hk).fetchMark).map fun e => e.2.old
  s.pickFrom (.fetch key) (dedup (s.coreByte c key :: old)) 0

/-- The first failure of a word's two pages, in the order of the codes (15 R319). -/
def fetchWorse (a : Nat × Nat) (b : Except (Nat × Nat) Nat) : Nat × Nat :=
  match b with
  | .error e => if e.1 < a.1 then e else a
  | .ok _ => a

/-- DATA_LOST for words that lie in a lost granule of memory; the device may have fetched them before the loss, until a
convoy has consumed it (05 R417, 19 R399, R400). -/
def State.fetchLost (s : State) (hk : Nat) (keys : List Nat) : Option Trap :=
  if s.poison.isEmpty then none
  else (keys.filterMap fun k => (s.poison.find? fun g => g.base == k / 32 * 32 && !s.heldOver (coreOf hk) g.base
      && (!g.fresh || s.pick (.fetch (2 ^ 64 + g.base)) 2 = 0)).map fun g =>
    { code := 0x11, sub := if g.l2 then 2 else 1, eaddr := Word.ofNat (g.base % 2 ^ 48), acc := Acc.code .fetch }).head?

/-- The words at some locations, as fetched. -/
def State.fetchKeys (s : State) (hk : Nat) (keys : List Nat) : Except Trap IWord :=
  match s.fetchLost hk keys with
  | some t => .error t
  | none => .ok (wordOfBytes (keys.map (s.fetchByte hk)))

/-- One instruction word. -/
def State.fetchWord (s : State) (hk va : Nat) : Except Trap IWord :=
  if va % 4 ≠ 0 then .error (fetchTrap 1 4 va)
  else
    let n := min 12 (2 ^ 16 - va % 2 ^ 16)
    let part (k n : Nat) : List Nat := (List.range n).map fun i => k + i
    if n = 12 then match s.fetchPlace hk va with
      | .error e => .error (fetchTrap e.1 e.2 va)
      | .ok k => s.fetchKeys hk (part k 12)
    else
      let second := s.fetchPlace hk ((va + n) % 2 ^ 64)
      match s.fetchPlace hk va, second with
      | .error e, _ =>
        let e := fetchWorse e second
        .error (fetchTrap e.1 e.2 va)
      | .ok _, .error e => .error (fetchTrap e.1 e.2 va)
      | .ok k1, .ok k2 => s.fetchKeys hk (part k1 n ++ part k2 (12 - n))

def chainBit (w : IWord) : Bool := w.getLsbD 34

/-- The words of the convoy that begins at an address: on to the next while CH is 1, at most four (02 R27, R28). -/
def State.fetchConvoy (s : State) (hk : Nat) : Nat → Nat → Except Trap (List IWord)
  | 0, _ => .ok []
  | n + 1, va => match s.fetchWord hk va with
    | .error t => .error t
    | .ok w =>
      if chainBit w then match s.fetchConvoy hk n ((va + 12) % 2 ^ 64) with
        | .error t => .error t
        | .ok ws => .ok (w :: ws)
      else .ok [w]

/-- The translations and the lines that a fetch leaves held. -/
def State.holdFetch (s : State) (hk va n : Nat) : State :=
  (s.bring .normal (((List.range n).flatMap fun i => [12 * i, 12 * i + 11]).filterMap fun i => (s.fetchPlace hk (va + i)).toOption)).holdElems hk
    ((List.range n).map fun i => ⟨i, va + 12 * i, 12, false⟩)

/-! ### Convoy classes (06 R154, R155) -/

def Instr.maj (i : Instr) : Nat := i.opcode.1.toNat

/-- Memory-class members. -/
def Instr.memClass (i : Instr) : Bool :=
  match i with
  | .vamo _ _ _ _ | .zld _ _ | .zst _ _ => true
  | i => i.isWord && [0x17, 0x21, 0x22, 0x26].contains (Instr.maj i)

/-- Matrix-class members. -/
def Instr.matrixClass (i : Instr) : Bool := i.isWord && [0x30, 0x31, 0x32].contains (Instr.maj i)

/-- Words that may chain. -/
def Instr.chainable (i : Instr) : Bool :=
  Instr.memClass i || Instr.matrixClass i || (i.isWord && 0x10 ≤ Instr.maj i && Instr.maj i ≤ 0x16)

/-- A register stands behind a field of this role, whatever modifier it carries (03 R62, 06 R143). -/
def Role.names (r : Role) (o : Operand) : Bool :=
  match r with
  | .unused | .counter | .loopCtr | .barrier | .konst _ => false
  | .xSrc => match o with
    | .main _ _ => true
    | .last i _ => i == 0
    | _ => false
  | .xDst | .vMain | .vGroup _ _ => match o with
    | .main _ _ => true
    | _ => false
  | .vSrcMod | .vSrcConv | .vSrc | .vStore | .vReg => match o with
    | .main _ _ | .oper _ _ => true
    | .last i _ => i != 0
    | .const _ => false
  | .vDst | .vDstKept => match o with
    | .main _ _ | .oper _ _ => true
    | _ => false
  | .pred => match o with
    | .main i _ => decide (i.toNat < 16)
    | _ => false
  | .acc => match o with
    | .main i _ => decide (i.toNat < 8)
    | _ => false

/-- The fields of a word, by their SUBs, that a register stands behind: a limit that another part of the field or of the
word breaks leaves the register named (06 R143, R154, R161). -/
def fieldNames (w : IWord) (i : Instr) (n : Nat) : Bool :=
  let at_ (lo : Nat) (r : Role) : Bool := ((bareOperand (w.extractLsb' lo 12)).map (Role.names r)).getD false
  match i.shape with
  | none => false
  | some s => match n with
    | 2 => s.grd != .always
    | 3 => at_ 63 s.d
    | 4 => at_ 51 s.a
    | 5 => at_ 39 s.b
    | 6 => (match i with
      | .sel _ _ _ => at_ 17 .xSrc
      | .vfma _ _ _ => at_ 17 .vSrcMod
      | _ => true)
    | _ => true

/-- No member reads a register that an earlier member with NB = 1 writes (06 R154). -/
def nbClean : List (IWord × Decoded) → Bool
  | [] => true
  | i :: rest =>
    let nb := (i.2.instr.wd.map fun w => w.nb).getD false
    let writes := i.2.instr.writesOf (fieldNames i.1 i.2.instr)
    (!nb || rest.all fun j => (j.2.instr.readsOf (fieldNames j.1 j.2.instr)).all fun r => !writes.contains r) && nbClean rest

/-- The convoy is legal (06 R154). -/
def convoyLegal (ws : List IWord) (ds : List Decoded) : Bool :=
  let is := ds.map fun d => d.instr
  (is.length ≤ 1 || is.all Instr.chainable)
    && !(ws.length == 4 && (ws.getLast?.map chainBit).getD false)
    && (is.filter Instr.memClass).length ≤ 1 && (is.filter Instr.matrixClass).length ≤ 1 && nbClean (ws.zip ds)

/-! ### The checks of a convoy (06 R161, 15 R320) -/

/-- The stall count of a word. -/
def stallCount (w : IWord) : Nat := (w.extractLsb' 35 4).toNat

/-- Reserved-field SUBs of a word of a convoy: a later word holds STC 0 (06 R147). -/
def wordSubs (k : Nat) (w : IWord) (d : Decoded) : List Nat :=
  d.subs ++ (if k ≠ 0 && stallCount w ≠ 0 then [7] else [])

/-- Tag checks of the members in order, each with the tags that the earlier ones set (06 R156, 16 R340). -/
def tagsOfConvoy : Nat → List Instr → Hart → Option (Trap × Nat)
  | _, [], _ => none
  | k, i :: rest, h => match Instr.resolve i h with
    | .error e => some ({ code := e.1, sub := e.2 }, k)
    | .ok _ => tagsOfConvoy (k + 1) rest (Instr.planTags i h)

/-- The first register that a member reads too early, but for those that an earlier member writes (16 R341). -/
def stallsOfConvoy (h : Hart) : Nat → List RegId → List Instr → Option (Trap × Nat)
  | _, _, [] => none
  | k, done, i :: rest =>
    match (Instr.earlyReads i h).find? fun e => !done.contains e.1 with
    | some e => some ({ code := 7, sub := RegId.stallSub e.1 }, k)
    | none => stallsOfConvoy h (k + 1) (done ++ i.writes) rest

/-- The first decode-stage check that a convoy fails, with the member it names (06 R161, 15 R319). -/
def State.checkConvoy (s : State) (ws : List IWord) (ds : List Decoded) : Option (Trap × Nat) :=
  let is := ds.map fun d => d.instr
  let h := s.my
  let numbered := (List.range ws.length).zip (ws.zip ds)
  match (List.range is.length).zip is |>.find? fun p => Instr.undefinedHere p.2 s.myCore.vlmax with
  | some p => some ({ code := 3 }, p.1)
  | none =>
    if !convoyLegal ws ds then some ({ code := 4 }, 0)
    else match numbered.find? fun p => !(wordSubs p.1 p.2.1 p.2.2).isEmpty with
      | some p => some ({ code := 5, sub := s.pickFrom .sub (wordSubs p.1 p.2.1 p.2.2) 0 }, p.1)
      | none => match tagsOfConvoy 0 is h with
        | some r => some r
        | none => match (if h.chk then stallsOfConvoy h 0 [] is else none) with
          | some r => some r
          | none => match is with
            | [i] => if Instr.privileged i && !h.sup then some ({ code := 8 }, 0) else none
            | _ => none

/-! ### The arbiter (02 R30, R31) -/

/-- The convoy is one that the vector queue holds, and not a scalar one run ahead (02 R29). -/
def QConvoy.isVector (q : QConvoy) : Bool :=
  match q.words with
  | [w] => (decodeFull w).instr.inVectorQueue
  | _ => true

/-- A hart's head convoy may bind: queued, not stopped, and not held by an interlock (02 R30). A head that a full cellar or
a watermark holds shows that when it is tried (`State.bindAmong`). -/
def Hart.ready (h : Hart) : Bool :=
  h.run == .running && h.tail.isNone && (match h.queue with
    | [] => false
    | q :: _ => q.isVector && !(q.words.any fun w => Instr.waitsOn (decodeFull w).instr h))

/-- The first of a list of hids after `last`, counting cyclically. -/
def firstAfter (last : Nat) (cand : List Nat) : Option Nat :=
  ((List.range 8).map fun i => (last + 1 + i) % 8).find? cand.contains

def quotaOf (c : Core) (n : Nat) : Nat := (c.quota.toList.getD n 0).toNat

/-- One bind opportunity among some ready harts: the hart bound, with the round's quotas (02 R31). -/
def State.arbitrateAmong (s : State) (c : Nat) (ready : List Nat) : Option (Nat × State) :=
  let k := s.core c
  let hart (n : Nat) : Hart := s.hart (8 * c + n)
  let heavy := ready.filter fun n => (hart n).hwgt ≠ 0
  let inRound := heavy.filter fun n => quotaOf k n ≠ 0
  let fresh := inRound.isEmpty && !heavy.isEmpty
  let quota : Vector (BitVec 4) 8 := if fresh then Vector.ofFn fun (i : Fin 8) => (hart i.val).hwgt else k.quota
  let cand := if !inRound.isEmpty then inRound else if fresh then heavy else ready
  match firstAfter k.lastBound.toNat cand with
  | none => none
  | some n =>
    let quota := Vector.ofFn fun (i : Fin 8) =>
      if i.val = n && (hart n).hwgt ≠ 0 then quota[i] - 1 else quota[i]
    some (n, s.setCore c { k with quota := quota, lastBound := BitVec.ofNat 3 n })

/-- The harts of a core whose heads may bind. -/
def State.readyHarts (s : State) (c : Nat) : List Nat := (List.range 8).filter fun n => (s.hart (8 * c + n)).ready

/-- One bind opportunity of a core (02 R31). -/
def State.arbitrate (s : State) (c : Nat) : Option (Nat × State) := s.arbitrateAmong c (s.readyHarts c)

end Sys2Proof.Machine
end

