-- ==== Sys2Proof/Machine/Pieces.lean ====
section
/-! DEFINITION. The pieces that the members of a collective instance send and receive (09 R255, R256). -/
namespace Sys2Proof.Machine

namespace CollHead

def size (h : CollHead) : Nat := h.team.members.length

/-- Bytes of an element. -/
def width (h : CollHead) : Nat := h.fmt.bits / 8

/-- Elements of the source and of the destination. -/
def srcCount (h : CollHead) : Nat := if h.kind == .reduceScatter then h.size * h.count else h.count
def dstCount (h : CollHead) : Nat := if h.kind == .allGather then h.size * h.count else h.count

/-- The contribution to each peer fits in one slot. -/
def eager (h : CollHead) : Bool := h.count * h.width ≤ h.team.slotSize

/-- Elements of a chunk. -/
def chunk (h : CollHead) : Nat := h.team.slotSize / h.width

/-- The blocks of the ring: an all-reduce cuts its vector into one block for each member. -/
def blockSize (h : CollHead) : Nat := (h.count + h.size - 1) / h.size
def blockLen (h : CollHead) (b : Nat) : Nat :=
  if h.kind == .allReduce then min h.blockSize (h.count - b * h.blockSize) else h.count
def blockOff (h : CollHead) (b : Nat) : Nat :=
  match h.kind with
  | .allReduce => b * h.blockSize
  | .reduceScatter => b * h.count
  | _ => 0

def chunks (h : CollHead) (b : Nat) : Nat := (h.blockLen b + h.chunk - 1) / h.chunk

/-- Steps of the ring. -/
def steps (h : CollHead) : Nat :=
  match h.kind with
  | .allReduce => 2 * (h.size - 1)
  | .broadcast => 1
  | _ => h.size - 1

/-- The block that member m sends in a step. -/
def blockAt (h : CollHead) (m t : Nat) : Nat := (m + 3 * h.size - 1 - t) % h.size

def prev (h : CollHead) (m : Nat) : Nat := (m + h.size - 1) % h.size
def next (h : CollHead) (m : Nat) : Nat := (m + 1) % h.size

/-- The pieces that member m sends, in order. -/
def sends (h : CollHead) (m : Nat) : List Piece :=
  if h.eager then
    if h.kind == .broadcast && m ≠ h.root then []
    else ((List.range h.size).filter fun p => p ≠ m).map fun p => ⟨m, p, 0, 0⟩
  else if h.kind == .broadcast && h.next m = h.root then []
  else (List.range h.steps).flatMap fun t => (List.range (h.chunks (h.blockAt m t))).map fun j => ⟨m, h.next m, t, j⟩

/-- The pieces that member m receives. -/
def receives (h : CollHead) (m : Nat) : List Piece :=
  if h.eager then ((List.range h.size).filter fun p => p ≠ m).flatMap fun p => (h.sends p).filter fun x => x.dest == m
  else h.sends (h.prev m)

/-- The pieces that carry member m's own contribution: in the ring those of the first step, and of a broadcast the
root's (09 R256). -/
def own (h : CollHead) (m : Nat) : List Piece :=
  (h.sends m).filter fun x => x.step == 0 && (h.kind != .broadcast || m == h.root)

end CollHead

/-- A contribution of a hart, of a collective from before an operation, has left its core, and some of it is not in its
slot yet. -/
def State.owesPieces (s : State) (h op : Nat) : Bool :=
  s.pod.colls.any fun c => c.decided.isNone && ((List.range c.parts.length).zip c.parts).any fun q =>
    q.2.stage == .issued && q.2.hart == h && q.2.op < op && q.2.source.isSome && (q.2.head.own q.1).any fun x => !q.2.sent.contains x

end Sys2Proof.Machine
end

