-- ==== Sys2Proof/Machine/Settle.lean ====
section
/-! DEFINITION. What a hart still owes: accesses not yet performed or sealed, operations that wait for requests and
cellar entries, statuses held on its counters, and arrivals at named barriers (04 R114, R116, 05 R126, R127, R135,
07 R197, R201, 15 R330). -/
namespace Sys2Proof.Machine

/-! ### First sets of fences and releases (05 R126, R127) -/

inductive FenceKind where
  | ld | st | all
  deriving DecidableEq, Repr

/-- The request belongs to the first set. -/
def FenceKind.covers (k : FenceKind) (r : ReqKind) : Bool :=
  match k, r with
  | .all, _ => true
  | .ld, .load | .ld, .atomic _ _ | .ld, .get | .ld, .queueAppend | .ld, .queuePop _ | .ld, .queueLen => true
  | .ld, _ => false
  | .st, .load | .st, .get | .st, .queueLen => false
  | .st, _ => true

/-- A store of another hart of a core, or of an engine of it, belongs to the first set of what knows so much, at a wide
scope: it happens before, or has been read. The store stands at a place in the order of retirement, and its bytes in the
history after `born` (05 R127). -/
def Known.covers (k : Known) (src seq born : Nat) (engine : Bool) (runs : List (Nat × Nat)) : Bool :=
  (!engine && k.past.any fun p => p.1 == src && seq < p.2) || k.reads.any fun x => born < x.2 && runsMeet runs [(x.1, 1)]

/-- Such a store for a hart now. -/
def State.behind (s : State) (h src seq born : Nat) (engine : Bool) (runs : List (Nat × Nat)) : Bool :=
  (s.knows h false).covers src seq born engine runs

/-- A cellar entry that the first set still waits for, at a wide scope or not. -/
def State.waitsEntry (s : State) (k : FenceKind) (h : Nat) (wide : Bool) (e : CellarEntry) : Bool :=
  match e.kind with
  | .store _ _ _ | .undo _ _ _ =>
    wide && (if e.hart == h && !e.engine then k != .ld else s.behind h e.hart e.seq e.born e.engine (s.entryRuns e))
  | .devWrite _ _ _ _ _ _ _ | .contribution _ _ => e.hart == h && k != .ld
  | .request _ | .sysWrite _ _ | .arm _ _ _ | .failure _ _ _ | .rfence _ => false

/-- A held store of another hart of the core that the first set still waits for at a wide scope. -/
def State.waitsStore (s : State) (h : Nat) (r : Request) : Bool :=
  r.kind == .store && r.hart != h && coreOf r.hart == coreOf h && s.behind h r.hart r.id r.born false (s.requestRuns r)

/-- The ordering includes a release. -/
def MemOrd.releases : MemOrd → Bool
  | .rel | .ar => true
  | _ => false

/-- The ordering includes an acquire. -/
def MemOrd.acquires : MemOrd → Bool
  | .acq | .ar => true
  | _ => false

/-- The request is a hart's own access to the scratchpad or to a device register, which alone a fence at hart scope orders
(07 R202). -/
def Request.isClose (r : Request) : Bool :=
  r.elems.any fun e => e.at_.isSpad || e.at_.isDev || (e.side.map fun p => p.isSpad || p.isDev).getD false

namespace State

/-- Accesses of the first set of a hart that are not yet performed for every agent within the scope. A store is performed
for its core when it retires; a wide scope waits for its home, and for the stores of the core that happen before or that the
hart has read (05 R124, R127). -/
def owesOf (s : State) (h : Nat) (k : FenceKind) (sc : Scope) : Bool :=
  let cellar := (s.core (coreOf h)).cellar
  match sc with
  | .hart => (s.net.any fun r => r.hart == h && k.covers r.kind && r.isClose)
      || (cellar.any fun e => match e.kind with
        | .devWrite _ _ _ _ _ _ _ => s.waitsEntry k h false e
        | _ => false)
  | sc =>
    let wide := Scope.wide sc
    (s.net.any fun r => (r.hart == h && k.covers r.kind && (wide || r.kind != .store))
        || (wide && s.waitsStore h r))
      || (cellar.any fun e => s.waitsEntry k h wide e) || (k != .ld && s.owesPieces h s.opSeq)

def owes (s : State) (k : FenceKind) (sc : Scope) : Bool := s.owesOf s.me k sc

/-- A release at a scope must still wait (05 R128). -/
def releaseWaits (s : State) (rel : Bool) (sc : Scope) : Bool := rel && s.owes .all sc

/-- Some store, atomic, device access or request of the hart in focus is not yet sealed (07 R201). -/
def unsealed (s : State) : Bool :=
  s.myCore.cellar.any fun e => e.hart == s.me && !e.sealed && (match e.kind with
    | .sysWrite _ _ | .arm _ _ _ | .failure _ _ _ | .rfence _ => false
    | _ => true)

/-! ### Operations that wait -/

/-- The operation that an entry holds up. -/
def entryOp (e : CellarEntry) : Option Nat :=
  match e.kind with
  | .store _ _ op | .undo _ _ op | .devWrite _ _ _ _ op _ _ => op
  | .arm _ _ op | .rfence op => some op
  | _ => none

/-- Something that an operation of a hart waits for remains. -/
def opWaits (s : State) (h op : Nat) : Bool :=
  (s.net.any fun r => r.hart == h && r.op == op && !r.silent)
    || ((s.core (coreOf h)).cellar.any fun e => e.hart == h && entryOp e == some op)

/-- An operation lands once nothing that it waits for remains (05 R135). -/
def settle (s : State) (h op : Nat) : State := if s.opWaits h op then s else s.land h op

/-- Leaves the request behind: its status, if some element failed, stays on the counter, and its operation settles
(18 R371, R372, R414). -/
def closeRequest (s : State) (r : Request) : State :=
  let s := { s with net := s.net.filter fun q => q.id ≠ r.id }
  if r.silent then s
  else
    let s := match r.failed with
      | some f => s.noteStatus r.hart r.op f
      | none => s
    s.settle r.hart r.op

def request? (s : State) (id : Nat) : Option Request := s.net.find? fun r => r.id == id

def modRequest (s : State) (id : Nat) (f : Request → Request) : State :=
  { s with net := s.net.map fun r => if r.id == id then f r else r }

end State

/-- An element's failure kept if it is the lowest so far (18 R372). -/
def Request.fail (r : Request) (idx code sub : Nat) (ea : Word) (acc : Nat := 0) : Request :=
  { r with failed := match r.failed with
      | some f => if idx < f.elem then some ⟨idx, code, sub, ea, acc⟩ else some f
      | none => some ⟨idx, code, sub, ea, acc⟩ }

/-! ### The end of a hardware loop (07 R184) -/

/-- A level put into a list of levels, the highest armed first. -/
def Hart.insertLevel (h : Hart) (i : Fin 4) : List (Fin 4) → List (Fin 4)
  | [] => [i]
  | j :: rest => if (h.lc[j]).armed ≤ (h.lc[i]).armed then i :: j :: rest else j :: h.insertLevel i rest

/-- Active levels that end at an address, the highest armed first (07 R184). -/
def Hart.endingAt (h : Hart) (a : Word) : List (Fin 4) :=
  (([0, 1, 2, 3] : List (Fin 4)).filter fun i => (h.lc[i]).active && (h.lc[i]).stop == a).foldr h.insertLevel []

/-- The end test of hardware loops (07 R184). -/
def Hart.endTest (h : Hart) : List (Fin 4) → Hart
  | [] => h
  | i :: rest =>
    let l := h.lc[i]
    if l.count.toNat ≤ 1 then ({ h with lc := h.lc.set i { l with count := 0, active := false } }).endTest rest
    else { h with lc := h.lc.set i { l with count := l.count - 1 }, pc := l.start }

/-- A hart passes the scalar word at its pc, which retires without being run again (17 R355). -/
def Hart.passWord (h : Hart) : Hart := { h with pc := h.pc + 12 }.endTest (h.endingAt h.pc)

/-! ### Statuses held on counters (15 R330) -/

/-- The status that a covering WAIT, WAITA or EXIT raises: the lowest counter's oldest. -/
def Hart.heldStatus (h : Hart) (covers : BitVec 3 → Bool) : Option CtrStatus :=
  (([0, 1, 2, 3, 4, 5, 6, 7] : List (BitVec 3)).filterMap fun c =>
    if covers c then h.stats.find? fun st => st.ctr == c else none).head?

def CtrStatus.trap (st : CtrStatus) : Trap :=
  { code := st.code, sub := st.sub, eaddr := st.eaddr, acc := st.acc, elem := st.elem, ctr := some st.ctr }

/-! ### Named barriers (07 R197) -/

/-- The die that a signal's target word names, and the fields of one that names a named barrier (09 R252). -/
def signalDie (a : Nat) : Nat := globalDie a
def targetCore (a : Nat) : Nat := a / 2 ^ 48 % 128
def targetBarrier (a : Nat) : BitVec 6 := BitVec.ofNat 6 a
def targetMalformed (a : Nat) : Bool := a / 2 ^ 6 % 2 ^ 42 ≠ 0 || 96 ≤ targetCore a

/-- An earlier signal of a hart to a barrier of its core is on its way: a later arrival of the hart comes after it
(05 R139). -/
def State.signalsFirst (s : State) (h : Nat) (n : BitVec 6) : Bool :=
  s.net.any fun r => r.hart == h && r.kind == .signal && r.elems.any fun e =>
    decide (e.cmp < 2 ^ 63) && !targetMalformed e.cmp && 128 * signalDie e.cmp + targetCore e.cmp == coreOf h
      && targetBarrier e.cmp == n

/-- One arrival, with the releases that it is: with E = 0 ignored; the E-th completes the phase (05 R129). -/
def NamedBarrier.arrive (rels : List Release) (b : NamedBarrier) : NamedBarrier :=
  if b.e = 0 then b
  else
    let new := (rels.map fun r => (b.p + 1, r)).filter fun r => !b.rels.contains r
    let b := { b with rels := new ++ b.rels }
    if b.a.toNat + 1 = b.e.toNat then { b with a := 0, p := b.p + 1 } else { b with a := b.a + 1 }

/-- So many arrivals, one after another. -/
def NamedBarrier.arriveN (rels : List Release) : Nat → NamedBarrier → NamedBarrier
  | 0, b => b
  | n + 1, b => NamedBarrier.arriveN rels n (b.arrive rels)

/-- The release arrivals of a phase. -/
def NamedBarrier.releases (b : NamedBarrier) (phase : BitVec 32) : List Release :=
  (b.rels.filter fun r => r.1 == phase).map fun r => r.2

/-- The phase waited for has completed (07 R198). -/
def NamedBarrier.passed (b : NamedBarrier) (phase : BitVec 32) : Bool := decide ((b.p - phase).toNat < 2 ^ 31)

def Core.barrier (c : Core) (n : BitVec 6) : NamedBarrier := c.nb[n.toNat]'n.isLt
def Core.setBarrier (c : Core) (n : BitVec 6) (b : NamedBarrier) : Core := { c with nb := c.nb.set n.toNat b n.isLt }

end Sys2Proof.Machine
end

