-- ==== Sys2Proof/Machine/Sequencer.lean ====
section
/-! DEFINITION. The graph sequencer of a die: the resident graph table, validation, the resolution of nodes, work-queue
descriptors, the placement of gangs and their end (02 R36 to R50, R52, 17 R354 to R356, R365, R368). -/
namespace Sys2Proof.Machine

/-! ### The resident graph table (02 R36, R39) -/

structure TableEntry where
  base : Word
  job : BitVec 12
  ptbase : Word
  svec : Word
  deriving DecidableEq, Repr

def ptbaseMask : Word := 0x0000FFFFFFFFC000

namespace State

/-- Entry e of a die's table; one on a die that cannot be reached holds no graph (01 R13). -/
def tableEntry (s : State) (d e : Nat) : TableEntry :=
  let w (k : Nat) : Word := (s.walkEntry d ((s.die d).gtbase.toNat + 32 * e + 8 * k)).toOption.getD 0
  ⟨w 0, (w 1).setWidth 12, w 2 &&& ptbaseMask, (w 3) &&& ~~~(3 : Word)⟩

/-- The entry that holds a graph's base, the lowest of several (log 78); an empty entry, whose BASE is 0, holds none. -/
def entryOf (s : State) (d : Nat) (base : Word) : Option Nat :=
  if (s.die d).gtbase = 0 || base = 0 then none else (List.range 256).find? fun e => (s.tableEntry d e).base == base

/-- The header of a graph can be read and written through its entry's translation (02 R39). -/
def headerOk (s : State) (d : Nat) (t : TableEntry) : Bool :=
  (s.seqKey d t.ptbase t.job .read t.base.toNat).isSome && (s.seqKey d t.ptbase t.job .write t.base.toNat).isSome

/-- Registers the ARM word of an entry, if its header can be reached; a word found nonzero is taken (02 R39). -/
def registerEntry (s : State) (d e : Nat) : State :=
  let t := s.tableEntry d e
  let s := s.modDie d fun k => { k with registered := k.registered.filter fun r => r.1 ≠ e }
  if t.base = 0 || !s.headerOk d t then s
  else match s.seqKey d t.ptbase t.job .write t.base.toNat with
    | none => s
    | some key =>
      let s := s.modDie d fun k => { k with registered := k.registered ++ [(e, key)] }
      if s.homeNat key 8 ≠ 0 then s.due [.graphArm d e] else s

end State

/-! ### Reading nodes (02 R40) -/

/-- The node whose fields a reader gives by offset and size. -/
def readNode (rd : Nat → Nat → Option Nat) : Option GNode := do
  let kind ← rd 0 1
  let npred ← rd 1 1
  let flags ← rd 2 1
  let prio ← rd 3 1
  let succ ← (List.range 8).mapM fun k => rd (8 + 2 * k) 2
  let addr ← rd 0x18 8
  let entry ← rd 0x20 8
  let gsize ← rd 0x28 1
  let hwgt ← rd 0x29 1
  let gcount ← rd 0x2C 4
  let lo ← rd 0x30 8
  let hi ← rd 0x38 8
  let args ← rd 0x40 8
  let spres ← rd 0x48 4
  let dfsz ← rd 0x4C 4
  let deadline ← rd 0x50 4
  let body ← rd 0x54 2
  let tail ← rd 0x56 2
  let itermax ← rd 0x58 4
  return ⟨kind, npred, flags, prio % 16, succ, addr, entry, gsize, hwgt % 16, gcount, (hi * 2 ^ 64 + lo) % 2 ^ 96, args,
    spres, dfsz, deadline, body, tail, itermax⟩

/-- What stands for a node that cannot be read: no kind, no link, and an NPRED of 0 (DESIGN CHOICE, log 15). -/
def GNode.unread : GNode := ⟨5, 0, 0, 0, [], 0, 0, 1, 0, 1, 1, 0, 0, 0, 0, 0, 0, 0⟩

def GNode.links (n : GNode) : List Nat := n.succ.filter fun t => t ≠ 0xFFFF

/-- KERNEL and QUEUE nodes launch gangs. -/
def GNode.launches (n : GNode) : Bool := n.kind == 0 || n.kind == 4
def GNode.isWhile (n : GNode) : Bool := n.kind == 2

def nodeAt (ns : List GNode) (i : Nat) : GNode := ns.getD i GNode.unread

/-! ### Validation (02 R41) -/

/-- Slots that name a node. -/
def predCount (ns : List GNode) (i : Nat) : Nat := ns.foldl (fun k n => k + n.links.count i) 0

def inRange (w : GNode) (i : Nat) : Bool := w.body ≤ i && i ≤ w.tail

/-- The range of WHILE node i breaks a rule of CAUSE 6. -/
def whileBad (ns : List GNode) (i : Nat) (w : GNode) : Bool :=
  let n := ns.length
  n ≤ w.body || n ≤ w.tail || w.tail < w.body || inRange w i || !(nodeAt ns w.tail).links.isEmpty
    || ((List.range n).any fun j =>
      ((nodeAt ns j).links.any fun t => inRange w t != inRange w j) || (inRange w j && j ≠ w.body && (nodeAt ns j).npred == 0))
    || ((List.range n).any fun j =>
      let v := nodeAt ns j
      i < j && v.isWhile && v.body ≤ w.tail && w.body ≤ v.tail
        && !(v.body ≤ w.body && w.tail ≤ v.tail) && !(w.body ≤ v.body && v.tail ≤ w.tail))

/-- The nodes reached from a list of nodes in so many passes. -/
def reachFrom (ns : List GNode) : Nat → List Nat → List Nat
  | 0, l => l
  | k + 1, l =>
    let next := dedup (l ++ l.flatMap fun i => (nodeAt ns i).links.filter fun t => t < ns.length)
    if next.length = l.length then l else reachFrom ns k next

def onCycle (ns : List GNode) (i : Nat) : Bool :=
  (reachFrom ns ns.length (dedup ((nodeAt ns i).links.filter fun t => t < ns.length))).contains i

/-- The causes that name node i; `ok` says that it could be read. -/
def nodeCauses (ns : List GNode) (i : Nat) (n : GNode) (ok : Bool) : List Nat :=
  if !ok then [10]
  else
    (if 6 ≤ n.kind then [1] else [])
      ++ (if predCount ns i ≠ n.npred || (n.links.any fun t => ns.length ≤ t) || (n.kind == 5 && n.npred == 0) then [2] else [])
      ++ (if n.launches && (!([1, 2, 4, 8].contains n.gsize) || n.gcount == 0 || 2 ^ 24 < n.gcount) then [3] else [])
      ++ (if n.launches && n.pmask == 0 then [4] else [])
      ++ (if n.launches && (n.spres % 2 ^ 16 ≠ 0 || 2 ^ 22 < n.spres || n.spres < n.dfsz) then [5] else [])
      ++ (if n.isWhile && whileBad ns i n then [6] else [])
      ++ (if onCycle ns i then [7] else [])
      ++ (if [1, 2, 3].contains n.kind && n.addr % 8 ≠ 0 then [10] else [])

/-- The failure of the lowest node, and of it the lowest cause (02 R41). -/
def firstFailure (ns : List GNode) (oks : List Bool) : Option (Nat × Nat) :=
  (((List.range ns.length).zip (ns.zip oks)).filterMap fun p =>
    (nodeCauses ns p.1 p.2.1 p.2.2).head?.map fun c => (p.1, c)).head?

/-! ### Runs of graphs -/

namespace State

def run? (s : State) (d : Nat) (base : Word) : Option GraphRun := (s.die d).graphs.find? fun g => g.base == base

def modRun (s : State) (d : Nat) (base : Word) (f : GraphRun → GraphRun) : State :=
  s.modDie d fun k => { k with graphs := k.graphs.map fun g => if g.base == base then f g else g }

end State

/-! ### Resolution of nodes (02 R42 to R44) -/

def NodeState.resolved : NodeState → Bool
  | .done | .skipped => true
  | _ => false

/-- Unresolved, and not ready yet. -/
def NodeState.isWaiting : NodeState → Bool
  | .waiting _ _ => true
  | _ => false

def NodeRun.fresh : NodeRun := ⟨.waiting 0 0, 0, 0, false, false⟩

def GraphRun.node (g : GraphRun) (i : Nat) : NodeRun := g.nodes.getD i NodeRun.fresh

def GraphRun.setNode (g : GraphRun) (i : Nat) (f : NodeRun → NodeRun) : GraphRun :=
  { g with nodes := ((List.range g.nodes.length).zip g.nodes).map fun p => if p.1 = i then f p.2 else p.2 }

def GraphRun.addWork (g : GraphRun) (w : List GraphWork) : GraphRun := { g with todo := g.todo ++ w }

/-- The links of a node as resolutions: a slot is completed when it is released. -/
def GNode.resolve (n : GNode) (released : Nat → Bool) : List GraphWork :=
  ((List.range n.succ.length).zip n.succ).filterMap fun p => if p.2 = 0xFFFF then none else some (.link p.2 (released p.1))

/-- The iterations that end when a node of their range resolves last. -/
def GraphRun.endedRanges (g : GraphRun) : List Nat :=
  (List.range g.data.length).filter fun w =>
    (nodeAt g.data w).isWhile && (g.node w).iterating
      && (List.range g.data.length).all fun j => !inRange (nodeAt g.data w) j || (g.node j).st.resolved

/-- Iterations that have ended are counted, and their words are read again. -/
def GraphRun.endRanges (g : GraphRun) : GraphRun :=
  g.endedRanges.foldl (fun g w => (g.setNode w fun n => { n with iter := n.iter + 1, iterating := false }).addWork [.test w]) g

/-- A node completes, with the slots that it releases. -/
def GraphRun.complete (g : GraphRun) (i : Nat) (released : Nat → Bool) : GraphRun :=
  ((g.setNode i fun n => { n with st := .done, iterating := false }).addWork ((nodeAt g.data i).resolve released)).endRanges

/-- The nodes of a WHILE's range changed by a function. -/
def GraphRun.mapRange (g : GraphRun) (w : GNode) (f : NodeRun → NodeRun) : GraphRun :=
  let one (p : Nat × NodeRun) : NodeRun := if w.isWhile && inRange w p.1 then f p.2 else p.2
  { g with nodes := ((List.range g.nodes.length).zip g.nodes).map one }

/-- Marks the nodes of a WHILE's range skipped. -/
def GraphRun.skipRange (g : GraphRun) (w : GNode) : GraphRun := g.mapRange w fun r => { r with st := .skipped }

/-- A node is skipped, and its range with it. -/
def GraphRun.skip (g : GraphRun) (i : Nat) : GraphRun :=
  let n := nodeAt g.data i
  (((g.setNode i fun r => { r with st := .skipped }).skipRange n).addWork (n.resolve fun _ => false)).endRanges

/-- One resolution reaches a node (02 R42). -/
def GraphRun.deliver (g : GraphRun) (i : Nat) (completed : Bool) : GraphRun :=
  let n := nodeAt g.data i
  match (g.node i).st with
  | .waiting c k =>
    let c := if completed then c + 1 else c
    let k := if completed then k else k + 1
    let g := g.setNode i fun r => { r with st := .waiting c k }
    if n.kind == 5 && n.flags % 2 == 1 then
      if completed then g.addWork [.start i] else if c = 0 && k = n.npred then g.skip i else g
    else if c + k = n.npred then (if c = 0 then g.skip i else g.addWork [.start i])
    else g
  | _ => g

/-- Every node of a run has resolved, and the sequencer has nothing left to do for it. -/
def GraphRun.resolved (g : GraphRun) : Bool := g.running && g.todo.isEmpty && g.nodes.all fun r => r.st.resolved

/-- The gangs of a launch, ready (02 R44, R45). -/
def readyGangs (g : GraphRun) (i firing : Nat) (time x5 x6 : Nat) : List ReadyGang :=
  let n := nodeAt g.data i
  (List.range n.gcount).map fun k =>
    ⟨firing, g.base, g.entry, i, k, n.prio, time, Word.ofNat x5, Word.ofNat x6, none, []⟩

/-- One launch of a node on a die, under a number of its own. -/
def Die.launch (k : Die) (g : GraphRun) (i time x5 x6 : Nat) : Die :=
  { k with ready := k.ready ++ readyGangs g i k.nextKey time x5 x6, nextKey := k.nextKey + 1 }

def ReadyGang.same (a b : ReadyGang) : Bool := a.firing == b.firing && a.gang == b.gang

/-- What is held on a core is held for this waiting gang. -/
def PlacedGang.isFor (p : PlacedGang) (r : ReadyGang) : Bool := p.firing == r.firing && p.gang == r.gang

/-- A work-queue descriptor as the sequencer reads it: BASE, CAP, TAIL, HEAD, BATCH, OWNER, FLUSH. -/
structure QueueDesc where
  base : Nat
  cap : Nat
  tail : Nat
  head : Nat
  batch : Nat
  owner : Nat
  flush : Nat
  deriving DecidableEq, Repr

def readDesc (rd : Nat → Nat → Option Nat) : Option QueueDesc := do
  return ⟨← rd 0 8, ← rd 8 8, ← rd 0x10 8, ← rd 0x18 8, ← rd 0x20 8, ← rd 0x28 8, ← rd 0x30 8⟩

/-- CAP is a power of two from 256 to 2^24, and BATCH lies from 1 to CAP (02 R47). -/
def QueueDesc.capOk (q : QueueDesc) : Bool :=
  ((List.range 17).any fun k => q.cap == 2 ^ (k + 8)) && 1 ≤ q.batch && q.batch ≤ q.cap

/-- Entries between HEAD and TAIL, which wrap. -/
def QueueDesc.count (q : QueueDesc) : Nat := if q.head ≤ q.tail then q.tail - q.head else q.tail + 2 ^ 64 - q.head

/-- The checks of a QUEUE node on its descriptor (02 R48). -/
def QueueDesc.nodeOk (q : QueueDesc) : Bool := q.capOk && (2 ^ 63 ≤ q.owner || q.owner == 0)

/-- Poison of a granule after an access that stores to some bytes: none once one operation has overwritten the granule whole,
in one access or in several (19 R400). -/
def GranPoison.storedBy (g : GranPoison) (op : Option Nat) (keys : List Nat) : Option GranPoison :=
  let mine := (List.range 32).filter fun i => keys.contains (g.base + i)
  if mine.isEmpty then some g
  else if mine.length = 32 then none
  else match op with
    | none => some g
    | some o =>
      let part := dedup (g.part ++ mine.map fun i => (o, i))
      if (List.range 32).all fun i => part.contains (o, i) then none else some { g with part := part }

namespace State

/-- The descriptor of a QUEUE node of a run, unchecked. -/
def rawDesc (s : State) (d : Nat) (g : GraphRun) (i : Nat) : Option QueueDesc :=
  readDesc fun off n => s.seqRead d g.ptbase g.job ((nodeAt g.data i).addr + off) n

/-- The descriptor of a QUEUE node of a run; none if it fails a check. -/
def nodeDesc (s : State) (d : Nat) (g : GraphRun) (i : Nat) : Option QueueDesc :=
  if (nodeAt g.data i).addr % 64 ≠ 0 then none else (s.rawDesc d g i).filter QueueDesc.nodeOk

/-- The steps that active QUEUE nodes of a die are due (02 R48). -/
def queueSteps (s : State) (d : Nat) : List Instr :=
  ((s.die d).graphs.filter fun g => g.running).flatMap fun g =>
    (List.range g.nodes.length).filterMap fun i =>
      if (nodeAt g.data i).kind ≠ 4 || (g.node i).st ≠ .active then none
      else match s.rawDesc d g i with
        | none => none
        | some q =>
          if q.batch ≤ q.count && q.owner < 2 ^ 63 then some (.queueFiring d g.entry i)
          else if q.flush ≠ 0 then some (.queueFlush d g.entry i)
          else none

/-- Appends the due steps that are not due yet. -/
def dueNew (s : State) (es : List Instr) : State := s.due (es.filter fun e => !s.agenda.contains e)

/-- The sequencer of a die has something to place. -/
def kick (s : State) (d : Nat) : State := if (s.die d).ready.isEmpty then s else s.dueNew [.gangPlace d]

/-- Entries of a die's table that some bytes lie in. -/
def entriesAt (s : State) (d : Nat) (keys : List Nat) : List Nat :=
  let table := physKey (chipOfDie d) ((s.die d).gtbase.toNat % 2 ^ 40)
  dedup ((keys.filter fun k => table ≤ k && k < table + 8192).map fun k => (k - table) / 32)

/-- What follows from stores performed at home: ARM words, table entries and work queues (02 R39, R48). -/
def afterStore (s : State) (keys : List Nat) : State :=
  s.dies.foldl (fun s p =>
    let d := p.1
    if p.2.gtbase = 0 then s
    else
      let s := (s.entriesAt d keys).foldl (fun s e => s.registerEntry d e) s
      let armed := (s.die d).registered.filter fun r => (keys.any fun k => r.2 ≤ k && k < r.2 + 8) && s.homeNat r.2 8 ≠ 0
      let s := s.dueNew (armed.map fun r => .graphArm d r.1)
      s.dueNew (s.queueSteps d)) s

/-- The bytes of one access stored at their homes, with what follows from them. -/
def homeStore (s : State) (w : Writer) (cells : List Host.Cell) : State :=
  (({ s with poison := s.poison.filterMap fun g => g.storedBy w.op (cells.map fun c => c.1) } : State).homeWrite w cells).afterStore
    (cells.map fun c => c.1)

end State

/-! ### Notices and the event log (17 R366, 18 R377, R383, 19 R405, R406) -/

/-- A request of a package that is frozen goes nowhere (19 R407). -/
def State.asleep (s : State) (r : Request) : Bool := (s.pkg (chipOfDie (fromDie r.hart))).frozen

namespace State

/-- A signal that the device sends, after the writes that it covers (08 R234, 17 R366). To a die that its link does not
reach, it is lost (01 R13, log 79). -/
def sendSignal (s : State) (h : Nat) (job : BitVec 12) (target count : Nat) (rels : List Release) : State :=
  let id := s.opSeq
  let e : ReqElem := ⟨0, 0, .window 0, 0, count, target, none, target⟩
  let r : Request :=
    { id := id, hart := h, job := job, op := 0, kind := .signal, elems := [e], dest := .nowhere, failed := none, sent := true
      silent := true, acquire := none, ordered := false, hint := .normal, marks := Marks.reset, born := 0
      rels := rels, heard := [] }
  if !s.reaches (fromDie h) (signalDie target) then s
  else (({ s with opSeq := id + 1, net := s.net ++ [r] }).sendTo (fromDie h) (signalDie target) 0).due [.rsigArrival id]

/-- A release of a die's engine at pod scope, which covers its stores so far (17 R366, 19 R405). -/
def engineRelease (d : Nat) : Release := ⟨deviceHart d, none, 4, ⟨Marks.reset, [], [], []⟩⟩

/-- One arrival sent to a notice target of a die, as a release at pod scope; 0 means no notice. -/
def notice (s : State) (d : Nat) (target : Word) : State :=
  if target = 0 then s else s.sendSignal (deviceHart d) 0 (target.toNat % 2 ^ 63) 1 [engineRelease d]

/-- A message of a die to another and the reply, over the links between them (01 R13, 11 R293). -/
def across (s : State) (d home out back : Nat) : State := (s.carry d home out).carry home d back

/-- Entries of the ring of a die. -/
def ringSize (base : Word) : Nat := 2 ^ (10 + min 5 (base.toNat % 8))

/-- A count of reference cycles read now on a die: no less than the one read before (19 R406, log 61). -/
def readTicks (s : State) (d : Nat) : Nat × State :=
  let t := (s.die d).ticks + s.anyValue (.other (2 ^ 21 + d))
  (t % 2 ^ 64, s.modDie d fun k => { k with ticks := t })

/-- An event is counted, written to the ring of a die, and noticed; where BASE is 0, or the die cannot reach the ring, there
is no entry and so no notice (19 R405, R406, 01 R13, log 101). -/
def logEvent (s : State) (d kind unit : Nat) (addr detail : Word) : State :=
  let k := s.die d
  let n := k.evtail.toNat
  let at_ := (k.evbase.toNat / 2 ^ 16) * 2 ^ 16
  let key := physKey (chipOfDie d) ((at_ + 32 * (n % ringSize k.evbase)) % 2 ^ 40)
  let time := s.readTicks d
  let entry := bytesOfNat 8 time.1 ++ bytesOfNat 2 kind ++ bytesOfNat 1 d ++ [0] ++ bytesOfNat 2 unit ++ [0, 0]
    ++ bytesOfNat 8 addr.toNat ++ bytesOfNat 8 detail.toNat
  let s := time.2.modDie d fun k => { k with evtail := k.evtail + 1 }
  if at_ = 0 || !s.reaches d (homeDie key) then s
  else ((s.across d (homeDie key) 32 0).homeStore { Writer.engine d with hint := some .noAlloc } (cellsAt key entry)).notice d k.evnote

/-- UNIT of an entry: a class and an index. -/
def logUnit (class_ index : Nat) : Nat := class_ * 2 ^ 12 + index % 2 ^ 12

/-- UNIT where the manual names no index, or no unit. -/
def anyUnit (s : State) : Nat := s.anyValue (.other (2 ^ 22)) % (6 * 2 ^ 12)

/-- A refusal is counted and logged at the home, with its status 1 to 3 (18 R377). -/
def logRefusal (s : State) (d : Nat) (job : BitVec 12) (reqDie : Nat) (bridge : Bool) (code va : Nat) : State :=
  if 3 < code then s else
  let s := s.modDie d fun k =>
    let cnt := k.hrstat.toNat / 2 ^ 32
    let cnt' := if cnt = 2 ^ 32 - 1 then cnt else cnt + 1
    { k with
      hrstat := Word.ofNat (cnt' * 2 ^ 32 + job.toNat * 2 ^ 20 + reqDie % 256 * 2 ^ 12 + (if bridge then 2 ^ 11 else 0) + code)
      hraddr := Word.ofNat va }
  s.logEvent d 12 s.anyUnit (s.die d).hraddr (s.die d).hrstat

/-- A fabric event of a die: fbstat, its notice, and its entry in the log (18 R383). -/
def fabricEvent (s : State) (d event peer lane : Nat) : State :=
  let s := s.modDie d fun k =>
    let seq := (k.fbstat.toNat / 2 ^ 16 + 1) % 2 ^ 16
    { k with fbstat := Word.ofNat (peer % 256 * 2 ^ 40 + lane % 4 * 2 ^ 38 + seq * 2 ^ 16 + event * 2 ^ 8) }
  (s.notice d (s.die d).fbnote).logEvent d 10 (logUnit 3 peer) 0 (s.die d).fbstat

/-- What an access of the sequencer of a die does beside what it reads or writes: the flits that it takes, the line that it
brings into the L2, and the log of its refusal by a home (04 R107, 11 R293, 18 R377). -/
def seqTouch (s : State) (d : Nat) (ptbase : Word) (job : BitVec 12) (acc : Acc) (va n : Nat) : State :=
  match s.seqFound d ptbase job acc va with
  | some (.ok k) =>
    let s := s.bring (if k.2 = 0 then .engine else .noAlloc) [k.1]
    if acc == .read then s.across d (homeDie k.1) 0 n else s.across d (homeDie k.1) n 0
  | some (.error (code, ga)) => s.logRefusal (globalDie ga) job d false code ga
  | none => s

/-- A number of n bytes read by the sequencer, with what the access does beside. -/
def seqLoad (s : State) (d : Nat) (ptbase : Word) (job : BitVec 12) (va n : Nat) : Option Nat × State :=
  (s.seqRead d ptbase job va n, s.seqTouch d ptbase job .read va n)

/-- A number of n bytes written by the sequencer, with what the access does beside. -/
def seqStore (s : State) (d : Nat) (ptbase : Word) (job : BitVec 12) (va n v : Nat) : State :=
  (s.seqTouch d ptbase job .write va n).seqWrite d ptbase job va n v

/-- What the check of a table entry's header does beside. -/
def touchHeader (s : State) (d e : Nat) : State :=
  let t := s.tableEntry d e
  if t.base = 0 then s
  else (s.seqTouch d t.ptbase t.job .read t.base.toNat 8).seqTouch d t.ptbase t.job .write t.base.toNat 0

/-- Registers every entry, as a write to gtbase does. -/
def registerTable (s : State) (d : Nat) : State :=
  let s := s.modDie d fun k => { k with registered := [] }
  if (s.die d).gtbase = 0 then s else (List.range 256).foldl (fun s e => (s.registerEntry d e).touchHeader d e) s

/-- The bytes of one access stored at their homes, with what follows from them. -/
def storeHome (s : State) (w : Writer) (cells : List Host.Cell) : State :=
  let keys := cells.map fun c => c.1
  s.dies.foldl (fun t p => if p.2.gtbase = 0 then t else (s.entriesAt p.1 keys).foldl (fun t e => t.touchHeader p.1 e) t)
    (s.homeStore w cells)

/-- Bytes stored at their homes in accesses of 8 bytes, and single bytes (05 R125, 09 R250, R265). -/
def storeEach (s : State) (w : Writer) (cells : List Host.Cell) : State := (eights cells).foldl (fun s g => s.storeHome w g) s

end State

/-! ### Failing a graph, and starting one (02 R38 to R41, 15 R322) -/

/-- The sequencer of a die fails a graph (15 R322). -/
def State.failGraph (s : State) (d : Nat) (graph : Word) (node cause : Nat) : State :=
  match (s.die d).graphs.find? fun g => g.base == graph with
  | none => s
  | some g =>
    let s := s.stopGraph d graph
    let old := s.seqLoad d g.ptbase g.job (graph.toNat + 8) 8
    let s := old.2.seqStore d g.ptbase g.job (graph.toNat + 8) 8 (statusWord (old.1.getD 0) 3 node cause g.rearm)
    let s := s.modDie d fun k => { k with
      graphs := k.graphs.map fun r => if r.base == graph then { r with running := false, failed := true } else r }
    if (s.die d).ready.isEmpty || s.agenda.contains (.gangPlace d) then s else s.due [.gangPlace d]

namespace State

/-- STATUS rewritten: RUNS as given, or as it stands (02 R38). -/
def writeStatus (s : State) (d : Nat) (g : GraphRun) (runs : Nat → Nat) (state node cause : Nat) (rearm : Bool) : State :=
  let old := s.seqLoad d g.ptbase g.job (g.base.toNat + 8) 8
  old.2.seqStore d g.ptbase g.job (g.base.toNat + 8) 8
    (statusWord (runs (old.1.getD 0 / 2 ^ 32) % 2 ^ 32 * 2 ^ 32) state node cause rearm)

/-- Reads the graph, checks it whole, and starts its roots or fails it (02 R39, R41). What was read is kept for the run
(log 15). -/
def startRun (s : State) (d : Nat) (g : GraphRun) : State :=
  let rd (off n : Nat) : Option Nat := s.seqRead d g.ptbase g.job (g.base.toNat + off) n
  let count := (rd 0x10 4).getD 0
  let s := s.seqTouch d g.ptbase g.job .read (g.base.toNat + 0x10) 4
  let s := (List.range (if 4096 < count then 0 else count)).foldl (fun s i =>
    s.seqTouch d g.ptbase g.job .read (g.base.toNat + 0x40 + 128 * i) 128) s
  let store (s : State) (g : GraphRun) : State :=
    s.modDie d fun k => { k with graphs := (k.graphs.filter fun r => r.base ≠ g.base) ++ [g] }
  if count = 0 || 4096 < count then
    (store s { g with running := false, failed := true, data := [], nodes := [], todo := [] }).writeStatus d g id 3 0 9 false
  else
    let read := (List.range count).map fun i => readNode fun off n => rd (0x40 + 128 * i + off) n
    let ns := read.map fun r => r.getD GNode.unread
    match firstFailure ns (read.map fun r => r.isSome) with
    | some (node, cause) =>
      (store s { g with running := false, failed := true, data := [], nodes := [], todo := [] }).writeStatus d g id 3 node
        cause false
    | none =>
      let covered (i : Nat) : Bool := ns.any fun w => w.isWhile && inRange w i
      let roots := (List.range count).filter fun i => (nodeAt ns i).npred == 0 && !covered i
      let g := { g with
        running := true, rearm := false, failed := false, data := ns
        nodes := ns.map fun _ => ⟨.waiting 0 0, 0, 0, false, false⟩, todo := roots.map GraphWork.start, users := [] }
      (store s g).writeStatus d g id 1 0 0 false

/-- A condition word, read through the entry's translation (02 R43). -/
def condition (s : State) (d : Nat) (g : GraphRun) (i : Nat) : Option Nat × State :=
  s.seqLoad d g.ptbase g.job (nodeAt g.data i).addr 8

/-- A WHILE node reads its word (02 R43). -/
def testWhile (s : State) (d : Nat) (g : GraphRun) (i : Nat) : State :=
  let n := nodeAt g.data i
  match s.condition d g i with
  | (none, s) => s.failGraph d g.base i 10
  | (some v, s) =>
    let r := g.node i
    if v ≠ 0 && (n.itermax == 0 || r.iter < n.itermax) then
      s.modRun d g.base fun g =>
        ((g.mapRange n fun _ => NodeRun.fresh).setNode i fun r => { r with iterating := true }).addWork [.start n.body]
    else s.modRun d g.base fun g => (if r.iter = 0 then g.skipRange n else g).complete i fun _ => true

/-- A node becomes ready, once: later resolutions of its predecessors have no effect on it (02 R42 to R44, R48). -/
def startNode (s : State) (d : Nat) (g : GraphRun) (i : Nat) : State :=
  let n := nodeAt g.data i
  if !(g.node i).st.isWaiting then s
  else
  let s := s.modRun d g.base fun g => g.setNode i fun r => { r with st := .active }
  match n.kind with
  | 0 =>
    let s := s.modRun d g.base fun g => g.setNode i fun r => { r with live := n.gcount }
    (s.modDie d fun k => k.launch g i s.time 0 0).kick d
  | 1 => match s.condition d g i with
    | (none, s) => s.failGraph d g.base i 10
    | (some v, s) => s.modRun d g.base fun g => g.complete i fun k => if v ≠ 0 then k < 4 else 4 ≤ k
  | 2 => match s.run? d g.base with
    | some g => s.testWhile d g i
    | none => s
  | 3 => match s.condition d g i with
    | (none, s) => s.failGraph d g.base i 10
    | (some v, s) => s.modRun d g.base fun g => g.complete i fun k => k == min v 7
  | 4 =>
    let s := s.seqTouch d g.ptbase g.job .read n.addr 0x38
    if (s.nodeDesc d g i).isNone then s.failGraph d g.base i 8
    else
      let s := s.modRun d g.base fun g => g.setNode i fun r => { r with flushed := false, live := 0 }
      s.dueNew (s.queueSteps d)
  | _ => s.modRun d g.base fun g => g.complete i fun _ => true

/-- An access of a run's harts has not been performed where it lies, or a store of their cores that happens before or that
they have read: the release at completion waits for it (02 R42, 05 R127, R134). -/
def runOwes (s : State) (g : GraphRun) : Bool :=
  g.users.any fun u =>
    (s.net.any fun r => r.id < u.seq && (r.hart == u.hart || (r.kind == .store && coreOf r.hart == coreOf u.hart
        && u.known.covers r.hart r.id r.born false (s.requestRuns r))))
      || (s.core (coreOf u.hart)).cellar.any fun e => e.seq < u.seq
        && (e.hart == u.hart || u.known.covers e.hart e.seq e.born e.engine (s.entryRuns e))

/-- A graph whose nodes have all resolved completes, and starts again if it was armed meanwhile (02 R42). -/
def finishGraph (s : State) (d : Nat) (base : Word) : State :=
  match s.run? d base with
  | none => s
  | some g =>
    if g.resolved && !s.runOwes g then
      let s := (s.modRun d base fun g => { g with running := false, rearm := false }).writeStatus d g (· + 1) 2 0 0 false
      if g.rearm then s.startRun d { g with rearm := false } else s
    else s

/-- The sequencer's work on a graph, at most so many pieces of it. -/
def advance (d : Nat) (base : Word) : Nat → State → State
  | 0, s => s.dueNew [.gangPlace d]
  | fuel + 1, s => match s.run? d base with
    | none => s
    | some g =>
      if !g.running then s
      else match g.todo with
        | [] =>
          let t := s.finishGraph d base
          (match t.run? d base with
          | some g' =>
            if g'.running && !g'.todo.isEmpty then advance d base fuel t
            else if g'.resolved then t.dueNew [.gangPlace d] else t
          | none => t)
        | w :: rest =>
          let s := s.modRun d base fun g => { g with todo := rest }
          advance d base fuel (match w with
            | .start i => s.startNode d { g with todo := rest } i
            | .link i c => s.modRun d base fun g => g.deliver i c
            | .test i => s.testWhile d { g with todo := rest } i)

/-- The sequencer works on a graph until nothing is left to do at once. -/
def runGraph (s : State) (d : Nat) (base : Word) : State :=
  let n := match s.run? d base with
    | some g => g.nodes.length
    | none => 0
  advance d base (64 * (n + 1)) s

/-- Runs of a die that have work left, or only the release at their completion, go on. -/
def resumeRuns (s : State) (d : Nat) : State :=
  ((s.die d).graphs.filter fun g => g.running && (!g.todo.isEmpty || g.resolved)).foldl (fun s g => s.runGraph d g.base) s

/-! ### Arming (02 R39) -/

/-- An arm of the graph at an entry: what GRUN writes for it. -/
def armGraph (s : State) (d e : Nat) : Nat × State :=
  let t := s.tableEntry d e
  let s := s.touchHeader d e
  if !s.headerOk d t then (3, s)
  else match s.run? d t.base with
    | some g =>
      if g.running then
        (2, (s.modRun d t.base fun g => { g with rearm := true }).writeStatus d g id 1 0 0 true)
      else (0, (s.startRun d { g with entry := e, job := t.job, ptbase := t.ptbase, svec := t.svec }).runGraph d t.base)
    | none =>
      (0, (s.startRun d ⟨e, t.base, t.job, t.ptbase, t.svec, false, false, false, [], [], [], []⟩).runGraph d t.base)

end State

/-! ### Placement (02 R45, R46) -/

/-- Scratchpad ranges that placed gangs hold on a core. -/
def State.heldRanges (s : State) (c : Nat) : List (Nat × Nat) :=
  ((s.die (dieOfCore c)).placed.filter fun g => g.core == c && g.resSize ≠ 0).map fun g => (g.resOff, g.resSize)

def rangeFree (held : List (Nat × Nat)) (off size : Nat) : Bool := held.all fun r => off + size ≤ r.1 || r.1 + r.2 ≤ off

/-- The lowest free range of so many bytes (02 R45). -/
def lowestRange (held : List (Nat × Nat)) (limit size : Nat) : Option Nat :=
  if size = 0 then some 0
  else ((List.range 64).map fun k => k * 2 ^ 16).find? fun off => off + size ≤ limit && rangeFree held off size

/-- The hids of a core that no gang occupies. -/
def State.freeHarts (s : State) (c : Nat) : List Nat := (List.range 8).filter fun n => (s.hart (8 * c + n)).run == .free

/-- The core takes gangs: present, not under reset, not draining, its island not asked to gate (11 R303, 19 R398). -/
def State.takesGangs (s : State) (c : Nat) : Bool :=
  let k := s.core c
  !k.gone && !k.underReset && !k.drain && !(s.island (dieOfCore c) (c % 128)).gate
    && !(s.island (dieOfCore c) (c % 128)).gated

/-- The record of a saved gang. -/
def Die.record? (k : Die) (firing gang : Nat) : Option SaveRecord :=
  k.records.find? fun r => r.firing == firing && r.gang == gang

/-- Harts and scratchpad of a core that are held for another waiting gang (02 R50, 17 R365). -/
def Die.heldFor (k : Die) (r : ReadyGang) (c : Nat) : List PlacedGang :=
  k.handed.filter fun p => p.core == c && !p.isFor r

/-- Where a ready gang fits on a core: the harts and the reservation's offset (02 R45, 17 R368). -/
def State.fitOn (s : State) (d : Nat) (n : GNode) (r : ReadyGang) (c : Nat) : Option (List Nat × Nat) :=
  let held := (s.die d).heldFor r c
  let free := ((s.freeHarts c).filter fun x => !(held.any fun p => p.harts.contains (8 * c + x))).map fun x => 8 * c + x
  let ranges := s.heldRanges c ++ held.map fun p => (p.resOff, p.resSize)
  let limit := Config.scratchBytes (s.core c).spmode
  if !s.takesGangs c then none
  else match r.saved with
    | none => match lowestRange ranges limit n.spres with
      | some off => if n.gsize ≤ free.length then some (free.take n.gsize, off) else none
      | none => none
    | some _ => match (s.die d).record? r.firing r.gang with
      | none => none
      | some rec =>
        let live := rec.gsize - rec.exited.length
        if rec.vlmax == (s.core c).vlmax && (rec.resSize == 0 || (rangeFree ranges rec.resOff rec.resSize && rec.resOff + rec.resSize ≤ limit))
            && (rec.barriers == 0 || rec.core == c) && live ≤ free.length then some (free.take live, rec.resOff)
        else none

/-- The lowest core of the mask on which a ready gang fits. -/
def State.fit (s : State) (d : Nat) (r : ReadyGang) : Option (Nat × List Nat × Nat) :=
  match s.run? d r.graph with
  | none => none
  | some g =>
    let n := nodeAt g.data r.node
    ((List.range 96).filterMap fun i =>
      if n.pmask.testBit i then (s.fitOn d n r (128 * d + i)).map fun f => (128 * d + i, f.1, f.2) else none).head?

/-- The order of ready gangs (02 R45). -/
def ReadyGang.before (a b : ReadyGang) : Bool :=
  if a.prio ≠ b.prio then b.prio < a.prio
  else if a.time ≠ b.time then a.time < b.time
  else if a.entry ≠ b.entry then a.entry < b.entry
  else if a.node ≠ b.node then a.node < b.node
  else a.gang < b.gang

def insertReady (r : ReadyGang) : List ReadyGang → List ReadyGang
  | [] => [r]
  | q :: rest => if q.before r then q :: insertReady r rest else r :: q :: rest

/-- The ready gangs in their order. -/
def sortReady (l : List ReadyGang) : List ReadyGang := l.foldr insertReady []

/-- A hart at its gang's placement (02 R46). -/
def placedHart (g : GraphRun) (n : GNode) (r : ReadyGang) (rank off : Nat) (mark : Nat) : Hart :=
  let x (k v : Nat) (l : Vector Word 64) : Vector Word 64 := l.setIfInBounds k (Word.ofNat v)
  { Hart.reset with
    run := .running
    pc := Word.ofNat n.entry
    x := x 6 r.x6.toNat (x 5 r.x5.toNat (x 4 (Config.scratchBase + off) (x 3 n.gcount (x 2 r.gang (x 1 n.args Hart.reset.x)))))
    gangIdx := BitVec.ofNat 24 r.gang
    gsz := BitVec.ofNat 2 (if n.gsize = 8 then 3 else if n.gsize = 4 then 2 else if n.gsize = 2 then 1 else 0)
    rank := BitVec.ofNat 3 rank
    hwgt := BitVec.ofNat 4 n.hwgt
    ddl := BitVec.ofNat 32 (if n.deadline = 0 then 20000 else n.deadline)
    jobtag := g.job, ptbase := g.ptbase, svec := g.svec
    gang := some ⟨g.base, r.node, r.gang⟩, resOff := off, resSize := n.spres, dfsz := n.dfsz, fetchMark := mark
    marks := Marks.reset.raised mark }

/-- Bytes of a memory outside a range. -/
def Memory.clear (m : Memory) (off size : Nat) : Memory := m.filter fun c => !(off ≤ c.1 && c.1 < off + size)

/-- The arbiter's quota after a write to a hart's weight (02 R31). -/
def Core.limitQuota (c : Core) (n : Nat) (w : BitVec 4) : Core :=
  { c with quota := Vector.ofFn fun (i : Fin 8) => if i.val = n && w.toNat < (c.quota[i]).toNat then w else c.quota[i] }

/-- The clock of a core has passed the seal window of every convoy that some of its harts have retired: a rollback has
nothing of theirs to withdraw (07 R190, 19 R392, R394). -/
def Core.outlast (c : Core) (harts : List Nat) : Core :=
  { c with clock := (c.log.filter fun r => harts.contains r.hart).foldl (fun t r => max t (r.cycle + Config.sealWindow + 1)) c.clock }

/-- A core's hart is given to a gang: its weight limits the quota, and a rollback has nothing of its past to restore
(19 R392). -/
def Core.takeHart (c : Core) (h : Nat) (w : BitVec 4) : Core :=
  { c.limitQuota (hidOf h) w with log := c.log.filter fun r => r.hart ≠ h }

/-- A core's scratchpad range freed of what it held, and its deferral queue empty (02 R46). -/
def Core.clearRange (c : Core) (off size key : Nat) : Core :=
  { c with
    spad := c.spad.clear off size
    poison := c.poison.filter fun g => !(off ≤ g.base && g.base < off + size)
    defq := Tab.set c.defq key []
    points := c.points.map fun p => { p with defq := Tab.set p.defq key [] } }

/-- Places a gang on a core, on given harts in ascending order, at an offset. -/
def State.placeGang (s : State) (d : Nat) (g : GraphRun) (r : ReadyGang) (c : Nat) (harts : List Nat) (off : Nat) : State :=
  let n := nodeAt g.data r.node
  let t := s.tableEntry d r.entry
  let g := { g with job := t.job, ptbase := t.ptbase, svec := t.svec }
  let key := (s.die d).nextKey
  let p : PlacedGang := ⟨key, r.firing, g.base, r.entry, r.node, r.gang, n.prio, r.time, s.time, c, harts, [], off, n.spres, n.dfsz,
    r.x5, r.x6, none, false, 0, 0, []⟩
  let s := s.modCore c fun k => k.clearRange off n.spres key
  let s := ((List.range harts.length).zip harts).foldl (fun s q =>
    (s.setHart q.2 (placedHart g n r q.1 off s.history.length)).modCore c fun k =>
      k.takeHart q.2 (BitVec.ofNat 4 n.hwgt)) s
  s.modDie d fun k => { k with
    placed := k.placed ++ [p], nextKey := key + 1
    handed := k.handed.filter fun q => !q.isFor r
    ready := k.ready.filter fun q => !q.same r }

/-! ### The gang of a hart -/

/-- The placed gang that a hart belongs to. -/
def State.gangOf (s : State) (h : Nat) : Option PlacedGang :=
  (s.die (dieOf h)).placed.find? fun g => g.harts.contains h && !g.exited.contains h

/-- The harts of a gang that have not exited. -/
def PlacedGang.live (g : PlacedGang) : List Nat := g.harts.filter fun h => !g.exited.contains h

def State.modGang (s : State) (d key : Nat) (f : PlacedGang → PlacedGang) : State :=
  s.modDie d fun k => { k with placed := k.placed.map fun g => if g.key == key then f g else g }

/-- What the engine of a die is asked to do: the waiting gang's priority for a save, the resumed gang's for a restore
(17 R365). -/
def Die.opPrio (k : Die) (key : Nat) : Nat :=
  match k.handed.find? fun g => g.key == key && g.saving with
  | some p => p.prio
  | none => (((k.placed.find? fun g => g.key == key).bind fun g => g.preempt)).getD 0

/-- A request put behind those of its priority or more. -/
def Die.insertOp (k : Die) (key : Nat) : List Nat → List Nat
  | [] => [key]
  | q :: rest => if k.opPrio q < k.opPrio key then key :: q :: rest else q :: k.insertOp key rest

/-- A request to the context-save engine: the operation under way is the head, and stays it (17 R365). -/
def Die.enqueue (k : Die) (key : Nat) : Die :=
  { k with saveQueue := match k.saveQueue with
      | [] => [key]
      | q :: rest => q :: k.insertOp key rest }

/-- The engine of a die goes on, unless its operation is frozen. -/
def State.runEngine (s : State) (d : Nat) : State :=
  let k := s.die d
  if k.frozenOp.isSome then s
  else match k.saveQueue with
    | [] => s
    | q :: _ => s.dueNew [if k.handed.any fun g => g.key == q && g.saving then .contextRestore d else .contextSave d]

/-- The gang's last hart has left: its harts and scratchpad are free, and its node may complete (02 R44, R48). -/
def State.gangEnds (s : State) (d : Nat) (p : PlacedGang) : State :=
  let s := s.modDie d fun k => Die.unpin { k with placed := k.placed.filter fun g => g.key ≠ p.key }
  let s : State := match s.run? d p.graph with
    | none => s
    | some g =>
      let n := nodeAt g.data p.node
      let live := (g.node p.node).live - 1
      let s := s.modRun d p.graph fun g => g.setNode p.node fun r => { r with live := live }
      if live = 0 && (n.kind == 0 || (g.node p.node).flushed) then
        (s.modRun d p.graph fun g => g.complete p.node fun _ => true).runGraph d p.graph
      else s
  s.kick d

/-- Every hart of a gang under preemption has stopped or exited: the save is due (02 R52). -/
def State.checkStopped (s : State) (d : Nat) (p : PlacedGang) : State :=
  if p.preempt.isSome && !p.saving && (p.live.all fun h => (s.hart h).run == .stopped) then
    ((s.modGang d p.key fun g => { g with saving := true, stopSeq := s.opSeq }).modDie d fun k => k.enqueue p.key).runEngine d
  else s

/-- A hart leaves its gang by EXIT (07 R190). -/
def State.hartExit (s : State) (h : Nat) : State :=
  let d := dieOf h
  match s.gangOf h with
  | none => s.modHart h Hart.release
  | some p =>
    let p := { p with exited := p.exited ++ [h], nbUsed := p.nbUsed ||| (s.hart h).nbUsed }
    let s := s.modHart h Hart.release
    let s := s.modRun d p.graph fun g => { g with users := g.users ++ [⟨h, s.opSeq, s.knows h false⟩] }
    let s := s.modGang d p.key fun g => { g with exited := p.exited, nbUsed := p.nbUsed }
    if p.live.isEmpty then s.gangEnds d p else (s.checkStopped d p).kick d

/-! ### Gang barriers and stops (07 R196, 17 R354, R355, 15 R329) -/

/-- Every other hart of the gang that has not exited has arrived at this hart's barrier. -/
def State.gbarDone (s : State) (h : Nat) : Bool :=
  match s.gangOf h with
  | none => true
  | some p => p.live.all fun x => (s.hart h).gbars ≤ (s.hart x).gbars

/-- A hart's release at a GBAR that it arrives at, kept with its gang (05 R131). -/
def State.arriveGbar (s : State) : State :=
  let n := s.my.gbars + 1
  let bar := s.released s.me 0 true
  let s := s.upd fun h => { h with gbars := n, inGbar := true }
  match s.gangOf s.me with
  | none => s
  | some p => s.modGang (dieOf s.me) p.key fun g => { g with
      bars := g.bars.filter (fun b => !(b.1 == n && b.2.hart == bar.hart)) ++ [(n, bar)] }

/-- A hart passes the GBAR that it has arrived at: it acquires from every arrival (05 R131). -/
def State.passGbar (s : State) (h : Nat) : State :=
  let bars := ((s.gangOf h).map fun p => p.bars).getD []
  s.acquireFrom h .gang ((bars.filter fun b => b.1 == (s.hart h).gbars).map fun b => b.2)

/-- A hart's NBAW passes a phase that has completed: its wait acquires, and its destination takes the phase's number
(07 R198). -/
def State.passNbaw (s : State) (h : Nat) (w : Arrival) : State :=
  (match w.acquire with
    | some sc => s.acquireFrom h sc (((s.core (coreOf h)).barrier w.bar).releases w.phase)
    | none => s).modHart h fun k => { (k.putX w.dest (w.phase.setWidth 64)) with inNbaw := none }

/-- A hart's arrivals that a stop withdraws, and a barrier that has completed passed (17 R355). -/
def State.withdraw (s : State) (h : Nat) : State :=
  let k := s.hart h
  let s :=
    if !k.inGbar then s
    else if s.gbarDone h then ((s.logFor h (.retired k)).passGbar h).modHart h fun k => ({ k with inGbar := false }).passWord
    else s.modHart h fun k => { k with inGbar := false, gbars := k.gbars - 1 }
  match k.inNbaw with
  | none => s
  | some w =>
    let b := (s.core (coreOf h)).barrier w.bar
    if b.passed w.phase then ((s.logFor h (.retired k)).passNbaw h w).modHart h Hart.passWord
    else (s.modHart h fun k => { k with inNbaw := none }).modCore (coreOf h) fun c =>
      c.setBarrier w.bar { b with a := b.a - 1, rels := b.rels.filter fun r => !(r.1 == w.phase && r.2.hart == h) }

/-- Stops a hart at a convoy boundary for a preemption; its record is lost to the save (02 R52, 15 R329). -/
def Hart.stopFor (h : Hart) (forced : Bool) : Hart :=
  { h with run := .stopped, queue := [], tail := none, recSet := false, frhdr := h.frhdr &&& ~~~(0x8000000000000000 : Word)
           prqForced := h.prqForced || forced }

/-- A hart stops at a yield point (02 R52, 06 R151, 07 R200). -/
def State.stopAt (s : State) (h : Nat) (forced : Bool) : State :=
  let s := (s.withdraw h).modHart h fun k => k.stopFor forced
  match s.gangOf h with
  | none => s
  | some p => s.checkStopped (dieOf h) p

end Sys2Proof.Machine
end

