-- ==== Sys2Proof/Machine/Vector.lean ====
section
/-! DEFINITION. Vector arithmetic, special functions, compare, select, conversion and quantisation: MAJ 0x10 to 0x13
(08 R203 to R221, 03 R79 to R88, 16 R343). -/
namespace Sys2Proof.Machine

/-! ### The frame of a vector word (08 R203, R204) -/

/-- Elements of a format that one register of the core of the hart in focus holds: VLMAX of the format. -/
def State.capacity (s : State) (f : Fmt) : Nat := elemsPer f s.myCore.vlmax

/-- The element count of a word in a format: min(vl, V). -/
def State.count (s : State) (h : Hart) (f : Fmt) : Nat := min h.vl.toNat (s.capacity f)

/-- The active elements among the first n of a format. -/
def Hart.actives (h : Hart) (g : Guard) (f : Fmt) (n : Nat) : List Nat := (List.range n).filter fun i => h.selects g f i

/-- The active units, each under its own predicate bit (03 R60). -/
def Hart.activeUnits (h : Hart) (g : Guard) (n : Nat) : List Nat := (List.range n).filter fun i => h.guardBit g i

/-- A vector result: elements of a width written into vd and l1 under a tag, and the flags raised (03 R61, R69, R84). -/
def Hart.vecWrite (h : Hart) (d : Operand) (width : Nat) (ws : List (Nat × Nat)) (tag : Fmt) (fl : Flags) : Hart :=
  (h.putVec d 1 (fun b => setElems b width ws) tag).mergeFlags fl

/-- An element-wise word: each active element of its format computed by `k` from the hart as read, of a width, under a
tag (08 R203). -/
def elementwise (i : Instr) (w : Wd) (width : Fmt → Nat) (tag : Fmt → Fmt) (k : Hart → Fmt → Nat → Nat × Raised) (s : State) :
    Host.Outcome State Fault Refusal :=
  issued i s fun r s =>
    let f := Instr.format i s.my
    let out := (r.actives w.grd f (s.count r f)).map fun e => (e, k r f e)
    (s.upd fun h => h.vecWrite w.d (width f) (out.map fun p => (p.1, p.2.1)) (tag f)
      (Flags.of (out.map fun p => (p.1, p.2.2)))).retire

/-- An element-wise word in and of one format. -/
def vecOp (i : Instr) (w : Wd) (k : Hart → Fmt → Nat → Nat × Raised) (s : State) : Host.Outcome State Fault Refusal :=
  elementwise i w Fmt.bits id k s

/-- A word of two sources. -/
def vec2 (i : Instr) (w : Wd) (k : Fmt → Nat → Nat → Nat × Raised) (s : State) : Host.Outcome State Fault Refusal :=
  vecOp i w (fun r f e => k f (r.srcElem w.a f e) (r.srcElem w.b f e)) s

/-- A word of one source. -/
def vec1 (i : Instr) (w : Wd) (k : Fmt → Nat → Nat × Raised) (s : State) : Host.Outcome State Fault Refusal :=
  vecOp i w (fun r f e => k f (r.srcElem w.a f e)) s

/-! ### Arithmetic on one element (08 R209 to R211) -/

/-- A floating result with the invalid case of its exact value. -/
def finishFp (f : Fmt) (rm : Rm) (v : Val × Bool) : Nat × Raised :=
  let r := roundVal (fpFmt f) rm v.1
  (r.1, { r.2 with iv := r.2.iv || v.2 })

/-- An integer form that wraps, or a floating form rounded once. -/
def arith (rm : Rm) (onInt : Int → Int → Int) (onVal : Val → Val → Val × Bool) (f : Fmt) (a b : Nat) : Nat × Raised :=
  if f.isInt then (wrapInt f (onInt (intOf f a) (intOf f b)), {})
  else finishFp f rm (onVal (elemVal f a) (elemVal f b))

def addElem (rm : Rm) : Fmt → Nat → Nat → Nat × Raised := arith rm (· + ·) (addVal rm)
def subElem (rm : Rm) : Fmt → Nat → Nat → Nat × Raised := arith rm (· - ·) fun a b => addVal rm a b.neg
def mulElem (rm : Rm) : Fmt → Nat → Nat → Nat × Raised := arith rm (· * ·) mulVal

/-- The high half of the exact product: signed, unsigned for n8. -/
def mulhElem (f : Fmt) (a b : Nat) : Nat × Raised := (wrapInt f (intOf f a * intOf f b / 2 ^ f.bits), {})

def fmaElem (rm : Rm) (f : Fmt) (a b c : Nat) : Nat × Raised :=
  if f.isInt then (wrapInt f (intOf f a * intOf f b + intOf f c), {})
  else finishFp f rm (fmaVal rm (elemVal f a) (elemVal f b) (elemVal f c))

/-- Minimum or maximum; floating forms as 08 R210. -/
def minMaxElem (isMax : Bool) (f : Fmt) (a b : Nat) : Nat × Raised :=
  if f.isInt then
    let below := decide (intOf f a < intOf f b)
    (if below != isMax then a else b, {})
  else finishFp f .rne (minMaxVal isMax (elemVal f a) (elemVal f b))

/-- A NaN of a floating format. -/
def isNanElem (f : Fmt) (a : Nat) : Bool := (elemVal f a).isNan

def absElem (f : Fmt) (a : Nat) : Nat × Raised :=
  (if !f.isInt && isNanElem f a then (fpFmt f).nanCode else applyMod f .absolute a, {})

def negElem (f : Fmt) (a : Nat) : Nat × Raised :=
  (if !f.isInt && isNanElem f a then (fpFmt f).nanCode else applyMod f .negate a, {})

def shlElem (f : Fmt) (a b : Nat) : Nat × Raised := (a * 2 ^ (b % f.bits) % 2 ^ f.bits, {})
def shrElem (f : Fmt) (a b : Nat) : Nat × Raised := (a / 2 ^ (b % f.bits), {})
def shraElem (f : Fmt) (a b : Nat) : Nat × Raised := (wrapInt f (intOf f a / 2 ^ (b % f.bits)), {})

/-- A saturating sum (08 R209). -/
def satElem (op : Int → Int → Int) (f : Fmt) (a b : Nat) : Nat × Raised :=
  let c := clampInt f (op (intOf f a) (intOf f b))
  (wrapInt f c.1, { sat := c.2 })

def execVadd (w : Wd) (rm : Rm) (s : State) := vec2 (.vadd w rm) w (addElem rm) s
def execVsub (w : Wd) (rm : Rm) (s : State) := vec2 (.vsub w rm) w (subElem rm) s
def execVmul (w : Wd) (rm : Rm) (s : State) := vec2 (.vmul w rm) w (mulElem rm) s
def execVmulh (w : Wd) (rm : Rm) (s : State) := vec2 (.vmulh w rm) w mulhElem s

def execVfma (w : Wd) (c : Operand) (rm : Rm) (s : State) : Host.Outcome State Fault Refusal :=
  vecOp (.vfma w c rm) w (fun r f e => fmaElem rm f (r.srcElem w.a f e) (r.srcElem w.b f e) (r.srcElem c f e)) s

def execVmin (w : Wd) (rm : Rm) (s : State) := vec2 (.vmin w rm) w (minMaxElem false) s
def execVmax (w : Wd) (rm : Rm) (s : State) := vec2 (.vmax w rm) w (minMaxElem true) s
def execVabs (w : Wd) (rm : Rm) (s : State) := vec1 (.vabs w rm) w absElem s
def execVneg (w : Wd) (rm : Rm) (s : State) := vec1 (.vneg w rm) w negElem s
def execVshl (w : Wd) (rm : Rm) (s : State) := vec2 (.vshl w rm) w shlElem s
def execVshr (w : Wd) (rm : Rm) (s : State) := vec2 (.vshr w rm) w shrElem s
def execVshra (w : Wd) (rm : Rm) (s : State) := vec2 (.vshra w rm) w shraElem s
def execVadds (w : Wd) (rm : Rm) (s : State) := vec2 (.vadds w rm) w (satElem (· + ·)) s
def execVsubs (w : Wd) (rm : Rm) (s : State) := vec2 (.vsubs w rm) w (satElem (· - ·)) s

/-! ### Bitwise forms and select, tag-neutral (08 R209, R215, 03 R71) -/

/-- A register whose elements of its own format have passed a sign modifier. -/
def modRegister (t : TReg 8192) (m : Modifier) : BitVec 8192 :=
  setElems t.bits t.tag.bits ((List.range (8192 / t.tag.bits)).map fun i => (i, applyMod t.tag m (getElem t.bits t.tag.bits i)))

/-- A source of a tag-neutral word as it is read: under FMT 0 a sign modifier acts in the source's own format, and the
bits it leaves are read in the common one (06 R144, 03 R71). -/
def Hart.neutralSource (h : Hart) (fmt : Fmt) (o : Operand) : Hart × Operand :=
  let sign := o.modifier == .negate || o.modifier == .absolute || o.modifier == .negAbs
  if fmt != .raw || !sign then (h, o)
  else
    let bits := modRegister (h.vecReg o) o.modifier
    match o with
    | .main i _ => (h.setV i ⟨(h.vr i).tag, bits⟩, .main i .plain)
    | .oper i _ => (h.setO i ⟨(h.or i).tag, bits⟩, .oper i .plain)
    | .last i _ => (h.setL i ⟨(h.lr i).tag, bits⟩, .last i .plain)
    | .const k => (h, .const k)

/-- A bitwise word: units of the common format, bytes for e2m1, tern and mask8. -/
def bitwise (i : Instr) (w : Wd) (k : Nat → Nat → Nat) (s : State) : Host.Outcome State Fault Refusal :=
  issued i s fun r s =>
    let f := Instr.format i s.my
    let a := r.neutralSource w.fmt w.a
    let b := r.neutralSource w.fmt w.b
    let es := r.activeUnits w.grd (movesOf f (s.count r f))
    (s.upd fun h => h.vecWrite w.d (moveBits f) (es.map fun e => (e, k (a.1.srcUnit a.2 f e) (b.1.srcUnit b.2 f e))) f
      Flags.none).retire

/-- The bits of a that b lacks. -/
def andNot (a b : Nat) : Nat := a - (a &&& b)

def execVand (w : Wd) (rm : Rm) (s : State) := bitwise (.vand w rm) w (· &&& ·) s
def execVor (w : Wd) (rm : Rm) (s : State) := bitwise (.vor w rm) w (· ||| ·) s
def execVxor (w : Wd) (rm : Rm) (s : State) := bitwise (.vxor w rm) w (· ^^^ ·) s
def execVandn (w : Wd) (rm : Rm) (s : State) := bitwise (.vandn w rm) w andNot s

/-- Five trits taken one by one, those below a count. -/
def trits (n e v : Nat) : List (Nat × Nat) :=
  ((List.range 5).filter fun j => 5 * e + j < n).map fun j => (5 * e + j, getTrit (BitVec.ofNat 8 v) j)

/-- Bytes of trits written, of the last one only the trits below a count (08 R215). The digits of an illegal code in such a byte
count as 0, as TRNPK takes them (DESIGN CHOICE, log 109). -/
def setTritBytes {k : Nat} (b : BitVec k) (n : Nat) (ws : List (Nat × Nat)) : BitVec k :=
  ws.foldl (fun b p =>
    if 5 * p.1 + 5 ≤ n then setElem b 8 p.1 p.2
    else (trits n p.1 p.2).foldl (fun b t => setTrit b t.1 t.2) b) b

/-- VSEL: every element below n takes a or b as the guard says (08 R215). -/
def execVsel (w : Wd) (s : State) : Host.Outcome State Fault Refusal :=
  issued (.vsel w) s fun r s =>
    let i : Instr := .vsel w
    let f := Instr.format i s.my
    let a := r.neutralSource w.fmt w.a
    let b := r.neutralSource w.fmt w.b
    let n := s.count r f
    let ws : List (Nat × Nat) :=
      if f == .e2m1 then (List.range n).map fun e => (e, if r.selects w.grd f e then a.1.srcElem a.2 f e else b.1.srcElem b.2 f e)
      else (List.range (movesOf f n)).map fun e => (e, if r.guardBit w.grd e then a.1.srcUnit a.2 f e else b.1.srcUnit b.2 f e)
    let write (b : BitVec 8192) : BitVec 8192 :=
      if f == .tern then setTritBytes b n ws else setElems b (if f == .e2m1 then 4 else moveBits f) ws
    (s.upd fun h => h.putVec w.d 1 write f).retire

/-! ### Special functions (08 R212, R213) -/

/-- Integer division on one element. -/
def intDivElem (f : Fmt) (a b : Nat) : Nat × Raised :=
  if b % 2 ^ f.bits = 0 then (2 ^ f.bits - 1, { dz := true }) else (wrapInt f ((intOf f a).tdiv (intOf f b)), {})

def divElem (rm : Rm) (f : Fmt) (a b : Nat) : Nat × Raised :=
  if f.isInt then intDivElem f a b else fpDiv (fpFmt f) rm (elemVal f a) (elemVal f b)

/-- A floating word of one source. -/
def special (i : Instr) (w : Wd) (rm : Rm) (k : FpFmt → Rm → Val → Nat × Raised) (s : State) :
    Host.Outcome State Fault Refusal :=
  vec1 i w (fun f a => k (fpFmt f) rm (elemVal f a)) s

def execVdiv (w : Wd) (rm : Rm) (s : State) := vec2 (.vdiv w rm) w (divElem rm) s
def execVsqrt (w : Wd) (rm : Rm) (s : State) := special (.vsqrt w rm) w rm fpSqrt s
def execVrcp (w : Wd) (rm : Rm) (s : State) := special (.vrcp w rm) w rm fpRcp s
def execVrsq (w : Wd) (rm : Rm) (s : State) := special (.vrsq w rm) w rm fpRsq s
def execVexp2 (w : Wd) (rm : Rm) (s : State) := special (.vexp2 w rm) w rm fpExp2 s
def execVlog2 (w : Wd) (rm : Rm) (s : State) := special (.vlog2 w rm) w rm fpLog2 s
def execVround (w : Wd) (rm : Rm) (s : State) := special (.vround w rm) w rm fpRound s

/-- The class of a floating element, as its bit (08 R213). -/
def classBit (f : Fmt) (a : Nat) : Nat :=
  let p := fpFmt f
  let normal (m : Nat) : Bool := decide (2 ^ p.mb ≤ m)
  match elemVal f a with
  | .nan sig => if sig then 8 else 9
  | .inf n => if n then 0 else 7
  | .fin n m _ => if m = 0 then (if n then 3 else 4) else if normal m then (if n then 1 else 6) else (if n then 2 else 5)

def execVclass (w : Wd) (rm : Rm) (s : State) : Host.Outcome State Fault Refusal :=
  elementwise (.vclass w rm) w Fmt.bits (fun f => if f == .fp32 then .i32 else .i16)
    (fun r f e => (2 ^ classBit f (r.srcElem w.a f e), {})) s

/-! ### Compare (08 R214) -/

/-- A condition on two elements, and whether it raises IV. -/
def VCond.holds (c : VCond) (f : Fmt) (a b : Nat) : Bool × Bool :=
  let byOrder (o : Ordering) : Bool :=
    match c with
    | .eq => o == .eq
    | .ne => o != .eq
    | .lt => o == .lt
    | .le => o != .gt
    | .gt => o == .gt
    | .ge => o != .lt
    | .un => false
    | .ord => true
  if f.isInt then (byOrder (compare (intOf f a) (intOf f b)), false)
  else
    let x := elemVal f a
    let y := elemVal f b
    if x.isNan || y.isNan then
      match c with
      | .ne | .un => (true, x.isSig || y.isSig)
      | .eq | .ord => (false, x.isSig || y.isSig)
      | _ => (false, true)
    else (byOrder (cmpVal x y), false)

/-- Bits of a predicate set or cleared. -/
def setBits (p : BitVec 1024) (bs : List (Nat × Bool)) : BitVec 1024 :=
  bs.foldl (fun p b => if b.2 then p ||| (1#1024 <<< b.1) else p &&& ~~~(1#1024 <<< b.1)) p

def execVcmp (c : VCond) (w : Wd) (s : State) : Host.Outcome State Fault Refusal :=
  issued (.vcmp c w) s fun r s =>
    let i : Instr := .vcmp c w
    let f := Instr.format i s.my
    let n := s.count r f
    let out := (r.actives w.grd f n).map fun e => (e, VCond.holds c f (r.srcElem w.a f e) (r.srcElem w.b f e))
    (s.upd fun h =>
      let d := Hart.predOf w.d
      (h.putP d fun b => setBits (b &&& BitVec.ofNat 1024 (2 ^ n - 1)) (out.map fun p => (p.1, p.2.1))).mergeFlags
        (Flags.of (out.map fun p => (p.1, Raised.ofIv p.2.2)))).retire

/-! ### Conversion (08 R216, R217, R220, R221) -/

/-- A conversion's frame: the format W, its capacity, the loop's active elements, and where they lie in the source and
the destination. -/
structure Part where
  loop : List Nat
  count : Nat
  srcOff : Nat
  dstOff : Nat

def State.part (s : State) (r : Hart) (w : Wd) (src dst : Fmt) : Part :=
  let vs := s.capacity src
  let vt := s.capacity dst
  let f := if vs ≤ vt then src else dst
  let vw := min vs vt
  let n := min r.vl.toNat vw
  ⟨r.actives w.grd f n, n, if vt < vs then partOf w * vw else 0, if vs < vt then partOf w * vw else 0⟩

/-- A byte that holds an illegal code, at an element or at none (03 R77, 15 R328, 16 R343). -/
def ternTrap (byte elem : Nat) : Trap := { code := 9, eaddr := Word.ofNat byte, elem := elem }

/-- The trap of the lowest loop element, of some in rising order, whose digit lies in a byte with an illegal code (03 R77, 15
R328, 16 R343; which of the loop's element and the source's ELEM names is DEDUCED, log 103). -/
def illegalTern (b : BitVec 8192) (off : Nat) (loop : List Nat) : Option Trap :=
  loop.findSome? fun e => if 243 ≤ getElem b 8 ((off + e) / 5) then some (ternTrap ((off + e) / 5) e) else none

/-- VCVT. A part of trits that reaches past the register's last has source elements that no register holds: values that
the manual does not state (08 R216, log 75). -/
def execVcvt (w : Wd) (rm : Rm) (s : State) : Host.Outcome State Fault Refusal :=
  issued (.vcvt w rm) s fun r s =>
    let i : Instr := .vcvt w rm
    let f := Instr.format i s.my
    let p := s.part r w f w.fmt
    let holds (j : Nat) : Bool := decide (j < s.capacity f)
    let src (j : Nat) : Nat := if holds j then r.srcElem w.a f j else s.anyValue (.other (2 ^ 24 + j)) % 3
    match (if f == .tern then illegalTern (r.vecReg w.a).bits p.srcOff (p.loop.filter fun e => holds (p.srcOff + e)) else none) with
    | some t => s.takeTrap t
    | none =>
      let out := p.loop.map fun e => (e, convertElem f w.fmt rm (src (p.srcOff + e)))
      (s.upd fun h => h.vecWrite w.d w.fmt.bits (out.map fun q => (p.dstOff + q.1, q.2.1)) w.fmt
        (Flags.of (out.map fun q => (p.srcOff + p.dstOff + q.1, q.2.2)))).retire

/-- The trit of a sign, as 0, 1 or 2. -/
def tritOf (v : Int) : Nat := if 0 < v then 2 else if v < 0 then 0 else 1

def execTrnpk (w : Wd) (s : State) : Host.Outcome State Fault Refusal :=
  issued (.trnpk w) s fun r s =>
    let p := s.part r w .i8 .tern
    let out := p.loop.map fun e => (p.dstOff + e, intOf .i8 (r.srcElem w.a .i8 e))
    (s.upd fun h => (h.putVec w.d 1 (fun b => out.foldl (fun b q => setTrit b q.1 (tritOf q.2)) b) .tern).mergeFlags
      (Flags.of (out.map fun q => (q.1, { sat := decide (1 < q.2.natAbs) })))).retire

def execTrnup (w : Wd) (s : State) : Host.Outcome State Fault Refusal :=
  issued (.trnup w) s fun r s =>
    let p := s.part r w .tern .i8
    let b := (r.vecReg w.a).bits
    match illegalTern b p.srcOff p.loop with
    | some t => s.takeTrap t
    | none =>
      (s.upd fun h => h.vecWrite w.d 8 (p.loop.map fun e => (e, (getTrit b (p.srcOff + e) + 255) % 256)) .i8 Flags.none).retire

/-! ### Block scales (03 R86 to R88, 08 R218, R219) -/

def BlockLen.elems : BlockLen → Nat
  | .none => 1
  | .b8 => 8
  | .b16 => 16
  | .b32 => 32

/-- The register's index in its tier; 0 for a constant or a broadcast (03 R87), and for a discarded VQNT result, for which the
manual states no d (DESIGN CHOICE, log 104). -/
def dataIndex (o : Operand) : Nat :=
  match o with
  | .const _ => 0
  | .main _ .broadcast => 0
  | o => (idxOf o).toNat

/-- The byte of its scale register that serves element i of data register d (03 R87). -/
def scaleByte (vm : Nat) (f : Fmt) (b : BlockLen) (d i : Nat) : Nat :=
  let per := elemsPer f vm / BlockLen.elems b
  let g := 4 * vm * BlockLen.elems b / elemsPer f vm
  d % g * per + i / BlockLen.elems b

/-- The scale of an element; 1 without a block length. -/
def Hart.scaleAt (h : Hart) (vm : Nat) (x : Xx) (reg : BitVec 6) (f : Fmt) (d i : Nat) : Val :=
  if x.blen == .none then Val.one
  else scaleVal x.sfmt (getElem (h.vr reg).bits 8 (scaleByte vm f x.blen d i))

/-- An element times a scale: a NaN scale gives a quiet NaN and raises nothing by itself (03 R82, R88). -/
def scaled (v sc : Val) : Val × Bool := if sc.isNan then (.nan false, v.isSig) else mulVal v sc

def execVscl (w : Wd) (x : Xx) (s : State) : Host.Outcome State Fault Refusal :=
  issued (.vscl w x) s fun r s =>
    let i : Instr := .vscl w x
    let f := Instr.format i s.my
    let p := s.part r w f w.fmt
    let vm := s.myCore.vlmax
    let out := p.loop.map fun e =>
      let j := p.srcOff + e
      (e, finishFp w.fmt x.rm (scaled (elemVal f (r.srcElem w.a f j)) (r.scaleAt vm x x.sa f (dataIndex w.a) j)))
    (s.upd fun h => h.vecWrite w.d w.fmt.bits (out.map fun q => (p.dstOff + q.1, q.2.1)) w.fmt
      (Flags.of (out.map fun q => (p.srcOff + p.dstOff + q.1, q.2.2)))).retire

/-! ### Quantisation (08 R218) -/

def scaleNan : ScaleFmt → Nat
  | .e8m0 => 0xFF
  | .e5m2 => 0x7E
  | .e4m3 => 0x7F

def scaleOne : ScaleFmt → Nat
  | .e8m0 => 0x7F
  | .e5m2 => 0x3C
  | .e4m3 => 0x38

/-- emax and the largest finite value of a target, as m·2^e. -/
def quantMax : Fmt → Int × Nat × Int
  | .e2m1 => (2, 6, 0)
  | .e4m3 => (8, 448, 0)
  | .e5m2 => (15, 57344, 0)
  | _ => (6, 127, 0)

/-- A magnitude is larger than another. -/
def magBelow (a b : Nat × Int) : Bool := cmpVal (.fin false a.1 a.2) (.fin false b.1 b.2) == .lt

/-- The largest magnitude among finite values. -/
def maxMag (vs : List Val) : Nat × Int :=
  vs.foldl (fun m v => match v with
    | .fin _ k e => if magBelow m (k, e) then (k, e) else m
    | _ => m) (0, 0)

/-- The scale byte of a block of values. -/
def blockScale (t : Fmt) (sf : ScaleFmt) (vs : List Val) : Nat :=
  if vs.any fun v => v.isNan || v.isInf then scaleNan sf
  else
    let m := maxMag vs
    let q := quantMax t
    if m.1 = 0 then scaleOne sf
    else match sf with
      | .e8m0 =>
        let e := m.2 + bitLen m.1 - 1 - q.1
        ((if e < -127 then -127 else if 127 < e then 127 else e) + 127).toNat
      | .e5m2 => let r := (roundTriple (fpFmt .e5m2) .rup false (divMag m.1 q.2.1 m.2 q.2.2)).1
        max 1 (min r (fpFmt .e5m2).maxCode)
      | .e4m3 => let r := (roundTriple (fpFmt .e4m3) .rup false (divMag m.1 q.2.1 m.2 q.2.2)).1
        max 1 (min r (fpFmt .e4m3).maxCode)

/-- A magnitude with a sticky part rounded to an integer, and whether it was inexact. -/
def roundIntSticky (rm : Rm) (neg : Bool) (t : Nat × Int × Bool) : Nat × Bool :=
  if 0 ≤ t.2.1 then (t.1 * 2 ^ t.2.1.toNat, t.2.2)
  else
    let sh := (-t.2.1).toNat
    let kept := t.1 / 2 ^ sh
    let rem := t.1 % 2 ^ sh
    (if roundUp rm neg (kept % 2 == 1) rem (2 ^ (sh - 1)) t.2.2 then kept + 1 else kept, rem != 0 || t.2.2)

/-- One element quantised by a finite scale: a clamped element raises NX alone (08 R218). -/
def quantElem (t : Fmt) (rm : Rm) (v sc : Val) : Nat × Raised :=
  match v, sc with
  | .fin n m e, .fin n' m' e' =>
    let neg := n != n'
    if m = 0 || m' = 0 then (if t == .i8 then 0 else (fpFmt t).signed neg 0, {})
    else
      let q := divMag m m' e e'
      if t == .i8 then
        let r := roundIntSticky rm neg q
        let k := min r.1 127
        (wrapInt .i8 (if neg then -(k : Int) else k), { nx := r.2 || decide (127 < r.1) })
      else
        let p := fpFmt t
        let r := roundTriple p rm neg q
        if r.2.ovf then (p.signed neg p.maxCode, { nx := true }) else r
  | _, _ => (0, {})

/-- VQNT writes two vector registers; l1 takes what vd takes (DESIGN CHOICE, log 95). Where vs is vd, the scale bytes and their
tag are written last (DESIGN CHOICE, log 107). -/
def execVqnt (w : Wd) (x : Xx) (s : State) : Host.Outcome State Fault Refusal :=
  issued (.vqnt w x) s fun r s =>
    let i : Instr := .vqnt w x
    let f := Instr.format i s.my
    let t := w.fmt
    let p := s.part r w f t
    let vm := s.myCore.vlmax
    let blen := BlockLen.elems x.blen
    let vals := p.loop.map fun e => (p.dstOff + e, elemVal f (r.srcElem w.a f e))
    let blocks := dedup ((List.range p.count).map fun e => (p.dstOff + e) / blen)
    let done := blocks.map fun b =>
      let mine := vals.filter fun q => q.1 / blen == b
      let sc := blockScale t x.sfmt (mine.map fun q => q.2)
      let bad := mine.any fun q => q.2.isNan || q.2.isInf
      (b, sc, mine.map fun q =>
        if bad then (q.1, 0, ({ iv := q.2.isNan || q.2.isInf } : Raised))
        else let e := quantElem t x.rm q.2 (scaleVal x.sfmt sc)
          (q.1, e.1, e.2))
    let outs := done.flatMap fun b => b.2.2
    let bytes := done.map fun b => (scaleByte vm t x.blen (dataIndex w.d) (b.1 * blen), b.2.1)
    (s.upd fun h =>
      let h := h.vecWrite w.d t.bits (outs.map fun q => (q.1, q.2.1)) t (Flags.of (outs.map fun q => (q.1, q.2.2)))
      h.setVec (.main x.sa .plain) (fun b => setElems b 8 bytes) (scaleTag x.sfmt)).retireOp i s.my Flags.none

end Sys2Proof.Machine
end

