-- ==== Sys2Proof/Machine/Memory.lean ====
section
/-! DEFINITION. Loads and stores of MAJ 0x20 to 0x22, the atomics of MAJ 0x23, ZLD and ZST (09 R237 to R249, 10 R287,
16 R346, R347, 05 R121, R122, R128, R135). -/
namespace Sys2Proof.Machine

/-! ### Addresses and elements (06 R158, 09 R237, R239, R243) -/

/-- Bytes of a scalar access (09 R242). -/
def scalarBytes (f : Fmt) : Nat := if f == .raw then 8 else f.bits / 8

/-- The unit that a vector access's offset counts. -/
def offUnit (f : Fmt) : Nat :=
  match f with
  | .raw | .e2m1 | .tern | .mask8 => 1
  | f => f.bits / 8

/-- Bytes of an element of a vector access. -/
def elemBytes (f : Fmt) : Nat := moveBits f / 8

/-- The base in field A and an offset in units. -/
def Hart.effAddr (r : Hart) (w : Wd) (x : Xm) (unit : Nat) : Nat :=
  (r.xSrc w.a + BitVec.ofInt 64 (x.off.toInt * unit)).toNat

/-- The element i of an access whose elements lie a stride apart. -/
def stridedElem (base : Nat) (stride : Word) (bytes i : Nat) : Elem :=
  ⟨i, (base + i * stride.toNat) % 2 ^ 64, bytes, false⟩

/-- The active elements of a vector access, bytes for e2m1, tern and mask8. -/
def State.accessed (s : State) (r : Hart) (w : Wd) : List Nat :=
  r.activeUnits w.grd (movesOf w.fmt (s.count r w.fmt))

/-- A scalar load's value from its bytes (09 R242). -/
def extendLoad (f : Fmt) (v : Nat) : Word :=
  match f with
  | .i8 | .i16 | .i32 => ((BitVec.ofNat 64 v) <<< (64 - f.bits)).sshiftRight (64 - f.bits)
  | f => Word.ofNat (v % 2 ^ (8 * scalarBytes f))

/-! ### Before an access takes effect (04 R117, 05 R121, R128, R133) -/

/-- An earlier acquire of the hart in focus has not been performed. -/
def State.gated (s : State) : Bool := s.net.any fun r => r.hart == s.me && r.acquire.isSome

/-- An earlier request of the hart must be performed before this access: it touches a location that the access reads or
writes at once. A store request's bytes are seen before it is performed. -/
def State.ordersAfter (s : State) (acc : Acc) (ps : List Placed) : Bool :=
  (s.net.any fun r => r.hart == s.me) && s.olderTouches s.me s.opSeq (fun k => acc != .read || k != .store)
    (ps.flatMap fun p => p.parts.flatMap fun q => match acc, q.1 with
      | .read, .mem k _ => [(k, q.2)]
      | .read, .window va => [(windowLoc va, q.2)]
      | _, .spad c o => [(spadLoc c o, q.2)]
      | _, _ => [])

/-- The checks of a memory member's elements, then the waits at issue, then its effect. -/
def State.reach (s : State) (i : Instr) (acc : Acc) (es : List Elem) (need : List Placed → Nat)
    (k : List Placed → State → State) : State :=
  if s.gated then s.block
  else match s.placeAll s.me acc es with
    | .error t => (s.holdElems s.me es).takeTrap t
    | .ok ps =>
      let s := s.holdElems s.me es
      if s.myCore.stallsAny es || s.ordersAfter acc ps || (Instr.memClass i && !s.myCore.cellarFits (need ps)) then s.block
      else k ps s

/-! ### Results that land (05 R135, 06 R150, 19 R392, R400) -/

/-- Bytes replaced within a number. -/
def replacePart (v off n data : Nat) : Nat :=
  v - (v / 2 ^ (8 * off) % 2 ^ (8 * n)) * 2 ^ (8 * off) + data % 2 ^ (8 * n) * 2 ^ (8 * off)

/-- The bytes of a part as entries of a register of bytes. -/
def partBytes (at_ n data : Nat) : List (Nat × Nat) := (List.range n).map fun j => (at_ + j, data / 256 ^ j % 256)

/-- An accumulator's bits rewritten, with a tag. -/
def Hart.putZ (h : Hart) (z : BitVec 3) (f : BitVec 20480 → BitVec 20480) (tag : Fmt) : Hart :=
  (h.touched (.z z) f tag).setZ z ⟨tag, f (h.zr z).bits⟩

/-- Registers poisoned by a load, with the source's address (19 R400). -/
def Hart.poisonFrom (h : Hart) (regs : List RegId) (src : Word) : Hart :=
  { h with poison := (regs.filter fun r => match r with
      | .p _ => false
      | _ => true).foldl (fun l r => l.filter (fun p => p.reg ≠ r) ++ [⟨r, some src⟩]) h.poison }

/-- The scalar that a destination holds: its register, or l0 if it names none. -/
def Hart.destNat (h : Hart) (d : Operand) : Nat :=
  match d with
  | .main i _ => if i = 0 then (h.lr 0).bits.toNat % 2 ^ 64 else (h.xr i).toNat
  | _ => (h.lr 0).bits.toNat % 2 ^ 64

/-- A part of a result in a hart's registers: n bytes of element idx from a byte offset on. The L entry has carried the
result's tag since its word retired, as the destination has. Bytes that do not come keep their previous contents
(18 R414). -/
def Hart.landPart (h : Hart) (dest : ReqDest) (idx off n data : Nat) : Hart :=
  match dest with
  | .nowhere => h
  | .scalar d f =>
    if off = 0 && n = scalarBytes f then h.putX d (extendLoad f data)
    else h.putX d (extendLoad f (replacePart (h.destNat d) off n data))
  | .vector d width l => h.putVec d l (fun b => setElems b 8 (partBytes (idx * (width / 8) + off) n data)) (h.lr l).tag
  | .accum z => h.putZ z (fun b => setElems b 8 (partBytes (idx * 4 + off) n data)) (h.zr z).tag
  | .pop d _ => h.putVec d 1 (fun b => setElem b 32 idx data) (h.lr 1).tag
  | .bounds _ _ => h

/-- New contents of a register, but for the bits that a mask keeps. -/
def RegVal.keeping (old new : RegVal) (mask : BitVec 20480) : RegVal :=
  let mix {n : Nat} (a b : BitVec n) : BitVec n := (a &&& mask.setWidth n) ||| (b &&& ~~~(mask.setWidth n))
  match old, new with
  | .scalar a, .scalar b => .scalar (mix a b)
  | .vec a, .vec b => .vec ⟨b.tag, mix a.bits b.bits⟩
  | .pred a, .pred b => .pred (mix a b)
  | .accum a, .accum b => .accum ⟨b.tag, mix a.bits b.bits⟩
  | _, b => b

/-- A result that has landed leaves alone what later members of its convoy have written (06 R156). -/
def Hart.shieldedBy (new old : Hart) (o : Op) : Hart :=
  o.shield.foldl (fun h m => h.withReg m.1 ((old.regVal m.1).keeping (h.regVal m.1) m.2)) new

/-- What readers may miss of the producers of a hart's registers once a part of an operation's result has landed: of its own
producer all of it, of others what the part and later members of its convoy have not written (06 R148, R156). -/
def Hart.earlyAfter (k : Hart) (o : Op) (dest : ReqDest) (idx off n data : Nat) : List Early :=
  k.early.filterMap fun e =>
    if e.op == some o.id then some e
    else (({ k with early := [e] } : Hart).landPart dest idx off n data).early.head?.map fun q =>
      { q with old := o.shield.foldl (fun v m => if m.1 == q.reg then e.old.keeping v m.2 else v) q.old }

/-- A part of a result lands for an operation that is still known; a reader that may not wait still has its choice
(06 R150), and poison of the destination stays until the whole has come (19 R400). -/
def State.deliver (s : State) (h op : Nat) (dest : ReqDest) (idx off n data : Nat) (poison : Option Word) : State :=
  match (s.hart h).ops.find? fun o => o.id == op with
  | none => s
  | some o =>
    let s := s.modHart h fun k =>
      let new := { (k.landPart dest idx off n data).shieldedBy k o with early := k.earlyAfter o dest idx off n data, poison := k.poison }
      match poison with
        | some a => new.poisonFrom o.regs a
        | none => new
    let s := if poison.isSome then s.modOp h op fun q => { q with whole := [] } else s
    o.regs.foldl (fun s r => s.logFor h (.landed r ((s.hart h).regVal r) ((s.hart h).poison.find? fun p => p.reg == r))) s

/-! ### Loads (09 R239 to R245) -/

/-- What a load finds at a home: the value, or the refusal's status; the address of poison; and the places in the history
at which its bytes were read (18 R376, 19 R400). -/
structure Got where
  val : Except Nat Nat
  poison : Option Word
  at_ : List (Nat × Nat)

/-- Poison of package memory within n bytes, at the home. -/
def State.keyPoison (s : State) (key n : Nat) : Option Word :=
  ((List.range n).find? fun i => s.poison.any fun g => g.base == (key + i) / 32 * 32).map fun i =>
    Word.ofNat ((key + i) / 32 * 32 % 2 ^ 48)

/-- Poison of some locations at their homes, and as a core meets it. -/
def State.keysPoison (s : State) (keys : List Nat) : Option Word :=
  if s.poison.isEmpty then none else keys.findSome? fun k => s.keyPoison k 1

def State.corePoison (s : State) (c : Nat) (keys : List Nat) : Option Word :=
  if s.poison.isEmpty then none else keys.findSome? fun k => s.placePoison c (.mem k 0)

/-- The locations behind n bytes of the global window, at most two granules of them, as their home translates them, or the
refusal's status. -/
def State.homeKeys (s : State) (job : BitVec 12) (acc : Acc) (va n : Nat) : Except Nat (List Nat) :=
  let n1 := min n (2 ^ 16 - va % 2 ^ 16)
  let keys (k n : Nat) : List Nat := (List.range n).map fun i => k + i
  match s.homeAddr job acc va with
  | .error c => .error c
  | .ok k =>
    if n1 = n then .ok (keys k n)
    else (s.homeAddr job acc (va + n1)).map fun k2 => keys k n1 ++ keys k2 (n - n1)

/-- Bytes behind global-window addresses: translated at their home, read by `rd`, their poison by `bad`. -/
def State.homeRead (s : State) (job : BitVec 12) (rd : List Nat → Nat × List (Nat × Nat)) (bad : List Nat → Option Word)
    (va n : Nat) : Got :=
  match s.homeKeys job .read va n with
  | .error c => ⟨.error c, none, []⟩
  | .ok ks =>
    let a := rd ks
    ⟨.ok a.1, bad ks, a.2⟩

/-- Bytes of package memory as they stand at their home, for an agent outside every core. -/
def State.standing (s : State) (keys : List Nat) : Nat × List (Nat × Nat) := (natOfBytes (keys.map s.mem.read), [])

/-- Bytes of package memory as a core's engine reads them: with the stores that the core holds (04 R116, 05 R124). -/
def State.inCore (s : State) (c : Nat) (keys : List Nat) : Nat × List (Nat × Nat) := (natOfBytes (keys.map (s.coreByte c)), [])

/-- What stands for an agent outside every core: it sees what has been performed at the homes. -/
def outside : Nat := 2 ^ 40

/-- A window's line filled on a die from its home, for a job: with what stood there at some time after the latest INVRO that
the device chooses, never before an earlier fill of the line, and with the poison of its granules (04 R112, 05 R138, 19
R400). -/
def State.fillLine (s : State) (d : Nat) (job : BitVec 12) (va : Nat) : State :=
  let base := va / 128 * 128
  match s.homeAddr job .read base with
  | .error _ => s
  | .ok k =>
    let keys := (List.range 128).map fun i => k + i
    let lo := (((s.die d).fills.filter fun f => f.1 == k).map fun f => f.2).foldl max (s.die d).windowMark
    let times := ((s.changes outside keys lo).filter fun e => lo ≤ e.2.start).map fun e => e.2.start
    let at_ := s.pickFrom (.overlap base) (dedup (s.history.length :: times)) s.history.length
    let line : WindowLine := ⟨job, base, k, at_, keys.map fun q => s.byteThen outside q at_,
      (s.poison.map fun g => g.base).filter fun b => k ≤ b && b < k + 128⟩
    s.modDie d fun q => { q with
      window := (q.window.filter fun l => !(l.job == job && l.base == base)) ++ [line]
      fills := (k, at_) :: q.fills.filter fun f => f.1 != k }

/-- The lines of a window that n bytes lie in filled on a die. -/
def State.fillLines (s : State) (d : Nat) (job : BitVec 12) (va n : Nat) : State :=
  (List.range ((va % 128 + n + 127) / 128)).foldl (fun s k => s.fillLine d job (va + 128 * k)) s

/-- A read brings the lines of some locations to their homes' L2, as the hint in force there says (04 R108). -/
def State.readLines (s : State) (hint : Option Hint) (keys : List Nat) : State :=
  match hint with
  | some h => s.bring h keys
  | none => s

/-- Locations of type 0b10 as a load of a hart finds them: neither cached nor forwarded, but as they stand when the load is
performed, in program order (04 R101, 05 R137). -/
def State.loadLatest (s : State) (h : Nat) (marks : Marks) (born : Nat) (keys : List Nat) : Nat × List (Nat × Nat) :=
  let at_ := (s.loadTimes h marks born keys).headD s.history.length
  (natOfBytes (keys.map fun k => s.byteThen (coreOf h) k at_), keys.map fun k => (k, at_))

/-- An access of a load performed where it lies, with what it leaves: the lines that it fills or brings, the translation
that its home holds or the refusal that it logs, and a scratchpad line pinned (04 R106 to R112, 05 R125, 18 R377). -/
def State.loadAtHome (s : State) (r : Request) (e : ReqElem) : Got × State :=
  let h := r.hart
  let rd (keys : List Nat) : Nat × List (Nat × Nat) := s.loadKeys h r.marks r.born r.op e.idx true keys
  let done (s : State) (va : Nat) : State :=
    (s.readLines (s.hintAt r.job (.global va) r.hint) (((s.homeKeys r.job .read va e.bytes).toOption).getD [])).holdHome r.job va
  let refused (va code : Nat) : State := s.logRefusal (globalDie va) r.job (fromDie h) false code va
  match e.at_ with
  | .global va =>
    let g := s.homeRead r.job rd (s.corePoison (coreOf h)) va e.bytes
    (g, match g.val with
      | .error code => refused va code
      | .ok _ => done s va)
  | .window va => (match s.homeKeys r.job .read va e.bytes with
    | .error code => (⟨.error code, none, []⟩, refused va code)
    | .ok _ =>
      let t := s.fillLines (dieOf h) r.job va e.bytes
      let at_ := (List.range e.bytes).map fun j => va + j
      (⟨.ok (natOfBytes (at_.map fun a => (t.windowByte (dieOf h) r.job a).getD 0)),
        at_.findSome? (t.windowPoison (dieOf h) r.job), []⟩, done t va))
  | .dev chip pa => (⟨.ok (s.devRead chip pa).toNat, none, []⟩, s)
  | .mem key mt =>
    let keys := (Place.mem key mt).keys e.bytes
    let v := if mt = 2 then s.loadLatest h r.marks r.born keys else rd keys
    (⟨.ok v.1, s.corePoison (coreOf h) keys, v.2⟩, s.readLines (mtHint mt r.hint) keys)
  | .spad c off =>
    let v := rd ((Place.spad c off).keys e.bytes)
    (⟨.ok v.1, (List.range e.bytes).findSome? fun i => s.placePoison c (.spad c (off + i)), v.2⟩,
      s.pinLines c ((List.range e.bytes).map fun i => off + i))

/-- What held loads need of the cellar: those of type 0b10 memory and device registers answer only once they are sealed
(04 R116, R117). -/
def loadNeed (ps : List Placed) : Nat := if (placedIn Place.isDevice ps).isEmpty then 0 else 32

/-- The registers that a result covers: what they hold after it does not depend on what they held. -/
def Hart.coveredBy (h : Hart) (put : Hart → Hart) (regs : List RegId) : List RegId :=
  regs.filter fun r => (put (h.filled r false)).regVal r == (put (h.filled r true)).regVal r

/-- A core has read places: the lines of memory that this brings, and the scratchpad lines that it touches (04 R106,
R108). -/
def State.touchLines (s : State) (c : Nat) (hint : Hint) (parts : List (Place × Nat)) : State :=
  let s := parts.foldl (fun s q => match q.1 with
    | .mem key mt => s.readLines (mtHint mt hint) ((Place.mem key mt).keys q.2)
    | _ => s) s
  s.pinLines c (parts.flatMap fun q => match q.1 with
    | .spad _ off => (List.range q.2).map fun j => off + j
    | _ => [])

/-- What a load's elements give at once: its registers, what the hart has seen, and the lines that it touches. -/
def State.takeNow (s : State) (i : Instr) (hint : Hint) (ordered : Bool) (put : List (Nat × Nat) → Hart → Hart)
    (now : List Placed) : List (Nat × Nat) × State :=
  let vals := s.elemsNow s.me ordered s.my.marks now
  let s1 := s.upd (put (vals.map fun v => (v.1, v.2.1)))
  let s2 := match s.elemsPoison now with
    | some a => s1.upd fun h => h.poisonFrom i.writes a.2
    | none => s1
  (vals.flatMap fun v => v.2.2, s2.touchLines (coreOf s.me) hint (now.flatMap fun p => p.parts))

/-- The device chooses whether it performs the hart's next loads late (05 R120). -/
def State.redraw (s : State) : State := s.upd fun h => { h with late := s.pick (.other 3) 2 = 1 }

/-- A load retires. What its hart reads at once is written by `put`, with the tag; the rest comes later. The elements of
an ordered form that cannot all be read at once are performed one after another (05 R122). -/
def State.load (s : State) (i : Instr) (x : Xm) (ordered : Bool) (dest : ReqDest) (put : List (Nat × Nat) → Hart → Hart)
    (ps : List Placed) : State :=
  let all := ps.all (s.atOnce s.me)
  let now := if ordered && !all then [] else ps.filter (s.atOnce s.me)
  let late := if ordered && !all then ps else ps.filter fun p => !s.atOnce s.me p
  let sealed (p : Placed) : Bool := p.parts.any fun q => q.1.isDevice
  let held := if ordered && late.any sealed then late else late.filter sealed
  let free := if ordered && late.any sealed then [] else late.filter fun p => !sealed p
  let old := s.my
  let id := s.opSeq
  match s.freshTrap now with
  | some t => (s.known t).takeTrap t
  | none =>
    let whole := if late.isEmpty then [] else old.coveredBy (put (ps.map fun p => (p.elem.idx, 0))) i.writes
    let a := s.takeNow i x.hint ordered put now
    let s := a.2.startOp i old late.isEmpty Flags.none
    let s := if late.isEmpty then s else s.modOp s.me id fun q => { q with whole := whole }
    let s := (s.performed s.me id (a.1.foldl (fun m e => max m e.2) 0)).note s.me a.1
    let req (s : State) (l : List Placed) : Request :=
      { s.request s.opSeq id .load (l.flatMap fun p => p.accesses 0) dest with ordered := ordered, hint := x.hint }
    let s := if free.isEmpty then s else s.sendRequest (req s free)
    let s := if held.isEmpty then s else s.holdRequest 32 (req s held)
    s.redraw.retire

/-- A vector load of given elements. -/
def vectorLoad (i : Instr) (w : Wd) (x : Xm) (ordered : Bool) (mark : Hart → Hart) (es : List Elem) (s : State) : State :=
  let width := moveBits w.fmt
  s.reach i .read es loadNeed fun ps s => s.load i x ordered (.vector w.d width 2)
    (fun vs h => mark (h.putVec w.d 2 (fun b => setElems b width vs) w.fmt)) ps

def execLd (w : Wd) (x : Xm) (s : State) : Host.Outcome State Fault Refusal :=
  issued (.ld w x) s fun r s =>
    s.reach (.ld w x) .read [⟨0, r.effAddr w x 1, scalarBytes w.fmt, false⟩] loadNeed fun ps s =>
      s.load (.ld w x) x false (.scalar w.d w.fmt) (fun vs h => match vs with
        | v :: _ => h.putX w.d (extendLoad w.fmt v.2)
        | [] => h) ps

/-- PREF moves a line between caches and never faults. -/
def execPref (w : Wd) (x : Xm) (s : State) : Host.Outcome State Fault Refusal :=
  issued (.pref w x) s fun r s =>
    (s.holdElems s.me [⟨0, r.effAddr w x 1, 1, false⟩]).retireOp (.pref w x) s.my Flags.none

def execVld (w : Wd) (x : Xm) (s : State) : Host.Outcome State Fault Refusal :=
  issued (.vld w x) s fun r s =>
    let n := elemBytes w.fmt
    vectorLoad (.vld w x) w x false id ((s.accessed r w).map (stridedElem (r.effAddr w x (offUnit w.fmt)) (Word.ofNat n) n)) s

def execVlds (w : Wd) (x : Xm) (s : State) : Host.Outcome State Fault Refusal :=
  issued (.vlds w x) s fun r s =>
    vectorLoad (.vlds w x) w x false id
      ((s.accessed r w).map (stridedElem (r.effAddr w x (offUnit w.fmt)) (r.xSrc w.b) (elemBytes w.fmt))) s

/-- The elements of a whole register. -/
def wholeElems (f : Fmt) (vm base : Nat) : List Elem :=
  (List.range (movesPer f vm)).map (stridedElem base (Word.ofNat (elemBytes f)) (elemBytes f))

def execVldw (w : Wd) (x : Xm) (s : State) : Host.Outcome State Fault Refusal :=
  issued (.vldw w x) s fun r s =>
    vectorLoad (.vldw w x) w x false id (wholeElems w.fmt s.myCore.vlmax (r.effAddr w x (offUnit w.fmt))) s

/-- Elements that an index register of a tag serves (09 R244). -/
def indexLimit (tag : Fmt) (vm : Nat) : Nat := if tag == .i64 then vm / 2 else vm

/-- Index i of an index register, signed. -/
def indexAt (tag : Fmt) (b : BitVec 8192) (i : Nat) : Int :=
  if tag == .i64 then (BitVec.ofNat 64 (getElem b 64 i)).toInt else (BitVec.ofNat 32 (getElem b 32 i)).toInt

/-- The address of element i of an indexed access. -/
def Hart.indexedAddr (r : Hart) (w : Wd) (x : Xm) (tag : Fmt) (i : Nat) : Nat :=
  let unit : Int := offUnit w.fmt
  let b := indexAt tag (r.vr (idxOf w.b)).bits i
  (r.xSrc w.a + BitVec.ofInt 64 (if tag == .i64 then x.off.toInt * unit + b else (x.off.toInt + b) * unit)).toNat

/-- The elements of an indexed access. -/
def State.indexedElems (s : State) (r : Hart) (w : Wd) (x : Xm) (bytes : Nat) (atomic : Bool) : List Elem :=
  let tag := vTag s.my (idxOf w.b)
  ((s.accessed r w).filter fun i => i < indexLimit tag s.myCore.vlmax).map fun i =>
    ⟨i, r.indexedAddr w x tag i, bytes, atomic⟩

def gather (i : Instr) (w : Wd) (x : Xm) (ordered : Bool) (s : State) : Host.Outcome State Fault Refusal :=
  issued i s fun r s => vectorLoad i w x ordered id (s.indexedElems r w x (elemBytes w.fmt) false) s

def execVldx (w : Wd) (x : Xm) (s : State) := gather (.vldx w x) w x false s
def execVldxo (w : Wd) (x : Xm) (s : State) := gather (.vldxo w x) w x true s

/-- VLDG (09 R245): the elements that the window serves leave the guard. -/
def execVldg (w : Wd) (x : Xm) (s : State) : Host.Outcome State Fault Refusal :=
  issued (.vldg w x) s fun r s =>
    let vm := s.myCore.vlmax
    let n := min (movesOf w.fmt (s.count r w.fmt)) vm
    let base := r.effAddr w x (offUnit w.fmt)
    let idx (i : Nat) : Int := indexAt .i32 (r.vr (idxOf w.b)).bits i
    let served := (r.activeUnits w.grd n).filter fun i => 0 ≤ idx i && idx i < 4 * (s.capacity w.fmt)
    let pg := setBits 0 (((r.activeUnits w.grd n).filter fun i => !served.contains i).map fun i => (i, true))
    vectorLoad (.vldg w x) w x false (fun h => h.setP w.grd.p pg) (served.map fun i =>
      ⟨i, (base + (idx i).toNat * elemBytes w.fmt) % 2 ^ 64, elemBytes w.fmt, false⟩) s

/-! ### Stores (09 R242 to R246) -/

/-- A store retires: its bytes enter the scratchpad and the cellar, and it completes then or, at die scope or wider,
once they are performed at their homes (05 R135, 09 R241). -/
def State.store (s : State) (i : Instr) (x : Xm) (ordered : Bool) (mark : Hart → Hart) (ps : List (Placed × Nat)) : State :=
  let wide := Scope.wide x.scope
  let id := s.opSeq
  let s := ((s.upd mark).startOp i s.my (!wide) Flags.none).performStores ordered wide x.hint ps id
  (if wide then s.settle s.me id else s).retire

/-- A store of given elements, each with its data. -/
def storeElems (i : Instr) (x : Xm) (ordered : Bool) (mark : Hart → Hart) (es : List (Elem × Nat)) (s : State) : State :=
  s.reach i .write (es.map fun e => e.1) storeNeed fun ps s =>
    s.store i x ordered mark (ps.zip (es.map fun e => e.2))

def execSt (w : Wd) (x : Xm) (s : State) : Host.Outcome State Fault Refusal :=
  issued (.st w x) s fun r s =>
    storeElems (.st w x) x false id [(⟨0, r.effAddr w x 1, scalarBytes w.fmt, false⟩, (r.xSrc w.d).toNat)] s

/-- The data of given elements of a vector store. -/
def Hart.withData (r : Hart) (w : Wd) (es : List Elem) : List (Elem × Nat) := es.map fun e => (e, r.srcUnit w.d w.fmt e.idx)

def execVst (w : Wd) (x : Xm) (s : State) : Host.Outcome State Fault Refusal :=
  issued (.vst w x) s fun r s =>
    let n := elemBytes w.fmt
    storeElems (.vst w x) x false id
      (r.withData w ((s.accessed r w).map (stridedElem (r.effAddr w x (offUnit w.fmt)) (Word.ofNat n) n))) s

def execVsts (w : Wd) (x : Xm) (s : State) : Host.Outcome State Fault Refusal :=
  issued (.vsts w x) s fun r s =>
    storeElems (.vsts w x) x false id
      (r.withData w ((s.accessed r w).map (stridedElem (r.effAddr w x (offUnit w.fmt)) (r.xSrc w.b) (elemBytes w.fmt)))) s

def execVstw (w : Wd) (x : Xm) (s : State) : Host.Outcome State Fault Refusal :=
  issued (.vstw w x) s fun r s =>
    storeElems (.vstw w x) x false id
      (r.withData w (wholeElems w.fmt s.myCore.vlmax (r.effAddr w x (offUnit w.fmt)))) s

def scatter (i : Instr) (w : Wd) (x : Xm) (ordered : Bool) (s : State) : Host.Outcome State Fault Refusal :=
  issued i s fun r s =>
    storeElems i x ordered id (r.withData w (s.indexedElems r w x (elemBytes w.fmt) false)) s

def execVstx (w : Wd) (x : Xm) (s : State) := scatter (.vstx w x) w x false s
def execVstxo (w : Wd) (x : Xm) (s : State) := scatter (.vstxo w x) w x true s

/-- VCST (09 R246): the first L selected elements are stored one after another; the guard keeps the others. -/
def execVcst (w : Wd) (x : Xm) (s : State) : Host.Outcome State Fault Refusal :=
  issued (.vcst w x) s fun r s =>
    let sel := s.accessed r w
    let lim := (r.xSrc w.b).toNat
    let stored := sel.take lim
    let base := r.effAddr w x (offUnit w.fmt)
    let n := elemBytes w.fmt
    let pg := setBits 0 ((sel.drop lim).map fun i => (i, true))
    let es := ((List.range stored.length).zip stored).map fun p =>
      (({ stridedElem base (Word.ofNat n) n p.1 with idx := p.2 } : Elem), r.srcUnit w.d w.fmt p.2)
    storeElems (.vcst w x) x false (fun h => (h.setP w.grd.p pg).setL0 (Word.ofNat stored.length)) es s

/-! ### ZLD and ZST (10 R287) -/

/-- The 640 elements of an accumulator in memory. -/
def accElems (base : Nat) : List Elem := (List.range 640).map (stridedElem base 4 4)

def execZld (w : Wd) (x : Xm) (s : State) : Host.Outcome State Fault Refusal :=
  issued (.zld w x) s fun r s =>
    let z := Hart.accOf w.d
    s.reach (.zld w x) .read (accElems (r.effAddr w x 4)) loadNeed fun ps s =>
      s.load (.zld w x) x false (.accum z) (fun vs h => h.putZ z (fun b => setElems b 32 vs) w.fmt) ps

def execZst (w : Wd) (x : Xm) (s : State) : Host.Outcome State Fault Refusal :=
  issued (.zst w x) s fun r s =>
    storeElems (.zst w x) x false id
      ((accElems (r.effAddr w x 4)).map fun e => (e, getElem (r.zr (Hart.accOf w.d)).bits 32 e.idx)) s

/-- The request only reads, and reads its core's held stores (05 R124). -/
def ReqKind.reads : ReqKind → Bool
  | .load | .bound _ _ _ _ _ _ => true
  | _ => false

/-- Where it is performed, an access of a request to some locations waits for earlier ones of its hart that touch one of
them; one that may write package memory, for every earlier store of its core there too (05 R121, R123, R124). Device accesses
all keep their order (05 R137). -/
def State.runsWait (s : State) (r : Request) (runs : List (Nat × Nat)) : Bool :=
  s.olderTouches r.hart r.id (fun k => !r.kind.reads || k != .store) runs
    || (r.kind.reads && s.olderTouches r.hart r.id (· == .store) (runs.filter fun q => q.1 == deviceLoc))
    || (!r.kind.reads && s.olderStores (coreOf r.hart) r.id runs)

/-- A request that is one step waits where it is performed. -/
def State.heldBack (s : State) (r : Request) : Bool := s.runsWait r (s.requestRuns r)

/-! ### Atomics (09 R247 to R249) -/

/-- The new contents that an atomic leaves, with what it raises. -/
def amoNew (op : AmoOp) (f : Fmt) (old v cmp : Nat) : Nat × Raised :=
  match op with
  | .add => addElem .rne f old v
  | .min => minMaxElem false f old v
  | .max => minMaxElem true f old v
  | .and => (old &&& v, {})
  | .or => (old ||| v, {})
  | .xor => (old ^^^ v, {})
  | .swap => (v, {})
  | .cas => (if old = cmp then v else old, {})

/-- What a lane of a vector atomic raises is merged when its operation completes (09 R248). -/
def State.raiseIn (s : State) (h op idx : Nat) (r : Raised) : State :=
  s.modOp h op fun q => { q with flags := q.flags.merge (Flags.at idx r) }

/-- The locations of n bytes as they stand now: what an atomic or a signal reads there. -/
def State.nowAt (s : State) (keys : List Nat) : List (Nat × Nat) := keys.map fun k => (k, s.history.length)

/-- One lane on the scratchpad, read, changed and written in one step with an undo record (04 R115). What it writes carries
the releases of what it read, and its own (05 R129). -/
def State.spadLane (s : State) (aop : AmoOp) (f : Fmt) (flagged : Bool) (dest : ReqDest) (op : Nat) (waits : Option Nat)
    (rels : List Release) (size : Nat) (e : ReqElem) : State :=
  match e.at_ with
  | .spad c off =>
    let old := natOfBytes ((List.range e.bytes).map fun i => s.spadByte c (off + i))
    let new := amoNew aop f old e.data e.cmp
    let keys := e.at_.keys e.bytes
    let chain := s.relsOf (coreOf s.me) (s.nowAt keys)
    let s := s.holdSpad s.me false size (dedup (rels ++ chain)) [cellsAt off (bytesOfNat e.bytes new.1)] waits
    let s := (s.note s.me (s.nowAt keys)).performed s.me op s.history.length
    let s := s.deliver s.me op dest e.idx 0 e.bytes old none
    if flagged then s.raiseIn s.me op e.idx new.2 else s
  | _ => s

/-- The lane of an atomic, with its value and comparand. -/
def Placed.lane (p : Placed) (v cmp : Nat) : ReqElem :=
  match p.parts with
  | (pl, _) :: _ => ⟨p.elem.idx, 0, pl, p.elem.bytes, v, cmp, none, p.elem.va⟩
  | [] => ⟨p.elem.idx, 0, .global 0, 0, 0, 0, none, p.elem.va⟩

def atomicNeed (ps : List Placed) : Nat :=
  undoSize (storeRuns Place.isSpad ps) + (if (ps.any fun p => p.parts.any fun q => !q.1.isSpad) then 32 else 0)

/-- Lanes on the scratchpad in an order that the device chooses; the first record carries the room that they take. -/
def State.spadLanes (s : State) (k : Nat → ReqElem → State → State) : Nat → List ReqElem → State
  | _, [] => s
  | size, e :: rest => (k size e s).spadLanes k 0 rest

/-- An atomic retires: scratchpad lanes are performed at once, the others leave once sealed (09 R249). A lane that would
read poison is refused (19 R400). -/
def State.atomics (s : State) (i : Instr) (x : Xm) (aop : AmoOp) (f : Fmt) (ord : MemOrd) (flagged : Bool) (dest : ReqDest)
    (mark : Hart → Hart) (whole : List RegId) (ps : List Placed) (ls : List ReqElem) : State :=
  let c := coreOf s.me
  let lost := ls.filter fun e => e.at_.isSpad && (s.placePoison c e.at_).isSome
  let near := ls.filter fun e => e.at_.isSpad && (s.placePoison c e.at_).isNone
  let far := ls.filter fun e => !e.at_.isSpad
  let id := s.opSeq
  let waits : Option Nat := if Scope.wide x.scope then some id else none
  let rels := s.carried s.me (MemOrd.releases ord) x.scope
  let heard := s.relsOf c (s.nowAt (near.flatMap fun e => e.at_.keys e.bytes))
  let acq := MemOrd.acquires ord
  let s := (s.upd mark).startOp i s.my false Flags.none
  let s := s.modOp s.me id fun q => { q with whole := q.whole ++ whole }
  let s := match lost with
    | e :: _ => s.noteStatus s.me id { elem := e.idx, code := 0x12, sub := 2, eaddr := Word.ofNat e.va }
    | [] => s
  let s := s.spadLanes (fun size e s => s.spadLane aop f flagged dest id waits rels size e)
    (undoSize (storeRuns Place.isSpad ps)) (s.shuffle 0 near.length near)
  let s := if far.isEmpty then (if acq then s.acquireFrom s.me x.scope heard else s)
    else s.holdRequest 32 { s.request s.opSeq id (.atomic aop f) far dest with
      acquire := if acq then some x.scope else none, hint := x.hint, rels := rels, heard := heard }
  (s.settle s.me id).retire

def execAmo (op : AmoOp) (ord : MemOrd) (w : Wd) (x : Xm) (s : State) : Host.Outcome State Fault Refusal :=
  issued (.amo op ord w x) s fun r s =>
    if s.releaseWaits (MemOrd.releases ord) x.scope then s.block
    else
      let n := scalarBytes w.fmt
      s.reach (.amo op ord w x) .atomic [⟨0, r.effAddr w x 1, n, true⟩] atomicNeed fun ps s =>
        s.atomics (.amo op ord w x) x op w.fmt ord false (.scalar w.d w.fmt) id [] ps
          (ps.map fun p => p.lane ((r.xSrc w.b).toNat % 2 ^ (8 * n)) ((r.xSrc w.d).toNat % 2 ^ (8 * n)))

def execVamo (op : AmoOp) (ord : MemOrd) (w : Wd) (x : Xm) (s : State) : Host.Outcome State Fault Refusal :=
  issued (.vamo op ord w x) s fun r s =>
    if s.releaseWaits (MemOrd.releases ord) x.scope then s.block
    else
      let f := w.fmt
      s.reach (.vamo op ord w x) .atomic (s.indexedElems r w x (elemBytes f) true) atomicNeed fun ps s =>
        s.atomics (.vamo op ord w x) x op f ord true (.vector w.d f.bits 1)
          (fun h => h.putVec w.d 1 id f)
          (s.my.coveredBy (fun h => h.putVec w.d 1 (fun b => setElems b f.bits (ps.map fun p => (p.elem.idx, 0))) f) (Instr.vamo op ord w x).writes)
          ps (ps.map fun p =>
            p.lane (getElem (r.vr (idxOf w.b + 1)).bits f.bits p.elem.idx) (r.srcElem w.d f p.elem.idx))

end Sys2Proof.Machine
end

