-- ==== Sys2Proof/Machine/Queues.lean ====
section
/-! DEFINITION. Deferral queues and work queues: MAJ 0x17, and the step that performs a work-queue request at its home
(02 R47 to R49, 08 R231 to R236, 16 R335, R336, R345, R346). -/
namespace Sys2Proof.Machine

/-! ### The deferral queue of a gang (08 R232, R233) -/

/-- The key of the deferral queue of the hart in focus. -/
def State.deferKey (s : State) : Option Nat := (s.gangOf s.me).map fun g => g.key

def State.deferQueue (s : State) : List DeferElem :=
  match s.deferKey with
  | some k => Tab.get s.myCore.defq [] k
  | none => []

def State.setDeferQueue (s : State) (q : List DeferElem) : State :=
  match s.deferKey with
  | some k => s.setMyCore { s.myCore with defq := Tab.set s.myCore.defq k q }
  | none => s

/-- Bytes that elements take (02 R49). -/
def deferBytes (q : List DeferElem) : Nat := q.foldl (fun n e => n + 8 + 4 * e.vals.length) 0

/-- The path in the offset field. -/
def deferPath (x : Xm) : Nat := x.off.toInt.toNat

/-- DEFER appends a block or traps (16 R345). -/
def execDefer (w : Wd) (x : Xm) (s : State) : Host.Outcome State Fault Refusal :=
  issued (.defer w x) s fun r s =>
    let vm := s.myCore.vlmax
    let m := deferCount w.b
    let block : List DeferElem := (r.activeUnits w.grd (min r.vl.toNat vm)).map fun i =>
      ⟨r.rank.toNat * vm + i, deferPath x, (List.range m).map fun q =>
        BitVec.ofNat 32 (getElem (r.vr (idxOf w.a + BitVec.ofNat 6 q)).bits 32 i)⟩
    let held := s.deferQueue
    if !block.isEmpty && s.my.dfsz < deferBytes held + deferBytes block then
      s.takeTrap { code := 0x0C, sub := 0, eaddr := Word.ofNat (deferBytes block) }
    else (s.setDeferQueue (held ++ block)).retireOp (.defer w x) s.my Flags.none

/-- The first c elements of a path taken out of a queue: those taken, and the queue that is left. -/
def takePath (path : Nat) : Nat → List DeferElem → List DeferElem × List DeferElem
  | _, [] => ([], [])
  | 0, q => ([], q)
  | c + 1, e :: q =>
    if e.path = path then
      let t := takePath path c q
      (e :: t.1, t.2)
    else
      let t := takePath path (c + 1) q
      (t.1, e :: t.2)

/-- DRAIN removes the oldest elements of a path. -/
def execDrain (w : Wd) (x : Xm) (s : State) : Host.Outcome State Fault Refusal :=
  issued (.drain w x) s fun _ s =>
    let old := s.my
    let t := takePath (deferPath x) s.myCore.vlmax s.deferQueue
    let numbered := (List.range t.1.length).zip t.1
    let first (h : Hart) : Hart := h.putVec w.d 1 (fun b => setElems b 32 (numbered.map fun p => (p.1, p.2.idx))) .i32
    let value (q : Nat) (h : Hart) : Hart :=
      h.setVec (.main (idxOf w.d + BitVec.ofNat 6 (q + 1)) .plain)
        (fun b => setElems b 32 (numbered.map fun p => (p.1, (p.2.vals.getD q 0).toNat))) w.fmt
    ((s.setDeferQueue t.2).upd fun h =>
      ((List.range (deferCount w.b)).foldl (fun h q => value q h) (first h)).putX w.a (Word.ofNat t.1.length)).retireOp
        (.drain w x) old Flags.none

/-! ### Work-queue requests (08 R234 to R236) -/

/-- The descriptor as one element of 64 bytes. -/
def descElem (va : Nat) : Elem := ⟨0, va, 64, false⟩

/-- A descriptor's field as it can be read now, for the positions that the address stage checks. -/
def State.descField (s : State) (h : Nat) (p : Place) (off : Nat) : Option Nat :=
  let c := coreOf h
  match p with
  | .global va => (s.homeRead (s.hart h).jobtag (s.inCore c) (s.corePoison c) (va + off) 8).val.toOption
  | .mem key _ => some (s.inCore c ((List.range 8).map fun i => key + off + i)).1
  | .spad k o => some (natOfBytes ((List.range 8).map fun i => s.spadByte k (o + off + i)))
  | _ => some 0

/-- The positions of c entries. -/
def entryAt (q : QueueDesc) (n : Nat) : Nat := (q.base + 4 * (n % q.cap)) % 2 ^ 64

/-- The entries that QAPP's address stage checks, at the positions that the descriptor gives then (16 R346). -/
def State.entryElems (s : State) (p : Place) (is : List Nat) : List Elem :=
  match readDesc fun off _ => s.descField s.me p off with
  | some q =>
    if q.capOk then ((List.range is.length).zip is).map fun e => ⟨e.2, entryAt q (q.tail + e.1), 4, false⟩ else []
  | none => []

/-- A work-queue instruction: its descriptor checked, then a sealed request. -/
def queueRequest (i : Instr) (w : Wd) (acc : Acc) (kind : ReqKind) (x : Xm) (acq : Bool) (dest : ReqDest)
    (mark : Hart → Hart) (entries : Place → State → List Elem) (data : List Nat) (r : Hart) (s : State) : State :=
  let va := (r.xSrc w.a).toNat
  if va % 64 ≠ 0 then match accessTrap acc [(descElem va, [(va, accessErr 10)])] with
    | some t => s.takeTrap t
    | none => s
  else s.reach i acc [descElem va] (fun _ => 32) fun ps s =>
    match ps.flatMap fun p => p.parts with
    | [] => s.block
    | d :: _ =>
      s.reach i acc (entries d.1 s) (fun _ => 32) fun _ s =>
        let old := s.my
        let id := s.opSeq
        let es : List ReqElem := ⟨0, 0, d.1, 64, 0, va, none, va⟩ ::
          ((List.range data.length).zip data).map fun p => ⟨p.1, 0, .window 0, 0, p.2, 0, none, va⟩
        let s := (s.upd mark).startOp i old false Flags.none
        (s.holdRequest 32 { s.request s.opSeq id kind es dest with
          acquire := if acq then some .pod else none, hint := x.hint }).retire

def execQapp (w : Wd) (x : Xm) (s : State) : Host.Outcome State Fault Refusal :=
  issued (.qapp w x) s fun r s =>
    let is := r.activeUnits w.grd (min r.vl.toNat s.myCore.vlmax)
    queueRequest (.qapp w x) w .write .queueAppend x false (.scalar w.d .raw) id (fun p s => s.entryElems p is)
      (is.map fun i => r.srcElem w.b .i32 i) r s

def execQpop (w : Wd) (x : Xm) (s : State) : Host.Outcome State Fault Refusal :=
  issued (.qpop w x) s fun r s =>
    queueRequest (.qpop w x) w .write (.queuePop (min r.vl.toNat s.myCore.vlmax)) x true (.pop w.d w.b)
      (fun h => h.putVec w.d 1 id .i32) (fun _ _ => []) [] r s

def execQlen (w : Wd) (x : Xm) (s : State) : Host.Outcome State Fault Refusal :=
  issued (.qlen w x) s fun r s =>
    queueRequest (.qlen w x) w .read .queueLen x false (.scalar w.d .raw) id (fun _ _ => []) [] r s

/-! ### At the home (08 R231, 16 R335, R336) -/

/-- A refusal at a home: its status and the address of the element that was refused (18 R371, R377). -/
structure Refused where
  code : Nat
  va : Nat

/-- Where an agent reaches a byte for a request, or the refusal's status (18 R374, R376, log 17). A byte behind the global
window is given the memory type that stands for the hint in force there (04 R108). -/
def State.spaceKey (s : State) (r : Request) (acc : Acc) (va : Nat) : Except Nat Place :=
  if 2 ^ 63 ≤ va then
    (s.homeLeaf r.job acc va).map fun k => .mem k.1 (if globalHint r.hint == r.hint then k.2 else 1)
  else match s.placeOf r.hart acc va with
    | .error _ => .error 2
    | .ok p => (s.linked r.hart p).mapError fun _ => 4

/-- The places of an element of n bytes at an address of a request. -/
def State.spacePlaces (s : State) (r : Request) (acc : Acc) (va n : Nat) : Except Refused (List Place) :=
  ((List.range n).mapM fun i => s.spaceKey r acc ((va + i) % 2 ^ 64)).mapError fun code => ⟨code, va⟩

/-- The bytes of a number at an address of a request, each where it lies. -/
def State.spaceCells (s : State) (r : Request) (va n v : Nat) : Except Refused (List (Place × Byte)) :=
  (s.spacePlaces r .write va n).map fun ps => ps.zip (bytesOfNat n v)

/-- A byte as it stands where it lies. -/
def State.standingAt (s : State) (p : Place) : Byte :=
  match p with
  | .spad c off => s.spadByte c off
  | .mem k _ => s.mem.read k
  | _ => 0

def State.spaceNat (s : State) (r : Request) (va n : Nat) : Except Refused Nat :=
  (s.spacePlaces r .read va n).map fun ps => natOfBytes (ps.map s.standingAt)

/-- Poison within a range. -/
def State.spacePoison (s : State) (r : Request) (va n : Nat) : Option Word :=
  match s.spacePlaces r .read va n with
  | .ok ps => ps.findSome? fun p => match p with
    | .mem k _ => s.keyPoison k 1
    | p => s.placePoison (coreOf r.hart) p
  | .error _ => none

/-- Whose store it is that a request makes where it is performed. -/
def Request.writer (r : Request) (hint : Option Hint) : Writer := ⟨none, some r.hart, hint, some r.op, r.rels⟩

/-- The cells of a scratchpad, and those of package memory, among bytes at places. -/
def spadPart (cs : List (Place × Byte)) : List Host.Cell := cs.filterMap fun c => match c.1 with
  | .spad _ off => some (off, c.2)
  | _ => none
def memPart (cs : List (Place × Byte)) : List Host.Cell := cs.filterMap fun c => match c.1 with
  | .mem k _ => some (k, c.2)
  | _ => none

/-- The hint in force at the first byte of package memory among some places (04 R108). -/
def placesHint (h : Hint) (ps : List Place) : Option Hint := (ps.findSome? fun p => match p with
  | .mem _ mt => some (mtHint mt h)
  | _ => none).getD none

/-- Bytes performed where they lie, as one access, for a request. -/
def State.spaceStore (s : State) (r : Request) (cs : List (Place × Byte)) : State :=
  let sp := spadPart cs
  let me := memPart cs
  let s := if sp.isEmpty then s else s.spadWrite (some r.hart) false (some r.op) r.rels (coreOf r.hart) [sp]
  if me.isEmpty then s else s.storeHome (r.writer (placesHint r.hint (cs.map fun c => c.1))) me

/-- A request has read some places: the lines that this brings (04 R108). -/
def State.spaceLines (s : State) (r : Request) (ps : List Place) : State :=
  ps.foldl (fun s p => match p with
    | .mem k mt => s.readLines (mtHint mt r.hint) [k]
    | _ => s) s

/-- The releases that some places carry as they stand (05 R129). -/
def State.placeRels (s : State) (ps : List Place) : List Release :=
  dedup (ps.flatMap fun p => match p with
    | .spad c off => s.relsOf c (s.nowAt [spadLoc c off])
    | .mem k _ => s.relsOf outside (s.nowAt [k])
    | _ => [])

/-- A refusal of a global-window access is logged at its home (18 R377). -/
def State.noteRefusal (s : State) (r : Request) (f : Refused) : State :=
  if 2 ^ 63 ≤ f.va then s.logRefusal (globalDie f.va) r.job (dieOf r.hart) false f.code f.va else s

/-- A request whose one step failed: its status, and the results that go with it. -/
def State.failWith (s : State) (r : Request) (code sub : Nat) (ea : Word) (land : State → State) : State :=
  (land s).closeRequest (r.fail 0 code sub ea)

/-- A scalar result of a request. -/
def State.answer (s : State) (r : Request) (v : Nat) : State := s.deliver r.hart r.op r.dest 0 0 8 v none

/-- QPOP's entries, each with the poison that it brings, and its count. -/
def State.answerPop (s : State) (r : Request) (vs : List (Nat × Option Word)) : State :=
  let s := ((List.range vs.length).zip vs).foldl (fun s p => s.deliver r.hart r.op r.dest p.1 0 4 p.2.1 p.2.2) s
  match r.dest with
  | .pop _ c => s.deliver r.hart r.op (.scalar c .raw) 0 0 8 vs.length none
  | _ => s

/-- A request that acquires is performed: the hart's later accesses come after it, and after the releases that it has read
(05 R128, R129). -/
def State.acquireFor (s : State) (r : Request) : State :=
  match r.acquire with
  | some sc => s.acquireFrom r.hart sc r.heard
  | none => s

/-- A request's one step has been performed. -/
def State.stepDone (s : State) (r : Request) : State := ((s.acquireFor r).performed r.hart r.op s.history.length).closeRequest r

/-- A home refuses an element of a work-queue request: its status names the element (18 R371, R377). -/
def State.refuseStep (s : State) (r : Request) (f : Refused) : State :=
  (s.noteRefusal r f).failWith r 0x12 f.code (Word.ofNat f.va) id

/-- The release at pod scope of entries that a QAPP has written, and of nothing else (08 R234). -/
def Request.entryRelease (r : Request) (gang : Option GangRef) (now : Nat) (cells : List (Place × Byte)) : Release :=
  ⟨r.hart, gang, 4, ⟨⟨Vector.replicate 6 0, (cells.flatMap fun c => c.1.keys 1).map fun k => (k, now)⟩, [], [], []⟩⟩

/-- QAPP's serialised step on a good descriptor. TAIL, and the signal, carry the entries and what the TAIL before carried
(05 R129, 08 R234). -/
def State.appendEntries (s : State) (r : Request) (va : Nat) (q : QueueDesc) (data : List Nat) : State :=
  let c := data.length
  if q.cap < q.count + c then s.failWith r 0x0C 1 (Word.ofNat va) fun s => s.answer r (2 ^ 64 - 1)
  else
    let cells := ((List.range c).zip data).mapM fun p => s.spaceCells r (entryAt q (q.tail + p.1)) 4 p.2
    match cells, s.spaceCells r (va + 0x10) 8 (q.tail + c) with
    | .ok cs, .ok ts =>
      let chain := s.placeRels (ts.map fun t => t.1)
      let s := if c = 0 then s else s.spaceStore r cs.flatten
      let rels := dedup (r.entryRelease (s.gangRef (some r.hart)) s.history.length cs.flatten :: r.rels ++ chain)
      let s := if c = 0 then s else s.spaceStore { r with rels := rels } ts
      let n := (q.tail + c) / q.batch - q.tail / q.batch
      let s := if 2 ^ 63 ≤ q.owner && n ≠ 0 then s.sendSignal r.hart r.job (q.owner % 2 ^ 63) n rels else s
      (s.answer r q.tail).stepDone r
    | .error f, _ | _, .error f => s.refuseStep r f

/-- The first n entries of a queue, from its head on, or the first refusal. -/
def State.readEntries (s : State) (r : Request) (q : QueueDesc) (n : Nat) : Except Refused (List (Nat × Option Word)) :=
  (List.range n).mapM fun j =>
    let va := entryAt q (q.head + j)
    (s.spaceNat r va 4).map fun v => (v, s.spacePoison r va 4)

/-- The places of a queue's n entries from its head on. -/
def State.entryPlaces (s : State) (r : Request) (q : QueueDesc) (n : Nat) : List Place :=
  (List.range n).flatMap fun j => ((s.spacePlaces r .read (entryAt q (q.head + j)) 4).toOption).getD []

/-- QPOP's serialised step on a good descriptor. It acquires what the TAIL that it reads carries (08 R235). -/
def State.popEntries (s : State) (r : Request) (va : Nat) (q : QueueDesc) (most : Nat) : State :=
  let c := min q.count most
  match s.readEntries r q c, s.spaceCells r (va + 0x18) 8 (q.head + c) with
  | .ok vs, .ok hs =>
    let tail := ((s.spacePlaces r .read (va + 0x10) 8).toOption).getD []
    let r := { r with heard := s.placeRels tail }
    (((s.spaceLines r (s.entryPlaces r q c)).spaceStore r hs).answerPop r vs).stepDone r
  | .error f, _ | _, .error f => s.refuseStep r f

/-- The serialised step of a work-queue request. A poisoned descriptor is refused, as an atomic that reads poison is
(19 R400, log 83). -/
def State.queueOp (s : State) (r : Request) : State :=
  let va := (r.elems.head?.map fun e => e.cmp).getD 0
  let data := r.elems.tail.map fun e => e.data
  let rd (off n : Nat) : Option Nat := (s.spaceNat r (va + off) n).toOption
  match s.spaceNat r va 64 with
  | .error f => s.refuseStep r f
  | .ok _ =>
    if (s.spacePoison r va 64).isSome then s.refuseStep r ⟨2, va⟩
    else match readDesc rd with
    | none => s.failWith r 0x12 2 (Word.ofNat va) id
    | some q =>
      if !q.capOk then s.failWith r 0x12 6 (Word.ofNat va) fun s => match r.kind with
        | .queuePop _ => s.answerPop r []
        | _ => s.answer r (2 ^ 64 - 1)
      else match r.kind with
        | .queueAppend => s.appendEntries r va q data
        | .queuePop most => s.popEntries r va q most
        | _ => ((s.spaceLines r (((s.spacePlaces r .read va 64).toOption).getD [])).answer r q.count).stepDone r

/-- Locations of a queue's entries. -/
def State.queueRuns (s : State) (r : Request) : List (Nat × Nat) :=
  let va := (r.elems.head?.map fun e => e.cmp).getD 0
  match readDesc fun off n => (s.spaceNat r (va + off) n).toOption with
  | none => []
  | some q => (List.range (min q.cap (2 ^ 24))).flatMap fun j => match s.spaceKey r .read (entryAt q j) with
    | .ok p => (p.keys 4).map fun k => (k, 1)
    | .error _ => []

/-- An earlier access of the hart to the queue's entries is still to be performed (05 R121). -/
def State.queueWaits (s : State) (r : Request) : Bool :=
  s.heldBack r || ((s.net.any fun q => q.hart == r.hart && q.id < r.id) && s.olderTouches r.hart r.id (fun _ => true) (s.queueRuns r))

/-- The die that an element of a request goes to; none for the data that a request carries. -/
def Request.elemDie (r : Request) (e : ReqElem) : Option Nat :=
  if r.kind == .signal then some (signalDie e.cmp) else if e.bytes = 0 then none else e.at_.dieOf?

/-- Flits from a request's die to one of its elements' dies have not all been received (11 R291, R293). -/
def State.flying (s : State) (r : Request) (e : ReqElem) : Bool :=
  match r.elemDie e with
  | some d => s.inFlight (fromDie r.hart) d
  | none => false

/-- The step of a work-queue request at its home. -/
def State.queueStep (s : State) (req : Nat) : State :=
  match s.request? req with
  | none => s
  | some r => if s.asleep r then s else if r.elems.any (s.flying r) || s.queueWaits r then s.due [.queueOpAtHome req] else s.queueOp r

def execQueueOpAtHome (req : Nat) (s : State) : Host.Outcome State Fault Refusal := .next (s.queueStep req)

end Sys2Proof.Machine
end

