-- ==== Sys2Proof/Machine/Remote.lean ====
section
/-! DEFINITION. Remote copies, RFENCE and remote signals: MAJ 0x24 (09 R250 to R252, 16 R342, 18 R373). -/
namespace Sys2Proof.Machine

/-! ### Ranges (16 R327, log 18) -/

/-- A range as accesses of one element, one for each granule. -/
def rangeElems (va n : Nat) : List Elem :=
  if n = 0 then []
  else (List.range ((va % 2 ^ 16 + n - 1) / 2 ^ 16 + 1)).map fun k =>
    let lo := max va ((va / 2 ^ 16 + k) * 2 ^ 16)
    let hi := min (va + n) ((va / 2 ^ 16 + k + 1) * 2 ^ 16)
    ⟨0, lo % 2 ^ 64, hi - lo, false⟩

/-- One failing address of an access, with its record. -/
def oneFault (acc : Acc) (va : Nat) (e : AccErr) : Option Trap := accessTrap acc [(⟨0, va, 1, false⟩, [(va, e)])]

/-- A range that fails as a whole, with a record of each granule (15 R327, log 82). -/
def rangeFault (acc : Acc) (va n : Nat) (e : AccErr) : Option Trap :=
  accessTrap acc ((rangeElems va (max 1 n)).map fun x => (x, [(x.va, e)]))

/-- A limit on an operand's value (16 R342). -/
def valueTrap : Trap := { code := 5, sub := 11 }

/-- Offsets and lengths of the pieces of a copy that keep within one granule on both sides. -/
def cuts (a b : Nat) : Nat → Nat → Nat → List (Nat × Nat)
  | 0, _, _ => []
  | fuel + 1, o, n =>
    if n ≤ o then []
    else
      let len := min (n - o) (min (2 ^ 16 - (a + o) % 2 ^ 16) (2 ^ 16 - (b + o) % 2 ^ 16))
      (o, len) :: cuts a b fuel (o + len) n

def copyCuts (a b n : Nat) : List (Nat × Nat) := cuts a b (2 * (n / 2 ^ 16) + 5) 0 n

/-- Two sides' failures in one record (15 R327). -/
def Trap.withRecord (t : Trap) (u : Trap) : Trap :=
  let more := u.entries.filter fun e => !(t.entries.any fun f => f.toNat / 2 ^ 16 == e.toNat / 2 ^ 16)
  let all := t.entries ++ more
  { t with entries := all.take 256, ovf := t.ovf || u.ovf || Decidable.decide (256 < all.length) }

/-- Two sides of one instruction, of which each may fail: the graver failure reports, the first side's of two alike, with
the granules of both (15 R320, R327). -/
def worseSide (t u : Option Trap) : Option Trap :=
  match t, u with
  | none, u => u
  | t, none => t
  | some t, some u =>
    if AccErr.rank ⟨u.code, u.sub, 0⟩ < AccErr.rank ⟨t.code, t.sub, 0⟩ then some (u.withRecord t) else some (t.withRecord u)

/-! ### RPUT and RGET (09 R250) -/

/-- What a side's range is wrong by as a whole: it lies in the wrong space, or the global side's crosses a change in
bits [62:51] (04 R97, 09 R250). -/
def rangeForm (global : Bool) (va n : Nat) : Option AccErr :=
  if decide (2 ^ 63 ≤ va) != global then some (accessErr 9)
  else if global && va / 2 ^ 51 != (va + n - 1) / 2 ^ 51 then some (accessErr 3)
  else none

/-- Pieces of a copy as accesses of one side. -/
def pieceElems (cs : List (Nat × Nat)) (va : Nat) : List Elem := cs.map fun c => ⟨0, (va + c.1) % 2 ^ 64, c.2, false⟩

/-- The trap of a side of a range instruction, with each granule that fails: all of them where the range is wrong as a whole
(log 82). -/
def State.sideTrap (s : State) (acc : Acc) (global devices : Bool) (va n : Nat) (es : List Elem) : Option Trap :=
  accessTrap acc (es.filterMap fun e => match rangeForm global va n with
    | some x => some (e, [(e.va, x)])
    | none => match s.placeElem s.me acc e with
      | .error errs => some (e, errs)
      | .ok p => if !devices && p.parts.any (fun q => q.1.isDev) then some (e, [(e.va, accessErr 8)]) else none)

/-- The access kinds of a copy's global and local sides. -/
def copyAccs (put : Bool) : Acc × Acc := if put then (.write, .read) else (.read, .write)

/-- A copy's trap, from either side. -/
def State.copyTrap (s : State) (put : Bool) (ga la n : Nat) : Option Trap :=
  let cs := copyCuts ga la n
  worseSide (s.sideTrap (copyAccs put).1 true true ga n (pieceElems cs ga)) (s.sideTrap (copyAccs put).2 false true la n (pieceElems cs la))

/-- The elements of a copy's request: each piece with its place in the global window and on the local side, and its local
address. -/
def State.copyElems (s : State) (put : Bool) (ga la n : Nat) : List ReqElem :=
  (copyCuts ga la n).map fun c =>
    let side := match s.placeElem s.me (copyAccs put).2 ⟨0, (la + c.1) % 2 ^ 64, c.2, false⟩ with
      | .ok p => p.parts.head?.map fun q => q.1
      | .error _ => none
    ⟨c.1, 0, .global (ga + c.1), c.2, 0, (la + c.1) % 2 ^ 64, side, ga + c.1⟩

/-- A copy of n bytes: checked, then one sealed request whose pieces have a global and a local side. -/
def remoteCopy (i : Instr) (x : Xm) (put : Bool) (ga la n : Nat) (s : State) : State :=
  if 2 ^ 24 < n then s.takeTrap valueTrap
  else if n = 0 then s.retireOp i s.my Flags.none
  else if s.gated then s.block
  else
    let ls := pieceElems (copyCuts ga la n) la
    let held := s.holdElems s.me ls
    match s.copyTrap put ga la n with
    | some t => held.takeTrap t
    | none =>
      if held.myCore.stallsAny ls then held.block
      else
        let es := s.copyElems put ga la n
        let id := s.opSeq
        let s := held.startOp i held.my false Flags.none
        (s.holdRequest 32 { s.request s.opSeq id (if put then .put else .get) es .nowhere with hint := x.hint }).retire

def execRput (w : Wd) (x : Xm) (s : State) : Host.Outcome State Fault Refusal :=
  issued (.rput w x) s fun r s =>
    remoteCopy (.rput w x) x true (r.xSrc w.d).toNat (r.xSrc w.a).toNat (r.xSrc w.b).toNat s

def execRget (w : Wd) (x : Xm) (s : State) : Host.Outcome State Fault Refusal :=
  issued (.rget w x) s fun r s =>
    remoteCopy (.rget w x) x false (r.xSrc w.a).toNat (r.xSrc w.d).toNat (r.xSrc w.b).toNat s

/-! ### Reading a source (09 R250, R257) -/

/-- An engine's reads for a hart, as requests of it at a place in its program order, with a cache hint. -/
def engineReader (hart : Nat) (job : BitVec 12) (op : Nat) (hint : Hint) (marks : Marks) (born : Nat) : Request :=
  { id := 0, hart := hart, job := job, op := op, kind := .load, elems := [], dest := .nowhere, failed := none, sent := true
    silent := true, acquire := none, ordered := false, hint := hint, marks := marks, born := born, rels := [], heard := [] }

/-- A part of a read-only window read: from its line, or at its home. -/
def State.windowRead (s : State) (r : Request) (va n : Nat) : Got × State :=
  let held := (List.range n).filterMap fun j => s.windowByte (dieOf r.hart) r.job (va + j)
  let bad := (List.range n).findSome? fun j => s.windowPoison (dieOf r.hart) r.job (va + j)
  if held.length = n && s.pick (.line (va / 128)) 2 = 0 then (⟨.ok (natOfBytes held), bad, []⟩, s)
  else s.loadAtHome r ⟨0, 0, .window va, n, 0, 0, none, 0⟩

/-- Bytes of a core as an engine of it reads them now. -/
def State.nowBytes (s : State) (c : Nat) (keys : List Nat) : Nat := natOfBytes (keys.map fun k => s.byteThen c k s.history.length)

/-- Places read by an engine of a core, for a request of one of its harts: the number that they hold, or the refusal's
status, the first poison met, and where in the history they were read. -/
def State.engineRead (s : State) (r : Request) : List (Place × Nat) → Got × State
  | [] => (⟨.ok 0, none, []⟩, s)
  | q :: rest =>
    let c := coreOf r.hart
    let first : Got × State := match q.1 with
      | .window va => s.windowRead r va q.2
      | .global va => s.loadAtHome r ⟨0, 0, .global va, q.2, 0, 0, none, va⟩
      | .dev chip pa => (⟨.ok (s.devRead chip pa).toNat, none, []⟩, s)
      | p => (⟨.ok (s.nowBytes c (p.keys q.2)), (List.range q.2).findSome? fun i => s.placePoison c (p.shift i), s.nowAt (p.keys q.2)⟩,
          s.touchLines c r.hint [q])
    match first.1.val with
    | .error code => (⟨.error code, first.1.poison, []⟩, first.2)
    | .ok v =>
      let t := first.2.engineRead r rest
      (⟨t.1.val.map fun w => v % 2 ^ (8 * q.2) + 2 ^ (8 * q.2) * w, first.1.poison.or t.1.poison, first.1.at_ ++ t.1.at_⟩, t.2)

/-- The places of a range of a hart, granule by granule; none if it fails a check. -/
def State.rangeParts (s : State) (h : Nat) (acc : Acc) (va n : Nat) : Option (List (Place × Nat)) :=
  ((rangeElems va n).mapM fun e => (s.placeElem h acc e).toOption.map fun p => p.parts).map List.flatten

/-- A byte of a source: a location still to be read, or what a window gave. -/
inductive SourceByte where
  | loc (key : Nat)
  | val (b : Byte)
  deriving DecidableEq, Repr

/-- The bytes of a source's places, or the status of the window that refused and what its home kept of it. -/
def State.sourceBytes (s : State) (r : Request) : List (Place × Nat) → Except Nat (List SourceByte) × State
  | [] => (.ok [], s)
  | q :: rest =>
    let first : Except Nat (List SourceByte) × State := match q.1 with
      | .window va =>
        let g := s.windowRead r va q.2
        (g.1.val.map fun v => (bytesOfNat q.2 v).map .val, g.2)
      | .dev c pa => (.ok ((bytesOfNat q.2 (s.devRead c pa).toNat).map .val), s)
      | p => (.ok ((p.keys q.2).map .loc), s.touchLines (coreOf r.hart) r.hint [q])
    match first.1 with
    | .error code => (.error code, first.2)
    | .ok bs =>
      let t := first.2.sourceBytes r rest
      (t.1.map fun more => bs ++ more, t.2)

/-- A number that some bytes of a source hold: as one, or byte for byte, with or without the later stores to it, as the device
chooses; and where in the history those locations were read. -/
def State.sourceNat (s : State) (r : Request) (idx : Nat) (whole : Bool) (bs : List SourceByte) : Nat × List (Nat × Nat) :=
  let keys := bs.filterMap fun b => match b with
    | .loc k => some k
    | .val _ => none
  let pick (n : Nat) (ks : List Nat) : Nat × Nat :=
    s.pickFrom (.overlap n) (s.sourceValues r.hart r.marks r.born r.op ks) (0, s.history.length)
  if whole && keys.length = bs.length then
    let v := pick idx keys
    (v.1, keys.map fun k => (k, v.2))
  else
    let vs := bs.map fun b => match b with
      | .loc k =>
        let v := pick (idx + 2 ^ 64 * k) [k]
        (BitVec.ofNat 8 v.1, [(k, v.2)])
      | .val b => (b, [])
    (natOfBytes (vs.map fun v => v.1), vs.flatMap fun v => v.2)

/-- A place's address in its space. -/
def Place.addr (p : Place) : Nat :=
  match p with
  | .spad _ a | .mem a _ | .dev _ a | .window a | .global a => a

/-- A part is a whole aligned block of 8 bytes, which a copy reads and writes as one (09 R250, R265). -/
def isEight (q : Place × Nat) : Bool := q.2 == 8 && q.1.addr % 8 == 0

/-- The aligned parts of 8 bytes of a place's bytes (05 R125). -/
def eightParts (q : Place × Nat) : List (Place × Nat) :=
  let a := q.1.addr % 8
  if q.2 = 0 then []
  else (List.range ((a + q.2 + 7) / 8)).map fun k =>
    let lo := max a (8 * k)
    (q.1.shift (lo - a), min (a + q.2) (8 * k + 8) - lo)

/-- The parts of a place's bytes that a copy reads as one: aligned blocks of 8 bytes, and single bytes (09 R250, R265). -/
def copyParts (q : Place × Nat) : List (Place × Nat) :=
  (eightParts q).flatMap fun p => if isEight p then [p] else (List.range p.2).map fun j => (p.1.shift j, 1)

/-- The messages that reading or writing places takes over the links of a die: to each place on another die and back (01 R13,
11 R293). -/
def State.crossing (s : State) (d : Nat) (reads : Bool) (ps : List (Place × Nat)) : State :=
  ps.foldl (fun s q => match q.1.dieOf? with
    | some home => s.across d home (if reads then 0 else q.2) (if reads then q.2 else 0)
    | none => s) s

/-! ### RFENCE (09 R251) -/

/-- The result goes to a vector register. -/
def ReqDest.isVector : ReqDest → Bool
  | .vector _ _ _ => true
  | _ => false

/-- A request that RFENCE orders. -/
def Request.isRemote (r : Request) : Bool :=
  !r.silent && match r.kind with
    | .put | .get | .signal => true
    | .atomic _ _ => r.dest.isVector || r.elems.any fun e => e.at_.isGlobal
    | _ => false

/-- The entry is a remote request that an RFENCE holds back. -/
def State.entryRemote (s : State) (e : CellarEntry) : Bool :=
  match e.kind with
  | .request id => ((s.request? id).map Request.isRemote).getD false
  | .contribution _ _ => true
  | _ => false

/-- A remote request of a hart from before a place in the order of retirement has not been performed at its home. -/
def State.owesRemote (s : State) (h seq : Nat) : Bool :=
  (s.net.any fun r => r.hart == h && r.id < seq && r.isRemote)
    || ((s.core (coreOf h)).cellar.any fun e => e.hart == h && e.seq < seq && s.entryRemote e) || s.owesPieces h seq

/-- RFENCE: its counter falls, and later remote requests leave, once the earlier ones are performed; nothing else waits. -/
def execRfence (w : Wd) (x : Xm) (s : State) : Host.Outcome State Fault Refusal :=
  issued (.rfence w x) s fun _ s =>
    if s.owesRemote s.me s.opSeq then
      let id := s.opSeq
      ((s.startOp (.rfence w x) s.my false Flags.none).hold 0 (.rfence id)).retire
    else s.retireOp (.rfence w x) s.my Flags.none

/-! ### RSIG (09 R252, 18 R373) -/

/-- The faults of a signal's target that are decided before it retires. -/
def State.signalFault (s : State) (a : Nat) : Option Trap :=
  let d := globalDie a
  if 2 ^ 63 ≤ a && a % 8 ≠ 0 then oneFault .atomic a (accessErr 2)
  else if s.reaches (dieOf s.me) d then none
  else some { code := 0x10, sub := d, eaddr := Word.ofNat a, acc := Acc.code (if 2 ^ 63 ≤ a then .atomic else .write) }

def execRsig (rel : Bool) (w : Wd) (x : Xm) (s : State) : Host.Outcome State Fault Refusal :=
  issued (.rsig rel w x) s fun r s =>
    let a := (r.xSrc w.a).toNat
    let b := (r.xSrc w.b).toNat
    let i : Instr := .rsig rel w x
    if 2 ^ 16 ≤ b then s.takeTrap valueTrap
    else if b = 0 then s.retireOp i s.my Flags.none
    else match s.signalFault a with
      | some t => s.takeTrap t
      | none =>
        if s.gated || s.releaseWaits rel x.scope then s.block
        else
          let id := s.opSeq
          let e : ReqElem := ⟨0, 0, if 2 ^ 63 ≤ a then .global a else .window 0, if 2 ^ 63 ≤ a then 8 else 0, b, a, none, a⟩
          let s := s.startOp i s.my false Flags.none
          let rels := if rel || 2 ^ 63 ≤ a then s.carried s.me rel x.scope else []
          (s.holdRequest 32 { s.request s.opSeq id .signal [e] .nowhere with hint := x.hint, rels := rels }).retire

end Sys2Proof.Machine
end

