-- ==== Sys2Proof/Machine/Cache.lean ====
section
/-! DEFINITION. Cache and window instructions: MAJ 0x28 (09 R269, 05 R138, 19 R391). -/
namespace Sys2Proof.Machine

/-- The lines that hold any byte of a range, as a range of whole lines. -/
def lineLo (a : Nat) : Nat := a / 128 * 128
def lineLen (a b : Nat) : Nat := if b = 0 then 0 else (a + b + 127) / 128 * 128 - lineLo a

/-- The lines of a range, one element for each granule, where a cache holds them. -/
def lineElems (ps : List Placed) : List ReqElem :=
  ps.flatMap fun p => p.parts.filterMap fun q => match q.1 with
    | .mem k mt => some ⟨0, 0, .mem k mt, q.2, 0, 0, none, p.elem.va⟩
    | .global va | .window va => some ⟨0, 0, .global va, q.2, 0, 0, none, p.elem.va⟩
    | _ => none

/-- CLEAN and INVAL: the range is translated as a load; a sealed request handles its lines at their homes. -/
def cacheRequest (i : Instr) (kind : ReqKind) (w : Wd) (r : Hart) (s : State) : State :=
  let a := (r.xSrc w.a).toNat
  let b := (r.xSrc w.b).toNat
  s.reach i .read (rangeElems a b) (fun ps => if (lineElems ps).isEmpty then 0 else 32) fun _ s =>
    match s.placeAll s.me .read (rangeElems (lineLo a) (lineLen a b)) with
    | .error t => s.takeTrap t
    | .ok ps =>
      let es := lineElems ps
      if es.isEmpty then s.retireOp i s.my Flags.none
      else
        let id := s.opSeq
        let s := s.startOp i s.my false Flags.none
        (s.holdRequest 32 (s.request s.opSeq id kind es .nowhere)).retire

def execClean (w : Wd) (x : Xm) (s : State) : Host.Outcome State Fault Refusal :=
  issued (.clean w x) s (cacheRequest (.clean w x) .clean w)

def execInval (w : Wd) (x : Xm) (s : State) : Host.Outcome State Fault Refusal :=
  issued (.inval w x) s (cacheRequest (.inval w x) .inval w)

/-- The modified line that a way holds lies in a range of bytes. -/
def L2Line.within (l : L2Line) (key n : Nat) : Bool :=
  match l.use with
  | .modified line _ => key ≤ 128 * line && 128 * line < key + n
  | .pinned _ _ => false

/-- A modified line is dropped: HBM4E's contents stand. -/
def State.dropLine (s : State) (l : L2Line) : State :=
  let cells := s.backing.filter fun c => l.holds (lineOf c.1)
  { s with
    mem := s.mem.writeCells cells
    history := (cells.map fun c =>
      { key := c.1, old := s.mem.read c.1, core := none, src := none, gang := none, engine := false, home := true
        masked := s.maskedAt none c.1, op := none, start := s.history.length, rels := [] }) ++ s.history }

/-- The lines of a range at their home: written back, or dropped so that HBM4E's contents stand (09 R269). The L2 may
have written a line back before, to hold another; the device chooses (04 R106, R107, log 66). -/
def State.handleLines (s : State) (drop : Bool) (key n : Nat) : State :=
  let d := homeDie key
  let lines := (s.die d).l2.filter fun l => l.within key n
  let s := if drop then lines.foldl (fun s l => if s.pick (.line (l.set * 32 + l.way)) 2 = 0 then s.dropLine l else s) s else s
  let s := s.writeBack d fun l => l.within key n
  if drop then s.modDie d fun k => { k with brought := k.brought.filter fun l => !(key ≤ 128 * l && 128 * l < key + n) } else s

/-- A window's line is being filled for a hart of a die. -/
def State.filling (s : State) (d : Nat) : Bool :=
  s.net.any fun r => r.kind == .load && r.sent && dieOf r.hart == d && r.elems.any fun e => match e.at_ with
    | .window _ => true
    | _ => false

/-- A store that the core of the hart in focus holds, or that has left it and is not performed, happens before the hart's next
access: of a hart, by fences, releases and acquires; of an engine, by what the hart has acquired of it (05 R130, R132). -/
def State.storesFirst (s : State) : Bool :=
  let c := coreOf s.me
  let past := s.my.pub.foldl (fun l r => joinPast l r.known.past) s.my.past
  let ofHart (h seq : Nat) : Bool := past.any fun p => p.1 == h && Decidable.decide (seq < p.2)
  let acquired := s.my.seen ++ s.myCore.passed
  (s.net.any fun r => r.kind == .store && coreOf r.hart == c && ofHart r.hart r.id)
    || s.myCore.cellar.any fun e => match e.kind with
      | .store _ _ _ => e.engine && acquired.any fun x => Decidable.decide (e.born < x.2) && runsMeet (s.entryRuns e) [(x.1, 1)]
      | _ => false

/-- INVRO drops every window line of the die, once the fills in flight have come and the stores that happen before it are
performed at their homes; lines are filled from then on (05 R138). -/
def execInvro (w : Wd) (x : Xm) (s : State) : Host.Outcome State Fault Refusal :=
  issued (.invro w x) s fun _ s =>
    if s.gated || s.filling (dieOf s.me) || s.storesFirst then s.block
    else (s.modDie (dieOf s.me) fun k => { k with window := [], fills := [], windowMark := s.history.length }).retireOp
      (.invro w x) s.my Flags.none

/-- The lines of a range, each an element. -/
def zeroElems (a b : Nat) : List Elem := (List.range (b / 128)).map fun k => ⟨0, (a + 128 * k) % 2 ^ 64, 128, false⟩

def execZerol (w : Wd) (x : Xm) (s : State) : Host.Outcome State Fault Refusal :=
  issued (.zerol w x) s fun r s =>
    let i : Instr := .zerol w x
    let a := (r.xSrc w.a).toNat
    let b := (r.xSrc w.b).toNat
    if a % 128 ≠ 0 || b % 128 ≠ 0 then match rangeFault .write a b (accessErr 10) with
      | some t => s.takeTrap t
      | none => s
    else s.reach i .write (rangeElems a b) storeNeed fun _ s =>
      match s.placeAll s.me .write (zeroElems a b) with
      | .error t => s.takeTrap t
      | .ok ps => s.store i x false id (ps.map fun p => (p, 0))

end Sys2Proof.Machine
end

