-- ==== Sys2Proof/Machine/Permute.lean ====
section
/-! DEFINITION. Reductions, scans, block dot products, permutes, compression, unions and pruning: MAJ 0x14 to 0x16
(08 R222 to R230, 03 R85, R89 to R92). -/
namespace Sys2Proof.Machine

/-! ### Combining two elements (03 R89, R90) -/

/-- The bits of two elements combined. -/
def bitRed (op : RedOp) (a b : Nat) : Nat :=
  match op with
  | .and => a &&& b
  | .or => a ||| b
  | _ => a ^^^ b

/-- The operation of a reduction on two elements of a format, rounded once. A NaN that a bitwise operation makes on a
floating format is written canonical (03 R82, log 16). -/
def combine (op : RedOp) (f : Fmt) (rm : Rm) (a b : Nat) : Nat × Raised :=
  match op with
  | .add => addElem rm f a b
  | .min => minMaxElem false f a b
  | .max => minMaxElem true f a b
  | op =>
    let r := bitRed op a b
    if f.isInt then (r, {})
    else (if isNanElem f r then (fpFmt f).nanCode else r, { iv := (elemVal f a).isSig || (elemVal f b).isSig })

/-- The identity of a reduction (03 R89). -/
def identity (op : RedOp) (f : Fmt) : Nat :=
  match op with
  | .and => 2 ^ f.bits - 1
  | .add | .or | .xor => 0
  | .min => if f.isInt then wrapInt f (intMax f) else (fpFmt f).infCode
  | .max => if f.isInt then wrapInt f (intMin f) else (fpFmt f).signed true (fpFmt f).infCode

/-- A present element, with the lowest index it comes from. -/
abbrev Leaf := Nat × Nat

/-- One level of the pairwise tree. -/
def treeLevel (op : RedOp) (f : Fmt) (rm : Rm) : List (Option Leaf) → List (Option Leaf) × List (Nat × Raised)
  | [] => ([], [])
  | [x] => ([x], [])
  | x :: y :: rest =>
    let t := treeLevel op f rm rest
    match x, y with
    | none, y => (y :: t.1, t.2)
    | x, none => (x :: t.1, t.2)
    | some x, some y =>
      let c := combine op f rm x.1 y.1
      (some (c.1, x.2) :: t.1, (x.2, c.2) :: t.2)

/-- The tree, in at most so many levels. -/
def treeOf (op : RedOp) (f : Fmt) (rm : Rm) : Nat → List (Option Leaf) → List (Nat × Raised) → Option Leaf × List (Nat × Raised)
  | 0, l, fl => (l.head?.getD none, fl)
  | k + 1, l, fl =>
    if l.length ≤ 1 then (l.head?.getD none, fl)
    else let t := treeLevel op f rm l
      treeOf op f rm k t.1 (fl ++ t.2)

/-- The lowest present element that makes a floating reduction a NaN (03 R91, R85). -/
def nanCase (op : RedOp) (f : Fmt) (present : List Leaf) : Option Nat :=
  if f.isInt then none
  else
    let vs := present.map fun p => (elemVal f p.1, p.2)
    let bad := (vs.any fun v => v.1.isNan)
      || (op == .add && (vs.any fun v => v.1.isInf && !v.1.isNeg) && vs.any fun v => v.1.isInf && v.1.isNeg)
    if bad then (vs.find? fun v => v.1.isNan || v.1.isInf).map fun v => v.2 else none

/-- A reduction's result and flags. -/
def reduceTree (op : RedOp) (f : Fmt) (rm : Rm) (l : List (Option Leaf)) : Nat × List (Nat × Raised) :=
  match nanCase op f (l.filterMap id) with
  | some i => ((fpFmt f).nanCode, [(i, { iv := true })])
  | none =>
    let t := treeOf op f rm 14 l []
    (match t.1 with
      | some x => x.1
      | none => identity op f, t.2)

def execVred (op : RedOp) (w : Wd) (rm : Rm) (s : State) : Host.Outcome State Fault Refusal :=
  issued (.vred op w rm) s fun r s =>
    let i : Instr := .vred op w rm
    let f := Instr.format i s.my
    let t := reduceTree op f rm ((List.range (s.count r f)).map fun e =>
      if r.selects w.grd f e then some (r.srcElem w.a f e, e) else none)
    (s.upd fun h => h.vecWrite w.d f.bits [(0, t.1)] (sourceTag s.my f w.a) (Flags.of t.2)).retireOp i s.my Flags.none

/-- The scan of present elements in ascending order: the running value with the lowest index, results and flags. -/
def scanFrom (op : RedOp) (f : Fmt) (rm : Rm) : Option Leaf → List Leaf → List (Nat × Nat × Nat × Raised)
  | _, [] => []
  | none, y :: rest =>
    let c : Nat × Raised := if !f.isInt && isNanElem f y.1 then ((fpFmt f).nanCode, { iv := (elemVal f y.1).isSig }) else (y.1, {})
    (y.2, c.1, y.2, c.2) :: scanFrom op f rm (some (c.1, y.2)) rest
  | some x, y :: rest =>
    let c := combine op f rm x.1 y.1
    (y.2, c.1, x.2, c.2) :: scanFrom op f rm (some (c.1, x.2)) rest

def execVscan (op : RedOp) (w : Wd) (rm : Rm) (s : State) : Host.Outcome State Fault Refusal :=
  issued (.vscan op w rm) s fun r s =>
    let i : Instr := .vscan op w rm
    let f := Instr.format i s.my
    let out := scanFrom op f rm none ((r.actives w.grd f (s.count r f)).map fun e => (r.srcElem w.a f e, e))
    (s.upd fun h => h.vecWrite w.d f.bits (out.map fun q => (q.1, q.2.1)) f
      (Flags.of (out.map fun q => q.2.2))).retireOp i s.my Flags.none

/-! ### VDOTB (08 R224, 03 R88, R92) -/

/-- One block: the exact sum of products times the exact product of the scales, rounded to fp32. Scales that are NaN or
infinite act on each element (03 R88). -/
def dotBlock (rm : Rm) (sa sb : Val) (ps : List (Val × Val)) : Nat × Raised :=
  match ps with
  | [] => (0, {})
  | ps =>
    if sa.isNan || sa.isInf || sb.isNan || sb.isInf then
      let terms := ps.map fun p =>
        let x := scaled p.1 sa
        let y := scaled p.2 sb
        let q := mulVal x.1 y.1
        (q.1, x.2 || y.2 || q.2)
      let t := sumVals rm (terms.map fun q => q.1)
      finishFp .fp32 rm (t.1, t.2 || terms.any fun q => q.2)
    else
      let terms := ps.map fun p => mulVal p.1 p.2
      let t := sumVals rm (terms.map fun q => q.1)
      let u := mulVal t.1 (mulVal sa sb).1
      finishFp .fp32 rm (u.1, t.2 || u.2 || terms.any fun q => q.2)

/-- The blocks' results added in order under RNE, with their flags. -/
def dotSum : List (Nat × Nat × Raised) → Nat × List (Nat × Raised)
  | [] => (0, [])
  | b :: rest => rest.foldl (fun (acc : Nat × List (Nat × Raised)) t =>
      let r := addElem .rne .fp32 acc.1 t.2.1
      (r.1, acc.2 ++ [(t.1, t.2.2), (t.1, r.2)])) (b.2.1, [(b.1, b.2.2)])

def execVdotb (w : Wd) (x : Xx) (s : State) : Host.Outcome State Fault Refusal :=
  issued (.vdotb w x) s fun r s =>
    let i : Instr := .vdotb w x
    let f := Instr.format i s.my
    let vm := s.myCore.vlmax
    let n := s.count r f
    let size := if x.blen == .none then max n 1 else BlockLen.elems x.blen
    let blocks := (List.range ((n + size - 1) / size)).map fun k =>
      let es := ((List.range size).map fun j => k * size + j).filter fun e => e < n && r.selects w.grd f e
      let sa := r.scaleAt vm x x.sa f (dataIndex w.a) (k * size)
      let sb := r.scaleAt vm x x.sb f (dataIndex w.b) (k * size)
      (k * size, dotBlock x.rm sa sb (es.map fun e => (elemVal f (r.srcElem w.a f e), elemVal f (r.srcElem w.b f e))))
    let acc := dotSum blocks
    let ts := decodeFp (fpFmt .bf16) ((r.xr x.cnt).toNat % 2 ^ 16)
    let res := finishFp .fp32 x.rm (mulVal (elemVal .fp32 acc.1) ts)
    (s.upd fun h => h.vecWrite w.d 32 [(0, res.1)] .fp32 (Flags.of (acc.2 ++ [(0, res.2)]))).retireOp i s.my Flags.none

/-! ### Permutes (08 R225, R226) -/

/-- A permute of units: unit e of the destination from the hart as read, the format, the unit count n and the capacity;
none leaves it unchanged. -/
def permute (i : Instr) (w : Wd) (k : Hart → Fmt → Nat → Nat → Nat → Option Nat) (s : State) :
    Host.Outcome State Fault Refusal :=
  issued i s fun r s =>
    let tag := Instr.format i s.my
    let f := Instr.permuteFmt i w s.my
    let n := movesOf f (s.count r f)
    let v := movesPer f s.myCore.vlmax
    let ws := (r.activeUnits w.grd n).filterMap fun e => (k r f n v e).map fun x => (e, x)
    (s.upd fun h => h.vecWrite w.d (moveBits f) ws tag Flags.none).retire

/-- Unit j of a source, 0 at or above the capacity. -/
def Hart.unitOr0 (h : Hart) (o : Operand) (f : Fmt) (v j : Nat) : Nat := if j < v then h.srcUnit o f j else 0

/-- Element e of a vector index: unsigned at its own width, or of a constant or broadcast at that of the instruction's
format (08 R205, R225), under tern a trit of it (DESIGN CHOICE, log 108); none where the register holds no such element. -/
def Hart.indexElem (h : Hart) (o : Operand) (g : Fmt) (vm e : Nat) : Option Nat :=
  if o.tagged then
    let t := (h.vecReg o).tag
    let f : Fmt := if t == .raw then .i32 else t
    if e < elemsPer f vm then some (getElem (h.vecReg o).bits f.bits e) else none
  else some (h.srcElem o (if g == .raw then .i32 else g) e)

def execVperm (w : Wd) (s : State) : Host.Outcome State Fault Refusal :=
  permute (.vperm w) w (fun r f _ v e =>
    some (match r.indexElem w.b f s.myCore.vlmax e with
      | some j => r.unitOr0 w.a f v j
      | none => 0)) s

def execVsldu (w : Wd) (s : State) : Host.Outcome State Fault Refusal :=
  permute (.vsldu w) w (fun r f _ v e =>
    let b := (r.xSrc w.b).toNat
    if b ≤ e then some (r.unitOr0 w.a f v (e - b)) else none) s

def execVsldd (w : Wd) (s : State) : Host.Outcome State Fault Refusal :=
  permute (.vsldd w) w (fun r f _ v e => some (r.unitOr0 w.a f v (e + (r.xSrc w.b).toNat))) s

def execVbcast (w : Wd) (s : State) : Host.Outcome State Fault Refusal :=
  permute (.vbcast w) w (fun r f _ v _ => some (r.unitOr0 w.a f v (r.xSrc w.b).toNat)) s

def execVzip (w : Wd) (s : State) : Host.Outcome State Fault Refusal :=
  permute (.vzip w) w (fun r f _ _ e => some (r.srcUnit (if e % 2 = 0 then w.a else w.b) f (e / 2))) s

def execVunzip (w : Wd) (s : State) : Host.Outcome State Fault Refusal :=
  permute (.vunzip w) w (fun r f n _ e =>
    some (if 2 * e < n then r.srcUnit w.a f (2 * e) else r.srcUnit w.b f (2 * e - n))) s

def execVrev (w : Wd) (s : State) : Host.Outcome State Fault Refusal :=
  permute (.vrev w) w (fun r f n _ e => some (r.srcUnit w.a f (n - 1 - e))) s

def execViota (w : Wd) (s : State) : Host.Outcome State Fault Refusal :=
  vecOp (.viota w) w (fun r f e => (((r.xSrc w.a).toNat + e) % 2 ^ f.bits, {})) s

/-- VEXT: an element into an x register, and no L entry. -/
def execVext (w : Wd) (s : State) : Host.Outcome State Fault Refusal :=
  issued (.vext w) s fun r s =>
    let f := Instr.permuteFmt (.vext w) w s.my
    let v := r.unitOr0 w.a f (movesPer f s.myCore.vlmax) (r.xSrc w.b).toNat
    let x := if f == .i8 || f == .i16 || f == .i32 then (BitVec.ofNat f.bits v).signExtend 64 else Word.ofNat v
    (s.upd fun h => h.putXOnly w.d x).retire

def execVins (w : Wd) (s : State) : Host.Outcome State Fault Refusal :=
  issued (.vins w) s fun r s =>
    let i : Instr := .vins w
    let f := Instr.format i s.my
    let b := (r.xSrc w.b).toNat
    let ws := if b < movesPer f s.myCore.vlmax then [(b, (r.xSrc w.a).toNat)] else []
    (s.upd fun h => h.vecWrite w.d (moveBits f) ws f Flags.none).retire

/-! ### Compression (08 R227) -/

def execVcomp (w : Wd) (s : State) : Host.Outcome State Fault Refusal :=
  issued (.vcomp w) s fun r s =>
    let i : Instr := .vcomp w
    let f := Instr.format i s.my
    let es := r.activeUnits w.grd (movesOf f (s.count r f))
    let ws := (List.range es.length).zip (es.map fun e => r.srcUnit w.a f e)
    (s.upd fun h => h.vecWrite w.d (moveBits f) ws f Flags.none).retire

def execVexpnd (w : Wd) (s : State) : Host.Outcome State Fault Refusal :=
  issued (.vexpnd w) s fun r s =>
    let i : Instr := .vexpnd w
    let f := Instr.format i s.my
    let es := r.activeUnits w.grd (movesOf f (s.count r f))
    let ws := es.zip ((List.range es.length).map fun j => r.srcUnit w.a f j)
    (s.upd fun h => h.vecWrite w.d (moveBits f) ws f Flags.none).retire

/-! ### Unions (08 R228, R229) -/

/-- The end marker of a list of indices. -/
def endMarker : Nat := 0xFFFFFFFF

/-- Indices and values of a sparse list: its elements below m, up to the end marker. -/
def Hart.sparseList (h : Hart) (base : BitVec 6) (f : Fmt) (m : Nat) : List (Nat × Nat) :=
  ((List.range m).map fun e => (getElem (h.vr base).bits 32 e, getElem (h.vr (base + 1)).bits f.bits e)).takeWhile fun p =>
    p.1 ≠ endMarker

/-- The merge of two sparse lists from output position u: entries in order, and the flags of the sums under their output
positions; a sum of zero is dropped in the form .dz. The fuel is the length of both lists together. -/
def mergeLists (f : Fmt) (dropZero : Bool) : Nat → Nat → List (Nat × Nat) → List (Nat × Nat) → List (Nat × Nat) × List (Nat × Raised)
  | 0, _, _, _ => ([], [])
  | _ + 1, _, [], [] => ([], [])
  | k + 1, u, a :: as, [] => let t := mergeLists f dropZero k (u + 1) as []
    (a :: t.1, t.2)
  | k + 1, u, [], b :: bs => let t := mergeLists f dropZero k (u + 1) [] bs
    (b :: t.1, t.2)
  | k + 1, u, a :: as, b :: bs =>
    if a.1 < b.1 then let t := mergeLists f dropZero k (u + 1) as (b :: bs)
      (a :: t.1, t.2)
    else if b.1 < a.1 then let t := mergeLists f dropZero k (u + 1) (a :: as) bs
      (b :: t.1, t.2)
    else
      let y := addElem .rne f a.2 b.2
      let zero := if f.isInt then y.1 == 0 else (elemVal f y.1).isZero
      if dropZero && zero then let t := mergeLists f dropZero k u as bs
        (t.1, (u, y.2) :: t.2)
      else let t := mergeLists f dropZero k (u + 1) as bs
        ((a.1, y.1) :: t.1, (u, y.2) :: t.2)

def unionInto (i : Instr) (w : Wd) (dropZero : Bool) (s : State) : Host.Outcome State Fault Refusal :=
  issued i s fun r s =>
    let f := Instr.format i s.my
    let m := min (s.count r f) s.myCore.vlmax
    let a := r.sparseList (idxOf w.a) f m
    let b := r.sparseList (idxOf w.b) f m
    let t := mergeLists f dropZero (a.length + b.length) 0 a b
    let out := t.1
    let u := out.length
    let ix := (List.range m).map fun q => (q, (out.map fun e => e.1).getD q endMarker)
    let vs := (List.range m).map fun q => (q, (out.map fun e => e.2).getD q 0)
    (s.upd fun h =>
      let h := (h.vecWrite w.d 32 ix .i32 (Flags.of t.2)).setVec (.main (idxOf w.d + 1) .plain) (fun b => setElems b f.bits vs) f
      h.setL0 (Word.ofNat u)).retireOp i s.my Flags.none

def execVunionKz (w : Wd) (s : State) := unionInto (.vunionKz w) w false s
def execVunionDz (w : Wd) (s : State) := unionInto (.vunionDz w) w true s

/-! ### Pruning (08 R230) -/

/-- A position of a group: its index, and its element if it lies below n. -/
abbrev Position := Nat × Option Nat

/-- Position p ranks above q: a NaN above every number, larger magnitudes first, absent ones last, then the lower. -/
def ranksAbove (f : Fmt) (p q : Position) : Bool :=
  match p.2, q.2 with
  | some _, none => true
  | none, some _ => false
  | none, none => decide (p.1 < q.1)
  | some x, some y =>
    let a := (elemVal f x).abs
    let b := (elemVal f y).abs
    if a.isNan || b.isNan then (a.isNan && (!b.isNan || decide (p.1 < q.1)))
    else match cmpVal a b with
      | .gt => true
      | .lt => false
      | .eq => decide (p.1 < q.1)

/-- The four positions of a group that are kept, in ascending order. -/
def keptFour (f : Fmt) (ps : List Position) : List Position := ps.filter fun p => (ps.countP fun q => ranksAbove f q p) < 4

/-- VPRN48 writes two vector registers; l1 takes what vd takes (DESIGN CHOICE, log 95). -/
def execVprn48 (w : Wd) (s : State) : Host.Outcome State Fault Refusal :=
  issued (.vprn48 w) s fun r s =>
    let i : Instr := .vprn48 w
    let f := Instr.format i s.my
    let n := s.count r f
    let groups := (List.range ((n + 7) / 8)).map fun g =>
      (g, keptFour f ((List.range 8).map fun j =>
        (j, if 8 * g + j < n then some (r.srcElem w.a f (8 * g + j)) else none)))
    let vals := groups.flatMap fun g => ((List.range 4).zip g.2).map fun p => (4 * g.1 + p.1, p.2.2.getD 0)
    let masks := groups.map fun g => (g.1, g.2.foldl (fun m p => m + 2 ^ p.1) 0)
    (s.upd fun h =>
      (h.vecWrite w.d f.bits vals f Flags.none).setVec (.main (idxOf w.d + 1) .plain) (fun b => setElems b 8 masks)
        .mask8).retireOp i s.my Flags.none

end Sys2Proof.Machine
end

