-- ==== Sys2Proof/Machine/Collective.lean ====
section
/-! DEFINITION. Teams and collectives: MAJ 0x25, the MTS to teambase, and the steps by which the blending units carry an
instance to its end (09 R253 to R257, 16 R350, 17 R361, 18 R385 to R388, R415, 03 R91, R95, 19 R400). -/
namespace Sys2Proof.Machine

/-! ### Installing a team (09 R253, R254) -/

/-- Places read by the hart in focus as loads, of which a home may refuse one and log it. -/
def State.loadParts (s : State) : List (Place × Nat) → Option (List Byte) × State
  | [] => (some [], s)
  | q :: rest =>
    let g := s.loadAtHome (s.request s.opSeq 0 .load [] .nowhere) ⟨0, 0, q.1, q.2, 0, 0, none, 0⟩
    match g.1.val with
    | .error _ => (none, g.2)
    | .ok v =>
      let t := (g.2.note s.me g.1.at_).loadParts rest
      (t.1.map fun bs => bytesOfNat q.2 v ++ bs, t.2)

/-- A range of a table read as loads of the hart in focus, at their place in program order; none where its home refuses
it. -/
def State.readTable (s : State) (i : Instr) (va n : Nat) (k : Option (List Byte) → State → State) : State :=
  s.reach i .read (rangeElems va n) (fun _ => 0) fun ps s => match s.lostTrap ps with
    | some t => s.takeTrap t
    | none =>
      let r := s.loadParts (ps.flatMap fun p => p.parts.flatMap eightParts)
      k r.1 r.2

/-- A field of a table. -/
def fieldOf (bs : List Byte) (off n : Nat) : Nat := natOfBytes ((bs.drop off).take n)

/-- Member m of the entries; none if a field is out of range (09 R253). -/
def memberOf (bs : List Byte) (m : Nat) : Option Member :=
  let f (off n : Nat) : Nat := fieldOf bs (16 * m + off) n
  if 64 ≤ f 0 1 || 4 ≤ f 1 1 || 96 ≤ f 2 1 || 8 ≤ f 3 1 || f 4 4 ≠ 0 || f 8 8 < 2 ^ 63 || f 8 8 % 256 ≠ 0 then none
  else some ⟨8 * (128 * (4 * f 0 1 + f 1 1) + f 2 1) + f 3 1, Word.ofNat (f 8 8)⟩

/-- The table behind a header and its entries; none if a field is out of range or a res0 field is not zero, as R254 says of
a table against the general words of R4 (log 84). -/
def teamOf (hd es : List Byte) : Option TeamTable :=
  let size := fieldOf hd 0x10 4
  let slots := fieldOf hd 0x14 4
  if fieldOf hd 4 4 ≠ 0 || fieldOf hd 0x18 40 ≠ 0 || size < 256 || 65536 < size || size % 256 ≠ 0 || slots = 0 || 16 < slots
  then none
  else ((List.range (fieldOf hd 0 4)).mapM (memberOf es)).map fun ms => ⟨Word.ofNat (fieldOf hd 8 8), size, slots, ms⟩

/-- teambase and teamst after an install (09 R254); one that installs nothing leaves NMEM and SELF 0 (DESIGN CHOICE, log 110). -/
def Hart.installTeam (h : Hart) (me : Nat) (base : Word) (t : Option TeamTable) : Hart :=
  let self : Option (TeamTable × Nat) := t.bind fun t => (t.members.findIdx? fun m => m.hart == me).map fun k => (t, k)
  match self with
  | some (t, k) => { h with
      teambase := base, teamInst := 0, team := some t, teamNmem := BitVec.ofNat 11 t.members.length
      teamSelf := BitVec.ofNat 10 k, teamValid := true }
  | none => { h with
      teambase := base, teamInst := 0, team := none, teamNmem := 0, teamSelf := 0, teamValid := false }

/-- The install of a team, once its table is read (09 R254). -/
def teamInstall (i : Instr) (base : Word) (s : State) : State :=
  let done (t : Option TeamTable) (s : State) : State := (s.upd fun h => h.installTeam s.me base t).retire
  s.readTable i base.toNat 64 fun hd s => match hd with
    | none => done none s
    | some hd =>
      let n := fieldOf hd 0 4
      if n < 2 || 1024 < n then done none s
      else s.readTable i (base.toNat + 64) (16 * n) fun es s => done (es.bind (teamOf hd)) s

def execTeambaseInstall (w : Wd) (s : State) : Host.Outcome State Fault Refusal :=
  issued (.teambaseInstall w) s fun r s => teamInstall (.teambaseInstall w) (r.xSrc w.a &&& ~~~(0x3F : Word)) s

/-! ### What a piece carries (09 R255, R256) -/

namespace CollHead

/-- A chunk of a member's own source. -/
def ownChunk (h : CollHead) (src : List Nat) (b j : Nat) : List Nat :=
  (src.drop (h.blockOff b + j * h.chunk)).take (min h.chunk (h.blockLen b - j * h.chunk))

/-- One pairwise combination (03 R91, R95). It raises no flag and records no index: R255 says so of COLL, where R85 and R91 name
both (DESIGN CHOICE, log 99). -/
def join (h : CollHead) (a b : Nat) : Nat :=
  if (nanCase h.op h.fmt [(a, 0), (b, 0)]).isSome then (fpFmt h.fmt).nanCode else (combine h.op h.fmt .rne a b).1

def joinAll (h : CollHead) (a b : List Nat) : List Nat := List.zipWith h.join a b

end CollHead

/-- What a member has of a piece. -/
def MemberPart.has (p : MemberPart) (x : Piece) : Option (List Nat) := (p.got.find? fun g => g.1 == x).map fun g => g.2

/-- A chunk of a reducing ring before a step, at member m: its own, with what arrived in the step before. -/
def MemberPart.ringValue (p : MemberPart) (m t j : Nat) (src : List Nat) : Option (List Nat) :=
  let h := p.head
  let own := h.ownChunk src (h.blockAt m t) j
  if t = 0 then some own
  else (p.has ⟨h.prev m, m, t - 1, j⟩).map fun r =>
    if h.kind == .reduceScatter || (h.kind == .allReduce && t < h.size) then h.joinAll own r else r

/-- The elements of a piece that member m sends; none while what they are made of has not arrived. -/
def MemberPart.data (p : MemberPart) (m : Nat) (x : Piece) : Option (List Nat) :=
  let h := p.head
  match p.source with
  | none => none
  | some src =>
    if h.eager then some (if h.kind == .reduceScatter then (src.drop (x.dest * h.count)).take h.count else src)
    else if h.kind == .broadcast then
      (if m = h.root then some (h.ownChunk src 0 x.chunk) else p.has ⟨h.prev m, m, 0, x.chunk⟩)
    else p.ringValue m x.step x.chunk src

/-- The chunks of a block, joined. -/
def joinChunks (n : Nat) (f : Nat → Option (List Nat)) : List Nat := (List.range n).flatMap fun j => (f j).getD []

/-- The result at member m, once every arrival has been combined (09 R255). -/
def MemberPart.result (p : MemberPart) (m : Nat) : List Nat :=
  let h := p.head
  let src := p.source.getD []
  let n := h.size
  if h.eager then
    match h.kind with
    | .allGather => (List.range n).flatMap fun q => if q = m then src else (p.has ⟨q, m, 0, 0⟩).getD []
    | .broadcast => if m = h.root then src else (p.has ⟨h.root, m, 0, 0⟩).getD []
    | .allReduce | .reduceScatter =>
      match p.got.map fun g => g.2 with
      | [] => []
      | a :: rest => rest.foldl h.joinAll a
  else
    match h.kind with
    | .allReduce => (List.range n).flatMap fun b =>
        if b = m then joinChunks (h.chunks b) fun j => p.ringValue m (n - 1) j src
        else
          let t0 := (m + 2 * n - 2 - b) % n
          let t := if t0 = n - 1 then t0 else t0 + n
          joinChunks (h.chunks b) fun j => p.has ⟨h.prev m, m, t, j⟩
    | .reduceScatter => joinChunks (h.chunks m) fun j => p.ringValue m (n - 1) j src
    | .allGather => (List.range n).flatMap fun b =>
        if b = m then src
        else joinChunks (h.chunks b) fun j => p.has ⟨h.prev m, m, (m + n - 1 - b) % n, j⟩
    | .broadcast => if m = h.root then src else joinChunks (h.chunks 0) fun j => p.has ⟨h.prev m, m, 0, j⟩

/-! ### Instances -/

def MemberPart.absent (head : CollHead) : MemberPart :=
  { stage := .absent, hart := 0, op := 0, job := 0, head := head, dstAddr := 0, srcAddr := 0, dst := [], src := [], source := none
    got := [], sent := [], saved := false, marks := Marks.reset, born := 0 }

def CollHead.none : CollHead := ⟨⟨0, 256, 1, []⟩, .allReduce, .add, .raw, 0, 0⟩

def CollInst.part (c : CollInst) (m : Nat) : MemberPart := c.parts.getD m (MemberPart.absent CollHead.none)

/-- The instance is under way at a member. -/
def MemberStage.open : MemberStage → Bool
  | .issued | .combined | .ready => true
  | _ => false

/-- An entry of a list changed by a function. -/
def mapAt {α : Type} (l : List α) (i : Nat) (f : α → α) : List α :=
  ((List.range l.length).zip l).map fun p => if p.1 = i then f p.2 else p.2

namespace State

def coll? (s : State) (i : Nat) : Option CollInst := s.pod.colls[i]?

def modColl (s : State) (i : Nat) (f : CollInst → CollInst) : State :=
  { s with pod := { s.pod with colls := mapAt s.pod.colls i f } }

def modPart (s : State) (i m : Nat) (f : MemberPart → MemberPart) : State :=
  s.modColl i fun c => { c with parts := mapAt c.parts m f }

/-- The lowest-indexed member of a team that has been declared lost (18 R385). -/
def lostMember (s : State) (t : TeamTable) : Option Nat := t.members.findIdx? fun m => s.pod.lost.contains (dieOf m.hart)

/-- The die of an instance's coordinator: the home die of its lowest-indexed member that is not lost (18 R385). -/
def coordinator (s : State) (c : CollInst) : Nat :=
  let ms := (c.part 0).head.team.members
  dieOf (((ms.find? fun m => !s.pod.lost.contains (dieOf m.hart)).map fun m => m.hart).getD 0)

/-- The coordinator of an instance sends a message to members (18 R385, R386). -/
def sendMembers (s : State) (c : CollInst) (ms : List Nat) : State :=
  ms.foldl (fun s m => s.sendTo (s.coordinator c) (dieOf (c.part m).hart) 0) s

/-- The steps by which a decision reaches the members that have issued the instance, with the address of the first element
refused for codes 1 to 3. -/
def decide (s : State) (i : Nat) (code : BitVec 8) (lost : Nat) (ea : Word := 0) : State :=
  match s.coll? i with
  | none => s
  | some c =>
    if c.decided.isSome || c.commitSent then s
    else
      let ms := (List.range c.parts.length).filter fun m => (c.part m).stage.open
      ((s.modColl i fun c => { c with decided := some (code, lost), refused := ea }).sendMembers c ms).due
        (ms.map fun m => .abort i m code lost)

/-- A refused access to a member's arrival area, logged at its home, aborts the instance (18 R377, R415). -/
def areaRefused (s : State) (i : Nat) (job : BitVec 12) (from_ area code va : Nat) : State :=
  (s.logRefusal (globalDie va) job (dieOf from_) false code va).decide i (BitVec.ofNat 8 code) area (Word.ofNat va)

/-- The cells behind a range of an arrival area. -/
def areaCells (s : State) (job : BitVec 12) (va : Nat) (bs : List Byte) : Except Nat (List Host.Cell) :=
  ((rangeElems va bs.length).mapM fun e => (s.homeAddr job .write e.va).map fun k =>
    cellsAt k ((bs.drop (e.va - va)).take e.bytes)).map List.flatten

end State

/-! ### Arrival areas (09 R253, 18 R415) -/

def CollHead.baseOf (h : CollHead) (m : Nat) : Nat := ((h.team.members[m]?).map fun x => x.slotBase.toNat).getD 0

/-- The flow-control block of member m towards a peer. -/
def CollHead.flowAddr (h : CollHead) (m p : Nat) : Nat :=
  h.baseOf m + h.size * h.team.nslot * h.team.slotSize + 16 * p

/-- The slot of a sender at a member that it writes next: its slots in turn, by TAIL (DESIGN CHOICE, log 111; 09 R253). -/
def CollHead.slotAddr (h : CollHead) (p sender tail : Nat) : Nat :=
  h.baseOf p + (sender * h.team.nslot + tail % h.team.nslot) * h.team.slotSize

def CollHead.hartOf (h : CollHead) (m : Nat) : Nat := ((h.team.members[m]?).map fun x => x.hart).getD 0

namespace State

/-- TAIL and HEAD of a member's block. -/
def flow (s : State) (p : MemberPart) (m peer : Nat) : Except Nat (Nat × Nat) :=
  let a := p.head.flowAddr m peer
  match (s.homeRead p.job s.standing s.keysPoison a 8).val, (s.homeRead p.job s.standing s.keysPoison (a + 8) 8).val with
  | .ok t, .ok h => .ok (t, h)
  | .error c, _ | _, .error c => .error c

def flowCells (s : State) (p : MemberPart) (m peer tail head : Nat) : Except Nat (List Host.Cell) :=
  s.areaCells p.job (p.head.flowAddr m peer) (bytesOfNat 8 tail ++ bytesOfNat 8 head)

/-- Bytes of an arrival area stored by the blending units that serve a member, an engine's traffic, in accesses of 8 bytes (04
R108, 05 R125, 18 R415). -/
def storeArea (s : State) (p : MemberPart) (va : Nat) (cells : List Host.Cell) : State :=
  s.storeEach { Writer.engine (dieOf p.hart) with hint := s.hintAt p.job (.global va) .engine } cells

/-- The next piece that member m of a team sends to a peer: of its earliest instance that has one left. -/
def nextPiece (s : State) (team : Word) (m peer : Nat) : Option (Nat × MemberPart × Piece) :=
  (((List.range s.pod.colls.length).zip s.pod.colls).filterMap fun c =>
    let p := c.2.part m
    if c.2.team == team && p.stage.open && c.2.decided.isNone then
      ((p.head.sends m).find? fun x => x.dest == peer && !p.sent.contains x).map fun x => (c.1, p, x)
    else none).head?

/-- A sender writes slots at a peer while TAIL − HEAD towards it is below NSLOT, at most so many (09 R256). -/
def pump (team : Word) (m peer : Nat) : Nat → State → State
  | 0, s => s
  | fuel + 1, s => match s.nextPiece team m peer with
    | none => s
    | some (i, p, x) => match p.data m x with
      | none => s
      | some vs =>
        let h := p.head
        let bs := vs.flatMap (bytesOfNat h.width)
        let mine := dieOf p.hart
        if !s.reaches mine (dieOf (h.hartOf peer)) || !s.reaches mine (globalDie (h.flowAddr m peer)) then s
        else match s.flow p m peer with
          | .error code => s.areaRefused i p.job p.hart m code (h.flowAddr m peer)
          | .ok (tail, head) =>
            if h.team.nslot ≤ (tail + 2 ^ 64 - head) % 2 ^ 64 then s
            else
              let slot := h.slotAddr peer m tail
              match s.areaCells p.job slot bs, s.flowCells p m peer (tail + 1) head with
              | .error code, _ => s.areaRefused i p.job p.hart peer code slot
              | .ok _, .error code => s.areaRefused i p.job p.hart m code (h.flowAddr m peer)
              | .ok cs, .ok fs =>
                let s := (s.sendTo mine (globalDie slot) bs.length).sendTo mine (globalDie (h.flowAddr m peer)) 16
                let s := (s.storeArea p slot cs).storeArea p (h.flowAddr m peer) fs
                let s := s.modColl i fun c => { c with
                  flying := c.flying ++ [⟨x, slot, bs.length⟩]
                  parts := mapAt c.parts m fun q => { q with sent := q.sent ++ [x] } }
                pump team m peer fuel (s.due [.collArrival i peer m])

/-- Member m of an instance sends what it can to every peer. -/
def pumpAll (s : State) (i m : Nat) : State :=
  match s.coll? i with
  | none => s
  | some c =>
    let peers := dedup (((c.part m).head.sends m).map fun x => x.dest)
    peers.foldl (fun s p => pump c.team m p 17 s) s

/-- Sends that a link had kept back. -/
def pumpEvery (s : State) : State :=
  ((List.range s.pod.colls.length).zip s.pod.colls).foldl (fun s c =>
    (List.range c.2.parts.length).foldl (fun s m => if (c.2.part m).stage.open then s.pumpAll c.1 m else s) s) s

/-- A member that has combined every arrival sends READY (18 R385). -/
def checkCombined (s : State) (i m : Nat) : State :=
  match s.coll? i with
  | none => s
  | some c =>
    let p := c.part m
    if p.stage == .issued && p.source.isSome && ((p.head.receives m).all fun x => (p.has x).isSome) then
      ((s.modPart i m fun p => { p with stage := .combined }).sendTo (dieOf p.hart) (s.coordinator c) 0).due [.ready i m]
    else s

end State

/-! ### Issue (09 R255, R256, 16 R342, R350, 18 R373) -/

/-- The failing peers of a team (18 R373). -/
def State.peerTrap (s : State) (t : TeamTable) (self : Nat) : Option Trap :=
  let fails := ((List.range t.members.length).zip t.members).filterMap fun p =>
    let d := dieOf p.2.hart
    if p.1 = self || s.reaches (dieOf s.me) d then none
    else some ((⟨0, p.2.slotBase.toNat, 1, false⟩ : Elem), [(p.2.slotBase.toNat, (⟨0x10, d, 3⟩ : AccErr))])
  accessTrap .write fails

/-- The trap of a range of a collective, which may not lie in the global window nor in device registers (16 R350). -/
def State.collSide (s : State) (acc : Acc) (va n : Nat) : Option Trap :=
  s.sideTrap acc false false va n (rangeElems va (if 2 ^ 63 ≤ va then max 1 n else n))

/-- The trap of a collective's ranges and peers, in one record (15 R327, 16 R350, 18 R373). -/
def State.collTrap (s : State) (t : TeamTable) (src dst ns nd : Nat) : Option Trap :=
  worseSide (worseSide (s.collSide .read src ns) (s.collSide .write dst nd)) (s.peerTrap t s.my.teamSelf.toNat)

/-- The places of a range that has passed its checks. -/
def State.rangePlaces (s : State) (acc : Acc) (va n : Nat) : List (Place × Nat) :=
  match s.placeAll s.me acc (rangeElems va n) with
  | .ok ps => ps.flatMap fun p => p.parts
  | .error _ => []

/-- The instance that a member's COLL belongs to: the earliest of its team and number that it has not issued. -/
def State.collIndex (s : State) (t : TeamTable) (number : BitVec 16) (m : Nat) : Option Nat :=
  s.pod.colls.findIdx? fun c => c.team == t.id && c.number == number && (c.part m).stage == .absent

/-- A member's part as it issues: what arrived before stays. -/
def MemberPart.begin (p : MemberPart) (h : Hart) (hart op born : Nat) (head : CollHead) (srcAddr dstAddr : Word)
    (src dst : List (Place × Nat)) : MemberPart :=
  { p with stage := .issued, hart := hart, op := op, job := h.jobtag, head := head, srcAddr := srcAddr, dstAddr := dstAddr, src := src, dst := dst
           source := none, marks := h.marks, born := born }

/-- An instance with room for the members of a team. -/
def CollInst.widen (c : CollInst) (h : CollHead) : CollInst :=
  { c with parts := c.parts ++ List.replicate (h.size - c.parts.length) (MemberPart.absent h) }

/-- A COLL issues: INST rises, and the instance takes the member's part. -/
def State.beginColl (s : State) (i : Instr) (h : CollHead) (src dst : Word) (ps ds : List (Place × Nat)) : State :=
  let m := s.my.teamSelf.toNat
  let number := s.my.teamInst + 1
  let old := s.my
  let op := s.opSeq
  let s := (s.upd fun k => { k with teamInst := number }).startOp i old false Flags.none
  let idx := s.collIndex h.team number m
  let at_ := idx.getD s.pod.colls.length
  let s : State := if idx.isSome then s.modColl at_ fun c => c.widen h
    else { s with pod := { s.pod with colls := s.pod.colls ++ [CollInst.widen ⟨h.team.id, number, [], [], none, 0, false⟩ h] } }
  let s := s.modPart at_ m fun p => p.begin s.my s.me op s.history.length h src dst ps ds
  let s : State := match s.coll? at_, s.lostMember h.team with
    | some c, lost => (match c.decided, lost with
      | some (code, l), _ => s.due [.abort at_ m code l]
      | none, some l => s.decide at_ 9 l
      | none, none => s)
    | none, _ => s
  let s := if s.my.collwd = 0 then s else s.due [.collWatchdogExpiry at_ m]
  (s.hold 32 (.contribution at_ m)).retire

/-- A COLL of a kind: its operand checks, its ranges, its peers, then its issue. -/
def collective (i : Instr) (kind : CollKind) (op : RedOp) (root : Nat) (w : Wd) (r : Hart) (s : State) : State :=
  let c := (r.xSrc w.b).toNat
  match s.my.teamValid, s.my.team with
  | true, some t =>
    if t.members.length ≤ root || 2 ^ 32 ≤ c then s.takeTrap valueTrap
    else
      let h : CollHead := ⟨t, kind, op, w.fmt, c, root⟩
      let src := (r.xSrc w.a).toNat
      let dst := (r.xSrc w.d).toNat
      let ns := h.srcCount * h.width
      let nd := h.dstCount * h.width
      let both := rangeElems src ns ++ rangeElems dst nd
      if s.gated then s.block
      else
        let held := s.holdElems s.me both
        match s.collTrap t src dst ns nd with
        | some e => held.takeTrap e
        | none =>
          if held.myCore.stallsAny both then held.block
          else held.beginColl i h (r.xSrc w.a) (r.xSrc w.d) (s.rangePlaces .read src ns) (s.rangePlaces .write dst nd)
  | _, _ => s.takeTrap valueTrap

def execCollAr (op : RedOp) (w : Wd) (x : Xm) (s : State) : Host.Outcome State Fault Refusal :=
  issued (.collAr op w x) s (collective (.collAr op w x) .allReduce op 0 w)

def execCollRs (op : RedOp) (w : Wd) (x : Xm) (s : State) : Host.Outcome State Fault Refusal :=
  issued (.collRs op w x) s (collective (.collRs op w x) .reduceScatter op 0 w)

def execCollAg (w : Wd) (x : Xm) (s : State) : Host.Outcome State Fault Refusal :=
  issued (.collAg w x) s (collective (.collAg w x) .allGather .add 0 w)

def execCollBc (w : Wd) (x : Xm) (s : State) : Host.Outcome State Fault Refusal :=
  issued (.collBc w x) s (collective (.collBc w x) .broadcast .add x.off.toInt.toNat w)

/-! ### The source (09 R256, R257) -/

/-- A member's reads, as requests of its hart at its COLL's place in program order. -/
def MemberPart.reader (p : MemberPart) : Request := engineReader p.hart p.job p.op .engine p.marks p.born

/-- The elements of a member's source, each with later stores to it or without them, as the device chooses. -/
def State.sourceElems (s : State) (p : MemberPart) (bs : List SourceByte) : List Nat :=
  (List.range p.head.srcCount).map fun i => (s.sourceNat p.reader i true ((bs.drop (i * p.head.width)).take p.head.width)).1

/-- The offset of the first byte of a source that a test holds of, and of the first part that a home refuses. -/
def firstOffset (test : Place → Bool) (ps : List (Place × Nat)) : Option Nat :=
  let bytes := ps.flatMap fun q => (List.range q.2).map fun j => q.1.shift j
  bytes.findIdx? test

/-- The member's contribution leaves the core: its source is read, and its pieces are sent (09 R256). A source that is
poisoned, or that a window's home refuses, aborts the instance (19 R400, log 85). -/
def State.contribute (s : State) (i m : Nat) : State :=
  match s.coll? i with
  | none => s
  | some c =>
    let p := c.part m
    if p.stage != .issued || c.decided.isSome then s
    else
      let bs := s.sourceBytes p.reader p.src
      let bad (pl : Place) : Bool := match pl with
        | .window va => (bs.2.windowPoison (dieOf p.hart) p.job va).isSome
        | pl => (s.placePoison (coreOf p.hart) pl).isSome
      let refuses (pl : Place) : Bool := match pl with
        | .window va => (s.homeAddr p.job .read va).toOption.isNone
        | _ => false
      let at_ (n : Nat) : Word := p.srcAddr + Word.ofNat (n / p.head.width * p.head.width)
      match bs.1, firstOffset bad p.src with
      | .error code, _ => bs.2.decide i (BitVec.ofNat 8 code) m (at_ ((firstOffset refuses p.src).getD 0))
      | .ok _, some n => bs.2.decide i 2 m (at_ n)
      | .ok bytes, none =>
        let vs := s.sourceElems p bytes
        let own := if p.head.kind == .reduceScatter then (vs.drop (m * p.head.count)).take p.head.count else vs
        let s := bs.2.modPart i m fun p => { p with
          source := some vs, got := if p.head.eager then p.got ++ [(⟨m, m, 0, 0⟩, own)] else p.got }
        (s.pumpAll i m).checkCombined i m

/-! ### Arrivals and releases (09 R256) -/

/-- A slot's bytes as elements. -/
def elemsOfBytes (width n : Nat) (v : Nat) : List Nat := (List.range (n / width)).map fun i => v / 256 ^ (width * i) % 256 ^ width

/-- An earlier instance of the team still has a piece of the sender in a slot at member m: slots are consumed in the order in
which they were written, which HEAD counts. -/
def State.earlierArrival (s : State) (i m sender : Nat) (team : Word) : Bool :=
  (s.pod.colls.take i).any fun c => c.team == team && c.decided.isNone &&
    c.flying.any fun f => f.piece.sender == sender && f.piece.dest == m

/-- An arrival at member m is combined; it waits in its slot until the member has issued its instance. -/
def State.arrive (s : State) (i m sender : Nat) : State :=
  match s.coll? i with
  | none => s
  | some c =>
    let p := c.part m
    match c.flying.find? fun f => f.piece.sender == sender && f.piece.dest == m with
    | none => s
    | some f =>
      if c.decided.isSome then s.modColl i fun c => { c with flying := c.flying.erase f }
      else if p.stage == .absent || s.earlierArrival i m sender c.team || s.inFlight (dieOf (c.part sender).hart) (globalDie f.slot) then
        s.due [.collArrival i m sender]
      else
        let s := s.modColl i fun c => { c with flying := c.flying.erase f }
        let g := s.homeRead p.job s.standing s.keysPoison f.slot f.bytes
        match g.val, g.poison with
        | .error code, _ => s.areaRefused i p.job p.hart m code f.slot
        | .ok _, some _ => s.areaRefused i p.job p.hart m 2 f.slot
        | .ok v, none =>
          let s := s.modPart i m fun p => { p with got := p.got ++ [(f.piece, elemsOfBytes p.head.width f.bytes v)] }
          (((s.pumpAll i m).checkCombined i m).sendTo (dieOf p.hart) (dieOf (c.part sender).hart) 0).due [.releaseNotice i m sender]

/-- A step of a package that is not frozen (19 R407). -/
def awake (chip : Nat) (s : State) (k : State → State) : Host.Outcome State Fault Refusal :=
  .next (if (s.pkg chip).frozen then s else k s)

/-- The package of a member of an instance, whose blending units serve it. -/
def State.memberChip (s : State) (i m : Nat) : Nat := ((s.coll? i).map fun c => chipOf ((c.part m).head.hartOf m)).getD 0

def execCollArrival (inst m sender : Nat) (s : State) : Host.Outcome State Fault Refusal :=
  awake (s.memberChip inst m) s fun s => s.arrive inst m sender

/-- A release notice advances the sender's HEAD towards member m, and the sender may send again. -/
def State.release (s : State) (i m sender : Nat) : State :=
  match s.coll? i with
  | none => s
  | some c =>
    let p := c.part sender
    if c.decided.isSome then s
    else if s.inFlight (dieOf (c.part m).hart) (dieOf p.hart) then s.due [.releaseNotice i m sender]
    else match s.flow p sender m with
      | .error code => s.areaRefused i p.job p.hart sender code (p.head.flowAddr sender m)
      | .ok (tail, head) => match s.flowCells p sender m tail (if head = tail then head else head + 1) with
        | .error code => s.areaRefused i p.job p.hart sender code (p.head.flowAddr sender m)
        | .ok fs => State.pump c.team sender m 17 (s.storeArea p (p.head.flowAddr sender m) fs)

def execReleaseNotice (inst m sender : Nat) (s : State) : Host.Outcome State Fault Refusal :=
  awake (s.memberChip inst sender) s fun s => s.release inst m sender

/-! ### READY, COMMIT and ABORT (18 R385 to R388) -/

/-- The header that READY carries. -/
def CollHead.header (h : CollHead) : Nat × CollKind × RedOp × Fmt × Nat × Nat := (h.size, h.kind, h.op, h.fmt, h.count, h.root)

/-- The coordinator holds the member's READY. -/
def MemberStage.isReady (m : MemberStage) : Bool := m == .ready || m == .dropped true

/-- The lowest-indexed member whose READY carries a header unlike member 0's (18 R386). -/
def CollInst.mismatch (c : CollInst) : Option Nat :=
  if !(c.part 0).stage.isReady then none
  else (List.range c.parts.length).find? fun m => (c.part m).stage.isReady && (c.part m).head.header != (c.part 0).head.header

/-- READY of a member, once it is on its way, is held by the coordinator. -/
def MemberStage.taken (m : MemberStage) : MemberStage := if m == .dropped false then .dropped true else .ready

/-- An access of a hart from before an operation has not been performed for every agent: one of its own, or a store of its
core that it may have read (05 R127, R136). -/
def State.owesBefore (s : State) (h op : Nat) : Bool :=
  (s.net.any fun r => r.id < op && (r.hart == h || s.waitsStore h r))
    || (s.core (coreOf h)).cellar.any fun e => e.seq < op && (e.hart == h || s.waitsEntry .all h true e)

/-- READY of member m reaches the coordinator, after the accesses before the member's COLL (05 R136). -/
def State.readyAt (s : State) (i m : Nat) : State :=
  match s.coll? i with
  | none => s
  | some c =>
    let p := c.part m
    let from_ := dieOf p.hart
    let dest := s.coordinator c
    if p.stage != .combined && p.stage != .dropped false then s
    else if !s.reaches from_ dest || s.inFlight from_ dest || s.owesBefore p.hart p.op then s.due [.ready i m]
    else
      let s := s.modPart i m fun p => { p with stage := p.stage.taken }
      match s.coll? i with
      | none => s
      | some c => match c.mismatch with
        | some q => s.decide i 8 q
        | none =>
          if c.decided.isNone && !c.commitSent && c.parts.all fun p => p.stage.isReady then
            let ms := List.range c.parts.length
            ((s.modColl i fun c => { c with commitSent := true }).sendMembers c ms).due (ms.map fun m => .commit i m)
          else s

def execReady (inst m : Nat) (s : State) : Host.Outcome State Fault Refusal :=
  awake (s.memberChip inst m) s fun s => s.readyAt inst m

/-- A store of the member's hart to the destination, or of an engine for it, has not been performed yet. -/
def State.destBusy (s : State) (p : MemberPart) : Bool :=
  let runs := p.dst.flatMap fun q => s.placeRuns p.job .write q.1 q.2
  ((s.core (coreOf p.hart)).cellar.any fun e => e.hart == p.hart && (match e.kind with
    | .store cells _ _ => cells.any fun x => runs.any fun r => r.1 ≤ x.1 && x.1 < r.1 + r.2
    | _ => false))
    || s.olderTouches p.hart s.opSeq (fun _ => true) runs

/-- Consecutive bytes as accesses of elements of so many bytes where they are aligned, else of single bytes (05 R125). -/
def elemAccesses (width a : Nat) (bs : List Byte) : List (List Host.Cell) :=
  let n := if a % width = 0 then width else 1
  (List.range (bs.length / n)).map fun i => cellsAt (a + i * n) ((bs.drop (i * n)).take n)

/-- Elements of so many bytes written where they lie by the blending units of a die. -/
def State.writeBlend (s : State) (d width : Nat) (p : Place) (bs : List Byte) : State :=
  match p with
  | .spad c off => s.spadWrite (some (deviceHart d)) false none [] c (elemAccesses width off bs)
  | .mem k mt => (elemAccesses width k bs).foldl (fun s g => s.storeHome { Writer.engine d with hint := mtHint mt .engine } g) s
  | _ => s

/-- Places and their bytes, in order. -/
def alongPlaces : List (Place × Nat) → List Byte → List (Place × List Byte)
  | [], _ => []
  | q :: rest, bs => (q.1, bs.take q.2) :: alongPlaces rest (bs.drop q.2)

/-- The destination written in full (09 R256, 04 R104). -/
def State.writeDest (s : State) (p : MemberPart) (vs : List Nat) : State :=
  (alongPlaces p.dst (vs.flatMap (bytesOfNat p.head.width))).foldl (fun s q =>
    s.writeBlend (dieOf p.hart) p.head.width q.1 q.2) s

/-- A survivor, member m of a team, can reach no other survivor: it holds its instances unresolved (18 R385). -/
def State.isolated (s : State) (t : TeamTable) (m : Nat) : Bool :=
  let dieAt (k : Nat) : Nat := dieOf (((t.members[k]?).map fun x => x.hart).getD 0)
  let others := (List.range t.members.length).filter fun k => k ≠ m && !s.pod.lost.contains (dieAt k)
  !others.isEmpty && others.all fun k => !s.reaches (dieAt m) (dieAt k)

/-- A release notice for a slot that member m of an instance filled is still to advance its HEAD, which comes before its
completion (09 R256). -/
def State.awaitsRelease (s : State) (i m : Nat) : Bool :=
  s.agenda.any fun e => match e with
    | .releaseNotice j _ q => j == i && q == m
    | _ => false

/-- COMMIT reaches member m: a saved gang's waits for its resumption, and the hart's own stores to the destination are
overwritten (09 R257, 17 R361). What a WAIT on the counter covers is seen from then on (05 R136). -/
def State.commitAt (s : State) (i m : Nat) : State :=
  match s.coll? i with
  | none => s
  | some c =>
    let p := c.part m
    let from_ := s.coordinator c
    if p.stage != .ready then s
    else if p.saved || s.destBusy p || s.awaitsRelease i m || s.isolated p.head.team m || !s.reaches from_ (dieOf p.hart) || s.inFlight from_ (dieOf p.hart) then s.due [.commit i m]
    else
      let s := (s.writeDest p (p.result m)).modPart i m fun p => { p with stage := .committed }
      (s.performed p.hart p.op s.history.length).land p.hart p.op

def execCommit (inst m : Nat) (s : State) : Host.Outcome State Fault Refusal :=
  awake (s.memberChip inst m) s fun s => s.commitAt inst m

/-- The device sets HEAD := TAIL in a block of a member (18 R387); a refusal is logged at its home (18 R377). -/
def State.drainFlow (s : State) (p : MemberPart) (m peer : Nat) : State :=
  let a := p.head.flowAddr m peer
  let refused (code : Nat) : State := s.logRefusal (globalDie a) p.job (dieOf p.hart) false code a
  match s.flow p m peer with
  | .error code => refused code
  | .ok (tail, _) => match s.flowCells p m peer tail tail with
    | .ok fs => s.storeArea p a fs
    | .error code => refused code

/-- An abort decision reaches member m, which holds its instance unresolved while the coordinator is out of reach. The status
names the destination, or for a refusal the first element refused (18 R371, R385, R387, R388). -/
def State.abortAt (s : State) (i m : Nat) (code : BitVec 8) (lost : Nat) : State :=
  match s.coll? i with
  | none => s
  | some c =>
    let p := c.part m
    if !p.stage.open then s
    else if p.saved || s.isolated p.head.team m || !s.reaches (s.coordinator c) (dieOf p.hart) then s.due [.abort i m code lost]
    else
      let collst : Word := Word.ofNat (c.number.toNat * 2 ^ 48 + lost % 2 ^ 10 * 2 ^ 32 + code.toNat)
      let s := (List.range p.head.size).foldl (fun s q => s.drainFlow p m q) s
      let s := s.modPart i m fun p => { p with stage := .aborted }
      let s := (s.modHart p.hart fun h => { h with collst := collst }).logFor p.hart (.aborted collst)
      (s.noteStatus p.hart p.op { elem := 0, code := 0x12, sub := code.toNat, eaddr := if code.toNat < 8 then c.refused else p.dstAddr }).land p.hart p.op

def execAbort (inst m : Nat) (code : BitVec 8) (lost : Nat) (s : State) : Host.Outcome State Fault Refusal :=
  awake (s.memberChip inst m) s fun s => s.abortAt inst m code lost

/-- The watchdog of member m asks the coordinator, once it can reach it: that commits if it has, and otherwise aborts, naming
the lowest-indexed member whose READY is missing (18 R386). -/
def State.watchdogAt (s : State) (i m : Nat) : State :=
  match s.coll? i with
  | none => s
  | some c =>
    if !(c.part m).stage.open then s
    else if !s.reaches (dieOf (c.part m).hart) (s.coordinator c) then s.due [.collWatchdogExpiry i m]
    else match (List.range c.parts.length).find? fun q => !(c.part q).stage.isReady with
      | some q => s.decide i 0xA q
      | none => s

def execCollWatchdogExpiry (inst m : Nat) (s : State) : Host.Outcome State Fault Refusal :=
  awake (s.memberChip inst m) s fun s => s.watchdogAt inst m

/-- An instance's messages of one sort that have not arrived are gone. -/
def State.recall (s : State) (gone : Instr → Bool) : State := { s with agenda := s.agenda.filter fun e => !gone e }

/-- What follows for one instance once a die is lost: COMMIT for all if a survivor holds it, ABORT otherwise. A lost
coordinator's COMMITs that had not arrived reach someone or no one, as the device chooses; a lost coordinator's ABORT that
reached no survivor is no decision (18 R385). -/
def State.resolveLost (s : State) (i die : Nat) (before : Nat) : State :=
  match s.coll? i with
  | none => s
  | some c =>
    let t := (c.part 0).head.team
    let alive (m : Nat) : Bool := !s.pod.lost.contains (dieOf (((t.members[m]?).map fun x => x.hart).getD 0))
    let left := (List.range c.parts.length).filter fun m => alive m && (c.part m).stage.open
    let reached (st : MemberStage) : Bool := (List.range c.parts.length).any fun m => alive m && (c.part m).stage == st
    if !(t.members.any fun m => dieOf m.hart == die) || left.isEmpty || (c.decided.isSome && (before != die || reached .aborted)) then s
    else
      let some_ := c.commitSent && (before != die || s.pick (.inDoubt i) 2 = 0)
      let s := s.recall fun e => match e with
        | .commit j _ | .abort j _ _ _ => j == i
        | _ => false
      if reached .committed || some_ then (s.sendMembers c left).due (left.map fun m => .commit i m)
      else (s.modColl i fun c => { c with commitSent := false, decided := none }).decide i 9 ((s.lostMember t).getD 0)

/-- A die is declared lost (18 R385). -/
def State.loseDie (s : State) (die : Nat) : State :=
  if s.pod.lost.contains die then s
  else
    let t := { s with pod := { s.pod with lost := s.pod.lost ++ [die] } }
    ((List.range s.pod.colls.length).zip s.pod.colls).foldl (fun t c => t.resolveLost c.1 die (s.coordinator c.2)) t

def execMemberLost (die : Nat) (s : State) : Host.Outcome State Fault Refusal := .next (s.loseDie die)

end Sys2Proof.Machine
end

