-- ==== Sys2Proof/Machine/KeyPage.lean ====
section
/-! DEFINITION. Key pages: KAPP with its step at the page's home, and KBND on the Sommelier (09 R258 to R261, 16 R335,
R337, R348, 19 R400). -/
namespace Sys2Proof.Machine

/-! ### Pages (09 R258) -/

/-- Channels of a channel code. -/
def channels (dc : Nat) : Nat := 64 * 2 ^ dc

/-- The stride of pages. -/
def pageStride (dc : Nat) : Nat := (0x40 + 132 * channels dc + 255) / 256 * 256

def keyTrap (sub : Nat) (ea : Word) : Trap := { code := 0x0D, sub := sub, eaddr := ea }

/-! ### KAPP (09 R259, 16 R337) -/

/-- The page's header as one element. -/
def headerElem (va : Nat) : Elem := ⟨0, va, 64, false⟩

/-- The rest of a page that starts at an address, granule by granule, as elements of its request, each with its offset in the
page. A granule that fails is left to the append's step (16 R337). -/
def State.pagePieces (s : State) (va : Nat) : List ReqElem :=
  (rangeElems (va + 0x40) (132 * 256)).filterMap fun e =>
    let off := (e.va + 2 ^ 64 - va) % 2 ^ 64
    match s.placeElem s.me .write e with
    | .ok ⟨_, (p, n) :: _⟩ => some ⟨0, off, p, n, 0, 0, none, va⟩
    | _ => none

def execKapp (w : Wd) (x : Xm) (s : State) : Host.Outcome State Fault Refusal :=
  issued (.kapp w x) s fun r s =>
    let va := (r.xSrc w.a).toNat
    let f := Instr.format (.kapp w x) s.my
    if va % 256 ≠ 0 then s.takeTrap (keyTrap 3 (Word.ofNat va))
    else s.reach (.kapp w x) .write [headerElem va] (fun _ => 32) fun ps s =>
      match ps.flatMap fun p => p.parts with
      | [] => s.block
      | d :: _ =>
        let id := s.opSeq
        let es : List ReqElem := ⟨0, 0, d.1, 64, 0, va, none, va⟩ ::
          ((List.range 256).map fun c => ⟨c, 0, .window 0, 0, r.srcElem w.b f c, 0, none, va⟩) ++ s.pagePieces va
        let s := s.startOp (.kapp w x) s.my false Flags.none
        (s.holdRequest 32 { s.request s.opSeq id (.keyAppend f) es .nowhere with hint := x.hint }).retire

/-- Why a part of a page cannot be reached at its home: a home's refusal, or a failure with its code and SUB; and the first
address that fails. -/
structure PageFail where
  refused : Bool
  code : Nat
  sub : Nat
  va : Nat

/-- Translations of a part of a page at its home: the cells' places, or the failure. A refusal in the global window has
the status of its code (18 R371). -/
def State.pagePlaces (s : State) (r : Request) (va n : Nat) : Except PageFail (List (Place × Nat)) :=
  let part (e : Elem) : Except PageFail (List (Place × Nat)) :=
    if 2 ^ 63 ≤ e.va then match s.spaceKey r .write e.va with
      | .ok p => .ok [(p, e.bytes)]
      | .error code => .error ⟨true, 0x12, code, e.va⟩
    else match s.placeElem r.hart .write e with
      | .ok p => .ok p.parts
      | .error errs => .error ⟨false, (worstErr errs).code, (worstErr errs).sub, e.va⟩
  ((rangeElems va n).mapM part).map List.flatten

/-- SUB of the page fault that a walk for a home's refusal ends in. -/
def State.walkSub (s : State) (job : BitVec 12) (va : Nat) : Nat :=
  match s.homeFresh job va with
  | .walked (.fault sub) => sub
  | _ => 3

/-- The failure of a page beyond its first 64 bytes keeps the code of an access: where the home finds no window for the job,
or refuses the page, a page fault; where it refuses the leaf's type, an access fault (16 R335, log 81). -/
def State.pageRest (s : State) (job : BitVec 12) (f : PageFail) : PageFail :=
  if !f.refused then f
  else if f.sub = 2 then { f with code := 0x0F, sub := s.walkSub job f.va }
  else { f with code := if f.sub = 1 then 0x0F else 0x0E, sub := if f.sub = 1 then 1 else 4 }

/-- Bytes of places as they stand at their homes. -/
def State.placesNat (s : State) (ps : List (Place × Nat)) : Nat :=
  natOfBytes (ps.flatMap fun q => (List.range q.2).map fun i => s.standingAt (q.1.shift i))

/-- A poisoned granule among places, at their homes. -/
def State.placesPoison (s : State) (c : Nat) (ps : List (Place × Nat)) : Bool :=
  ps.any fun q => (List.range q.2).any fun j => match q.1.shift j with
    | .mem k _ => (s.keyPoison k 1).isSome
    | p => (s.placePoison c p).isSome

/-- Bytes over places. -/
def spreadBytes (ps : List (Place × Nat)) (bs : List Byte) : List (Place × Byte) :=
  (ps.flatMap fun q => (List.range q.2).map fun i => q.1.shift i).zip bs

/-- Elements of two bytes. -/
def halves (n v : Nat) : List Nat := (List.range n).map fun i => v / 2 ^ (16 * i) % 2 ^ 16

def halfBytes (vs : List Nat) : List Byte := vs.flatMap (bytesOfNat 2)

/-- A key's element rounded to bf16. -/
def roundKey (f : Fmt) (rm : Rm) (v : Nat) : Nat := (roundVal (fpFmt .bf16) rm (elemVal f v)).1

/-- The three rewritten parts of a page: the token's key, the minima and the maxima (09 R259). -/
def appendKey (f : Fmt) (q lo hi : List Nat) : List Nat × List Nat × List Nat :=
  (q.map (roundKey f .rne),
    List.zipWith (fun m v => (minMaxElem false .bf16 m (roundKey f .rdn v)).1) lo q,
    List.zipWith (fun m v => (minMaxElem true .bf16 m (roundKey f .rup v)).1) hi q)

/-- A key append that failed: logged where a home refused, and its status left (16 R335, 18 R377). -/
def State.failPage (s : State) (r : Request) (at_ f : PageFail) : State :=
  (if at_.refused then s.noteRefusal r ⟨at_.sub, at_.va⟩ else s).closeRequest
    (r.fail 0 f.code f.sub (Word.ofNat f.va) (if f.code = 0x12 then 0 else Acc.write.code))

/-- The append at the page's home: one indivisible step. -/
def State.keyAppend (s : State) (r : Request) (f : Fmt) : State :=
  let va := (r.elems.head?.map fun e => e.cmp).getD 0
  let page := Word.ofNat va
  let c := coreOf r.hart
  match s.pagePlaces r va 64 with
  | .error e => s.failPage r e e
  | .ok hd =>
    let head := s.placesNat hd
    let t := head / 2 ^ 64 % 2 ^ 16
    let dc := head / 2 ^ 80 % 256
    let lost : PageFail := ⟨true, 0x12, 2, va⟩
    if s.placesPoison c hd then s.failPage r lost lost
    else if 2 < dc then s.closeRequest (r.fail 0 0x0D 1 page)
    else if 64 ≤ t then s.closeRequest (r.fail 0 0x0D 2 page)
    else
      let d := channels dc
      let q := ((r.elems.tail).map fun e => e.data).take d
      match s.pagePlaces r (va + 0x40) (2 * d), s.pagePlaces r (va + 0x40 + 2 * d) (2 * d),
        s.pagePlaces r (va + 0x40 + 4 * d + 2 * d * t) (2 * d) with
      | .ok pl, .ok ph, .ok pk =>
        if s.placesPoison c pl || s.placesPoison c ph then s.failPage r lost lost
        else
          let n := appendKey f q (halves d (s.placesNat pl)) (halves d (s.placesNat ph))
          (s.spaceStore r (((spreadBytes hd (bytesOfNat 8 0 ++ bytesOfNat 2 (t + 1))).drop 8) ++ spreadBytes pk (halfBytes n.1)
            ++ spreadBytes pl (halfBytes n.2.1) ++ spreadBytes ph (halfBytes n.2.2))).stepDone r
      | .error e, _, _ | _, .error e, _ | _, _, .error e => s.failPage r e (s.pageRest r.job e)

/-- The step of a key append at its home. -/
def State.keyStep (s : State) (req : Nat) : State :=
  match s.request? req with
  | none => s
  | some r => match r.kind with
    | .keyAppend f => if s.asleep r then s else if r.elems.any (s.flying r) || s.heldBack r then s.due [.keyPageAppendAtHome req] else s.keyAppend r f
    | _ => s

def execKeyPageAppendAtHome (req : Nat) (s : State) : Host.Outcome State Fault Refusal := .next (s.keyStep req)

/-! ### KBND (09 R261, 16 R348) -/

/-- A term of a bound: the larger product with the channel's extremes, rounded up. -/
def boundTerm (f : Fmt) (q lo hi : Nat) : Nat :=
  let v := elemVal f q
  if v.isZero then 0
  else
    let prod (m : Nat) : Nat := (finishFp .fp32 .rup (mulVal v (elemVal .bf16 m))).1
    (minMaxElem true .fp32 (prod hi) (prod lo)).1

/-- The bound of a page from its extremes, as fp32 bits. -/
def pageBound (f : Fmt) (q lo hi : List Nat) : Nat :=
  let s := (q.zip (lo.zip hi)).foldl (fun acc t => (addElem .rup .fp32 acc (boundTerm f t.1 t.2.1 t.2.2)).1) 0
  if isNanElem .fp32 s then (fpFmt .fp32).infCode else s

/-- The bound of a page from the bytes of its header and its extremes; none for a page that is not selected. -/
def boundOf (f : Fmt) (q : List Nat) (dc v : Nat) : Option Nat :=
  let d := channels dc
  if v / 2 ^ 64 % 2 ^ 16 = 0 || v / 2 ^ 80 % 256 ≠ dc then none
  else some (pageBound f (q.take d) (halves d (v / 2 ^ 512)) (halves d (v / 2 ^ (512 + 16 * d))))

/-- Bytes of a page that a bound reads. -/
def boundBytes (dc : Nat) : Nat := 0x40 + 4 * channels dc

/-- A bound stands above another, equal bounds going to the lower page. -/
def bestBefore (a b : Nat × Nat) : Bool :=
  match cmpVal (elemVal .fp32 a.2) (elemVal .fp32 b.2) with
  | .gt => true
  | .lt => false
  | .eq => a.1 ≤ b.1

def insertBest (a : Nat × Nat) : List (Nat × Nat) → List (Nat × Nat)
  | [] => [a]
  | b :: rest => if bestBefore a b then a :: b :: rest else b :: insertBest a rest

/-- The selected pages, ascending (09 R261). -/
def selectPages (best : Bool) (limit : Nat) (bounds : List (Nat × Nat)) : List Nat :=
  if best then
    let top := ((bounds.foldr insertBest []).take limit).map fun p => p.1
    (bounds.map fun p => p.1).filter top.contains
  else
    let t := elemVal .fp32 (limit % 2 ^ 32)
    (bounds.filter fun p => !t.isNan && cmpVal (elemVal .fp32 p.2) t != .lt).map fun p => p.1

/-- The list is written to the scratchpad, as of the cycle at which the KBND retired (19 R392), and the count to the
register, which acquires the list and what the Sommelier has read (05 R132). -/
def State.finishBound (s : State) (h op list : Nat) (d : Operand) (read : List (Nat × Nat)) (pages : List Nat) : State :=
  let c := coreOf h
  let bytes := pages.flatMap (bytesOfNat 4)
  let cycle := (((s.hart h).ops.find? fun o => o.id == op).map fun o => o.cycle).getD (s.core c).clock
  let s := if bytes.isEmpty then s else s.holdSpadAt h true cycle (undoSize [bytes.length]) [] (elemAccesses 4 list bytes) none
  let s := s.note h (read ++ s.nowAt ((Place.spad c list).keys bytes.length))
  (s.deliver h op (.scalar d .raw) 0 0 8 pages.length none).performed h op s.history.length

/-- KBND's checks: the channel code and the list (16 R348). -/
def Hart.listTrap (h : Hart) : Option Trap :=
  let off := h.kplist.toNat - Config.scratchBase
  if h.kpDc = 3 then some (keyTrap 4 h.kplist)
  else if h.kplist.toNat < Config.scratchBase || !h.reserves off then some (keyTrap 5 h.kplist)
  else if h.resOff + h.resSize < off + 4 * h.kpPages.toNat then some (keyTrap 6 h.kplist)
  else none

/-- The places of a page's header and extremes for the Sommelier. -/
def State.boundParts (s : State) (r : Request) (e : ReqElem) : Option (List (Place × Nat)) :=
  match e.at_ with
  | .global va => some [(.global va, e.bytes)]
  | _ => s.rangeParts r.hart .read e.va e.bytes

/-- A request has read some locations: those that have changed since its hart's marks stay known to it (05 R132). -/
def State.noteRead (s : State) (r : Request) (at_ : List (Nat × Nat)) : State :=
  let changed := (s.reached (coreOf r.hart) (at_.map fun x => x.1) (s.hart r.hart).marks.least).map fun e => e.2.key
  s.modRequest r.id fun q => { q with marks := { q.marks with
    told := joinSeen q.marks.told (dedup (at_.filter fun x => changed.contains x.1)) } }

/-- One page of a KBND read, at its home or in the local space; a page whose read is refused is not selected (16 R348). -/
def State.boundPage (s : State) (r : Request) (e : ReqElem) : State :=
  match r.kind, r.dest, s.boundParts r e with
  | .bound q f dc _ _ _, .bounds d done, some ps =>
    let g := s.engineRead r ps
    match g.1.val, g.1.poison with
    | .error code, _ => g.2.modRequest r.id fun r => r.fail e.idx 0x12 code (Word.ofNat e.va)
    | .ok _, some _ => g.2.modRequest r.id fun r => r.fail e.idx 0x12 2 (Word.ofNat e.va)
    | .ok v, none => (g.2.noteRead r g.1.at_).modRequest r.id fun r =>
        match boundOf f q dc v with
        | some b => { r with dest := .bounds d (done ++ [(e.idx, b)]) }
        | none => r
  | _, _, none => s.modRequest r.id fun r => r.fail e.idx 0x12 2 (Word.ofNat e.va)
  | _, _, _ => s

/-- The pages in ascending order. -/
def insertPage (a : Nat × Nat) : List (Nat × Nat) → List (Nat × Nat)
  | [] => [a]
  | b :: rest => if a.1 ≤ b.1 then a :: b :: rest else b :: insertPage a rest

/-- The pages that a KBND whose pages have all been read or lost selects. -/
def Request.selected (r : Request) : List Nat :=
  match r.kind, r.dest with
  | .bound _ _ _ best limit _, .bounds _ done => selectPages best limit (done.foldr insertPage [])
  | _, _ => []

/-- Such a KBND ends. -/
def State.boundEnd (s : State) (r : Request) : State :=
  match r.kind, r.dest with
  | .bound _ _ _ _ _ list, .bounds d _ => s.finishBound r.hart r.op list d r.marks.told r.selected
  | _, _ => s

/-- The undo record of its list has no room in the cellar (04 R117). -/
def State.boundFull (s : State) (r : Request) : Bool :=
  !r.selected.isEmpty && !(s.core (coreOf r.hart)).cellarFits (undoSize [4 * r.selected.length])

/-- The pages of an array as elements of a request: each with where it begins. -/
def State.boundElems (s : State) (base dc n : Nat) : List ReqElem :=
  (List.range n).map fun k =>
    let va := (base + k * pageStride dc) % 2 ^ 64
    ⟨k, 0, ((s.placeOf s.me .read va).toOption).getD (.global va), boundBytes dc, 0, 0, none, va⟩

/-- KBND retires, a release at core scope, and the Sommelier reads the pages one after another (05 R132). -/
def execKbnd (w : Wd) (x : Xm) (s : State) : Host.Outcome State Fault Refusal :=
  issued (.kbnd w x) s fun r s =>
    let i : Instr := .kbnd w x
    let h := s.my
    let f := Instr.format i h
    match h.listTrap with
    | some t => s.takeTrap t
    | none =>
      let dc := h.kpDc.toNat
      let base := h.kpbase.toNat
      let n := h.kpPages.toNat
      let q := (List.range (channels dc)).map (r.srcElem w.a f)
      let kind : ReqKind := .bound q f dc h.kpMode (r.xSrc w.b).toNat (h.kplist.toNat - Config.scratchBase)
      if s.owes .all .core then s.block
      else s.reach i .read (rangeElems base (n * pageStride dc)) (fun _ => 0) fun _ s =>
        let reads := (List.range n).flatMap fun k => rangeElems (base + k * pageStride dc) (boundBytes dc)
        match (s.placeAll s.me .read reads).toOption.bind s.lostTrap with
        | some t => s.takeTrap t
        | none =>
          let id := s.opSeq
          let es := s.boundElems base dc n
          let s := s.startOp i h false Flags.none
          (s.sendRequest { s.request s.opSeq id kind es (.bounds w.d []) with ordered := true, hint := x.hint }).retire

end Sys2Proof.Machine
end

