-- ==== Sys2Proof/Machine/Scalar.lean ====
section
/-! DEFINITION. Scalar integer, multiply and divide, compare, constants, LEA, predicates, branches, vector length and
hardware loops: MAJ 0x00 to 0x09 (07 R172 to R187, 02 R26). -/
namespace Sys2Proof.Machine

/-! ### Shared forms -/

/-- A fixed-latency scalar result: written with l0, and the word retires (07 R172). -/
def State.scalarResult (s : State) (d : Operand) (v : Word) : State := (s.upd fun h => h.putX d v).retire

/-- A word that computes d from a and b. -/
def execBinary (i : Instr) (w : Wd) (f : Word → Word → Word) (s : State) : Host.Outcome State Fault Refusal :=
  issued i s fun r s => s.scalarResult w.d (f (r.xSrc w.a) (r.xSrc w.b))

/-- A word that computes d from a. -/
def execUnary (i : Instr) (w : Wd) (f : Word → Word) (s : State) : Host.Outcome State Fault Refusal :=
  issued i s fun r s => s.scalarResult w.d (f (r.xSrc w.a))

/-- An interlocked word that computes d from a and b (07 R174). -/
def execSlow (i : Instr) (w : Wd) (f : Word → Word → Word) (s : State) : Host.Outcome State Fault Refusal :=
  issued i s fun r s => (s.upd fun h => h.putX w.d (f (r.xSrc w.a) (r.xSrc w.b))).retireOp i s.my Flags.none

/-! ### Scalar integer (07 R173) -/

def execAdd (w : Wd) (s : State) := execBinary (.add w) w (fun a b => a + b) s
def execSub (w : Wd) (s : State) := execBinary (.sub w) w (fun a b => a - b) s
def execAnd (w : Wd) (s : State) := execBinary (.and w) w (fun a b => a &&& b) s
def execOr (w : Wd) (s : State) := execBinary (.or w) w (fun a b => a ||| b) s
def execXor (w : Wd) (s : State) := execBinary (.xor w) w (fun a b => a ^^^ b) s
def execAndn (w : Wd) (s : State) := execBinary (.andn w) w (fun a b => a &&& ~~~b) s
def execShl (w : Wd) (s : State) := execBinary (.shl w) w (fun a b => a <<< (b.toNat % 64)) s
def execShr (w : Wd) (s : State) := execBinary (.shr w) w (fun a b => a >>> (b.toNat % 64)) s
def execShra (w : Wd) (s : State) := execBinary (.shra w) w (fun a b => a.sshiftRight (b.toNat % 64)) s
def execRot (w : Wd) (s : State) := execBinary (.rot w) w (fun a b => a.rotateRight (b.toNat % 64)) s
def execMin (w : Wd) (s : State) := execBinary (.min w) w (fun a b => if a.slt b then a else b) s
def execMax (w : Wd) (s : State) := execBinary (.max w) w (fun a b => if a.slt b then b else a) s
def execMinn (w : Wd) (s : State) := execBinary (.minn w) w (fun a b => if a.ult b then a else b) s
def execMaxn (w : Wd) (s : State) := execBinary (.maxn w) w (fun a b => if a.ult b then b else a) s

/-- SEL: a if c is nonzero, else b. -/
def execSel (w : Wd) (c : Operand) (rm : Rm) (s : State) : Host.Outcome State Fault Refusal :=
  issued (.sel w c rm) s fun r s => s.scalarResult w.d (if r.xSrc c ≠ 0 then r.xSrc w.a else r.xSrc w.b)

def execMov (w : Wd) (s : State) := execUnary (.mov w) w (fun a => a) s

/-- Leading zeros of a word; 64 for 0. -/
def leadingZeros (a : Word) : Nat := 64 - bitLen a.toNat

/-- Trailing zeros of a number within so many bits. -/
def trailingZerosIn : Nat → Nat → Nat
  | 0, _ => 0
  | n + 1, a => if a % 2 = 1 then 0 else trailingZerosIn n (a / 2) + 1

/-- Set bits among the low bits of a number. -/
def popIn : Nat → Nat → Nat
  | 0, _ => 0
  | n + 1, a => a % 2 + popIn n (a / 2)

def execClz (w : Wd) (s : State) := execUnary (.clz w) w (fun a => Word.ofNat (leadingZeros a)) s
def execCtz (w : Wd) (s : State) := execUnary (.ctz w) w (fun a => Word.ofNat (trailingZerosIn 64 a.toNat)) s
def execPopc (w : Wd) (s : State) := execUnary (.popc w) w (fun a => Word.ofNat (popIn 64 a.toNat)) s

/-- SEXT: a[n−1:0] sign-extended, for n = b[6:0] from 1 to 63; else a (07 R173). -/
def sextFrom (a b : Word) : Word :=
  let n := b.toNat % 128
  if 1 ≤ n && n ≤ 63 then (a <<< (64 - n)).sshiftRight (64 - n) else a

def zextFrom (a b : Word) : Word :=
  let n := b.toNat % 128
  if 1 ≤ n && n ≤ 63 then (a <<< (64 - n)) >>> (64 - n) else a

def execSext (w : Wd) (s : State) := execBinary (.sext w) w sextFrom s
def execZext (w : Wd) (s : State) := execBinary (.zext w) w zextFrom s

/-! ### Multiply and divide (07 R174, R175) -/

def mulHigh (a b : Word) : Word := BitVec.ofInt 64 (a.toInt * b.toInt / 2 ^ 64)
def mulHighN (a b : Word) : Word := Word.ofNat (a.toNat * b.toNat / 2 ^ 64)
def divSigned (a b : Word) : Word := if b = 0 then BitVec.allOnes 64 else BitVec.ofInt 64 (a.toInt.tdiv b.toInt)
def divUnsigned (a b : Word) : Word := if b = 0 then BitVec.allOnes 64 else Word.ofNat (a.toNat / b.toNat)
def remSigned (a b : Word) : Word := if b = 0 then a else BitVec.ofInt 64 (a.toInt.tmod b.toInt)
def remUnsigned (a b : Word) : Word := if b = 0 then a else Word.ofNat (a.toNat % b.toNat)

def execMul (w : Wd) (s : State) := execSlow (.mul w) w (fun a b => a * b) s
def execMulh (w : Wd) (s : State) := execSlow (.mulh w) w mulHigh s
def execMulhn (w : Wd) (s : State) := execSlow (.mulhn w) w mulHighN s
def execDiv (w : Wd) (s : State) := execSlow (.div w) w divSigned s
def execDivn (w : Wd) (s : State) := execSlow (.divn w) w divUnsigned s
def execRem (w : Wd) (s : State) := execSlow (.rem w) w remSigned s
def execRemn (w : Wd) (s : State) := execSlow (.remn w) w remUnsigned s

/-! ### Compare (07 R176) -/

def Cond.holds (c : Cond) (a b : Word) : Bool :=
  match c with
  | .eq => a == b
  | .ne => a != b
  | .lt => a.slt b
  | .ge => !a.slt b
  | .ltu => a.ult b
  | .geu => !a.ult b

def execScmp (c : Cond) (w : Wd) (s : State) :=
  execBinary (.scmp c w) w (fun a b => if Cond.holds c a b then 1 else 0) s

/-- A predicate result (03 R59, R61). -/
def State.predResult (s : State) (d : Operand) (v : BitVec 1024) : State :=
  (s.upd fun h => h.setP (Hart.predOf d) v).retire

def execPcmp (c : Cond) (w : Wd) (s : State) : Host.Outcome State Fault Refusal :=
  issued (.pcmp c w) s fun r s =>
    s.predResult w.d (if Cond.holds c (r.xSrc w.a) (r.xSrc w.b) then BitVec.allOnes 1024 else 0)

/-! ### Constants and LEA (07 R177, R178) -/

/-- The register that LIH, LIT and LOOPVL read and write; a constant in tier K is itself read (log 14). -/
def dValue (r : Hart) (d : Operand) : Word := r.xSrc d

def execLil (w : Wd) (imm : BitVec 24) (s : State) : Host.Outcome State Fault Refusal :=
  issued (.lil w imm) s fun _ s => s.scalarResult w.d (imm.signExtend 64)

def execLih (w : Wd) (imm : BitVec 24) (s : State) : Host.Outcome State Fault Refusal :=
  issued (.lih w imm) s fun r s =>
    let x := dValue r w.d
    s.scalarResult w.d (x.extractLsb' 48 16 ++ imm ++ x.extractLsb' 0 24)

def execLit (w : Wd) (imm : BitVec 24) (s : State) : Host.Outcome State Fault Refusal :=
  issued (.lit w imm) s fun r s =>
    let x := dValue r w.d
    s.scalarResult w.d (imm.extractLsb' 0 16 ++ x.extractLsb' 0 48)

def execLea (w : Wd) (imm : BitVec 24) (s : State) :=
  execBinary (.lea w imm) w (fun a b => a + b + imm.signExtend 64) s

/-! ### Predicates (07 R179) -/

/-- A word that computes a predicate from two. -/
def execPred2 (i : Instr) (w : Wd) (f : BitVec 1024 → BitVec 1024 → BitVec 1024) (s : State) :
    Host.Outcome State Fault Refusal :=
  issued i s fun r s => s.predResult w.d (f (r.pSrc w.a) (r.pSrc w.b))

def execPand (w : Wd) (s : State) := execPred2 (.pand w) w (fun a b => a &&& b) s
def execPor (w : Wd) (s : State) := execPred2 (.por w) w (fun a b => a ||| b) s
def execPxor (w : Wd) (s : State) := execPred2 (.pxor w) w (fun a b => a ^^^ b) s
def execPandn (w : Wd) (s : State) := execPred2 (.pandn w) w (fun a b => a &&& ~~~b) s

def execPnot (w : Wd) (s : State) : Host.Outcome State Fault Refusal :=
  issued (.pnot w) s fun r s => s.predResult w.d (~~~(r.pSrc w.a))

def execPmov (w : Wd) (s : State) : Host.Outcome State Fault Refusal :=
  issued (.pmov w) s fun r s => s.predResult w.d (r.pSrc w.a)

/-- A scalar result computed from a predicate. -/
def execFromPred (i : Instr) (w : Wd) (f : BitVec 1024 → Word) (s : State) : Host.Outcome State Fault Refusal :=
  issued i s fun r s => s.scalarResult w.d (f (r.pSrc w.a))

def execPpop (w : Wd) (s : State) := execFromPred (.ppop w) w (fun a => Word.ofNat (popIn 1024 a.toNat)) s

def execPfirst (w : Wd) (s : State) :=
  execFromPred (.pfirst w) w (fun a => if a = 0 then BitVec.allOnes 64 else Word.ofNat (trailingZerosIn 1024 a.toNat)) s

def execPlast (w : Wd) (s : State) :=
  execFromPred (.plast w) w (fun a => if a = 0 then BitVec.allOnes 64 else Word.ofNat (bitLen a.toNat - 1)) s

def execPsetn (w : Wd) (s : State) : Host.Outcome State Fault Refusal :=
  issued (.psetn w) s fun r s => s.predResult w.d (BitVec.ofNat 1024 (2 ^ min (r.xSrc w.a).toNat 1024 - 1))

/-! ### Branches (07 R180, 06 R159) -/

/-- A branch target: the word's address plus 4 × offset. -/
def branchTarget (pc : Word) (off : BitVec 24) : Word := pc + (off.signExtend 64 <<< 2)

def execBra (w : Wd) (off : BitVec 24) (s : State) : Host.Outcome State Fault Refusal :=
  issued (.bra w off) s fun _ s => s.jumpTo (branchTarget s.my.pc off)

def execCall (w : Wd) (off : BitVec 24) (s : State) : Host.Outcome State Fault Refusal :=
  issued (.call w off) s fun _ s => (s.upd fun h => h.putX w.d (h.pc + 12)).jumpTo (branchTarget s.my.pc off)

def execRet (w : Wd) (s : State) : Host.Outcome State Fault Refusal :=
  issued (.ret w) s fun r s => s.jumpTo (r.xSrc w.a)

def execJmp (w : Wd) (s : State) : Host.Outcome State Fault Refusal :=
  issued (.jmp w) s fun r s => (s.upd fun h => h.putX w.d (h.pc + 12)).jumpTo (r.xSrc w.a)

def execBrc (c : Cond) (w : Wd) (off : BitVec 24) (s : State) : Host.Outcome State Fault Refusal :=
  issued (.brc c w off) s fun r s =>
    if Cond.holds c (r.xSrc w.a) (r.xSrc w.b) then s.jumpTo (branchTarget s.my.pc off) else s.retire

/-! ### Vector length (02 R26, 07 R181, R182) -/

/-- The grant of a gang of so many harts, and this hart's part of it: gvl, and vl. -/
def grantOf (n v gang rank : Nat) : Nat × Nat :=
  let g := min n (gang * v)
  (g, min (g - rank * v) v)

def State.setLength (s : State) (d : Operand) (g : Nat × Nat) : State :=
  (s.upd fun h => { h.putX d (Word.ofNat g.1) with vl := BitVec.ofNat 13 g.2, gvl := BitVec.ofNat 16 g.1 }).retire

def execSetvl (w : Wd) (s : State) : Host.Outcome State Fault Refusal :=
  issued (.setvl w) s fun r s => s.setLength w.d (grantOf (r.xSrc w.a).toNat (elemsPer w.fmt s.myCore.vlmax) 1 0)

def execSetvlg (w : Wd) (s : State) : Host.Outcome State Fault Refusal :=
  issued (.setvlg w) s fun r s =>
    s.setLength w.d (grantOf (r.xSrc w.a).toNat (elemsPer w.fmt s.myCore.vlmax) (2 ^ r.gsz.toNat) r.rank.toNat)

def execLoopvl (w : Wd) (off : BitVec 24) (s : State) : Host.Outcome State Fault Refusal :=
  issued (.loopvl w off) s fun r s =>
    let n := dValue r w.d - r.xSrc w.a
    let t := s.upd fun h => h.putX w.d n
    if (0 : Word).slt n then t.jumpTo (branchTarget s.my.pc off) else t.retire

/-! ### Hardware loops (07 R183, R186) -/

/-- A number above every armed number of an active level. -/
def Hart.nextArmed (h : Hart) : Nat := h.lc.toList.foldl (fun m l => if l.active then max m (l.armed + 1) else m) 1

/-- LOOP. With a count of 0 it passes over its body without a branch, and the end test of its own address still runs
(07 R183 to R185). -/
def execLoop (w : Wd) (endOff : BitVec 20) (lvl : BitVec 2) (s : State) : Host.Outcome State Fault Refusal :=
  issued (.loop w endOff lvl) s fun r s =>
    let n := min (r.xSrc w.a).toNat 0xFFFFFFFF
    let stop := s.my.pc + (endOff.setWidth 64 <<< 2)
    if n = 0 then
      match s.fetchConvoy s.me 4 stop.toNat with
      | .error t => s.takeTrap t
      | .ok ws =>
        let t := (s.upd fun h => { h with
          lc := h.lc.set lvl.toNat { h.lc[lvl.toNat]'lvl.isLt with count := 0, active := false } lvl.isLt }).jumpTo
          (stop + Word.ofNat (12 * ws.length))
        { t with disp := .retired }
    else
      (s.upd fun h => { h with
        lc := h.lc.set lvl.toNat ⟨Word.ofNat n, true, h.nextArmed, h.pc + 12, stop⟩ lvl.isLt }).retire

def execLcrd (w : Wd) (s : State) : Host.Outcome State Fault Refusal :=
  issued (.lcrd w) s fun r s =>
    let n := lvlOf w.a
    s.scalarResult w.d ((r.lc[n.toNat]'n.isLt).count)

def execLcwr (w : Wd) (s : State) : Host.Outcome State Fault Refusal :=
  issued (.lcwr w) s fun r s =>
    let n := lvlOf w.d
    (s.upd fun h => { h with
      lc := h.lc.set n.toNat { h.lc[n.toNat]'n.isLt with count := Word.ofNat (min (r.xSrc w.a).toNat 0xFFFFFFFF) } n.isLt }).retire

end Sys2Proof.Machine
end

