-- ==== Sys2Proof/Machine/System.lean ====
section
/-! DEFINITION. System registers and the system words: MAJ 0x0B (03 R63 to R67, 07 R188 to R193, 02 R24, R32, R51, R53,
R56, 04 R103, R105, R109, 09 R254, R260, 11 R298, 15 R324 to R331, 17 R366, 18 R377, R383, R386, R388, 19 R391, R395,
R404, R405). -/
namespace Sys2Proof.Machine

/-! ### Access (03 R63, R64) -/

/-- Registers that user mode reads as 0. -/
def sysHidden (n : Nat) : Bool :=
  n == 0x021 || (0x028 ≤ n && n ≤ 0x02D) || (0x030 ≤ n && n ≤ 0x033) || 0x200 ≤ n

/-- Registers that user mode writes. -/
def sysUserWrites (n : Nat) : Bool :=
  n == 0 || n == 1 || (3 ≤ n && n ≤ 0x00A) || n == 0x01B || n == 0x01C || n == 0x020 || n == 0x100 || n == 0x102
    || (0x110 ≤ n && n ≤ 0x112)

/-- Registers that are one for each die or package, and that take writes: a write waits in the cellar (19 R391). -/
def sysShared (n : Nat) : Bool :=
  n == 0x02D || n == 0x030 || n == 0x033 || n == 0x200 || n == 0x209 || n == 0x20A || n == 0x313 || n == 0x330 || n == 0x332

/-! ### Registers of a die or package (19 R391) -/

/-- What a write leaves in a shared register. -/
def sharedAfter (n : Nat) (cur v : Word) : Word :=
  if n == 0x02D then v &&& ~~~(0x1F : Word)
  else if n == 0x030 then v &&& 0xFFFFFF
  else if n == 0x033 then v &&& 0x0000FFFFFFF80000
  else if n == 0x200 then v &&& 0xFFFFF
  else if n == 0x20A then (v &&& 0xFFFFFFFF00000000) ||| (cur &&& 0xFFFFFFFF)
  else if n == 0x330 then v &&& 0x0000FFFFFFFF0007
  else v &&& 0x7FFFFFFFFFFFFFFF

/-- csstat with its bits of the engine's present state (17 R366). -/
def Die.csstatNow (k : Die) : Word :=
  (k.csstat &&& ~~~(7 : Word)) ||| (if k.saveQueue.length < 2 then 0 else 4) ||| (if k.frozenOp.isSome then 2 else 0)
    ||| (if k.saveQueue.isEmpty then 0 else 1)

namespace State

/-- A register of a die or package as it stands at home. -/
def sharedReg (s : State) (d n : Nat) : Word :=
  let k := s.die d
  let p := s.pkg (chipOfDie d)
  match n with
  | 0x02D => k.gtbase
  | 0x030 => k.l2ways.setWidth 64
  | 0x033 => k.wdbase
  | 0x200 => p.lbreq.setWidth 64
  | 0x201 => Word.ofNat (p.grantSeq.toNat * 2 ^ 32 + p.grant.toNat)
  | 0x202 => Word.ofNat (s.lightUse (chipOfDie d))
  | 0x208 => k.fbstat
  | 0x209 => k.fbnote
  | 0x20A => k.hrstat
  | 0x20B => k.hraddr
  | 0x310 => k.csstatNow
  | 0x311 => k.csfault
  | 0x312 => k.csgraph
  | 0x313 => k.csnote
  | 0x320 => Word.ofNat (k.l2ret.toNat * 2 ^ 32 + k.hbmsp.toNat * 2 ^ 16 + k.spares.toNat * 2 ^ 8 + k.shrunk.toNat)
  | 0x330 => k.evbase
  | 0x331 => k.evtail
  | 0x332 => k.evnote
  | _ => 0

/-- A shared register as the harts of a core see it: the newest write that their cellar holds (19 R391); csctl reads 0
(17 R366). -/
def sharedSeen (s : State) (c n : Nat) : Word :=
  (s.core c).cellar.foldl (fun v e => match e.kind with
    | .sysWrite m val => if m == n && sysShared n then sharedAfter n v val else v
    | _ => v) (s.sharedReg (dieOfCore c) n)

/-- A write to a shared register performed once it has left the cellar; what it starts is due. -/
def applyShared (s : State) (d n : Nat) (v : Word) : State :=
  let val := sharedAfter n (s.sharedReg d n) v
  match n with
  | 0x02D => (s.modDie d fun k => { k with gtbase := val }).registerTable d
  | 0x030 => s.modDie d fun k => { k with l2ways := val.setWidth 24 }
  | 0x033 => s.modDie d fun k => { k with wdbase := val }
  | 0x200 => s.modPkg (chipOfDie d) fun p => { p with lbreq := val.setWidth 20 }
  | 0x209 => s.modDie d fun k => { k with fbnote := val }
  | 0x20A => s.modDie d fun k => { k with hrstat := val }
  | 0x313 => s.modDie d fun k => { k with csnote := val }
  | 0x314 =>
    if v.getLsbD 0 then match (s.die d).frozenOp with
      | some f => s.dueNew [if f.save then .contextSave d else .contextRestore d]
      | none => s
    else s
  | 0x330 => s.modDie d fun k => { k with evbase := val }
  | 0x332 => s.modDie d fun k => { k with evnote := val }
  | _ => s

end State

/-! ### Registers of a hart and of its core -/

def Core.rstat (c : Core) : Word := Word.ofNat (c.rbCount.toNat * 2 ^ 48 + c.rbLost.toNat * 2 ^ 24 + c.rbCause.toNat * 2 ^ 8)

def Core.retiredCount (c : Core) : Nat := popIn 5 c.retired.toNat

/-- Working lane groups (19 R404). -/
def Core.working (c : Core) : Nat := min 4 (5 - c.retiredCount)

def Core.lgstat (c : Core) : Word :=
  Word.ofNat ((if c.drain then 2 ^ 9 else 0) + c.working * 2 ^ 6 + (if c.retired = 0 then 2 ^ 5 else 0) + c.retired.toNat)

def Hart.gid (h : Hart) : Word := Word.ofNat (h.gangIdx.toNat * 2 ^ 8 + h.gsz.toNat * 2 ^ 3 + h.rank.toNat)

def Hart.prq (h : Hart) : Word :=
  Word.ofNat (h.prqPrio.toNat * 2 ^ 8 + (if h.prqForced then 2 else 0) + (if h.prqReq then 1 else 0))

def Hart.estat (h : Hart) : Word :=
  Word.ofNat ((if h.recSet then 4 else 0) + (if h.exl then 2 else 0) + (if h.pm then 1 else 0))

def Hart.teamst (h : Hart) : Word :=
  Word.ofNat (h.teamInst.toNat * 2 ^ 48 + h.teamNmem.toNat * 2 ^ 32 + h.teamSelf.toNat * 2 + (if h.teamValid then 1 else 0))

def Hart.kpcfg (h : Hart) : Word :=
  Word.ofNat (h.kpPages.toNat * 2 ^ 32 + (if h.kpMode then 16 else 0) + h.kpDc.toNat)

def Hart.frpage (h : Hart) : Word :=
  if (h.frhdr.extractLsb' 48 11).toNat ≤ h.frsel.toNat then 0 else h.frEntries.getD h.frsel.toNat 0

/-- A register of the hart itself. -/
def Hart.sysReg (h : Hart) (n : Nat) : Word :=
  match n with
  | 0x000 => h.vl.setWidth 64
  | 0x001 => h.gvl.setWidth 64
  | 0x003 => h.fflags.setWidth 64
  | 0x004 => h.fxi.iv
  | 0x005 => h.fxi.dz
  | 0x006 => h.fxi.ovf
  | 0x007 => h.fxi.unf
  | 0x008 => h.fxi.nx
  | 0x009 => h.fxi.sat
  | 0x00A => h.fxi.nfs
  | 0x011 => h.gid
  | 0x018 => h.hwgt.setWidth 64
  | 0x019 => h.prq
  | 0x01A => h.ddl.setWidth 64
  | 0x01B => h.yieldmask
  | 0x01C => h.yieldaux.setWidth 64
  | 0x020 => if h.chk then 1 else 0
  | 0x028 => h.epc
  | 0x029 => h.ecause
  | 0x02A => h.eaddr
  | 0x02B => h.estat
  | 0x02C => h.svec
  | 0x031 => h.jobtag.setWidth 64
  | 0x032 => h.ptbase
  | 0x100 => h.teambase
  | 0x101 => h.teamst
  | 0x102 => h.collwd.setWidth 64
  | 0x103 => h.collst
  | 0x110 => h.kpbase
  | 0x111 => h.kpcfg
  | 0x112 => h.kplist
  | 0x300 => h.frhdr
  | 0x301 => h.frsel.setWidth 64
  | 0x302 => h.frpage
  | _ => 0

/-- Registers that are not the hart's own: of its core, its die or its package. -/
def State.otherReg (s : State) (n : Nat) : Word :=
  let c := s.myCore
  match n with
  | 0x002 => Word.ofNat c.vlmax
  | 0x010 => Word.ofNat (hidOf s.me)
  | 0x012 => Word.ofNat (coreOf s.me % 128)
  | 0x013 => Word.ofNat (dieOf s.me % 4)
  | 0x014 => Word.ofNat (chipOf s.me)
  | 0x021 => if c.spmode then 1 else 0
  | 0x02E => c.rstat
  | 0x321 => c.lgstat
  | n =>
    if 0x120 ≤ n && n ≤ 0x127 then (c.racks.toList.getD (n - 0x120) RackChannel.reset).mark
    else s.sharedSeen (coreOf s.me) n

/-- Numbers of registers that the hart holds itself. -/
def sysOwn (n : Nat) : Bool :=
  n ≤ 1 || (3 ≤ n && n ≤ 0x00A) || n == 0x011 || (0x018 ≤ n && n ≤ 0x01C) || n == 0x020 || (0x028 ≤ n && n ≤ 0x02C)
    || n == 0x031 || n == 0x032 || (0x100 ≤ n && n ≤ 0x103) || (0x110 ≤ n && n ≤ 0x112) || (0x300 ≤ n && n ≤ 0x302)

/-- What MFS reads (03 R63, R64). -/
def State.sysRead (s : State) (n : Nat) : Word :=
  if !s.my.sup && sysHidden n then 0 else if sysOwn n then s.my.sysReg n else s.otherReg n

/-- A register of the hart itself written, on a core of so many 32-bit elements (03 R65). Read-only ones keep what they
hold. -/
def Hart.sysWrite (h : Hart) (vm n : Nat) (v : Word) : Hart :=
  let most := 5120 * vm / 256
  match n with
  | 0x000 => { h with vl := BitVec.ofNat 13 (min v.toNat most) }
  | 0x001 => { h with gvl := BitVec.ofNat 16 (min v.toNat (8 * most)) }
  | 0x003 => { h with fflags := v.setWidth 7 }
  | 0x004 => { h with fxi := { h.fxi with iv := v } }
  | 0x005 => { h with fxi := { h.fxi with dz := v } }
  | 0x006 => { h with fxi := { h.fxi with ovf := v } }
  | 0x007 => { h with fxi := { h.fxi with unf := v } }
  | 0x008 => { h with fxi := { h.fxi with nx := v } }
  | 0x009 => { h with fxi := { h.fxi with sat := v } }
  | 0x00A => { h with fxi := { h.fxi with nfs := v } }
  | 0x018 => { h with hwgt := v.setWidth 4 }
  | 0x01A => { h with ddl := v.setWidth 32 }
  | 0x01B => { h with yieldmask := v }
  | 0x01C => { h with yieldaux := v.setWidth 21 }
  | 0x020 => { h with chk := v.getLsbD 0 }
  | 0x028 => { h with epc := v }
  | 0x029 => { h with ecause := v &&& 0xFFFFFF0FFFFF00FF }
  | 0x02A => { h with eaddr := v }
  | 0x02B => { h with exl := v.getLsbD 1, pm := v.getLsbD 0 }
  | 0x02C => { h with svec := v &&& ~~~(3 : Word) }
  | 0x031 => { h with jobtag := v.setWidth 12 }
  | 0x032 => { h with ptbase := v &&& ptbaseMask }
  | 0x102 => { h with collwd := v.setWidth 32 }
  | 0x110 => { h with kpbase := v &&& ~~~(0xFF : Word) }
  | 0x111 => { h with kpPages := v.extractLsb' 32 16, kpMode := v.getLsbD 4, kpDc := v.setWidth 2 }
  | 0x112 => { h with kplist := v &&& ~~~(3 : Word) }
  | 0x301 => { h with frsel := v.setWidth 8 }
  | _ => h

/-- Some gang holds a scratchpad reservation on the core, placed or while it is restored (04 R105). -/
def State.coreReserved (s : State) (c : Nat) : Bool :=
  !(s.heldRanges c).isEmpty || (s.die (dieOfCore c)).handed.any fun g => g.saving && g.core == c && g.resSize != 0

/-- An MTS that its mode allows (03 R64, R65, 07 R188). -/
def State.sysWrite (s : State) (n : Nat) (v : Word) : State :=
  if !s.my.sup && !sysUserWrites n then s
  else if sysShared n then s.hold 32 (.sysWrite n v)
  else if n == 0x021 then
    if s.coreReserved (coreOf s.me) then s else s.setMyCore { s.myCore with spmode := v.getLsbD 0 }
  else
    let s := s.upd fun h => h.sysWrite s.myCore.vlmax n v
    if n == 0x018 then s.setMyCore (s.myCore.limitQuota (hidOf s.me) (v.setWidth 4)) else s

def execMfs (w : Wd) (sys : BitVec 12) (s : State) : Host.Outcome State Fault Refusal :=
  issued (.mfs w sys) s fun _ s => s.scalarResult w.d (s.sysRead sys.toNat)

def execMts (w : Wd) (sys : BitVec 12) (s : State) : Host.Outcome State Fault Refusal :=
  issued (.mts w sys) s fun r s => (s.sysWrite sys.toNat (r.xSrc w.a)).retire

/-- MTS to lbreq (11 R298). -/
def execLightRequest (w : Wd) (s : State) : Host.Outcome State Fault Refusal :=
  issued (.lightRequest w) s fun r s => (s.sysWrite 0x200 (r.xSrc w.a)).retire

/-- MTS to csctl: RETRY waits in the cellar like every write to a register of the die (17 R363, 19 R391). -/
def execCsctlRetry (w : Wd) (s : State) : Host.Outcome State Fault Refusal :=
  issued (.csctlRetry w) s fun r s =>
    if s.my.sup then (s.hold 32 (.sysWrite 0x314 (r.xSrc w.a))).retire else s.retire

/-! ### Calls, returns, breakpoints (02 R56, 07 R189, R191, 15 R319, R331) -/

def execEcall (w : Wd) (imm : BitVec 24) (s : State) : Host.Outcome State Fault Refusal :=
  issued (.ecall w imm) s fun _ s => s.takeTrap { code := ecallCode, imm := imm }

def execBrk (w : Wd) (imm : BitVec 24) (s : State) : Host.Outcome State Fault Refusal :=
  issued (.brk w imm) s fun _ s => s.takeTrap { code := 0x14, imm := imm }

def execEret (w : Wd) (s : State) : Host.Outcome State Fault Refusal :=
  issued (.eret w) s fun _ s => s.returnFromTrap

def execNop (w : Wd) (s : State) : Host.Outcome State Fault Refusal := issued (.nop w) s fun _ s => s.retire

/-! ### EXIT (07 R190) -/

/-- EXIT raises what a counter holds, waits for the counters and for the seal, and frees the hart. -/
def execExit (w : Wd) (s : State) : Host.Outcome State Fault Refusal :=
  issued (.exit w) s fun _ s =>
    match s.my.heldStatus fun _ => true with
    | some st => s.takeTrap st.trap
    | none => if !s.my.ops.isEmpty || s.unsealed then s.block
      else (s.retire.modCore (coreOf s.me) fun k => k.outlast [s.me]).hartExit s.me

/-! ### TLBI (07 R192) -/

/-- The translation covers an address. -/
def TlbEntry.holds (t : TlbEntry) (va : Nat) : Bool := t.base ≤ va && va < t.base + 2 ^ t.size

/-- What a TLBI of a kind drops on a die. -/
def State.invalidate (s : State) (kind : Nat) (a : Word) : State :=
  let c := coreOf s.me
  let d := dieOf s.me
  let drop (all : Bool) (k : Core) : Core := { k with tlb := k.tlb.filter fun t => !(all || t.holds a.toNat) }
  let onDie (all : Bool) : State :=
    { s with cores := s.cores.map fun p => if dieOfCore p.1 = d then (p.1, drop all p.2) else p }
  match kind with
  | 0 => s.modCore c (drop true)
  | 1 => s.modCore c (drop false)
  | 2 => onDie true
  | 3 => onDie false
  | _ => s.modDie d fun k => { k with homeTlb := k.homeTlb.filter fun t => t.1 ≠ a.setWidth 12 }

/-- Stores of the hart that are not yet sealed and performed at their homes. -/
def State.owesStores (s : State) : Bool :=
  (s.net.any fun r => r.hart == s.me && FenceKind.st.covers r.kind)
    || s.myCore.cellar.any fun e => e.hart == s.me && s.waitsEntry .st s.me true e

/-- A place that a local translation has given. -/
def Place.isLocal : Place → Bool
  | .mem _ _ | .dev _ _ | .window _ => true
  | .spad _ _ | .global _ => false

/-- A member of a collective still uses the places of its source or destination (09 R256). -/
def MemberPart.inUse (p : MemberPart) : Bool := p.stage == .issued || p.stage == .combined || p.stage == .ready

/-- An access of some cores that a local translation has placed is still under way. -/
def State.usesLocal (s : State) (covered : Nat → Bool) : Bool :=
  (s.net.any fun r => covered (coreOf r.hart) && r.elems.any fun e =>
    e.at_.isLocal || (e.side.map Place.isLocal).getD false)
    || (s.cores.any fun p => covered p.1 && p.2.cellar.any fun e => match e.kind with
      | .store _ _ _ | .devWrite _ _ _ _ _ _ _ => true
      | _ => false)
    || s.pod.colls.any fun c => c.parts.any fun p =>
      covered (coreOf p.hart) && p.inUse && (p.src ++ p.dst).any fun q => q.1.isLocal

/-- TLBI waits for the hart's stores, drops what its kind names, and ends once no local translation of the cores that it
covers is in use; which pages the accesses under way have used is not told apart (log 80). -/
def execTlbi (w : Wd) (s : State) : Host.Outcome State Fault Refusal :=
  issued (.tlbi w) s fun r s =>
    let kind := match w.b with
      | .const k => k.toNat
      | _ => 0
    let covered (c : Nat) : Bool := if kind ≤ 1 then c == coreOf s.me else kind ≤ 3 && dieOfCore c == dieOf s.me
    if s.owesStores then s.block
    else
      let s := s.invalidate kind (r.xSrc w.a)
      if s.usesLocal covered then s.block else s.retire

/-! ### GRUN (07 R193, 19 R391) -/

/-- GRUN waits as a release at pod scope; its arm then waits in the cellar, and d with it. -/
def execGrun (w : Wd) (s : State) : Host.Outcome State Fault Refusal :=
  issued (.grun w) s fun r s =>
    if s.owes .all .pod then s.block
    else
      let id := s.opSeq
      ((s.startOp (.grun w) s.my false Flags.none).hold 32 (.arm (r.xSrc w.a) w.d id)).retire

end Sys2Proof.Machine
end

