-- ==== Sys2Proof/Machine/Homes.lean ====
section
/-! DEFINITION. Steps of a core and of the homes: the bind, completions, the seal, requests that leave, accesses performed
at a home, and remote signals (02 R31, 04 R111 to R116, 05 R121 to R125, 06 R150, 09 R248 to R252, 10 R284, 17 R369,
R370, 18 R371 to R378, R414, 19 R391, R400). -/
namespace Sys2Proof.Machine

/-! ### Binds and completions (02 R31, 06 R150, 10 R284) -/

/-- The arbiter of a core chooses the hart whose head convoy binds next. -/
def State.bindNext (s : State) (c : Nat) : State :=
  if (s.core c).bound.isSome || (s.core c).underReset || (s.core c).gone then s
  else match s.arbitrate c with
    | none => s
    | some (n, t) => t.modCore c fun k => { k with bound := some (BitVec.ofNat 3 n) }

def execConvoyBind (core : Nat) (s : State) : Host.Outcome State Fault Refusal :=
  awake (core / 512) s fun s => s.bindNext core

/-- An operation of a sort completes, once its result has landed, and no convoy of its hart is under way, which might still be
undone (15 R316). -/
def State.completeOp (s : State) (h op : Nat) (sort : Op → Bool) : State :=
  match (s.hart h).ops.find? fun o => o.id == op with
  | some o =>
    if !sort o then s
    else if (s.hart h).tail.isSome then s.due [State.completion h o]
    else s.finishOp h op
  | none => s

def execCounterFall (h op : Nat) (s : State) : Host.Outcome State Fault Refusal :=
  awake (chipOf h) s fun s => s.completeOp h op fun o => o.ctr.isSome && !o.matrix

def execInterlockedResult (h op : Nat) (s : State) : Host.Outcome State Fault Refusal :=
  awake (chipOf h) s fun s => s.completeOp h op fun o => o.ctr.isNone && !o.matrix

/-- A matrix operation of the hart on one of an operation's accumulators, started before it, has not completed. -/
def Hart.matrixFirst (h : Hart) (op : Nat) : Bool :=
  h.ops.any fun o => o.id == op && h.ops.any fun q => q.matrix && q.id < op && q.regs.any fun r => o.regs.contains r

/-- Matrix operations on one accumulator apply, and complete, in program order (10 R283). -/
def execMatrixOpComplete (h op : Nat) (s : State) : Host.Outcome State Fault Refusal :=
  awake (chipOf h) s fun s =>
    if (s.hart h).matrixFirst op then s.due [.matrixOpComplete h op] else s.completeOp h op fun o => o.matrix

/-! ### The seal (04 R114, R115) -/

/-- An undo record: it needs no leaving, and ends with the seal. -/
def CellarEntry.isUndo (e : CellarEntry) : Bool :=
  match e.kind with
  | .undo _ _ _ => true
  | _ => false

/-- The oldest unsealed entries of a core seal, once their window of 320 cycles has passed without a report. -/
def State.seal (s : State) (c : Nat) : State :=
  match (s.core c).cellar.find? fun e => !e.sealed with
  | none => s
  | some first =>
    let clock := max (s.core c).clock (first.cycle + Config.sealWindow + 1)
    let ripe (e : CellarEntry) : Bool := !e.sealed && Decidable.decide (e.cycle + Config.sealWindow < clock)
    let done := (s.core c).cellar.filter ripe
    let s := s.modCore c fun k => { k with
      clock := clock
      cellar := (k.cellar.filter fun e => !(ripe e && e.isUndo)).map fun e => if ripe e then { e with sealed := true } else e }
    let s := done.foldl (fun s e => if e.isUndo then (match entryOp e with
      | some op => s.settle e.hart op
      | none => s) else s) s
    let s := s.due ((done.filter fun e => !e.isUndo).map fun e => .cellarLeave e.hart)
    if (s.core c).cellar.any fun e => !e.sealed then s.due [.cellarSeal c] else s

def execCellarSeal (core : Nat) (s : State) : Host.Outcome State Fault Refusal :=
  awake (core / 512) s fun s => s.seal core

/-! ### One element performed where it lies (04 R111, 05 R125, 18 R371) -/

namespace State

/-- An element of a request has failed (18 R372). -/
def failElem (s : State) (r : Request) (e : ReqElem) (code : Nat) : State :=
  s.modRequest r.id fun q => q.fail e.idx 0x12 code (Word.ofNat e.va)

/-- A home refuses an element, and logs it (18 R377). -/
def refuseElem (s : State) (r : Request) (e : ReqElem) (code : Nat) : State :=
  (match e.at_ with
    | .global va => s.logRefusal (globalDie va) r.job (fromDie r.hart) false code va
    | _ => s).failElem r e code

/-- Where the element lies in package memory, or the refusal's status. -/
def elemKey (s : State) (r : Request) (acc : Acc) (e : ReqElem) : Except Nat Nat :=
  match e.at_ with
  | .global va => s.homeAddr r.job acc va
  | .mem k _ => .ok k
  | _ => .error 2

/-- The home keeps the translation of an element that it has performed. -/
def holdElem (s : State) (r : Request) (e : ReqElem) : State :=
  match e.at_ with
  | .global va => s.holdHome r.job va
  | _ => s

/-- An access of a request has been performed now. -/
def performedNow (s : State) (r : Request) : State := s.performed r.hart r.op s.history.length

/-- Whose store it is that an element makes where it lies: a held store's core has seen it since it retired (05 R124). -/
def elemWriter (s : State) (r : Request) (e : ReqElem) : Writer :=
  ⟨if r.kind == .store then some (coreOf r.hart) else none, some r.hart, s.hintAt r.job e.at_ r.hint, some r.op, r.rels⟩

/-- Bytes of a request's element stored at their home. -/
def storeElem (s : State) (r : Request) (e : ReqElem) (key : Nat) (bs : List Byte) : State :=
  ((s.storeEach (s.elemWriter r e) (cellsAt key bs)).holdElem r e).performedNow r

/-- One atomic element: read, changed and written in one step (09 R248). What it writes carries the releases of what it read,
which an acquire takes (05 R129). -/
def atomicAt (s : State) (r : Request) (op : AmoOp) (f : Fmt) (e : ReqElem) : State :=
  match s.elemKey r .atomic e with
  | .error code => s.refuseElem r e code
  | .ok key =>
    if (s.keyPoison key e.bytes).isSome then s.refuseElem r e 2
    else
      let old := s.mem.readNat key e.bytes
      let new := amoNew op f old e.data e.cmp
      let keys := (List.range e.bytes).map fun i => key + i
      let chain := s.relsOf outside (s.nowAt keys)
      let w := s.elemWriter r e
      let s := (s.storeHome { w with rels := dedup (r.rels ++ chain) } (cellsAt key (bytesOfNat e.bytes new.1))).holdElem r e
      let s := (s.performedNow r).modRequest r.id fun q => if q.acquire.isSome then { q with heard := dedup (chain ++ q.heard) } else q
      let s := s.note r.hart (s.nowAt keys)
      let s := s.deliver r.hart r.op r.dest e.idx 0 e.bytes old none
      if r.dest.isVector then s.raiseIn r.hart r.op e.idx new.2 else s

/-- One element of a load: what it returned stays seen, and an ordered form's later elements come after it (05 R121,
R122). -/
def loadElem (s : State) (r : Request) (e : ReqElem) : State :=
  let g := s.loadAtHome r e
  match g.1.val with
  | .error code => g.2.failElem r e code
  | .ok v =>
    let s := g.2.deliver r.hart r.op r.dest e.idx e.off e.bytes v g.1.poison
    let s := (s.note r.hart g.1.at_).performed r.hart r.op (g.1.at_.foldl (fun m x => max m x.2) 0)
    if r.ordered then s.modRequest r.id fun q => { q with marks := raiseMarks q.marks g.1.at_ } else s

/-- An element's bytes stored where it lies; of a refused one, none. -/
def putElem (s : State) (r : Request) (e : ReqElem) (data : Nat) : State :=
  match s.elemKey r .write e with
  | .ok key => s.storeElem r e key (bytesOfNat e.bytes data)
  | .error code => s.refuseElem r e code

/-- One part of an RPUT: its source is read, in aligned parts of 8 bytes and single bytes, as its bytes leave. A poisoned source
is refused, and so is one that a window's home refuses or that lies on a die that cannot be reached; the status names its
address (09 R250, 18 R371, R374, 19 R400). -/
def copyOut (s : State) (r : Request) (e : ReqElem) (p : Place) : State :=
  let fails (s : State) (off code : Nat) : State := s.failElem r { e with va := (e.cmp + off) % 2 ^ 64 } code
  let poisoned (s : State) (q : Place) : Bool := match q with
    | .window va => (s.windowPoison (dieOf r.hart) r.job va).isSome
    | q => (s.placePoison (coreOf r.hart) q).isSome
  if (s.linked r.hart p).toOption.isNone then fails s 0 4
  else
    let step (acc : Except Nat (List Byte) × State) (q : Place × Nat) : Except Nat (List Byte) × State :=
      match acc.1 with
      | .error code => (.error code, acc.2)
      | .ok bs =>
        let t := acc.2.sourceBytes r [q]
        (t.1.map fun l => bs ++ bytesOfNat q.2 (t.2.sourceNat r q.1.addr true l).1, t.2)
    let t := (copyParts (p, e.bytes)).foldl step (.ok [], s.crossing (dieOf r.hart) true [(p, e.bytes)])
    match t.1, (List.range e.bytes).find? fun j => poisoned t.2 (p.shift j) with
    | .error code, _ => fails t.2 0 code
    | .ok _, some j => fails t.2 j 2
    | .ok bs, none => t.2.putElem r e (natOfBytes bs)

/-- Bytes written over the local side of an RGET. -/
def writeSide (s : State) (r : Request) (p : Place) (bs : List Byte) : State :=
  let s := s.crossing (dieOf r.hart) false [(p, bs.length)]
  (match p with
    | .spad c off => s.spadWrite (some r.hart) false (some r.op) r.rels c (eights (cellsAt off bs))
    | .mem k mt => s.storeEach ⟨none, some r.hart, mtHint mt r.hint, some r.op, r.rels⟩ (cellsAt k bs)
    | .dev c pa => s.devWrite c pa (Word.ofNat (natOfBytes bs))
    | _ => s).performedNow r

/-- One part of an RGET. A destination on a die that cannot be reached is refused as disconnected (18 R374). -/
def copyIn (s : State) (r : Request) (e : ReqElem) (va : Nat) (p : Place) : State :=
  let g := s.homeRead r.job s.standing s.keysPoison va e.bytes
  match g.val, g.poison with
  | .error code, _ => s.refuseElem r e code
  | .ok _, some _ => s.refuseElem r e 2
  | .ok v, none =>
    let s := (s.readLines (s.hintAt r.job e.at_ r.hint) (((s.homeKeys r.job .read va e.bytes).toOption).getD [])).holdElem r e
    if (s.linked r.hart p).toOption.isNone then s.failElem r { e with va := e.cmp } 4 else s.writeSide r p (bytesOfNat e.bytes v)

/-- One element of a request performed or refused where it lies. -/
def performElem (s : State) (r : Request) (e : ReqElem) : State :=
  match r.kind with
  | .load => s.loadElem r e
  | .store => s.putElem r e e.data
  | .put => (match e.side with
    | some p => s.copyOut r e p
    | none => s)
  | .get => (match e.at_, e.side with
    | .global va, some p => s.copyIn r e va p
    | _, _ => s)
  | .atomic op f => s.atomicAt r op f e
  | .clean | .inval => (match s.elemKey r .read e with
    | .ok key => (s.holdElem r e).handleLines (r.kind == .inval) key e.bytes
    | .error code => s.refuseElem r e code)
  | .bound _ _ _ _ _ _ => s.boundPage r e
  | _ => s

end State

/-! ### Parts of an element (05 R125, R137, 09 R240, R250) -/

/-- Copies are performed in parts, and numbered by their offsets; loads and stores in the accesses that they were cut into. -/
def ReqKind.copies : ReqKind → Bool
  | .put | .get => true
  | _ => false

/-- A copy's element may be performed in two pieces at this byte: no aligned part of 8 bytes is cut, and a device access is
performed once, at its own size. -/
def ReqElem.mayCut (e : ReqElem) (c : Nat) : Bool :=
  let a := e.at_.addr
  let block := (a + c) / 8 * 8
  !e.at_.isDevice && !(e.side.map Place.isDevice).getD false
    && ((a + c) % 8 == 0 || block < a || a + e.bytes < block + 8)

/-- The two pieces of a copy's element. Each has addresses of its own (18 R371). -/
def ReqElem.cut (e : ReqElem) (c : Nat) : ReqElem × ReqElem :=
  ({ e with bytes := c, data := e.data % 2 ^ (8 * c) },
    { e with
      idx := e.idx + c, va := e.va + c, cmp := e.cmp + c, off := e.off + c, at_ := e.at_.shift c, bytes := e.bytes - c
      data := e.data / 2 ^ (8 * c), side := e.side.map fun p => p.shift c })

namespace State

/-- An element waits where it is performed: its flits have not come, an earlier access goes first, or what an RPUT reads is
still to be written by an earlier request of its hart (05 R121, 09 R250). -/
def elemWaits (s : State) (r : Request) (e : ReqElem) : Bool :=
  s.flying r e || s.runsWait r (s.elemRuns r e) || (match r.kind, e.side with
    | .put, some p => s.olderTouches r.hart r.id (fun k => !k.reads && k != .store && k != .put) (s.placeRuns r.job .read p e.bytes)
    | _, _ => false)

/-- Elements of a request that may be performed next: of an ordered form the accesses of the first; of a store none that an
earlier one of the list meets (05 R122). -/
def eligible (s : State) (r : Request) : List ReqElem :=
  let rec later (pre : List (Nat × Nat)) : List ReqElem → List ReqElem
    | [] => []
    | e :: rest =>
      let runs := if r.kind == .store then s.elemRuns r e else []
      (if runsMeet pre runs then [] else [e]) ++ later (pre ++ runs) rest
  let first := r.elems.takeWhile fun e => r.elems.head?.any fun f => f.idx == e.idx
  (later [] (if r.ordered then first else r.elems)).filter fun e => !s.elemWaits r e

/-- A request with no element left ends. -/
def endRequest (s : State) (id : Nat) : State :=
  match s.request? id with
  | none => s
  | some r =>
    if s.boundFull r then s.due [.globalWindowAccessAtHome id]
    else
      let s := match r.kind with
        | .bound _ _ _ _ _ _ => s.boundEnd r
        | _ => s
      (s.acquireFor r).closeRequest r

/-- Bytes of data that an element sends to its home, and that its reply brings. -/
def sentBytes (r : Request) (e : ReqElem) : Nat :=
  match r.kind with
  | .store | .put | .atomic _ _ => e.bytes
  | .queueAppend => if e.bytes = 0 then 4 else 0
  | .keyAppend _ => if e.bytes = 0 then 2 else 0
  | _ => 0
def replyBytes (r : Request) (e : ReqElem) : Nat :=
  match r.kind with
  | .load | .get | .atomic _ _ | .bound _ _ _ _ _ _ => e.bytes
  | _ => 0

/-- The next step of a request at its homes: one element that the device chooses is performed, or is cut in two first. -/
def accessAtHome (s : State) (r : Request) : State :=
  match r.elems, s.eligible r with
  | [], _ => s.endRequest r.id
  | _, [] => s.due [.globalWindowAccessAtHome r.id]
  | _, e0 :: rest =>
    let e := s.pickFrom (.order 0) (e0 :: rest) e0
    let cuts := if r.kind.copies then (List.range e.bytes).filter fun c => 0 < c && e.mayCut c else []
    let n := s.pick (.order 1) (cuts.length + 1)
    if n = 0 then
      let s := s.modRequest r.id fun q => { q with elems := q.elems.erase e }
      let s := s.performElem r e
      let s := match r.elemDie e with
        | some d => s.carry d (fromDie r.hart) (replyBytes r e)
        | none => s
      match s.request? r.id with
      | none => s
      | some q => if q.elems.isEmpty then s.endRequest r.id else s.due [.globalWindowAccessAtHome r.id]
    else
      let c := e.cut (cuts.getD (n - 1) 1)
      (s.modRequest r.id fun q => { q with elems := q.elems.flatMap fun x => if x == e then [c.1, c.2] else [x] }).due
        [.globalWindowAccessAtHome r.id]

end State

def execGlobalWindowAccessAtHome (req : Nat) (s : State) : Host.Outcome State Fault Refusal :=
  .next (match s.request? req with
    | none => s
    | some r => if s.asleep r then s else s.accessAtHome r)

/-! ### Requests that leave a core (04 R114, 18 R374, 19 R391) -/

namespace State

/-- A leaving request's elements to peers that can no longer be reached fail with DISCONNECTED; a work-queue request or
a key append fails whole (18 R374). -/
def disconnect (s : State) (r : Request) : State :=
  let lost := r.elems.filter fun e => match r.elemDie e with
    | some d => !s.reaches (fromDie r.hart) d
    | none => false
  match lost with
  | [] => s
  | e0 :: _ => s.modRequest r.id fun q =>
    let fails (q : Request) : Request := lost.foldl (fun q e => q.fail e.idx 0x12 4 (Word.ofNat e.va)) q
    match r.kind with
    | .queueAppend | .queuePop _ | .queueLen | .keyAppend _ => { q.fail 0 0x12 4 (Word.ofNat e0.va) with elems := [] }
    | _ => { fails q with elems := q.elems.filter fun e => !lost.contains e }

/-- The step that a request is due to take once it has left. -/
def nextStep (r : Request) : Instr :=
  match r.kind with
  | .queueAppend | .queuePop _ | .queueLen => .queueOpAtHome r.id
  | .keyAppend _ => .keyPageAppendAtHome r.id
  | .signal => .rsigArrival r.id
  | _ => .globalWindowAccessAtHome r.id

/-- A request is sent: what goes to each die, and the step that it is due to take there. -/
def sendElems (s : State) (r : Request) : State :=
  let dies := dedup (r.elems.filterMap r.elemDie)
  let extra := (r.elems.filter fun e => e.bytes = 0).foldl (fun n e => n + sentBytes r e) 0
  (dies.foldl (fun s d => s.sendTo (fromDie r.hart) d
    ((r.elems.filter fun e => r.elemDie e == some d).foldl (fun n e => n + sentBytes r e) extra)) s).due [nextStep r]

/-- A request leaves for the homes of its elements. -/
def leaveRequest (s : State) (r : Request) : State :=
  let s := (s.modRequest r.id fun q => { q with sent := true }).disconnect r
  match s.request? r.id with
  | none => s
  | some q => if q.elems.isEmpty then s.endRequest q.id else s.sendElems q

/-- An entry of a core's cellar taken out. -/
def dropEntry (s : State) (c seq : Nat) : State :=
  s.modCore c fun k => { k with cellar := k.cellar.filter fun e => e.seq ≠ seq }

/-- An operation that an entry held up may land. -/
def settleFor (s : State) (h : Nat) (op : Option Nat) : State :=
  match op with
  | some o => s.settle h o
  | none => s

/-- An engine's held store leaves: an aligned part of 8 bytes or a byte of it that the device chooses, or all that is left, is
performed at its home, which a link must reach (01 R13, 09 R265). -/
def leaveStore (s : State) (e : CellarEntry) (cells : List Host.Cell) (hint : Option Hint) (op : Option Nat) : State :=
  let c := coreOf e.hart
  let d := dieOfCore c
  let homes := dedup (cells.map fun x => homeDie x.1)
  if s.olderStores c e.seq (cells.map fun x => (x.1, 1)) || homes.any (fun h => !s.reaches d h) then s.due [.cellarLeave e.hart]
  else
    let parts := eights cells
    let n := s.pick (.order 2) (parts.length + 1)
    let now := if n = 0 then cells else parts.getD (n - 1) []
    let rest := if n = 0 then [] else (parts.eraseIdx (n - 1)).flatten
    let w : Writer := ⟨some c, some e.hart, hint, none, []⟩
    let s := (dedup (now.map fun x => homeDie x.1)).foldl (fun s h =>
      s.across d h (now.filter fun x => homeDie x.1 == h).length 0) s
    if rest.isEmpty then ((s.dropEntry c e.seq).storeEach w now).settleFor e.hart op
    else
      let s := s.modCore c fun k => { k with
        cellar := k.cellar.map fun x => if x.seq = e.seq then { x with kind := .store rest hint op } else x }
      (s.storeEach w now).due [.cellarLeave e.hart]

/-- A store to a device register leaves, once the hart's earlier device accesses have been performed. Over a link that is down
nothing is performed, which the operation that still waits learns (05 R137, 18 R374, R414). -/
def leaveDevice (s : State) (h chip pa n v : Nat) (op : Option Nat) (elem va : Nat) : State :=
  let home := devDie chip pa
  if s.reaches (dieOf h) home then
    let s := (s.across (dieOf h) home n 0).devWrite chip pa (Word.ofNat v)
    (match op with
      | some o => s.performed h o s.history.length
      | none => s).settleFor h op
  else
    (match op with
      | some o => s.noteStatus h o { elem := elem, code := 0x12, sub := 4, eaddr := Word.ofNat va }
      | none => s).settleFor h op

/-- An earlier store of a hart to a graph's ARM word, or the arm that follows from one, is still to be done (05 R139). -/
def armsFirst (s : State) (h seq : Nat) (graph : Word) : Bool :=
  match s.entryOf (dieOf h) graph with
  | none => false
  | some e => s.agenda.contains (.graphArm (dieOf h) e)
      || (((s.die (dieOf h)).registered.find? fun r => r.1 == e).map fun r => s.olderTouches h seq (· == .store) [(r.2, 8)]).getD false

/-- An arm by GRUN reaches the graph sequencer, which reports its outcome in d (07 R193). -/
def armBy (s : State) (h : Nat) (graph : Word) (d : Operand) (op : Nat) : State :=
  let a : Nat × State := match s.entryOf (dieOf h) graph with
    | none => (1, s)
    | some e => s.armGraph (dieOf h) e
  (a.2.deliver h op (.scalar d .raw) 0 0 8 a.1 none).land h op

/-- The earlier requests that a member's source reads must see have been performed (05 R121, 09 R257). -/
def sourceWaits (s : State) (h seq i m : Nat) : Bool :=
  let runs := match s.coll? i with
    | some k => (k.part m).src.flatMap fun q => s.placeRuns (k.part m).job .read q.1 q.2
    | none => []
  s.olderTouches h seq (fun k => !k.reads && k != .store && k != .put) runs

/-- A sealed entry leaves, unless it must stay for now. -/
def leaveEntry (s : State) (h : Nat) (e : CellarEntry) : State :=
  let c := coreOf h
  let gone := s.dropEntry c e.seq
  let stay := s.due [.cellarLeave h]
  match e.kind with
  | .store cells hint op => s.leaveStore e cells hint op
  | .undo _ _ _ => s
  | .request id => (match s.request? id with
    | none => gone
    | some r => gone.leaveRequest r)
  | .sysWrite n v => gone.applyShared (dieOf h) n v
  | .rfence op => if s.owesRemote h e.seq then stay else gone.land h op
  | .arm graph d op => if s.armsFirst h e.seq graph then stay else gone.armBy h graph d op
  | .devWrite chip pa n v op elem va =>
    if s.olderTouches h e.seq (fun _ => true) [(deviceLoc, 1)] then stay else gone.leaveDevice h chip pa n v op elem va
  | .contribution i m => if s.sourceWaits h e.seq i m then stay else gone.contribute i m
  | .failure graph node cause => gone.failGraph (dieOf h) graph node cause

/-- The oldest entry of a list that may leave: requests of one hart leave in the order of retirement, and no remote one
passes an RFENCE that still waits (04 R114, 09 R251). -/
def nextLeaver (s : State) (fenced : Bool) : List CellarEntry → Option CellarEntry
  | [] => none
  | e :: rest => match e.kind with
    | .rfence _ => if s.owesRemote e.hart e.seq then s.nextLeaver true rest else some e
    | _ => if fenced && s.entryRemote e then none else some e

/-- An entry of a hart, or of an engine for it, leaves its core, if one is sealed and may. -/
def leave (s : State) (h : Nat) : State :=
  let mine := (s.core (coreOf h)).cellar.filter fun e => e.hart == h && !e.isUndo
  let first := [s.nextLeaver false (mine.filter fun e => !e.engine), (mine.filter fun e => e.engine).head?].filterMap fun e =>
    e.filter fun x => x.sealed
  match first with
  | [] => if mine.any fun e => e.sealed then s.due [.cellarLeave h] else s
  | e :: rest => s.leaveEntry h (s.pickFrom (.order 3) (e :: rest) e)

end State

def execCellarLeave (h : Nat) (s : State) : Host.Outcome State Fault Refusal := awake (chipOf h) s fun s => s.leave h

/-! ### Remote signals (09 R252, 17 R368 to R370, 18 R376, R378) -/

namespace State

/-- A signal to the named barrier of a core. -/
def signalBarrier (s : State) (r : Request) (a count : Nat) : State :=
  let d := signalDie a
  let c := 128 * d + targetCore a
  let n := targetBarrier a
  let fail (s : State) (code : Nat) : State := s.closeRequest (r.fail 0 0x12 code (Word.ofNat a))
  if targetMalformed a then fail s 6
  else if (s.core c).underReset || (s.core c).gone then fail s 7
  else
    let isl := targetCore a
    let s := if (s.island d isl).gated then
        (s.modIsland d isl fun k => { k with gated := false, woken := true }).due [.islandRegateTimer d isl]
      else s
    let b := (s.core c).barrier n
    if b.e ≠ 0 && b.job != r.job && coreOf r.hart != c && !isDeviceHart r.hart then
      fail (s.logRefusal d r.job (fromDie r.hart) false 1 a) 1
    else (s.modCore c fun k => { k.setBarrier n (NamedBarrier.arriveN r.rels count b) with
        outside := k.outside ++ [(k.clock, n, count, r.rels)] }).stepDone r

/-- A signal to a counter in memory. -/
def signalCounter (s : State) (r : Request) (a count : Nat) : State :=
  let fail (s : State) (code : Nat) : State :=
    (s.logRefusal (globalDie a) r.job (fromDie r.hart) false code a).closeRequest (r.fail 0 0x12 code (Word.ofNat a))
  match s.homeAddr r.job .atomic a with
  | .error code => fail s code
  | .ok key =>
    if (s.keyPoison key 8).isSome then fail s 2
    else
      let chain := s.relsOf outside (s.nowAt ((List.range 8).map fun i => key + i))
      let w := { r.writer (s.hintAt r.job (.global a) r.hint) with rels := dedup (r.rels ++ chain) }
      ((s.storeHome w (cellsAt key (bytesOfNat 8 (s.mem.readNat key 8 + count)))).holdHome r.job a).stepDone r

/-- An earlier signal of the same source to the same target is still on its way (05 R139). -/
def olderSignal (s : State) (r : Request) (a : Nat) : Bool :=
  s.net.any fun q => q.hart == r.hart && q.id < r.id && q.kind == .signal && (q.elems.any fun e => e.cmp == a)

/-- A signal arrives. -/
def signalArrives (s : State) (r : Request) : State :=
  match r.elems with
  | [] => s.closeRequest r
  | e :: _ =>
    if s.flying r e || s.heldBack r || s.olderSignal r e.cmp then s.due [.rsigArrival r.id]
    else if !s.pod.chips.contains (chipOfDie (signalDie e.cmp)) then
      s.closeRequest (r.fail 0 0x12 4 (Word.ofNat e.cmp))
    else if 2 ^ 63 ≤ e.cmp then s.signalCounter r e.cmp e.data
    else s.signalBarrier r e.cmp e.data

end State

def execRsigArrival (req : Nat) (s : State) : Host.Outcome State Fault Refusal :=
  .next (match s.request? req with
    | none => s
    | some r => if s.asleep r then s else s.signalArrives r)

end Sys2Proof.Machine
end

