-- ==== Sys2Proof/Machine/Graphs.lean ====
section
/-! DEFINITION. Steps of the graph sequencer: an arm taken from memory, firings and flushes of work queues, and the
placement of the next gang (02 R36 to R39, R44 to R48, 17 R364). -/
namespace Sys2Proof.Machine

/-! ### Arms (02 R37, R39) -/

/-- Takes a nonzero ARM word by a swap with 0, and arms the graph. -/
def State.takeArm (s : State) (d e : Nat) : State :=
  match (s.die d).registered.find? fun r => r.1 == e with
  | none => s
  | some r =>
    if s.homeNat r.2 8 = 0 then s
    else if !s.reaches d (homeDie r.2) then s.dueNew [.graphArm d e]
    else
      let t := s.tableEntry d e
      let hint := ((s.seqLeaf d t.ptbase t.job .write t.base.toNat).map fun k => mtHint k.2 .engine).getD (some .engine)
      (((s.across d (homeDie r.2) 8 8).storeHome { Writer.engine d with hint := hint } (cellsAt r.2 (bytesOfNat 8 0))).armGraph d e).2

def execGraphArm (die entry : Nat) (s : State) : Host.Outcome State Fault Refusal :=
  awake (chipOfDie die) s fun s => s.takeArm die entry

/-! ### Work queues (02 R47, R48) -/

/-- The running graph of an entry with an active QUEUE node. -/
def State.activeQueue (s : State) (d entry node : Nat) : Option GraphRun :=
  (s.die d).graphs.find? fun g =>
    g.entry == entry && g.running && (nodeAt g.data node).kind == 4 && (g.node node).st == .active

/-- Launches one firing of n entries, and advances HEAD. -/
def State.fire (s : State) (d : Nat) (g : GraphRun) (i : Nat) (q : QueueDesc) (n : Nat) : State :=
  let node := nodeAt g.data i
  let s := s.seqStore d g.ptbase g.job (node.addr + 0x18) 8 ((q.head + n) % 2 ^ 64)
  let s := s.modRun d g.base fun g => g.setNode i fun r => { r with live := r.live + node.gcount }
  (s.modDie d fun k => k.launch g i s.time q.head n).kick d

/-- A descriptor whose queue has a firing of BATCH entries due; an owner of kind 1 advances HEAD itself. -/
def QueueDesc.fires (q : QueueDesc) : Bool := q.batch ≤ q.count && q.owner < 2 ^ 63

/-- A work that is due on an active QUEUE node, whose descriptor must pass its checks and be writable then (log 22). -/
def State.onQueue (s : State) (d entry node : Nat) (due : QueueDesc → Bool) (f : GraphRun → QueueDesc → State → State) : State :=
  match s.activeQueue d entry node with
  | none => s
  | some g =>
    let s := s.seqTouch d g.ptbase g.job .read (nodeAt g.data node).addr 64
    if !((s.rawDesc d g node).map due).getD true then s.dueNew (s.queueSteps d)
    else match s.nodeDesc d g node, s.seqKey d g.ptbase g.job .write ((nodeAt g.data node).addr + 0x18) with
      | some q, some _ => f g q s
      | _, _ => s.failGraph d g.base node 8

/-- A firing of BATCH entries, once TAIL − HEAD has reached BATCH. -/
def State.fireBatch (s : State) (d entry node : Nat) : State :=
  s.onQueue d entry node QueueDesc.fires fun g q s =>
    let s := s.fire d g node q q.batch
    s.dueNew (s.queueSteps d)

def execQueueFiring (die run node : Nat) (s : State) : Host.Outcome State Fault Refusal :=
  awake (chipOfDie die) s fun s => s.fireBatch die run node

/-- A flush launches what remains, clears FLUSH, and lets the node complete once its firings have. -/
def State.flush (s : State) (d entry node : Nat) : State :=
  s.onQueue d entry node (fun q => q.flush != 0 && !q.fires) fun g q s =>
    let s := if q.count = 0 then s else s.fire d g node q q.count
    let s := s.seqStore d g.ptbase g.job ((nodeAt g.data node).addr + 0x30) 8 0
    let s := s.modRun d g.base fun g => g.setNode node fun r => { r with flushed := true }
    match s.run? d g.base with
    | none => s
    | some g' =>
      if (g'.node node).live = 0 then (s.modRun d g.base fun g => g.complete node fun _ => true).runGraph d g.base
      else s.dueNew (s.queueSteps d)

def execQueueFlush (die run node : Nat) (s : State) : Host.Outcome State Fault Refusal :=
  awake (chipOfDie die) s fun s => s.flush die run node

/-! ### Placement (02 R45, R46, 17 R364, R365) -/

/-- A waiting gang has a victim outstanding (02 R50). -/
def Die.hasVictim (k : Die) (r : ReadyGang) : Bool :=
  k.handed.any fun h => h.isFor r && !h.saving && k.placed.any fun p => p.key == h.key && p.preempt.isSome

/-- The restore of a saved gang on harts and at an offset that are held for it from now on. -/
def State.beginRestore (s : State) (d : Nat) (r : ReadyGang) (c : Nat) (harts : List Nat) (off : Nat) : State :=
  match (s.die d).record? r.firing r.gang with
  | none => s
  | some rec =>
    let key := (s.die d).nextKey
    let p : PlacedGang := ⟨key, r.firing, r.graph, r.entry, r.node, r.gang, r.prio, r.time, s.time, c, harts, [], off, rec.resSize,
      rec.dfsz, rec.x5, rec.x6, none, true, rec.barriers, 0, rec.bars⟩
    (s.modDie d fun k => Die.enqueue { k with
      nextKey := key + 1
      handed := (k.handed.filter fun h => !h.isFor r) ++ [p]
      ready := k.ready.filter fun q => !q.same r } key).runEngine d

/-- The first ready gang that fits is placed, or resumed; if none fits, a victim may be chosen. -/
def State.placeNext (s : State) (d : Nat) : State :=
  let k := s.die d
  match (sortReady k.ready).findSome? fun r => (s.fit d r).map fun f => (r, f) with
  | some (r, c, harts, off) =>
    (match s.run? d r.graph, r.saved with
    | some g, none => s.placeGang d g r c harts off
    | _, some _ => s.beginRestore d r c harts off
    | none, none => s).kick d
  | none => if k.ready.any fun r => !k.hasVictim r then s.dueNew [.preemptVictimChoice d] else s

def execGangPlace (die : Nat) (s : State) : Host.Outcome State Fault Refusal :=
  awake (chipOfDie die) s fun s => (s.resumeRuns die).placeNext die

end Sys2Proof.Machine
end

