-- ==== Sys2Proof/Machine/Racking.lean ====
section
/-! DEFINITION. The racking engine: RKPUSH, RKPOP, RKWM, RKWAIT, KHRV, and the step that lands a copy (09 R262 to R268,
16 R349, R351 to R353, 05 R132, R133, 19 R391, R392). -/
namespace Sys2Proof.Machine

/-! ### Checks of a command (09 R263, R264, 16 R349) -/

namespace RackCmd

/-- First register and count of the register group of kinds 1 and 2. -/
def vr (c : RackCmd) : Nat := c.field 2 0 6
def group (c : RackCmd) : Nat := c.field 2 8 6

/-- Fields of a record, and the size of one (kind 2). -/
def fields (c : RackCmd) : Nat := c.field 13 0 4
def fieldSize (c : RackCmd) : Nat := 2 ^ c.field 0 8 3

/-- The registers that the engine writes. -/
def regs (c : RackCmd) : List RegId :=
  if c.toMemory then [] else (List.range c.group).map fun k => .v (BitVec.ofNat 6 (c.vr + k))

/-- The least and greatest place that a copy's first byte takes, over all copies. -/
def span (c : RackCmd) (base : Int) (stride : Nat → Int) : Int × Int :=
  (List.range c.levels).foldl (fun p l =>
    let d := ((c.trip l : Int) - 1) * stride l
    if d < 0 then (p.1 + d, p.2) else (p.1, p.2 + d)) (base, base)

/-- A reserved bit is set, or a field lies outside its range (09 R263, R264). Word 13, of which the table gives no contents for
kind 1, holds 0 there (DESIGN CHOICE, log 112). -/
def malformed (c : RackCmd) : Bool :=
  let k := c.kind
  c.field 0 52 12 ≠ 0 || c.field 0 28 4 ≠ 0 || c.field 0 16 8 ≠ 0 || c.field 0 11 3 ≠ 0 || c.field 0 48 4 < 2
    || c.field 0 32 16 = 0 || c.tag = 15 || c.field 0 14 2 = 0 || 3 < c.field 0 8 3 || k = 3 || 6 < c.levels
    || c.word 15 ≠ 0 || ((List.range c.levels).any fun l => c.trip l == 0)
    || (k ≠ 0 && (c.field 2 6 2 ≠ 0 || c.field 2 14 50 ≠ 0 || c.word 12 ≠ 0))
    || (k = 1 && c.word 13 ≠ 0)
    || (k = 2 && (c.fields < 2 || 8 < c.fields || c.field 13 4 9 ≠ 0 || c.field 13 14 2 ≠ 0 || c.field 13 22 42 ≠ 0
        || c.field 0 32 16 ≠ c.fields * c.fieldSize))

/-- The copies stay within the declared range or the register group. -/
def inside (c : RackCmd) (vm : Nat) : Bool :=
  let len : Int := c.field 0 32 16
  match c.kind with
  | 0 =>
    let p := c.span (c.word 2).toNat c.dstStride
    (c.rangeLo : Int) ≤ p.1 && p.2 + len ≤ c.rangeHi
  | 1 =>
    let p := c.span 0 c.dstStride
    c.vr + c.group ≤ 64 && 0 ≤ p.1 && p.2 + len ≤ (c.group * 4 * vm : Nat)
  | _ => c.vr + c.group ≤ 64 && c.fields ≤ c.group

/-- A range lies in a gang's reservation. -/
def reserved (h : Hart) (lo hi : Nat) : Bool :=
  Config.scratchBase + h.resOff ≤ lo && hi ≤ Config.scratchBase + h.resOff + h.resSize

/-- The command is a bad command, for the hart that pushed it on a core of so many 32-bit elements. -/
def bad (c : RackCmd) (h : Hart) (vm : Nat) : Bool :=
  match c.list with
  | some k => k.dst % 256 ≠ 0 || (k.count ≠ 0 && !reserved h k.dst c.rangeHi)
  | none => c.malformed || !c.inside vm
      || (c.kind = 0 && !(reserved h c.rangeLo c.rangeHi || c.rangeHi ≤ 2 ^ 57))

/-- The status word (09 R268). -/
def status (c : RackCmd) (err : Nat) : Word := Word.ofNat (c.landed.length % 2 ^ 32 * 2 ^ 32 + err * 2 ^ 8 + 1)

end RackCmd

/-- A command without a hart or words. -/
def RackCmd.idle : RackCmd :=
  { hart := 0, op := 0, job := 0, ptbase := 0, sup := false, words := [], list := none, landed := [], stopped := false, vstart := 0
    marks := Marks.reset, born := 0, seen := [], wrote := [] }

/-! ### Channels -/

def Core.rack (c : Core) (k : Nat) : RackChannel := c.racks.toList.getD k RackChannel.reset

def Core.setRack (c : Core) (k : Nat) (ch : RackChannel) : Core :=
  { c with racks := Vector.ofFn fun (i : Fin 8) => if i.val = k then ch else c.racks[i] }

/-- A core's state changes in a cycle of its own, with the point that a rollback to that cycle restores (19 R392). -/
def State.inCycle (s : State) (c : Nat) (f : State → State) : State :=
  (f (s.modCore c fun k => { k with points := k.points ++ [s.point c] })).modCore c fun k => { k with clock := k.clock + 1 }

/-- The last eight statuses (09 R267). -/
def pushStatus (l : List RackStatus) (w : RackStatus) : List RackStatus :=
  let m := l ++ [w]
  m.drop (m.length - Config.rackFifo)

/-- The status that a command pushes as it ends. -/
def RackCmd.report (c : RackCmd) (err : Nat) : RackStatus :=
  ⟨c.hart, c.op, c.status err, joinSeen c.seen (c.wrote.map fun x => x.2)⟩

/-- The latest place in the history at which the engine read a byte for a command. -/
def RackCmd.readAt (c : RackCmd) : Nat := c.seen.foldl (fun m x => max m x.2) 0

/-- The bytes of a copy bound for registers: register, byte and value (09 R265). -/
def RackCmd.regBytes (m : RackCmd) (vm n v : Nat) : List (Nat × Nat × Nat) :=
  let byte (j : Nat) : Nat := v / 256 ^ j % 256
  if m.kind = 1 then (List.range (m.copy n).len).map fun j =>
    let o := (m.copy n).dst + j
    (m.vr + o / (4 * vm), o % (4 * vm), byte j)
  else (List.range (m.fields * m.fieldSize)).map fun j => (m.vr + j / m.fieldSize, n * m.fieldSize + j % m.fieldSize, byte j)

/-- The registers of a command of which its copies write every byte. -/
def RackCmd.filled (m : RackCmd) (vm : Nat) : List RegId :=
  let bs := (List.range m.total).flatMap fun n => (m.regBytes vm n 0).map fun b => (b.1, b.2.1)
  if m.vstart + (m.word 14).toNat ≠ 0 then []
  else m.regs.filter fun r => match r with
    | .v i => (List.range 1024).all fun b => bs.contains (i.toNat, b)
    | _ => false

namespace State

def modRack (s : State) (c k : Nat) (f : RackChannel → RackChannel) : State :=
  s.modCore c fun q => q.setRack k (f (q.rack k))

/-- A command stops with an error: its status word, and the failure on its counter (16 R352). -/
def stopRack (s : State) (c k : Nat) (m : RackCmd) (err : Nat) (addr : Word) : State :=
  let s := s.modRack c k fun ch => { ch with
    cmds := { m with stopped := true } :: ch.cmds.tail, fifo := pushStatus ch.fifo (m.report err) }
  ((s.noteStatus m.hart m.op { elem := 0, code := 0x13, sub := k * 2 ^ 8 + err, eaddr := addr }).performed m.hart m.op m.readAt).land
    m.hart m.op

/-- Element e of a permuted register: the field of the record that the index names, or 0 (09 R265). The index register is read
as i32 whatever its tag, and records past its last element take index 0 (DESIGN CHOICE, log 113). -/
def permuted (b idx : BitVec 8192) (bits n : Nat) : BitVec 8192 :=
  setElems b bits ((List.range n).map fun i =>
    let j := getElem idx 32 i
    (i, if n ≤ j then 0 else getElem b bits j))

/-- What the completion of a command leaves in its registers: the permutation of the registers that its fields fill, and
the tag of all (09 R265, R266). -/
def finishRegs (m : RackCmd) (h : Hart) : Hart :=
  let perm : Bool := m.kind == 2 && m.field 13 13 1 == 1
  let idx := (h.vr (BitVec.ofNat 6 (m.field 13 16 6))).bits
  ((List.range m.regs.length).zip m.regs).foldl (fun h r => match r.2 with
    | .v i =>
      let b := (h.vr i).bits
      h.setV i ⟨(fmtOf m.tag).getD .raw, if perm && r.1 < m.fields then permuted b idx (8 * m.fieldSize) m.total else b⟩
    | _ => h) h

/-- A command whose copies have all landed completes; registers that its copies have filled keep no poison (19 R400). -/
def finishRack (s : State) (c k : Nat) (m : RackCmd) : State :=
  let s := s.modRack c k fun ch => { ch with cmds := ch.cmds.tail, fifo := pushStatus ch.fifo (m.report 0) }
  let full := if (s.hart m.hart).poison.isEmpty then [] else m.filled (s.core c).vlmax
  let s := s.modOp m.hart m.op fun o => { o with whole := full }
  ((s.modHart m.hart (finishRegs m)).performed m.hart m.op m.readAt).land m.hart m.op

/-- The head command of a channel goes on: it stops, completes, or a copy of it is due to land, which the device
chooses. -/
def rackGo (c k : Nat) : Nat → State → State
  | 0, s => s
  | fuel + 1, s => match ((s.core c).rack k).cmds with
    | [] => s
    | m :: rest =>
      if m.stopped then
        if rest.isEmpty then s
        else rackGo c k fuel (s.modRack c k fun ch => { ch with cmds := ch.cmds.tail })
      else if m.bad (s.hart m.hart) (s.core c).vlmax then rackGo c k fuel (s.stopRack c k m 3 0)
      else match m.missing with
        | [] => rackGo c k fuel (s.finishRack c k m)
        | n :: more =>
          if s.agenda.any fun e => match e with
            | .rackingCopyLand c' k' _ => c' == c && k' == k
            | _ => false
          then s
          else s.due [.rackingCopyLand c k (s.pickFrom (.other (8 * c + k)) (n :: more) n)]

/-- Each RKWAIT of a core whose watermark now exceeds what it waits for, or whose channel has no incomplete command, is done
(09 R267). -/
def settleMarks (s : State) (c : Nat) : State :=
  let met (m : BitVec 3 × Word) : Bool :=
    let ch := (s.core c).rack m.1.toNat
    ch.cmds.isEmpty || Decidable.decide (m.2.toNat < ch.mark.toNat)
  (List.range 8).foldl (fun s n =>
    let h := 8 * c + n
    ((s.hart h).ops.filter fun o => (s.hart h).run != .free && !o.landed && (o.mark.map met).getD false).foldl (fun s o => s.land h o.id) s) s

/-- A command joins its channel. A channel that held only a stopped one starts it (16 R352). -/
def pushRack (s : State) (i : Instr) (k : Nat) (words : List Word) (list : Option KeyList) : State :=
  let c := coreOf s.me
  let old := s.my
  let id := s.opSeq
  let m : RackCmd := { RackCmd.idle with
    hart := s.me, op := id, job := old.jobtag, ptbase := old.ptbase, sup := old.sup, words := words, list := list
    marks := old.marks, born := s.history.length }
  let regs := if m.bad old s.myCore.vlmax then [] else m.regs
  let nb := (i.wd.map fun w => w.nb).getD false
  let s := (s.startOp i old false Flags.none).modOp s.me id fun o => { o with regs := o.regs ++ regs }
  let s := if nb then s.upd fun h => { h with
      early := h.early ++ regs.map fun r => ⟨r, old.regVal r, 0, true, some id, false⟩ } else s
  let s := s.modRack c k fun ch => { ch with
    cmds := ch.cmds ++ [m], lastEnd := if m.toMemory then Word.ofNat m.rangeHi else ch.lastEnd }
  ((rackGo c k 6 s).settleMarks c).retire

end State

/-- A channel has no room for another command. -/
def RackChannel.full (ch : RackChannel) : Bool := Config.rackDepth ≤ (ch.cmds.filter fun m => !m.stopped).length

/-- An operation under way still uses a register. -/
def Hart.busyRegs (h : Hart) (rs : List RegId) : Bool := h.ops.any fun o => o.regs.any rs.contains

/-! ### RKPUSH and KHRV (09 R262, R264, 16 R349, R351) -/

/-- The words of a command: those beyond NW are 0. -/
def commandWords (v : Nat) : List Word :=
  let nw := v / 2 ^ 48 % 16
  (List.range 16).map fun i => if i ≤ nw then Word.ofNat (v / 2 ^ (64 * i)) else 0

def execRkpush (w : Wd) (x : Xm) (s : State) : Host.Outcome State Fault Refusal :=
  issued (.rkpush w x) s fun r s =>
    let i : Instr := .rkpush w x
    let va := r.effAddr w x 1
    let fault (sub : Nat) : State := match rangeFault .read va 128 (accessErr sub) with
      | some t => s.takeTrap t
      | none => s
    if 2 ^ 63 ≤ va then fault 9
    else if va % 8 ≠ 0 then fault 2
    else if s.owes .all .core then s.block
    else s.readTable i va 128 fun bs s =>
      let words := commandWords (natOfBytes (bs.getD []))
      let k := ((words.getD 0 0).extractLsb' 0 3).toNat
      if (s.myCore.rack k).full || s.my.busyRegs { RackCmd.idle with words := words }.regs then s.block
      else s.pushRack i k words none

/-- The constant of a tier-K operand. -/
def konstOf (o : Operand) : Nat :=
  match o with
  | .const k => k.toNat
  | _ => 0

def execKhrv (w : Wd) (x : Xm) (s : State) : Host.Outcome State Fault Refusal :=
  issued (.khrv w x) s fun r s =>
    let h := s.my
    let k := konstOf w.b % 8
    if h.kpDc = 3 then s.takeTrap (keyTrap 4 h.kplist)
    else if s.owes .all .core || (s.myCore.rack k).full then s.block
    else s.pushRack (.khrv w x) k [] (some
      { at_ := h.kplist.toNat, count := (r.xSrc w.a).toNat, entries := [], base := h.kpbase.toNat
        stride := pageStride h.kpDc.toNat, pages := h.kpPages.toNat, dst := (r.xSrc w.d).toNat, hint := x.hint })

/-! ### RKPOP, RKWM and RKWAIT (09 R267) -/

/-- The oldest status of a channel is popped: the stall of the command that it reports ends, and the popping hart acquires
the engine's accesses for that command (05 R132, 16 R353). -/
def State.popStatus (s : State) (k : Nat) (v : RackStatus) : State :=
  ((s.modRack (coreOf s.me) k fun ch => { ch with
    fifo := ch.fifo.tail, cmds := ch.cmds.filter fun m => !(m.stopped && m.op == v.op) }).settleMarks (coreOf s.me)).note s.me v.seen

def execRkpop (w : Wd) (x : Xm) (s : State) : Host.Outcome State Fault Refusal :=
  issued (.rkpop w x) s fun _ s =>
    let k := konstOf w.a % 8
    let old := s.my
    match (s.myCore.rack k).fifo with
    | [] => (s.upd fun h => h.putX w.d 0).retireOp (.rkpop w x) old Flags.none
    | v :: _ => ((s.popStatus k v).upd fun h => h.putX w.d v.word).retireOp (.rkpop w x) old Flags.none

def execRkwm (w : Wd) (x : Xm) (s : State) : Host.Outcome State Fault Refusal :=
  issued (.rkwm w x) s fun _ s =>
    let old := s.my
    (s.upd fun h => h.putX w.d (s.myCore.rack (konstOf w.a % 8)).mark).retireOp (.rkwm w x) old Flags.none

/-- RKWAIT is counted: it retires, and its counter falls once the watermark exceeds b or the channel holds no incomplete
command (06 R150, R162, 09 R267; DEDUCED against 17 R354, log 115). -/
def execRkwait (w : Wd) (x : Xm) (s : State) : Host.Outcome State Fault Refusal :=
  issued (.rkwait w x) s fun r s =>
    let id := s.opSeq
    let s := s.startOp (.rkwait w x) s.my false Flags.none
    let s := s.modOp s.me id fun o => { o with mark := some (BitVec.ofNat 3 (konstOf w.a), r.xSrc w.b) }
    (s.settleMarks (coreOf s.me)).retire

/-! ### A copy lands (09 R262, R265, R266, R268, 16 R352) -/

/-- What a copy meets: its value with what was read, the command's error, or a peer that cannot be reached now. -/
inductive Fetched where
  | got (v : Nat) (at_ : List (Nat × Nat))
  | err (code : Nat)
  | waits

/-- The error of a racking status for a failed access, and for the status of a home's refusal (09 R268). -/
def rackErr (e : AccErr) : Nat := if e.code = 0x0F then 1 else 2
def rackRefused (code : Nat) : Nat := if code = 2 then 1 else 2

/-- The cache hint of a command's copies; an engine's traffic takes engine ways unless it names another hint (04 R108). -/
def RackCmd.hint (c : RackCmd) : Hint :=
  let h := match c.list with
    | some l => l.hint
    | none => hintOf (c.field 0 14 2)
  if h == .normal then .engine else h

/-- The engine's reads for a command, as requests of the hart that pushed it. -/
def RackCmd.reader (c : RackCmd) : Request := engineReader c.hart c.job c.op c.hint c.marks c.born

namespace State

/-- The state in which the hart that pushed a command translates as it did then. -/
def asPusher (s : State) (m : RackCmd) : State :=
  s.modHart m.hart fun h => { h with sup := m.sup, jobtag := m.job, ptbase := m.ptbase }

/-- The places of a range of a command, or what stops it there. -/
def rackPlaces (s : State) (m : RackCmd) (acc : Acc) (va n : Nat) : Except Fetched (List (Place × Nat)) :=
  let part (e : Elem) : Except Fetched (List (Place × Nat)) := match (s.asPusher m).placeElem m.hart acc e with
    | .error errs =>
      let x := worstErr errs
      .error (if x.code = 0x10 then .waits else .err (rackErr x))
    | .ok p => if p.parts.any fun q => q.1.isDev then .error (.err 2) else .ok p.parts
  ((rangeElems va n).mapM part).map List.flatten

/-- The parts of a source read in order, each at once. -/
def rackParts (s : State) (r : Request) : List (Place × Nat) → Fetched × State
  | [] => (.got 0 [], s)
  | q :: rest =>
    let first : Got × State := match q.1 with
      | .window va => s.windowRead r va q.2
      | .global va => s.loadAtHome r ⟨0, 0, .global va, q.2, 0, 0, none, va⟩
      | p =>
        let v := s.sourceNat r p.addr true ((p.keys q.2).map .loc)
        (⟨.ok v.1, (List.range q.2).findSome? fun i => s.placePoison (coreOf r.hart) (p.shift i), v.2⟩,
          s.touchLines (coreOf r.hart) r.hint [q])
    match first.1.val, first.1.poison with
    | .error code, _ => (.err (rackRefused code), first.2)
    | .ok _, some _ => (.err 2, first.2)
    | .ok v, none => match first.2.rackParts r rest with
      | (.got u at_, t) => (.got (v % 2 ^ (8 * q.2) + 2 ^ (8 * q.2) * u) (first.1.at_ ++ at_), t)
      | o => o

/-- A source of a command read: byte for byte, but for its aligned parts of 8 bytes, which are read as one (09 R265). -/
def rackSource (s : State) (m : RackCmd) (va n : Nat) : Fetched × State :=
  match s.rackPlaces m .read va n with
  | .error f => (f, s)
  | .ok ps => (s.crossing (dieOf m.hart) true ps).rackParts m.reader (ps.flatMap copyParts)

/-- The gather list's entries are read as the copies that they name are emitted, in ascending order: the command with those
of so many more copies, or the error of the first that stops it, with its copy (09 R262). -/
def emitCopies (s : State) : Nat → RackCmd → Except (Nat × Nat) RackCmd
  | 0, m => .ok m
  | fuel + 1, m => match m.list with
    | none => .ok m
    | some l =>
      let j := l.entries.length
      let va := l.at_ + 4 * j
      if !RackCmd.reserved (s.hart m.hart) va (va + 4) then .error (2, j)
      else match (s.rackParts m.reader [(.spad (coreOf m.hart) (va - Config.scratchBase), 4)]).1 with
        | .got v at_ =>
          if l.pages ≤ v then .error (5, j)
          else s.emitCopies fuel { m with list := some { l with entries := l.entries ++ [v] }, seen := m.seen ++ at_ }
        | .err e => .error (e, j)
        | .waits => .ok m

/-- The emission of a command up to copy n: a list-index error, or a record beyond the registers, stops it (09 R262, R265). -/
def emitTo (s : State) (vm n : Nat) (m : RackCmd) : Except (Nat × Nat) RackCmd :=
  match m.list with
  | some l => s.emitCopies (n + 1 - l.entries.length) m
  | none => if m.kind = 2 && 4 * vm / m.fieldSize ≤ n then .error (4, n) else .ok m

/-- The channel's command changed by a function. -/
def modHead (s : State) (c k : Nat) (f : RackCmd → RackCmd) : State :=
  s.modRack c k fun ch => { ch with cmds := match ch.cmds with
    | m :: rest => f m :: rest
    | [] => [] }

/-- Copy n of a command lands, which the channel notes. The bytes below the watermark have been passed, for every hart of the
core (05 R132). -/
def noteLanded (s : State) (c k n : Nat) (m : RackCmd) : State :=
  let m := { m with landed := (m.landed.filter (· < n)) ++ [n] ++ m.landed.filter (n < ·) }
  let below (x : Nat × Nat × Nat) : Bool := Decidable.decide (x.1 < m.watermark)
  (s.modHead c k fun _ => { m with wrote := m.wrote.filter fun x => !below x }).modCore c fun q => { q with
    passed := joinSeen q.passed ((m.wrote.filter below).map fun x => x.2) }

/-- The bytes of a copy enter the scratchpad and the cellar, part by part, each part of memory with the hint in force there. -/
def landParts (s : State) (m : RackCmd) : List (Place × Nat) → List Byte → State
  | [], _ => s
  | q :: rest, bs =>
    let t := match q.1 with
      | .spad _ off => s.holdSpad m.hart true (undoSize [q.2]) [] (eights (cellsAt off (bs.take q.2))) none
      | .mem key mt => s.holdStore m.hart (heldSize [q.2]) (mtHint mt m.hint) (cellsAt key (bs.take q.2)) none
      | _ => s
    t.landParts m rest (bs.drop q.2)

/-- A copy to memory: scratchpad at once, other memory through the cellar, which may make it wait (19 R391). -/
def landMemory (s : State) (c k n : Nat) (m : RackCmd) (v : Nat) : State :=
  let cp := m.copy n
  match s.rackPlaces m .write cp.dst cp.len with
  | .error .waits | .error (.got _ _) => s.due [.rackingCopyLand c k n]
  | .error (.err e) => s.stopRack c k m e (Word.ofNat cp.dst)
  | .ok ps =>
    let runs (f : Place → Bool) : List Nat := (ps.filter fun q => f q.1).map fun q => q.2
    if !(s.core c).cellarFits (heldSize (runs Place.isMem) + undoSize (runs Place.isSpad)) then s.due [.rackingCopyLand c k n]
    else
      let s := s.landParts m ps (bytesOfNat cp.len v)
      let keys := ps.flatMap fun q => q.1.keys q.2
      let wrote := ((List.range keys.length).zip keys).map fun x => (cp.dst + x.1, x.2, s.history.length)
      s.noteLanded c k n { m with wrote := m.wrote ++ wrote }

/-- The element group of a byte of a command's registers, from group 0 of the first one (02 R35, 17 R358). -/
def groupOf (m : RackCmd) (vm : Nat) (b : Nat × Nat × Nat) : Nat := (b.1 - m.vr) * (vm / 8) + b.2.1 / 32

/-- A copy to registers. -/
def landRegs (s : State) (c k n : Nat) (m : RackCmd) (v : Nat) : State :=
  let vm := (s.core c).vlmax
  let bs := (m.regBytes vm n v).filter fun b => max m.vstart (m.word 14).toNat ≤ groupOf m vm b
  (s.modHart m.hart fun h => bs.foldl (fun h b =>
    let i := BitVec.ofNat 6 b.1
    h.setV i { h.vr i with bits := setElem (h.vr i).bits 8 b.2.1 b.2.2 }) h).noteLanded c k n m

/-- Copy n of a channel's command lands, once the copies up to it have been emitted. A command that stops leaves its copies
that have not landed undone; its status names the address of the copy's source or destination that failed (16 R352). -/
def landCopy (s : State) (c k n : Nat) (m : RackCmd) : State :=
  match s.emitTo (s.core c).vlmax n m with
  | .error (e, j) => s.stopRack c k m e (if e = 2 then Word.ofNat (m.copy j).dst else 0)
  | .ok m =>
    let cp := m.copy n
    let s := match m.list with
      | some l => s.pinLines c ((List.range (4 * l.entries.length)).map fun j => l.at_ - Config.scratchBase + j)
      | none => s
    let g := s.rackSource m cp.src cp.len
    match g.1 with
    | .waits => (g.2.modHead c k fun _ => m).due [.rackingCopyLand c k n]
    | .err e => g.2.stopRack c k m e (Word.ofNat cp.src)
    | .got v at_ =>
      let m := { m with seen := m.seen ++ at_ }
      if m.toMemory then g.2.landMemory c k n m v else g.2.landRegs c k n m v

end State

def execRackingCopyLand (core ch n : Nat) (s : State) : Host.Outcome State Fault Refusal :=
  .next (if (s.pkg (core / 512)).frozen then s
    else s.inCycle core fun s => (State.rackGo core ch 6 (match ((s.core core).rack ch).cmds with
      | [] => s
      | m :: _ =>
        if m.stopped || m.bad (s.hart m.hart) (s.core core).vlmax || !m.missing.contains n then s
        else s.landCopy core ch n m)).settleMarks core)

end Sys2Proof.Machine
end

