-- ==== Sys2Proof/Machine/Saves.lean ====
section
/-! DEFINITION. Preemption and the context-save engine: the choice of a victim, its countdown, the save of a gang into its
slot, and the restore from it (02 R50 to R55, 03 R72, 07 R187, 17 R354 to R368, 18 R361, 19 R400). -/
namespace Sys2Proof.Machine

/-! ### Events of the engine (17 R366) -/

/-- An event writes csstat, csfault and csgraph, is logged, and is noticed. -/
def State.csEvent (s : State) (d event fsub : Nat) (graph : Word) (node gang : Nat) (fault : Word) : State :=
  let s := s.modDie d fun k => { k with
    csstat := Word.ofNat (gang % 2 ^ 24 * 2 ^ 32 + node % 2 ^ 16 * 2 ^ 16 + fsub % 16 * 2 ^ 12 + event * 2 ^ 8)
    csfault := fault, csgraph := graph }
  (s.notice d (s.die d).csnote).logEvent d 11 (logUnit 4 s.anyUnit) fault (s.die d).csstatNow

/-! ### Victims (02 R50, 17 R356, R362) -/

/-- Bytes that the slot of a gang needs (02 R54). -/
def slotBytes (gsize spres : Nat) : Nat := 0x1000 + gsize * 0x1A000 + spres

/-- SAVEBASE, SAVESZ and SAVECNT as the sequencer reads them; all 0 where it cannot. -/
def State.saveArea (s : State) (d : Nat) (g : GraphRun) : Nat × Nat × Nat :=
  let rd (off n : Nat) : Nat := (s.seqRead d g.ptbase g.job (g.base.toNat + off) n).getD 0
  (rd 0x18 8, rd 0x20 4, rd 0x24 4)

/-- The free slot of lowest index of a graph: one that no record of a saved gang names (17 R362, log 23). -/
def Die.freeSlot (k : Die) (graph : Word) (count : Nat) : Option Nat :=
  let used := (k.records.filter fun r => r.graph == graph).map fun r => r.slot
  (List.range (used.length + 1)).find? fun j => j < count && !used.contains j

/-- The state as it would be without a placed gang. -/
def State.without (s : State) (d : Nat) (p : PlacedGang) : State :=
  (p.live.foldl (fun s h => s.modHart h Hart.release) s).modDie d fun k => { k with
    placed := k.placed.filter fun g => g.key ≠ p.key }

/-- Gangs that a waiting gang may displace. -/
def State.victims (s : State) (d : Nat) (r : ReadyGang) : List PlacedGang :=
  match s.run? d r.graph with
  | none => []
  | some g =>
    let n := nodeAt g.data r.node
    (s.die d).placed.filter fun p =>
      p.preempt.isNone && p.prio < r.prio && n.pmask.testBit (p.core % 128) && !r.excluded.contains p.key
        && ((s.without d p).fitOn d n r p.core).isSome

/-- The victim among some: the lowest priority, then the latest placed. -/
def pickVictim : List PlacedGang → Option PlacedGang
  | [] => none
  | p :: rest => match pickVictim rest with
    | none => some p
    | some q => if q.prio < p.prio || (q.prio = p.prio && p.key < q.key) then some q else some p

def State.modReady (s : State) (d : Nat) (r : ReadyGang) (f : ReadyGang → ReadyGang) : State :=
  s.modDie d fun k => { k with ready := k.ready.map fun q => if q.same r then f q else q }

/-- Raises REQ in every hart of a victim, holds what it will free, and starts the countdown (02 R52). -/
def State.raise (s : State) (d : Nat) (r : ReadyGang) (v : PlacedGang) : State :=
  let s := v.live.foldl (fun s h => s.modHart h fun k => { k with
    prqReq := true, prqForced := false, prqPrio := BitVec.ofNat 4 r.prio }) s
  let hold : PlacedGang := ⟨v.key, r.firing, r.graph, r.entry, r.node, r.gang, r.prio, r.time, v.placedAt, v.core, v.live, [],
    v.resOff, v.resSize, v.dfsz, r.x5, r.x6, none, false, 0, 0, []⟩
  ((s.modGang d v.key fun g => { g with preempt := some r.prio }).modDie d fun k => { k with handed := k.handed ++ [hold] }).due
    [.preemptDeadlineExpiry d v.key]

/-- Records of saved gangs that the engine of a die holds, or has taken on with the victims of preemptions under way
(17 R357, R362). -/
def Die.recordsTaken (k : Die) : Nat :=
  k.records.length + (k.placed.filter fun p => p.preempt.isSome && (k.record? p.firing p.gang).isNone).length

/-- The sequencer chooses a victim for the first waiting gang that has one, or declines it (17 R362). -/
def State.chooseVictim (s : State) (d : Nat) : State :=
  let waiting := (sortReady (s.die d).ready).filter fun r => !(s.die d).hasVictim r && (s.fit d r).isNone
  match waiting.findSome? fun r => (pickVictim (s.victims d r)).map fun v => (r, v) with
  | none => s
  | some (r, v) =>
    let decline (event : Nat) : State :=
      ((s.csEvent d event 0 v.graph v.node v.gang (Word.ofNat (s.anyValue (.other 31)))).modReady d r fun q => { q with
        excluded := v.key :: q.excluded }).dueNew [.saveExclusionExpiry d, .preemptVictimChoice d]
    match s.run? d v.graph with
    | none => s
    | some g =>
      let area := s.saveArea d g
      if area.2.1 < slotBytes (nodeAt g.data v.node).gsize v.resSize then decline 2
      else if ((s.die d).freeSlot v.graph area.2.2).isNone then decline 3
      else if Config.saveRecords ≤ (s.die d).recordsTaken then decline 4
      else (s.raise d r v).dueNew [.preemptVictimChoice d]

def execPreemptVictimChoice (die : Nat) (s : State) : Host.Outcome State Fault Refusal :=
  awake (chipOfDie die) s fun s => s.chooseVictim die

/-- Declined victims may be chosen again after 100 µs (17 R362). -/
def execSaveExclusionExpiry (die : Nat) (s : State) : Host.Outcome State Fault Refusal :=
  awake (chipOfDie die) s fun s =>
    (s.modDie die fun k => { k with ready := k.ready.map fun r => { r with excluded := [] } }).dueNew [.preemptVictimChoice die]

/-! ### The forced stop (02 R52, 17 R354) -/

/-- Every hart of a victim that still runs stops, with FORCED; one in the middle of a convoy that is bound stops when that
has run to its end (17 R354). -/
def State.expire (s : State) (d key : Nat) : State :=
  match (s.die d).placed.find? fun g => g.key == key with
  | none => s
  | some p =>
    if p.preempt.isNone || p.saving then s
    else
      let running := p.live.filter fun h => (s.hart h).run == .running
      let s := (running.filter fun h => (s.hart h).tail.isNone).foldl (fun s h => s.stopAt h true) s
      if running.any fun h => (s.hart h).tail.isSome then s.dueNew [.preemptDeadlineExpiry d key] else s

def execPreemptDeadlineExpiry (die gang : Nat) (s : State) : Host.Outcome State Fault Refusal :=
  awake (chipOfDie die) s fun s => s.expire die gang

/-! ### What a save records (17 R357, R358, R361) -/

/-- The operation of a hart is a member's part in an instance that has not resolved. -/
def State.openPart (s : State) (h op : Nat) : Bool :=
  s.pod.colls.any fun c => c.parts.any fun p => p.hart == h && p.op == op && p.stage.open

/-- Racking commands of some harts on a core. -/
def State.racksOf (s : State) (c : Nat) (harts : List Nat) : List (Nat × RackCmd) :=
  (List.range 8).flatMap fun k => (((s.core c).rack k).cmds.filter fun m => harts.contains m.hart).map fun m => (k, m)

/-- The save must still wait: for a counted operation, but for a racking command's that is cut back and an RKWAIT's on its
channel; for accesses that its release covers; or for a channel that holds more than one command of the gang, or copies to
memory that have not landed (02 R52, 05 R134, 17 R358). -/
def State.saveWaits (s : State) (p : PlacedGang) : Bool :=
  let harts := p.live
  let racks := (s.racksOf p.core harts).filter fun q => !q.2.stopped
  let cut (o : Op) : Bool := racks.any fun q => q.2.op == o.id || (o.mark.map fun m => m.1.toNat == q.1).getD false
  let exempt (h : Nat) (o : Op) : Bool := (!o.landed && cut o) || s.openPart h o.id
  (harts.any fun h => (s.hart h).ops.any fun o => !exempt h o)
    || (harts.any fun h => s.owesBefore h p.stopSeq)
    || ((List.range 8).any fun k => 1 < (racks.filter fun q => q.1 == k).length)
    || (racks.any fun q => q.2.toMemory && q.2.landed != List.range q.2.landed.length)

/-- A command cut back: copies to registers go on from the first copy that writes the lowest element group that has not
landed (17 R358). -/
def RackCmd.cutBack (m : RackCmd) (vm : Nat) : RackCmd :=
  if m.toMemory then m
  else
    let start := max m.vstart (m.word 14).toNat
    let groups (n : Nat) : List Nat := ((m.regBytes vm n 0).map (State.groupOf m vm)).filter fun g => start ≤ g
    match m.missing.flatMap groups with
    | [] => m
    | g :: gs =>
      let low := gs.foldl min g
      { m with vstart := low, landed := List.range (((List.range m.total).find? fun n => (groups n).contains low).getD 0) }

/-- The engine's record of a gang at its stop. -/
def State.recordOf (s : State) (p : PlacedGang) (slot : Nat) : SaveRecord :=
  let rank (h : Nat) : Nat := (s.hart h).rank.toNat
  let live := p.live
  let first := s.hart (live.headD 0)
  let gsize := 2 ^ first.gsz.toNat
  let k := s.core p.core
  { firing := p.firing, graph := p.graph, entry := p.entry, node := p.node, gang := p.gang, slot := slot, gsize := gsize
    exited := (List.range gsize).filter fun r => !(live.any fun h => rank h == r)
    core := p.core, barriers := live.foldl (fun b h => b ||| (s.hart h).nbUsed) p.nbUsed
    stats := live.map fun h => (rank h, (s.hart h).stats)
    ops := live.map fun h => (rank h, (s.hart h).ops)
    fifos := (List.range 8).map fun n => (n, ((k.rack n).fifo.filter fun w => live.contains w.hart).map fun w => { w with hart := rank w.hart })
    racks := ((s.racksOf p.core live).filter fun q => !q.2.stopped).map fun q => (rank q.2.hart, q.1, q.2.cutBack k.vlmax)
    resOff := p.resOff, resSize := p.resSize, dfsz := p.dfsz, vlmax := k.vlmax, prio := p.prio, time := p.time
    x5 := p.x5, x6 := p.x6, job := first.jobtag, ptbase := first.ptbase
    poison := live.map fun h => (rank h, (s.hart h).poison)
    defq := Tab.get k.defq [] p.key
    defBytes := (List.range p.dfsz).map fun i => k.spad.read (p.resOff + i)
    teams := live.map fun h => (rank h, (s.hart h).team)
    views := live.map fun h => (rank h, ⟨s.knows h false, (s.hart h).waitMarks, (s.hart h).pub, (s.hart h).met⟩), bars := p.bars }

/-- The save begins: the record is made, what it holds leaves the channels, and instances wait for the resumption. -/
def State.beginSave (s : State) (d : Nat) (p : PlacedGang) (slot : Nat) : State :=
  let sv := s.recordOf p slot
  let live := p.live
  let s := s.modDie d fun k => { k with records := k.records ++ [sv] }
  let hold (q : MemberPart) : MemberPart := if live.contains q.hart && q.stage.open then { q with saved := true } else q
  let s := { s with pod := { s.pod with colls := s.pod.colls.map fun (c : CollInst) => { c with parts := c.parts.map hold } } }
  let empty (ch : RackChannel) : RackChannel := { ch with fifo := ch.fifo.filter fun w => !live.contains w.hart }
  let s := s.modCore p.core fun k => { k.outlast live with
    racks := k.racks.map empty, points := k.points.map fun q => { q with racks := q.racks.map empty } }
  s.dropRacks p.core live

/-! ### The image of a gang (02 R54, R55, 07 R187) -/

/-- A register's contents in n bytes, of which the first `keep` count. -/
def clipBytes {k : Nat} (b : BitVec k) (keep n : Nat) : List Byte :=
  bytesOfNat (min keep n) b.toNat ++ List.replicate (n - keep) 0

/-- The slot of a register in a hart block: offset and bytes. -/
def regSlot : RegId → Nat × Nat
  | .x i => (0x100 + 8 * i.toNat, 8)
  | .p i => (0x500 + 128 * i.toNat, 128)
  | .v i => (0x2000 + 1024 * i.toNat, 1024)
  | .z i => (0x12000 + 2560 * i.toNat, 2560)
  | .o i => (0x17000 + 1024 * i.toNat, 1024)
  | .l i => (0x19000 + 1024 * i.toNat, 1024)

/-- The tagged registers that yieldmask and yieldaux name live; of a forced stop, all (02 R52, R53). -/
def liveRegs (forced : Bool) (mask aux : Nat) : List RegId :=
  let has (n b : Nat) : Bool := forced || n.testBit b
  (((List.range 64).filter fun i => has mask i).map fun i => RegId.v (BitVec.ofNat 6 i))
    ++ (((List.range 8).filter fun i => has aux i).map fun i => RegId.z (BitVec.ofNat 3 i))
    ++ (((List.range 8).filter fun i => has aux (8 + i)).map fun i => RegId.o (BitVec.ofNat 3 i))
    ++ (((List.range 4).filter fun i => has aux (16 + i)).map fun i => RegId.l (BitVec.ofNat 2 i))

/-- Bytes of a tagged register on a core of so many 32-bit elements: of v, o and l those of vlmax, of l0 the low eight,
of an accumulator all (log 24). -/
def slotBytesOf (h : Hart) (vm : Nat) (r : RegId) : List Byte :=
  match r with
  | .v i => clipBytes (h.vr i).bits (4 * vm) 1024
  | .o i => clipBytes (h.or i).bits (4 * vm) 1024
  | .l i => clipBytes (h.lr i).bits (if i = 0 then 8 else 4 * vm) 1024
  | .z i => clipBytes (h.zr i).bits 2560 2560
  | .x i => clipBytes (h.xr i) 8 8
  | .p i => clipBytes (h.pr i) (vm / 2) 128

/-- Signed bytes from the pc of a hart to the LOOP word of a level. -/
def loopDistance (h : Hart) (l : LoopLevel) : Int := (l.start - 12 - h.pc).toInt

/-- A level is saved active (07 R187). -/
def savedActive (h : Hart) (l : LoopLevel) : Bool := l.active && decide ((loopDistance h l).natAbs < 2 ^ 30)

/-- The lc slot of a level: ORD ranks it among the levels that are saved active (07 R187, log 87). -/
def loopSlot (h : Hart) (l : LoopLevel) : Word :=
  if savedActive h l then
    let rank := (h.lc.toList.filter fun q => savedActive h q && decide (q.armed < l.armed)).length
    Word.ofNat (2 ^ 63 + rank % 4 * 2 ^ 61 + (BitVec.ofInt 29 (loopDistance h l / 4)).toNat * 2 ^ 32 + l.count.toNat % 2 ^ 32)
  else l.count

/-- The system registers of a hart block, in their order (02 R55). -/
def savedSysNumbers : List Nat :=
  [0x000, 0x001, 0x003, 0x004, 0x005, 0x006, 0x007, 0x008, 0x009, 0x00A, 0x018, 0x020, 0x028, 0x029, 0x02A, 0x02B, 0x100,
    0x101, 0x102, 0x103, 0x110, 0x111, 0x112]

def Hart.savedSys (h : Hart) : List Word := savedSysNumbers.map h.sysReg

/-- Words as bytes, with zeros up to n bytes. -/
def wordBytes (ws : List Word) (n : Nat) : List Byte :=
  (ws.flatMap fun w => bytesOfNat 8 w.toNat) ++ List.replicate (n - 8 * ws.length) 0

/-- A racking record (17 R358). -/
def rackRecord (s : State) (m : RackCmd) : List Byte :=
  let n := m.landed.length
  let copy : List Byte := match m.list with
    | none => wordBytes ((List.range 16).map m.word) 128
    | some _ => (List.range 128).map fun i => BitVec.ofNat 8 (s.anyValue (.other (2 ^ 23 + i)))
  let index (l : Nat) : Word := if l < m.levels && m.list.isNone then Word.ofNat (m.loopIndex n l)
    else if l = 0 && m.list.isSome then Word.ofNat n else 0
  copy ++ wordBytes ((List.range 6).map index ++ [Word.ofNat m.vstart, Word.ofNat m.watermark]) 120 ++ bytesOfNat 8 1

/-- A hart block on a core of so many elements, from its first byte, with its racking commands by channel, without the slots
of registers that are not live. -/
def hartBlock (s : State) (vm : Nat) (cmds : List (Nat × RackCmd)) (all : Bool) (h : Hart) : List (Nat × List Byte) :=
  let tags : List Byte := (h.v.toList.map (·.tag) ++ h.z.toList.map (·.tag) ++ h.o.toList.map (·.tag) ++ h.l.toList.map (·.tag)).map
    fun t => (Fmt.code t).setWidth 8
  let racks : List Byte := (List.range 8).flatMap fun k =>
    match cmds.find? fun q => q.1 == k with
    | some q => rackRecord s q.2
    | none => List.replicate 256 0
  let flags : Word := Word.ofNat ((if h.prqForced then 1 else 0) + (if h.sup then 2 else 0))
  let head : List Byte := wordBytes ([h.pc, flags, h.yieldmask, h.yieldaux.setWidth 64]) 0x100
    ++ wordBytes ((List.range 64).map fun i => h.xr (BitVec.ofNat 6 i)) 0x200
    ++ wordBytes h.savedSys 0x100
    ++ tags ++ List.replicate (0x80 - tags.length) 0
    ++ (h.w.toList.flatMap fun c => bytesOfNat 2 c.toNat)
    ++ wordBytes (h.lc.toList.map (loopSlot h)) 0x70
    ++ ((List.range 16).flatMap fun i => slotBytesOf h vm (.p (BitVec.ofNat 4 i)))
    ++ List.replicate 0x300 0 ++ racks ++ List.replicate 0x800 0
  (0, head) :: (liveRegs all h.yieldmask.toNat h.yieldaux.toNat).map fun r => ((regSlot r).1, slotBytesOf h vm r)

/-- Offset of the block of a rank, and of the reservation's image. -/
def blockOffset (rank : Nat) : Nat := 0x1000 + rank * 0x1A000
def imageOffset (gsize : Nat) : Nat := 0x1000 + gsize * 0x1A000

/-- Some hart has declared the reservation live. -/
def sparesRest (harts : List Hart) : Bool := harts.any fun h => h.prqForced || h.yieldaux.getLsbD 20

/-- The slot header (02 R54). -/
def slotHeader (sv : SaveRecord) (harts : List Hart) : List Byte :=
  let forced := harts.foldl (fun m h => if h.prqForced then m + 2 ^ h.rank.toNat else m) 0
  bytesOfNat 4 0x51534156 ++ bytesOfNat 4 1 ++ bytesOfNat 8 (slotBytes sv.gsize sv.resSize) ++ bytesOfNat 8 sv.graph.toNat
    ++ bytesOfNat 2 sv.node ++ bytesOfNat 1 sv.gsize ++ bytesOfNat 1 forced ++ bytesOfNat 4 sv.gang
    ++ bytesOfNat 4 sv.resSize ++ bytesOfNat 4 sv.vlmax ++ bytesOfNat 8 sv.x5.toNat ++ bytesOfNat 4 sv.resOff
    ++ List.replicate 0xFCC 0

/-- What the engine writes: offsets in the slot in rising order. The deferral queue's layout is the device's own
(02 R49). -/
def State.saveImage (s : State) (sv : SaveRecord) (p : PlacedGang) : List (Nat × List Byte) :=
  let harts := p.live.map s.hart
  let image := imageOffset sv.gsize
  let queue : List Byte := (List.range sv.dfsz).map fun i => BitVec.ofNat 8 (s.anyValue (.other (2 ^ 24 + i)))
  let rest : List Byte := (List.range (sv.resSize - sv.dfsz)).map fun i => s.spadByte p.core (sv.resOff + sv.dfsz + i)
  ((0, slotHeader sv harts) :: harts.flatMap fun h =>
    (hartBlock s sv.vlmax ((sv.racks.filter fun q => q.1 == h.rank.toNat).map fun q => q.2) h.prqForced h).map fun c => (blockOffset h.rank.toNat + c.1, c.2))
    ++ [(image, queue)] ++ (if sparesRest harts then [(image + sv.dfsz, rest)] else [])

/-! ### The save area (17 R363, R364) -/

/-- Where the engine finds a byte of the area, with its leaf's type, or the FSUB of its fault and a home's refusal. A restore
goes through the same translation as a save, which needs W and takes no type 0b11 (log 114). -/
def State.areaKey (s : State) (c d : Nat) (sv : SaveRecord) (va : Nat) : Except (Nat × Option Nat) (Nat × Nat) :=
  if 2 ^ 63 ≤ va then
    if !s.reaches d (globalDie va) then .error (4, none)
    else (s.homeLeaf sv.job .write va).mapError fun code => (4, some code)
  else if 2 ^ 57 ≤ va then .error (4, none)
  else match s.lookup c sv.ptbase va with
    | .fault sub => .error (sub, none)
    | .cut _ => .error (4, none)
    | .leaf e size =>
      let pa := leafAddr e size va % 2 ^ 48
      if !leafAllows e .write false then .error (3, none)
      else
        let key := physKey (chipOfDie d) pa
        if entryMt e = 3 || spaceOf pa ≠ 0 || !s.reaches d (homeDie key) then .error (4, none) else .ok (key, entryMt e)

/-- Bytes of the area that the engine has found: their addresses, where they lie, and their leaves' types. -/
abbrev AreaRun := List (Nat × Nat × Nat)

/-- The places of some bytes of the area up to the first that faults. -/
def State.areaRun (s : State) (c d : Nat) (sv : SaveRecord) : List Nat → AreaRun × Option (Nat × Nat × Option Nat)
  | [] => ([], none)
  | va :: rest => match s.areaKey c d sv va with
    | .error e => ([], some (va, e))
    | .ok k =>
      let r := s.areaRun c d sv rest
      ((va, k) :: r.1, r.2)

/-- What the engine's accesses to some bytes do beside: the translations that they leave held, their messages over the links
of its die, and the lines that its reads bring (01 R13, 04 R102, R107, R108). -/
def State.touchArea (s : State) (d : Nat) (sv : SaveRecord) (hk : Nat) (reads : Bool) (run : AreaRun) : State :=
  (dedup (run.map fun q => q.1 / 2 ^ 16)).foldl (fun s g =>
    let mine := run.filter fun q => q.1 / 2 ^ 16 == g
    let home := homeDie ((mine.map fun q => q.2.1).headD 0)
    let s := if g * 2 ^ 16 < 2 ^ 57 then s.holdWalk (coreOf hk) sv.ptbase (g * 2 ^ 16) else s.holdHome sv.job (g * 2 ^ 16)
    let s := s.across d home (if reads then 0 else mine.length) (if reads then mine.length else 0)
    if reads then s.bring .engine ((mine.filter fun q => q.2.2 = 0).map fun q => q.2.1) else s) s

/-- The operation under way freezes at a byte of the area, with what a restore has read below it (17 R363, R364). -/
def State.freezeOp (s : State) (d key : Nat) (save : Bool) (sv : SaveRecord) (base va fsub : Nat) (code : Option Nat)
    (read : List (Nat × Nat × BitVec 8)) : State :=
  let s := match code with
    | some c => s.logRefusal (globalDie va) sv.job d false c va
    | none => s
  (s.modDie d fun k => { k with frozenOp := some ⟨save, key, va - base, read⟩ }).csEvent d (if save then 1 else 5) fsub sv.graph
    sv.node sv.gang (Word.ofNat va)

/-- The address of a gang's slot. -/
def State.slotBase (s : State) (d : Nat) (sv : SaveRecord) : Nat :=
  match s.run? d sv.graph with
  | none => 0
  | some g => (s.saveArea d g).1 + sv.slot * (s.saveArea d g).2.1

/-- From where a frozen operation goes on. -/
def Die.resumeAt (k : Die) (key : Nat) : Nat :=
  match k.frozenOp with
  | some f => if f.gang = key then f.offset else 0
  | none => 0

/-! ### The save (02 R52, 17 R363, R365) -/

/-- Ranges of a slot whose contents are poisoned: registers of the gang, and granules of its reservation, each with whether
its loss is unseen (19 R399, R400). -/
def State.poisonRanges (s : State) (sv : SaveRecord) (p : PlacedGang) : List (Nat × Nat × Bool) :=
  (p.live.flatMap fun h => (s.hart h).poison.map fun q =>
    (blockOffset (s.hart h).rank.toNat + (regSlot q.reg).1, (regSlot q.reg).2, false))
    ++ ((s.core p.core).poison.filter fun g => sv.resOff ≤ g.base && g.base < sv.resOff + sv.resSize).map fun g =>
      (imageOffset sv.gsize + (g.base - sv.resOff), 32, g.fresh)

/-- Granules of package memory poisoned, whose loss is unseen or not. -/
def State.addPoison (s : State) (keys : List Nat) (fresh : Bool) : State :=
  { s with poison := (dedup (keys.map fun k => k / 32 * 32)).foldl (fun l b =>
      if l.any fun g => g.base == b then l else l ++ [⟨b, false, fresh, []⟩]) s.poison }

/-- The gang is saved: its harts and scratchpad are free for the gang that waits, and it is ready again. -/
def State.finishSave (s : State) (d : Nat) (sv : SaveRecord) (p : PlacedGang) : State :=
  let s := p.live.foldl (fun s h => s.modHart h Hart.release) s
  let s := s.modCore p.core fun k => { k with defq := Tab.set k.defq p.key [] }
  let s := s.modDie d fun k => Die.unpin { k with
    placed := k.placed.filter fun g => g.key ≠ p.key
    saveQueue := k.saveQueue.tail
    frozenOp := none
    ready := k.ready ++ [⟨p.firing, p.graph, p.entry, p.node, p.gang, p.prio, p.time, p.x5, p.x6, some sv.slot, []⟩] }
  (s.kick d).runEngine d

/-- The engine writes the slot from where it stopped. -/
def State.writeSlot (s : State) (d : Nat) (sv : SaveRecord) (p : PlacedGang) : State :=
  let base := s.slotBase d sv
  let from_ := (s.die d).resumeAt p.key
  let bytes := ((s.saveImage sv p).flatMap fun c => (List.range c.2.length).zip c.2 |>.map fun b => (c.1 + b.1, b.2)).filter
    fun b => from_ ≤ b.1
  let run := s.areaRun p.core d sv (bytes.map fun b => base + b.1)
  let s := s.touchArea d sv (p.live.headD 0) false run.1
  let ranges := s.poisonRanges sv p
  let lost (fresh : Bool) : List Nat := (run.1.filter fun q =>
    ranges.any fun r => r.2.2 == fresh && base + r.1 ≤ q.1 && q.1 < base + r.1 + r.2.1).map fun q => q.2.1
  let cells (mt : Nat) : List Host.Cell := ((run.1.zip bytes).filter fun q => q.1.2.2 == mt).map fun q => (q.1.2.1, q.2.2)
  let put (s : State) (mt : Nat) : State :=
    s.storeEach { Writer.engine d with hint := mtHint mt .engine, op := some s.opSeq } (cells mt)
  let s := (([0, 1, 2].foldl put s).addPoison (lost true) true).addPoison (lost false) false
  match run.2 with
  | some (va, fsub, code) => s.freezeOp d p.key true sv base va fsub code []
  | none => s.finishSave d sv p

/-- The operation at the head of the engine's queue, if it is a save. -/
def State.saveStep (s : State) (d : Nat) : State :=
  match (s.die d).saveQueue with
  | [] => s
  | key :: _ => match (s.die d).placed.find? fun g => g.key == key && g.saving with
    | none => s.runEngine d
    | some p => match (s.die d).record? p.firing p.gang with
      | some sv => s.writeSlot d sv p
      | none =>
        if s.saveWaits p then s.dueNew [.contextSave d]
        else match (s.run? d p.graph).bind fun g => (s.die d).freeSlot p.graph (s.saveArea d g).2.2 with
          | none => s.dueNew [.contextSave d]
          | some slot =>
            let s := s.beginSave d p slot
            match (s.die d).record? p.firing p.gang with
            | some sv => s.writeSlot d sv p
            | none => s

def execContextSave (die : Nat) (s : State) : Host.Outcome State Fault Refusal :=
  awake (chipOfDie die) s fun s => s.saveStep die

/-! ### The restore (02 R45, R53, R55, 17 R359, R364, R368) -/

/-- A loop level as it is rebuilt from its slot and its LOOP word (07 R187). A word that is no LOOP leaves the level
inactive (log 25). -/
def State.rebuildLevel (s : State) (hk : Nat) (slot : Nat) : LoopLevel :=
  let count := Word.ofNat (slot % 2 ^ 32)
  let dist : Word := (BitVec.ofNat 29 (slot / 2 ^ 32)).signExtend 64 <<< 2
  let at_ := (s.hart hk).pc + dist
  let off : Option (BitVec 20) := if slot / 2 ^ 63 % 2 = 0 then none else match s.fetchWord hk at_.toNat with
    | .error _ => none
    | .ok w => match (decodeFull w).instr with
      | .loop _ o _ => some o
      | _ => none
  match off with
  | none => { LoopLevel.reset with count := count }
  | some o => ⟨count, true, slot / 2 ^ 61 % 4 + 1, at_ + 12, at_ + (o.setWidth 64 <<< 2)⟩

/-- A tagged register as its slot and its tag byte give it; one that is not live is 0 and raw (02 R53, 03 R72). -/
def restored (k : Nat) (rd : Nat → Nat → Nat) (live : Bool) (r : RegId) (tagAt : Nat) : TReg k :=
  if live then ⟨(fmtOf (rd tagAt 1 % 16)).getD .raw, BitVec.ofNat k (rd (regSlot r).1 (regSlot r).2)⟩ else TReg.zero k

/-- The system registers of a hart block restored: as MTS writes them, whose reserved bits read as 0; the team registers
and collst as saved (00 R4, 02 R55). -/
def Hart.restoreSys (h : Hart) (sv : SaveRecord) (team : Option TeamTable) (sys : Nat → Word) : Hart :=
  let teamst := sys 17
  let h := ((List.range savedSysNumbers.length).zip savedSysNumbers).foldl (fun h p => h.sysWrite sv.vlmax p.2 (sys p.1)) h
  { h with
    teambase := sys 16 &&& ~~~(0x3F : Word), teamInst := teamst.extractLsb' 48 16, teamNmem := teamst.extractLsb' 32 11
    teamSelf := teamst.extractLsb' 1 10, teamValid := teamst.getLsbD 0 && team.isSome, team := team
    collst := sys 19 &&& 0xFFFF03FF000000FF }

/-- A hart as its block gives it (02 R53, R55). -/
def restoredHart (g : GraphRun) (n : GNode) (sv : SaveRecord) (rank : Nat) (rd : Nat → Nat → Nat) (mark : Nat) : Hart :=
  let flags := rd 8 8
  let live := liveRegs (flags % 2 == 1) (rd 0x10 8) (rd 0x18 8)
  let own {α : Type} (l : List (Nat × α)) (d : α) : α := ((l.find? fun q => q.1 == rank).map fun q => q.2).getD d
  let view := own sv.views ⟨⟨⟨Vector.replicate 6 mark, []⟩, [], [], []⟩, Vector.replicate 8 0, [], []⟩
  { Hart.reset.restoreSys sv (own sv.teams none) (fun i => Word.ofNat (rd (0x300 + 8 * i) 8)) with
    run := .running, pc := Word.ofNat (rd 0 8), sup := flags / 2 % 2 == 1
    x := Vector.ofFn fun (i : Fin 64) => if i.val = 0 then 0 else Word.ofNat (rd (0x100 + 8 * i.val) 8)
    v := Vector.ofFn fun (i : Fin 64) =>
      let r : RegId := .v (BitVec.ofNat 6 i.val)
      restored 8192 rd (live.contains r) r (0x400 + i.val)
    z := Vector.ofFn fun (i : Fin 8) =>
      let r : RegId := .z (BitVec.ofNat 3 i.val)
      restored 20480 rd (live.contains r) r (0x440 + i.val)
    o := Vector.ofFn fun (i : Fin 8) =>
      let r : RegId := .o (BitVec.ofNat 3 i.val)
      restored 8192 rd (live.contains r) r (0x448 + i.val)
    l := Vector.ofFn fun (i : Fin 4) =>
      let r : RegId := .l (BitVec.ofNat 2 i.val)
      restored 8192 rd (live.contains r) r (0x450 + i.val)
    p := Vector.ofFn fun (i : Fin 16) => BitVec.ofNat 1024 (rd (0x500 + 128 * i.val) 128)
    w := Vector.ofFn fun (i : Fin 8) => BitVec.ofNat 16 (rd (0x480 + 2 * i.val) 2)
    gangIdx := BitVec.ofNat 24 sv.gang
    gsz := BitVec.ofNat 2 (if sv.gsize = 8 then 3 else if sv.gsize = 4 then 2 else if sv.gsize = 2 then 1 else 0)
    rank := BitVec.ofNat 3 rank, ddl := BitVec.ofNat 32 (if n.deadline = 0 then 20000 else n.deadline)
    yieldmask := Word.ofNat (rd 0x10 8), yieldaux := BitVec.ofNat 21 (rd 0x18 8)
    jobtag := g.job, ptbase := g.ptbase, svec := g.svec
    stats := own sv.stats [], ops := own sv.ops [], gang := some ⟨sv.graph, sv.node, sv.gang⟩
    resOff := sv.resOff, resSize := sv.resSize, dfsz := sv.dfsz, nbUsed := sv.barriers, fetchMark := mark
    marks := { view.known.marks with upTo := view.known.marks.upTo.set 5 mark }
    seen := view.known.seen, reads := view.known.reads, past := view.known.past
    waitMarks := view.waitMarks, pub := view.pub, met := view.met }

/-- Offsets of the bytes of a hart block that a restore reads, in order. -/
def blockReads (rd : Nat → Nat → Nat) : List Nat :=
  let run (p : Nat × Nat) : List Nat := (List.range p.2).map fun i => p.1 + i
  ([(0, 0x20), (0x100, 0x200), (0x300, 0xB8), (0x400, 84), (0x480, 0x30), (0x500, 0x800), (0x1000, 0x800)].flatMap run)
    ++ (liveRegs (rd 8 8 % 2 == 1) (rd 0x10 8) (rd 0x18 8)).flatMap fun r => run (regSlot r)

/-- What a restore has read of a slot, in order: offsets, where their bytes lie, and the bytes. -/
abbrev SlotRead := List (Nat × Nat × BitVec 8)

/-- The number that some bytes of a slot hold. -/
def SlotRead.nat (r : SlotRead) (off n : Nat) : Nat :=
  natOfBytes (((r.dropWhile fun q => q.1 < off).takeWhile fun q => q.1 < off + n).map fun q => q.2.2)

/-- The bytes of a slot at what a run of the engine has found. -/
def State.slotOf (s : State) (base : Nat) (run : AreaRun) : SlotRead :=
  run.map fun q => (q.1 - base, q.2.1, s.mem.read q.2.1)

/-- Copies that a racking record has passed over. -/
def RackCmd.resume (m : RackCmd) (rd : Nat → Nat → Nat) : RackCmd :=
  let m : RackCmd := match m.list with
    | none => { m with words := (List.range 16).map fun i => Word.ofNat (rd (8 * i) 8), vstart := rd 0xB0 8 }
    | some _ => m
  let done := if m.list.isSome then rd 0x80 8
    else (List.range m.levels).foldl (fun n l => n + rd (0x80 + 8 * l) 8 * m.below l) 0
  let n := min done m.total
  { m with landed := List.range n, list := m.list.map fun l => { l with entries := l.entries.take n } }

/-- Poison of the bytes that a restore has read of some range of a slot. -/
def State.poisonIn (s : State) (r : SlotRead) (off n : Nat) : List GranPoison :=
  s.poison.filter fun g => r.any fun q => off ≤ q.1 && q.1 < off + n && g.base == q.2.1 / 32 * 32

/-- A byte that a restore has read of some range of a slot is poisoned. -/
def State.slotPoison (s : State) (r : SlotRead) (off n : Nat) : Bool := !(s.poisonIn r off n).isEmpty

/-- Registers of a hart that some bytes of its slot hold: those that are not live were not written. -/
def slotRegs (live : List RegId) : List RegId :=
  ((List.range 63).map fun i => RegId.x (BitVec.ofNat 6 (i + 1))) ++ ((List.range 16).map fun i => RegId.p (BitVec.ofNat 4 i)) ++ live

/-- A hart's poisoned registers as its slot gives them: those that it was saved poisoned with, where the slot still is, and
those whose slots lie in granules that were lost since (19 R400, log 116). -/
def State.keptPoison (s : State) (sv : SaveRecord) (r : SlotRead) (base rank : Nat) (live : List RegId) : List Poison :=
  if s.poison.isEmpty then []
  else
    let at_ (q : RegId) : Nat := blockOffset rank + (regSlot q).1
    let mine := ((sv.poison.find? fun q => q.1 == rank).map fun q => q.2).getD []
    let kept := mine.filter fun q => s.slotPoison r (at_ q.reg) (regSlot q.reg).2
    let copied (o : Nat) : Bool := mine.any fun q => at_ q.reg / 32 ≤ o / 32 && o / 32 ≤ (at_ q.reg + (regSlot q.reg).2 - 1) / 32
    let lost := (slotRegs live).filter fun q => !(kept.any fun p => p.reg == q)
      && (List.range (regSlot q).2).any fun i => !copied (at_ q + i) && s.slotPoison r (at_ q + i) 1
    kept ++ lost.map fun q => ⟨q, some (Word.ofNat (base + at_ q))⟩

/-- A channel takes what a restore brings, which no rollback withdraws. -/
def State.giveRack (s : State) (c k : Nat) (f : RackChannel → RackChannel) : State :=
  s.modCore c fun q => { q.setRack k (f (q.rack k)) with
    points := q.points.map fun p => { p with
      racks := Vector.ofFn fun (i : Fin 8) => if i.val = k then f p.racks[i] else p.racks[i] } }

/-- A hart takes its saved state; the restore acquires what the save released, at die scope (05 R134). -/
def State.resumeHart (s : State) (g : GraphRun) (sv : SaveRecord) (r : SlotRead) (base c rank h : Nat) : State :=
  let rd (off n : Nat) : Nat := r.nat (blockOffset rank + off) n
  let k := restoredHart g (nodeAt g.data sv.node) sv rank rd s.history.length
  let early := k.ops.flatMap fun o => if o.nb then o.regs.map fun r => (⟨r, k.regVal r, 0, true, some o.id, false⟩ : Early) else []
  let live := liveRegs (rd 8 8 % 2 == 1) (rd 0x10 8) (rd 0x18 8)
  let s := (s.setHart h { k with early := early, poison := s.keptPoison sv r base rank live }).acquireFrom h .die []
  let s := s.modHart h fun k => { k with
    lc := Vector.ofFn fun (i : Fin 4) => s.rebuildLevel h (rd (0x490 + 8 * i.val) 8) }
  let s := s.modCore c fun q => q.takeHart h k.hwgt
  let mine := sv.racks.filter fun q => q.1 == rank
  let s := mine.foldl (fun s q =>
    let off := 0x1000 + 256 * q.2.1
    if rd (off + 0xF8) 1 % 2 = 0 then s
    else
      let m := RackCmd.resume { q.2.2 with
        hart := h, job := k.jobtag, ptbase := k.ptbase, marks := (s.hart h).marks, born := s.history.length, seen := [], wrote := [] } fun o n =>
          rd (off + o) n
      State.rackGo c q.2.1 6 (s.giveRack c q.2.1 fun ch => { ch with cmds := ch.cmds ++ [m] })) s
  let ids := k.ops.map fun o => o.id
  let place (p : Place × Nat) : Place × Nat := match p.1 with
    | .spad _ o => (.spad c o, p.2)
    | _ => p
  let part (p : MemberPart) : MemberPart :=
    if p.saved && ids.contains p.op then { p with saved := false, hart := h, dst := p.dst.map place, src := p.src.map place } else p
  { s with pod := { s.pod with colls := s.pod.colls.map fun (q : CollInst) => { q with parts := q.parts.map part } } }

/-- The reservation takes its image: the queue's part, and the rest as saved, or zeros (17 R360). -/
def State.resumeSpad (s : State) (sv : SaveRecord) (r : SlotRead) (c key : Nat) : State :=
  let at_ := imageOffset sv.gsize
  let image : List Host.Cell := (r.filter fun q => at_ + sv.dfsz ≤ q.1).map fun q => (sv.resOff + (q.1 - at_), q.2.2)
  let lost := (List.range (sv.resSize / 32)).filter fun i => s.slotPoison r (at_ + 32 * i) 1
  let s := s.modCore c fun k =>
    let k := k.clearRange sv.resOff sv.resSize key
    { k with
      spad := (k.spad.writeCells (cellsAt sv.resOff sv.defBytes)).writeCells image
      defq := Tab.set k.defq key sv.defq
      points := k.points.map fun q => { q with defq := Tab.set q.defq key sv.defq }
      poison := k.poison ++ lost.map fun i => ⟨sv.resOff + 32 * i, false, (s.poisonIn r (at_ + 32 * i) 1).any fun g => g.fresh, []⟩ }
  s.pinLines c (image.map fun x => x.1)

/-- The gang runs again on the harts that are held for it. -/
def State.finishRestore (s : State) (d : Nat) (g : GraphRun) (sv : SaveRecord) (r : SlotRead) (p : PlacedGang) (base : Nat)
    (ranks : List Nat) : State :=
  let t := s.tableEntry d p.entry
  let g := { g with job := t.job, ptbase := t.ptbase, svec := t.svec }
  let s := s.resumeSpad sv r p.core p.key
  let s := (ranks.zip p.harts).foldl (fun s q => s.resumeHart g sv r base p.core q.1 q.2) s
  let hartOf (rank : Nat) : Nat := (((ranks.zip p.harts).find? fun q => q.1 == rank).map fun q => q.2).getD 0
  let s := sv.fifos.foldl (fun s f => s.giveRack p.core f.1 fun ch => { ch with
    fifo := f.2.foldl (fun l w => pushStatus l { w with hart := hartOf w.hart }) ch.fifo }) s
  let s := s.modDie d fun k => { k with
    placed := k.placed ++ [{ p with saving := false }]
    handed := k.handed.filter fun q => q.key ≠ p.key
    records := k.records.filter fun q => !(q.firing == sv.firing && q.gang == sv.gang)
    saveQueue := k.saveQueue.tail, frozenOp := none }
  ((s.settleMarks p.core).kick d).runEngine d

/-- The engine reads the slot from where it stopped; what it had read before stands (17 R364). -/
def State.readSlot (s : State) (d : Nat) (g : GraphRun) (sv : SaveRecord) (p : PlacedGang) : State :=
  let base := s.slotBase d sv
  let ranks := (List.range sv.gsize).filter fun r => !sv.exited.contains r
  let kept : SlotRead := match (s.die d).frozenOp with
    | some f => if f.gang = p.key then f.read else []
    | none => []
  let heads := (ranks.flatMap fun r => (List.range 0x20).map fun i => blockOffset r + i).filter fun o => (s.die d).resumeAt p.key ≤ o
  let ahead : SlotRead := kept ++ s.slotOf base (s.areaRun p.core d sv (heads.map fun o => base + o)).1
  let rd (r : Nat) (off n : Nat) : Nat := SlotRead.nat ahead (blockOffset r + off) n
  let rest := ranks.any fun r => rd r 8 8 % 2 == 1 || (rd r 0x18 8).testBit 20
  let image := imageOffset sv.gsize
  let offs := (ranks.flatMap fun r => (blockReads (rd r)).map fun o => blockOffset r + o)
    ++ (List.range (if rest then sv.resSize else sv.dfsz)).map fun i => image + i
  let run := s.areaRun p.core d sv ((offs.filter fun o => (s.die d).resumeAt p.key ≤ o).map fun o => base + o)
  let all : SlotRead := kept ++ s.slotOf base run.1
  let s := s.touchArea d sv (p.harts.headD 0) true run.1
  match run.2 with
  | some (va, fsub, code) => s.freezeOp d p.key false sv base va fsub code all
  | none => s.finishRestore d g sv all p base ranks

/-- The operation at the head of the engine's queue, if it is a restore. -/
def State.restoreStep (s : State) (d : Nat) : State :=
  match (s.die d).saveQueue with
  | [] => s
  | key :: _ => match (s.die d).handed.find? fun g => g.key == key && g.saving with
    | none => s.runEngine d
    | some p => match s.run? d p.graph, (s.die d).record? p.firing p.gang with
      | some g, some sv => s.readSlot d g sv p
      | _, _ => (s.modDie d fun k => { k with
          handed := k.handed.filter fun q => q.key ≠ key, saveQueue := k.saveQueue.tail, frozenOp := none }).runEngine d

def execContextRestore (die : Nat) (s : State) : Host.Outcome State Fault Refusal :=
  awake (chipOfDie die) s fun s => s.restoreStep die

end Sys2Proof.Machine
end

