-- ==== Sys2Proof/Machine/Strikes.lean ====
section
/-! DEFINITION. Strikes and rollbacks, the checking lane and residue checks, lost and corrected data, wear, and the reset
of a core (17 R370, 19 R390 to R407). -/
namespace Sys2Proof.Machine

/-! ### The reset of a core (17 R370, 19 R396, R403) -/

/-- Cores of a die with fewer than four working lane groups (19 R404). -/
def State.countShrunk (s : State) (d : Nat) : State :=
  let n := (s.cores.filter fun p => dieOfCore p.1 == d && p.2.working < 4).length
  s.modDie d fun k => { k with shrunk := BitVec.ofNat 7 n }

/-- The graphs that lose a gang when a core is reset, each with the gang's node: gangs on the core, and saved gangs
bound to its barriers. -/
def Die.lostGraphs (k : Die) (c : Nat) : List (Word × Nat) :=
  (k.placed.filter fun p => p.core == c).map (fun p => (p.graph, p.node))
    ++ (k.records.filter fun r => r.core == c && r.barriers ≠ 0).map fun r => (r.graph, r.node)

/-- A core's own state at its reset: it keeps its clock, its wear and its record of rollbacks. -/
def Core.underResetNow (k : Core) : Core :=
  { Core.reset with
    clock := k.clock, rbCount := k.rbCount, rbLost := k.rbLost, rbCause := k.rbCause, rbCycles := k.rbCycles
    retired := k.retired, drain := k.drain, groups := k.groups, checked := 0, lastChecked := [], mismatches := k.mismatches
    underReset := true, gone := k.gone }

/-- A core is put under reset: its gangs are lost, its harts and barriers are cleared, and what it held is gone. -/
def State.resetCore (s : State) (c : Nat) : State :=
  let d := dieOfCore c
  let mine (h : Nat) : Bool := coreOf h == c
  let s := ((s.die d).lostGraphs c).foldl (fun s g => s.failGraph d g.1 g.2 0x12) s
  let back := (s.die d).handed.filter fun p => p.core == c && p.saving
  let s := s.modDie d fun k => Die.unpin <| Die.pruneEngine { k with
    handed := k.handed.filter fun p => p.core ≠ c
    ready := k.ready ++ back.map fun p => ⟨p.firing, p.graph, p.entry, p.node, p.gang, p.prio, p.time, p.x5, p.x6,
      ((k.record? p.firing p.gang).map fun r => r.slot), []⟩ }
  let drop (p : MemberPart) : MemberPart := if mine p.hart && p.stage.open && !p.saved then { p with stage := p.stage.lost } else p
  let s : State := { s with
    harts := s.harts.map fun p => if mine p.1 then (p.1, Hart.reset) else p
    net := s.net.filter fun r => !(mine r.hart && (!r.sent || r.kind == .load))
    pod := { s.pod with colls := s.pod.colls.map fun (q : CollInst) => { q with parts := q.parts.map drop } } }
  let s := s.modCore c Core.underResetNow
  ((s.dueNew [.coreResetEnd c]).runEngine d).kick d

/-- A core under reset ends its reset, unless its number has no core left. -/
def execCoreResetEnd (core : Nat) (s : State) : Host.Outcome State Fault Refusal :=
  awake (core / 512) s fun s =>
    if (s.core core).gone then s else (s.modCore core fun k => { k with underReset := false }).kick (dieOfCore core)

/-- sprstat of a die, and the lgstat and rstat of a core, in the log (19 R406). -/
def State.logCore (s : State) (c kind : Nat) (detail : Word) : State :=
  s.logEvent (dieOfCore c) kind (State.logUnit 0 (c % 128)) 0 detail

/-- A core fails: it is reset, and a spare takes its number if one remains (19 R396, R403). What rstat reads on the number
from then on is not stated: the spare's own reset value, 0 (DESIGN CHOICE, log 88). -/
def State.failCore (s : State) (c : Nat) : State :=
  let d := dieOfCore c
  let s := (s.logCore c 9 (s.core c).rstat).resetCore c
  let n := (s.die d).spares
  if n = 0 then s.modCore c fun k => { k with gone := true }
  else
    let own (r : Nat × Nat) : Bool := r.1 == c % 128
    let s := s.modDie d fun k => { k with
      spares := n - 1, spareRows := k.spareRows.filter (!own ·), usedRows := k.usedRows.filter (!own ·) }
    let s := s.modCore c fun k => { Core.reset with clock := k.clock, underReset := true }
    let s := s.countShrunk d
    s.logCore c 8 (s.sharedReg d 0x320)

/-! ### Core rollback (19 R392 to R396) -/

/-- The hart is one that a rollback leaves alone: free, or of a gang whose slot the engine has begun to write (19 R394). -/
def State.leftAlone (s : State) (h : Nat) : Bool :=
  match s.gangOf h with
  | none => (s.hart h).run == .free
  | some p => ((s.die (dieOf h)).record? p.firing p.gang).isSome

/-- An operation completes in a hart that is being restored. -/
def Hart.recomplete (h : Hart) (o : Op) : Hart :=
  let h := h.overwritten o
  let h := { h with
    ops := h.ops.filter fun q => q.id ≠ o.id
    early := h.early.filter fun e => e.op ≠ some o.id
    stats := match o.status with
      | some st => h.stats ++ [st]
      | none => h.stats }
  let h := match o.ctr with
    | some c => { h with w := h.w.set c.toNat ((h.w[c.toNat]'c.isLt) - 1) c.isLt }
    | none => h
  h.mergeFlags o.flags

/-- A register as a landing left it, poisoned or not. -/
def Hart.relanded (h : Hart) (r : RegId) (v : RegVal) (lost : Option Poison) : Hart :=
  let h := h.withReg r v
  { h with poison := (h.poison.filter fun p => p.reg ≠ r) ++ lost.toList }

/-- What happened to a hart after its restored state, as far as it stands: landings and completions of operations that
it still has, but for those that run again. -/
def Hart.replayEvents (again : List Nat) : List HartEvent → Hart → Hart
  | [], h => h
  | .retired _ :: rest, h => replayEvents again rest h
  | .landed r v lost :: rest, h =>
    replayEvents again rest (if h.ops.any fun o => o.regs.contains r && !again.contains o.id then h.relanded r v lost else h)
  | .completed o :: rest, h =>
    replayEvents again rest (if (h.ops.any fun q => q.id == o.id) && !again.contains o.id then h.recomplete o else h)
  | .aborted v :: rest, h => replayEvents again rest { h with collst := v }

/-- An operation that is still under way is as far on as it was. -/
def Hart.sameOps (now : Hart) (again : List Nat) (h : Hart) : Hart :=
  let ops := h.ops.map fun o => if again.contains o.id then o else (now.ops.find? fun q => q.id == o.id).getD o
  (ops.filter fun o => o.landed && !again.contains o.id).foldl Hart.overwritten { h with ops := ops }

/-- A racking operation completed since a rollback's point is counted again: its copies are queued again (19 R392). -/
def Hart.recount (h : Hart) (o : Op) : Hart :=
  let h := { h with
    ops := h.ops ++ [{ o with landed := false, status := none, whole := [] }]
    stats := match o.status with
      | some st => h.stats.erase st
      | none => h.stats }
  match o.ctr with
  | some c => { h with w := h.w.set c.toNat ((h.w[c.toNat]'c.isLt) + 1) c.isLt }
  | none => h

/-- The operations of some list that completed, before a hart's first withdrawn convoy. -/
def completedAgain (again : List Nat) : List HartEvent → List Op
  | [] => []
  | .retired _ :: _ => []
  | .completed o :: rest => (if again.contains o.id then [o] else []) ++ completedAgain again rest
  | _ :: rest => completedAgain again rest

/-- A hart as left by the convoys that retired before a cycle (19 R392). A gang barrier's arrival, and what is queued,
are withdrawn; the preemption registers stand. -/
def State.restoredAt (s : State) (c from_ h : Nat) (again : List Nat) (arrived : List (Nat × Arrival)) : Hart :=
  let now := s.hart h
  let late := ((s.core c).log.filter fun r => r.hart == h && from_ ≤ r.cycle).map fun r => r.what
  let tail := late.dropWhile fun e => match e with
    | .retired _ => false
    | _ => true
  let base := match tail with
    | .retired before :: rest => now.sameOps again (Hart.replayEvents again rest before)
    | _ => now
  let base := (completedAgain again late).foldl Hart.recount base
  { base with
    run := if base.run == .halted then base.run else .running
    queue := [], gbars := if base.inGbar then base.gbars - 1 else base.gbars, inGbar := false
    inNbaw := (arrived.find? fun a => a.1 == h).map fun a => a.2
    prqPrio := now.prqPrio, prqForced := now.prqForced, prqReq := now.prqReq, fetchMark := s.history.length }

/-- The newest change that a core saw of a location when its store retired is taken out of the history, newest first: the
place stays, and the change after it replaces what this one replaced. The result says what that was, while no such later
change has taken it. -/
def forgetChange (c key : Nat) : List Overwritten → List Overwritten × Option Byte
  | [] => ([], none)
  | o :: rest =>
    if o.key == key && !o.home && o.core == some c then ({ o with core := none } :: rest, some o.old)
    else
      let f := forgetChange c key rest
      match f.2 with
      | some b => if o.key == key && o.seenBy c then ({ o with old := b } :: f.1, none) else (o :: f.1, some b)
      | none => (o :: f.1, none)

/-- Stores of a core to some locations have never been (19 R392). -/
def State.forgetStores (s : State) (c : Nat) (keys : List Nat) : State :=
  { s with history := keys.foldl (fun l k => (forgetChange c k l).1) s.history }

/-- A scratchpad store is undone, with the poison that it cleared (04 R115, 19 R400). -/
def State.undoSpad (s : State) (c : Nat) (bytes : List Host.Cell) (lost : List GranPoison) : State :=
  (s.modCore c fun k => { k with
    spad := k.spad.writeCells bytes
    poison := k.poison ++ lost.filter fun g => !k.poison.any fun q => q.base == g.base }).forgetStores c
      (bytes.map fun b => spadLoc c b.1)

/-- An entry of a core's cellar is withdrawn: an undo record is applied, a request or a store dropped, a contribution to an
instance taken back. -/
def State.withdrawEntry (c : Nat) (s : State) (e : CellarEntry) : State :=
  match e.kind with
  | .undo bytes lost _ => s.undoSpad c bytes lost
  | .store cells _ _ => s.forgetStores c (cells.map fun x => x.1)
  | .request id =>
    let keys := match s.request? id with
      | some r => if r.kind == .store then r.elems.flatMap (s.storeKeys r.job) else []
      | none => []
    { s.forgetStores c keys with net := s.net.filter fun r => r.id ≠ id }
  | .contribution i m => s.modPart i m fun p => { p with stage := .absent, source := none }
  | _ => s

/-- Operations of the racking commands of some channels. -/
def rackOps (l : Vector RackChannel 8) : List Nat := l.toList.flatMap fun ch => ch.cmds.map fun m => m.op

/-- The state of a core at a point: barriers with the arrivals from outside since then, queues, channels. -/
def State.restorePoint (s : State) (c : Nat) (p : CorePoint) : State :=
  let again := (s.core c).outside.filter fun o => p.cycle < o.1
  s.modCore c fun k =>
    let k := { k with nb := p.barriers, defq := p.defq, racks := p.racks, spmode := p.spmode }
    again.foldl (fun k o => k.setBarrier o.2.1 (NamedBarrier.arriveN o.2.2.2 o.2.2.1 (k.barrier o.2.1))) k

/-- A gang under preemption whose save has not begun runs on, and its countdown with it (19 R394). -/
def State.resumeStops (s : State) (c : Nat) : State :=
  let d := dieOfCore c
  let k := s.die d
  let mine := k.placed.filter fun p => p.core == c && p.preempt.isSome && (k.record? p.firing p.gang).isNone
  let keys := mine.map fun p => p.key
  let s := s.modDie d fun k => { k with
    placed := k.placed.map fun p => if keys.contains p.key then { p with saving := false } else p
    saveQueue := k.saveQueue.filter fun q => !keys.contains q }
  (s.dueNew (keys.map fun q => .preemptDeadlineExpiry d q)).runEngine d

/-- A report at the present cycle rolls a core back to 320 cycles before (19 R392, R395, R396). -/
def State.rollback (s : State) (c cause : Nat) : State :=
  let k := s.core c
  if k.underReset || k.gone then s
  else
    let from_ := k.clock - Config.sealWindow
    let harts := ((List.range 8).map fun n => 8 * c + n).filter fun h => !s.leftAlone h
    let point := k.points.find? fun p => from_ ≤ p.cycle
    let racks := (point.map fun p => p.racks).getD k.racks
    let arrived := (point.map fun p => p.arrived).getD
      (harts.filterMap fun h => (s.hart h).inNbaw.map fun a => (h, a))
    let restored := harts.map fun h => (h, s.restoredAt c from_ h (rackOps racks) arrived)
    let s := restored.foldl (fun s p => s.setHart p.1 p.2) s
    let late := k.cellar.filter fun e => !e.sealed && from_ ≤ e.cycle
    let s := late.reverse.foldl (State.withdrawEntry c) s
    let s := s.modCore c fun k => { k with cellar := k.cellar.filter fun e => e.sealed || e.cycle < from_ }
    let s := match point with
      | some p => s.restorePoint c p
      | none => s
    let gone (r : Request) : Bool := r.sent && (match r.kind with
        | .load | .bound _ _ _ _ _ _ => true
        | _ => false) && restored.any fun p => p.1 == r.hart && !(p.2.ops.any fun o => o.id == r.op)
    let s : State := { s with
      net := s.net.filter fun r => !gone r
      agenda := s.agenda.filter fun e => match e with
        | .rackingCopyLand c' _ _ => c' ≠ c
        | _ => true }
    let finish := k.clock + s.pick (.other 41) 65
    let times := (k.rbCycles.filter fun t => k.clock < t + 2 ^ 21) ++ [k.clock]
    let s := s.modCore c fun k => { k with
      clock := finish, bound := none, quota := Vector.replicate 8 0, lastChecked := []
      log := k.log.filter fun r => r.cycle < from_
      points := k.points.filter fun p => p.cycle < from_
      rbCount := k.rbCount + 1, rbLost := BitVec.ofNat 16 (min (finish - from_) 65535), rbCause := BitVec.ofNat 8 cause
      rbCycles := times }
    let s := ((List.range 8).foldl (fun s n => State.rackGo c n 6 s) (s.resumeStops c)).settleMarks c
    let s := s.logCore c 1 (s.core c).rstat
    if 16 ≤ times.length then s.failCore c else s

/-- Where the strike was: one core, the boundary of two, or an area outside every core (19 R390). -/
def execStrikeReport (pos : StrikePos) (s : State) : Host.Outcome State Fault Refusal :=
  match pos with
  | .inCore c => awake (c / 512) s fun s => s.rollback c 1
  | .boundary a b => awake (a / 512) s fun s => (s.rollback a 2).rollback b 2
  | .uncore d code => awake (chipOfDie d) s fun s => s.logEvent d 2 (State.logUnit 5 s.anyUnit) 0 code

/-! ### The checking lane (19 R397, R398) -/

/-- The clock cycles over which mismatches are counted. -/
def mismatchWindow : Nat := 2 ^ 31

/-- A physical lane group is retired: the spare takes its place, or the core drains (19 R398). -/
def State.retireGroup (s : State) (c : Nat) (g : Fin 5) : State :=
  let s := s.modCore c fun k => { k with retired := k.retired ||| (1#5 <<< g.val), drain := k.drain || k.retired ≠ 0 }
  let s := s.countShrunk (dieOfCore c)
  let s := s.logCore c 3 (s.core c).lgstat
  if (s.core c).working = 0 then s.failCore c
  else if (s.core c).drain then s.dueNew [.drainCoreReset c] else s

/-- The physical lane groups that work, of eight lanes each: the lowest four that are not retired (19 R397, log 89). -/
def Core.workingGroups (k : Core) : List Nat := ((List.range 5).filter fun g => !k.retired.getLsbD g).take 4

/-- The lane group that the checking lane watches for the m-th checked member: that of lane m mod 32 (19 R397). -/
def Core.watched (k : Core) (m : Nat) : Option Nat := k.workingGroups[m % 32 / 8 % max 1 k.workingGroups.length]?

/-- The lane groups watched for the members of the convoy that bound last, which has not retired when they are compared. -/
def Core.watchedNow (k : Core) : List Nat := k.lastChecked.filterMap k.watched

/-- A mismatch of the checking lane, of a group that it watches, rolls the core back, and is counted. A retired group's
mismatches count on among the distinct groups of the window (19 R398). -/
def State.mismatch (s : State) (c : Nat) (g : Fin 5) : State :=
  let k := s.core c
  if k.underReset || k.gone || !k.watchedNow.contains g.val then s
  else
    let seen := (k.mismatches.filter fun m => k.clock < m.1 + mismatchWindow) ++ [(k.clock, g.val)]
    let s := (s.modCore c fun k => { k with mismatches := seen }).rollback c 3
    if (s.core c).underReset then s
    else if 3 ≤ (dedup (seen.map fun m => m.2)).length then s.failCore c
    else if 3 ≤ (seen.filter fun m => m.2 == g.val).length then s.retireGroup c g
    else s

/-- A draining core that holds no gang is reset, and reports a smaller vlmax (19 R398). -/
def State.drained (s : State) (c : Nat) : State :=
  let d := dieOfCore c
  if !(s.core c).drain then s
  else if (s.die d).placed.any (fun p => p.core == c) || (s.die d).handed.any fun p => p.core == c then s.dueNew [.drainCoreReset c]
  else (s.resetCore c).modCore c fun k => { k with drain := false, groups := k.working }

def execDrainCoreReset (core : Nat) (s : State) : Host.Outcome State Fault Refusal :=
  awake (core / 512) s fun s => s.drained core

/-! ### Corrected errors and spares (19 R401) -/

/-- A row: unit class, unit index and row, as one key of the filter. -/
def rowKey (cls unit row : Nat) : Nat := (cls * 2 ^ 32 + unit) * 2 ^ 64 + row

/-- How the log writes a row's identity is not stated: one word for each row (log 26). -/
def rowIdentity (key : Nat) : Word := Word.ofNat (Config.free (2 ^ 200 + key))

/-- The bits of the filter that a row sets. -/
def filterBits (key : Nat) : List Nat := ([0, 1, 2] : List Nat).map fun i => Config.filterHash i key % 65536

/-- A way of a die's L2 is retired: its modified lines are written back, and its pinned lines move to another way of their
set (19 R401). -/
def State.retireWay (s : State) (d w : Nat) : State :=
  let pins := (s.die d).l2.filter fun l => l.way == w && l.isPinned
  let s := (s.writeBack d fun l => l.way == w).modDie d fun k => { k with
    l2gone := k.l2gone ||| BitVec.ofNat 24 (2 ^ w), l2ret := k.l2ret + 1 }
  pins.foldl (fun s l =>
    match ((s.die d).openWays l.set)[s.pick (.line (2 ^ 61 + l.set)) ((s.die d).openWays l.set).length]? with
    | some v => s.takeWay d { l with way := v }
    | none => s) s

/-- The way that holds a row of the L2, which the device knows, among those in use. -/
def State.wayOfRow (s : State) (d row : Nat) : Nat :=
  let ways := (List.range 24).filter fun w => !(s.die d).l2gone.getLsbD w
  ways.getD (Config.free (2 ^ 201 + row) % max 1 ways.length) 0

/-- A spare row, or the retirement of a way, answers a repeat (19 R401). -/
def State.spare (s : State) (d cls unit row : Nat) (addr : Word) : State :=
  let brought (s : State) : State := s.logEvent d 8 (State.logUnit cls unit) addr (s.sharedReg d 0x320)
  match cls with
  | 1 => if (s.die d).l2ret.toNat < 4 then brought (s.retireWay d (s.wayOfRow d row)) else s
  | 2 =>
    if s.pick (.other 42) 2 = 0 then
      brought (s.modDie d fun k => { k with hbmsp := if k.hbmsp = BitVec.allOnes 16 then k.hbmsp else k.hbmsp + 1 })
    else s
  | 0 => (s.modDie d fun k => { k with
      spareRows := if k.spareRows.contains (unit, row) then k.spareRows else k.spareRows ++ [(unit, row)] }).dueNew
        [.spareRowInsert (128 * d + unit)]
  | _ => s

/-- A corrected error of a row is logged, as a first occurrence or a repeat. -/
def State.corrected (s : State) (d cls unit row : Nat) (addr : Word) : State :=
  let key := rowKey cls unit row
  let bits := filterBits key
  if bits.all fun b => (s.die d).filter.contains b then
    (s.logEvent d 7 (State.logUnit cls unit) addr (rowIdentity key)).spare d cls unit row addr
  else
    let s := s.modDie d fun k =>
      if k.filterFill + 1 = 4096 then { k with filter := [], filterFill := 0 }
      else { k with filter := dedup (bits ++ k.filter), filterFill := k.filterFill + 1 }
    s.logEvent d 6 (State.logUnit cls unit) addr (rowIdentity key)

/-- The array that a row of a core lies in: scratchpad, cellar or register file. -/
def arrayOf (row : Nat) : Nat := row / 2 ^ 32

/-- Spare rows, sixteen for each array, are brought in once a core holds no gang. -/
def State.insertRows (s : State) (c : Nat) : State :=
  let d := dieOfCore c
  if (s.die d).placed.any (fun p => p.core == c) || (s.die d).handed.any fun p => p.core == c then s.dueNew [.spareRowInsert c]
  else ((s.die d).spareRows.filter fun r => r.1 == c % 128).foldl (fun s r =>
    let used := (s.die d).usedRows.filter fun u => u.1 == r.1 && arrayOf u.2 == arrayOf r.2
    let s := s.modDie d fun k => { k with spareRows := k.spareRows.erase r }
    if 16 ≤ used.length then s
    else
      let s := s.modDie d fun k => { k with usedRows := k.usedRows ++ [r] }
      s.logEvent d 8 (State.logUnit 0 r.1) (Word.ofNat r.2) (s.sharedReg d 0x320)) s

def execSpareRowInsert (core : Nat) (s : State) : Host.Outcome State Fault Refusal :=
  awake (core / 512) s fun s => s.insertRows core

/-! ### Lost data (19 R399, R400) -/

/-- A granule of package memory whose only copy is lost. -/
def State.loseMem (s : State) (key : Nat) : State :=
  let base := key / 32 * 32
  let l2 := s.lineModified key
  let s : State := { s with poison := (s.poison.filter fun g => g.base ≠ base) ++ [⟨base, l2, true, []⟩] }
  s.logEvent (homeDie key) 5 (State.logUnit (if l2 then 1 else 2) s.anyUnit) (Word.ofNat (base % 2 ^ 48)) (if l2 then 2 else 1)

def State.loseSpad (s : State) (c off : Nat) : State :=
  let base := off / 32 * 32
  let s := s.modCore c fun k => { k with poison := (k.poison.filter fun (g : GranPoison) => g.base ≠ base) ++ [⟨base, false, true, []⟩] }
  s.logEvent (dieOfCore c) 5 (State.logUnit 0 (c % 128)) (Word.ofNat (Config.scratchBase + base)) 3

def State.loseReg (s : State) (h : Nat) (r : RegId) : State :=
  let s := s.modHart h fun k => { k with poison := (k.poison.filter fun p => p.reg ≠ r) ++ [⟨r, none⟩] }
  s.logEvent (dieOf h) 5 (State.logUnit 0 (coreOf h % 128)) (Word.ofNat (RegId.stallSub r)) 5

/-- A bad copy of a line that has a good one is dropped, and the hart's queue is issued again. A line that is modified has
no good copy, and neither has one whose refetch fails as well (19 R399). -/
def State.dropCopy (s : State) (h key : Nat) (again : Bool) : State :=
  let job := (s.hart h).jobtag
  let home := if 2 ^ 63 ≤ key then (s.homeAddr job .read key).toOption else some key
  let s := s.modHart h fun k => { k with queue := [] }
  let s := if 2 ^ 63 ≤ key then s.modDie (dieOf h) fun k => { k with
      window := k.window.filter fun l => !(l.job == job && l.base == key / 128 * 128) }
    else s
  let s := s.logEvent (dieOf h) 4 s.anyUnit (Word.ofNat ((if 2 ^ 63 ≤ key then key else key % 2 ^ 48) / 32 * 32)) 0
  match home with
  | some k => if again || (key < 2 ^ 63 && s.lineModified k) then s.loseMem k else s
  | none => s

/-- The bytes that a sealed entry was to write at its home, as ranges of locations: the descriptor of a work queue, the
header of a key page, the word of a counter (19 R399, log 90). -/
def State.lostRuns (s : State) (e : CellarEntry) : List (Nat × Nat) :=
  match e.kind with
  | .store cells _ _ => cells.map fun c => (c.1, 1)
  | .request id => (match s.request? id with
    | none => []
    | some r => (match r.kind with
      | .store | .put | .atomic _ _ | .queueAppend | .queuePop _ | .queueLen | .keyAppend _ => s.requestRuns { r with
          elems := r.elems.filter fun e => e.bytes ≠ 0 }
      | .get => r.elems.flatMap fun e => (e.side.map fun p => s.placeRuns r.job .write p e.bytes).getD []
      | .signal => r.elems.flatMap fun e => if 2 ^ 63 ≤ e.cmp then s.globalRuns r.job .atomic e.cmp 8 else []
      | _ => []))
  | _ => []

/-- Granules of some locations are poisoned where they lie. -/
def State.poisonRuns (s : State) (runs : List (Nat × Nat)) : State :=
  let keys := (runs.filter fun r => r.1 < deviceLoc).flatMap fun r => (List.range r.2).map fun i => r.1 + i
  let spad := dedup ((keys.filter fun k => 2 ^ 56 ≤ k).map fun k => k / 32 * 32)
  spad.foldl (fun s k => s.loseSpad ((k - 2 ^ 56) / 2 ^ 22) (k % 2 ^ 22)) (s.addPoison (keys.filter fun k => k < 2 ^ 56) true)

/-- A lost request ends: a store or a copy as if it were done, any other as refused for poison (log 90). -/
def State.loseRequest (s : State) (r : Request) : State :=
  match r.kind with
  | .store | .put | .get => s.closeRequest r
  | _ => s.closeRequest (r.fail 0 0x12 2 (Word.ofNat ((r.elems.head?.map fun e => e.va).getD 0)))

/-- A lost cellar entry: unsealed, the core rolls back; sealed, its destination is poisoned at the home (19 R399). -/
def State.loseEntry (s : State) (c seq : Nat) : State :=
  match (s.core c).cellar.find? fun e => e.seq == seq with
  | none => s
  | some e =>
    if !e.sealed then s.rollback c 5
    else
      let runs := s.lostRuns e
      let lost := (s.dropEntry c seq).poisonRuns runs
      let at_ := (runs.head?.map fun r => r.1).getD 0
      let lost := lost.logEvent (dieOfCore c) 5 (State.logUnit 0 (c % 128)) (Word.ofNat (at_ / 32 * 32 % 2 ^ 48)) 1
      match e.kind with
      | .store _ _ op => lost.settleFor e.hart op
      | .request id => (match s.request? id with
        | some r => if r.kind == .clean || r.kind == .inval then s else lost.loseRequest r
        | none => s)
      | _ => s

end Sys2Proof.Machine
end

