-- ==== Sys2Proof/Machine/Fabric.lean ====
section
/-! DEFINITION. The fabric and the package's power: lane health, drops and retraining, planned changes of a lane set,
links that go down and come up, the light budget, and islands (11 R291 to R298, R303, 17 R369, 18 R374, R379 to R384). -/
namespace Sys2Proof.Machine

/-! ### Requests in flight when a link goes down (18 R374) -/

/-- The pieces of a copy that are performed or not on their own: aligned parts of 8 bytes. -/
def ReqElem.parts (copies : Bool) : Nat → ReqElem → List ReqElem
  | 0, e => [e]
  | n + 1, e =>
    match (List.range e.bytes).find? fun c => 0 < c && copies && e.mayCut c with
    | none => [e]
    | some c => (e.cut c).1 :: ReqElem.parts copies n (e.cut c).2

/-- The number of an operation that no hart has: what is performed for it answers nobody. -/
def noOp : Nat := 2 ^ 64

namespace State

/-- A message of a die crosses a link between two dies. -/
def crosses (a b : Nat) (r : Request) (e : ReqElem) : Bool :=
  let f := fromDie r.hart
  match r.elemDie e with
  | some t => (f == a && t == b) || (f == b && t == a)
  | none => false

/-- A request is one step at its home. -/
def oneStep (r : Request) : Bool :=
  match r.kind with
  | .signal | .queueAppend | .queuePop _ | .queueLen | .keyAppend _ => true
  | _ => false

/-- A one-step request is performed at its home, if no earlier access holds it back there. -/
def doneWhole (s : State) (r : Request) : State :=
  match r.kind, r.elems with
  | .signal, e :: _ =>
    if s.heldBack r || s.olderSignal r e.cmp then s
    else if 2 ^ 63 ≤ e.cmp then s.signalCounter r e.cmp e.data else s.signalBarrier r e.cmp e.data
  | .keyAppend f, _ => if s.heldBack r then s else s.keyAppend r f
  | .queueAppend, _ | .queuePop _, _ | .queueLen, _ => if s.queueWaits r then s else s.queueOp r
  | _, _ => s

/-- What a request in doubt may still have done at its home: each part, or a whole one-step request, is performed or
not, as the device chooses; no answer returns (18 R374, R378). -/
def doubtful (s : State) (r : Request) (lost : List ReqElem) : State :=
  let ghost : Request := { r with op := noOp, dest := .nowhere, silent := true, acquire := none, elems := if oneStep r then r.elems else lost }
  let keep (t : State) : State := { t with net := (t.net.filter fun q => q.id ≠ r.id) ++ [r] }
  let s0 : State := { s with net := s.net.map fun q => if q.id == r.id then ghost else q }
  if oneStep r then (if s.pick (.inDoubt r.id) 2 = 0 then s else keep (s0.doneWhole ghost))
  else match r.kind with
    | .load | .bound _ _ _ _ _ _ => s
    | _ =>
      let ps := lost.flatMap fun e => e.parts r.kind.copies e.bytes
      keep (((List.range ps.length).zip ps).foldl (fun s p =>
        if s.runsWait ghost (s.elemRuns ghost p.2) || s.pick (.inDoubt (r.id + 2 ^ 64 * (p.1 + 1))) 2 = 0 then s
        else s.performElem ghost p.2) s0)

/-- A request in flight over a link that has gone down resolves: IN_DOUBT, naming its lowest element. -/
def resolveRequest (s : State) (a b : Nat) (r : Request) : State :=
  let lost := r.elems.filter (crosses a b r)
  match lost with
  | [] => s
  | e0 :: _ =>
    let s := s.doubtful r lost
    let fails (q : Request) : Request := lost.foldl (fun q e => q.fail e.idx 0x12 5 (Word.ofNat e.va)) q
    let s := s.modRequest r.id fun q =>
      if oneStep r && r.kind != .signal then { q.fail 0 0x12 5 (Word.ofNat e0.va) with elems := [] }
      else { fails q with elems := q.elems.filter fun e => !lost.contains e }
    match s.request? r.id with
    | none => s
    | some q => if !q.elems.isEmpty || s.asleep q then s else if oneStep q then s.closeRequest q else s.endRequest q.id

/-- Every request in flight over a link resolves, in the order in which they retired. -/
def resolveLink (s : State) (a b : Nat) : State :=
  (s.net.filter fun r => r.sent).foldl (fun s r => s.resolveRequest a b r) s

/-! ### Links down and up (18 R382, R383) -/

/-- A die that is not frozen reports a fabric event; LANE says something for a dropped lane only. -/
def report (s : State) (d event peer : Nat) (lane : Option Nat) : State :=
  if (s.pkg (chipOfDie d)).frozen then s
  else s.fabricEvent d event peer (lane.getD (s.anyValue (.other (2 ^ 23 + d))))

/-- A link goes down: its replay buffers are emptied, and every request in flight on it resolves. -/
def linkDown (s : State) (d peer : Nat) : State :=
  if !(s.link d peer).up then s
  else
    let off (k : Link) : Link := { k with up := false, unacked := 0, queued := 0, dropping := false }
    let s := (s.modLink d peer off).modLink peer d off
    ((s.resolveLink d peer).report d 2 peer none).report peer 2 d none

/-- The lanes that can join a link. -/
def joins (k : Link) : BitVec 4 := k.usable k.req &&& planes fun n => (laneAt k n).lst != 3

/-- A direction of a link can carry traffic. -/
def directionOk (s : State) (d peer : Nat) : Bool :=
  let k := s.link d peer
  let p := s.pkg (chipOfDie d)
  k.lps != 3 && !k.relock && joins k != 0 && s.pod.chips.contains (chipOfDie d) && !p.frozen && !p.held

/-- The lanes of a set are active, others that were active stand by. -/
def Link.activate (k : Link) (n : BitVec 4) : Link :=
  { k with
    act := n
    lanes := Vector.ofFn fun (i : Fin 4) =>
      let l := k.lanes[i]
      if l.lst == 2 || l.lst == 3 then l else { l with lst := if n.getLsbD i.val then 0 else 1 } }

/-- A down link comes up once both directions can carry traffic. -/
def linkCheck (s : State) (d peer : Nat) : State :=
  if (s.link d peer).up || !s.directionOk d peer || !s.directionOk peer d then s
  else
    let raise (k : Link) : Link := { Link.activate k (joins k) with up := true, unacked := 0, queued := 0, rxSet := joins k, dropping := false }
    let s := (s.modLink d peer raise).modLink peer d raise
    ((s.report d 3 peer none).report peer 3 d none).pumpEvery

/-- A pair of different dies of the pod. -/
def isPair (d peer : Nat) : Bool := d != peer && Decidable.decide (d < 256) && Decidable.decide (peer < 256)

/-! ### Transitions (11 R296, R297, 18 R380) -/

/-- Writes of REQ and LPS that a transition has held. -/
def applyHeld (s : State) (d peer : Nat) : State :=
  let k := s.link d peer
  let s := s.modLink d peer fun k => { k with heldReq := none, heldLps := none }
  let s := match k.heldReq with
    | some q => s.writeReq d peer q
    | none => s
  match k.heldLps with
  | some q => s.writeLps d peer q
  | none => s

/-- MARGIN of a lane with an estimate of its errors, locked or not (11 R294). -/
def marginFor (lock : Bool) (pfe : BitVec 8) : Nat :=
  if !lock || pfe.toNat < 64 then 3 else if pfe.toNat < 80 then 2 else if pfe.toNat < 96 then 1 else 0

/-- A lane whose receiver has locked, or has lost its lock. -/
def Lane.locked (lock : Bool) (l : Lane) : Lane := { l with lock := lock, margin := BitVec.ofNat 2 (marginFor lock l.pfe) }

/-- A lane without light; one that has been dropped stays so. -/
def Lane.dark (l : Lane) : Lane := if l.lst = 2 then l else { l with lst := 3 }

/-- A die's transmit lanes of a link go dark: the peer, which receives them, loses its locks (11 R294, R297). -/
def darken (s : State) (d peer : Nat) : State :=
  (s.modLink d peer fun k => { k with lanes := k.lanes.map Lane.dark }).modLink peer d fun k => { k with
    lanes := k.lanes.map fun l => Lane.locked false (Lane.dark l) }

/-- A lane that has light again stands by. -/
def Lane.lit (l : Lane) : Lane := if l.lst = 3 then { l with lst := 1 } else l

/-- A die's transmit lanes have light, and the peer has locked on them; they stand by unless the peer's own are dark. -/
def light (s : State) (d peer : Nat) : State :=
  let both := (s.link peer d).lps != 3
  let on (l : Lane) : Lane := if both then Lane.lit l else l
  (s.modLink d peer fun k => { k with lanes := k.lanes.map on }).modLink peer d fun k => { k with
    lanes := k.lanes.map fun l => on (Lane.locked true l) }

/-- The marker flit reaches the receiver, which takes the new set and acknowledges. -/
def marker (s : State) (d peer : Nat) : State :=
  if !(s.link d peer).busy || (s.link d peer).relock then s
  else (s.modLink peer d fun k => { k with
    rxSet := (s.link d peer).next, rxfl := k.rxfl + Word.ofNat (lanesIn (s.link d peer).act) }).dueNew
      [.laneTransitionComplete d peer]

/-- A drop that has run to its end lets new flits through, unless another lane's notice is on its way (18 R380). -/
def dropEnds (s : State) (d peer : Nat) : State :=
  let more := s.agenda.any fun e => match e with
    | .dropNotice a b _ => a == d && b == peer
    | _ => false
  if !(s.link d peer).dropping || more then s
  else
    let s := s.modLink d peer fun k => Link.sendFlits { k with dropping := false }
    if (s.link d peer).unacked = 0 then s else s.dueNew [.flitReceive peer d true]

/-- The marker is acknowledged: ACT and BUSY, the laser power state, and the writes held. -/
def completeTransition (s : State) (d peer : Nat) : State :=
  let k := s.link d peer
  if !k.busy || k.relock || s.agenda.contains (.markerFlit d peer) then s
  else
    let s := s.modLink d peer fun k => { Link.activate k k.next with lps := k.nextLps.getD k.lps, nextLps := none, busy := false }
    let s := if k.nextLps = some 3 then (s.darken d peer).linkDown d peer else s
    ((s.linkCheck d peer).dropEnds d peer).applyHeld d peer

/-- Lanes that leave L3 have locked again. -/
def relocked (s : State) (d peer : Nat) : State :=
  if !(s.link d peer).relock then s
  else
    let s := (s.modLink d peer fun k => { k with relock := false, busy := false }).light d peer
    let s := s.modLink d peer fun k => if joins k = 0 then k else Link.activate k (joins k)
    (s.linkCheck d peer).applyHeld d peer

/-- A drop notice reaches the transmitter, which runs the steps of a change with its active set less the lane, whether or
not a transition is under way (18 R380). -/
def narrow (s : State) (d peer lane : Nat) : State :=
  let s := s.report d 1 peer (some lane)
  let k := s.link d peer
  let n := k.act &&& planes fun i => i != lane
  if n = 0 then
    ((s.modLink d peer fun k => { k with act := 0, busy := false, lps := k.nextLps.getD k.lps, nextLps := none }).linkDown
      d peer).applyHeld d peer
  else s.beginTransition d peer n (if k.busy then k.nextLps else none)

/-! ### Lane health (11 R294, 18 R379, R381) -/

/-- Saturating counts. -/
def satAdd (bits a n : Nat) : Nat := min (2 ^ bits - 1) (a + n)

/-- MARGIN of a sample. -/
def marginOf (m : LaneSample) : Nat := marginFor m.lock m.pfe

/-- A lane's fields refreshed. -/
def Lane.refresh (l : Lane) (m : LaneSample) : Lane :=
  { l with
    rxp := m.rxp, pfe := m.pfe, skew := m.skew, skov := m.skov, lock := m.lock, margin := BitVec.ofNat 2 (marginOf m)
    corr := BitVec.ofNat 48 (satAdd 48 l.corr.toNat m.corr), unc := BitVec.ofNat 16 (satAdd 16 l.unc.toNat m.unc)
    bad := if marginOf m = 3 then l.bad + 1 else 0 }

/-- A refreshed lane in use must be dropped (18 R379). -/
def Lane.fails (l : Lane) (m : LaneSample) : Bool :=
  (l.lst == 0 || l.lst == 1) && (!m.lock || m.skov || 2 ≤ l.bad || 64 ≤ m.unc)

/-- A sample that a retraining counts. -/
def goodSample (m : LaneSample) : Bool := m.lock && !m.skov && marginOf m ≤ 1

/-- A lane of a link, at both ends. -/
def bothEnds (s : State) (d peer n : Nat) (f : Lane → Lane) : State :=
  let g (k : Link) : Link := k.setLane n (f (laneAt k n))
  (s.modLink d peer g).modLink peer d g

/-- A lane is dropped: LST 2 at both ends, the notice to the transmitter, which sends no new flit until the drop is done, and
the timer of its retraining. -/
def dropLane (s : State) (d peer n : Nat) : State :=
  let s := (s.bothEnds d peer n fun l => { l with lst := 2, bad := 0, good := 0 }).modLink peer d fun k => { k with dropping := true }
  (s.report d 1 peer (some n)).due
    [.dropNotice peer d n, .retrainTimer d peer n (s.pick (.other (2 ^ 24 + n)) 2 = 0)]

/-- A retrained lane stands by at both ends; one that REQ names is added, and a link that is down may come up. -/
def rejoin (s : State) (d peer n : Nat) : State :=
  let s := s.bothEnds d peer n fun l => Lane.locked true { l with lst := 1, good := 0 }
  let add (s : State) (p : Nat × Nat) : State :=
    let k := s.link p.1 p.2
    if k.up && k.lps != 3 && k.req.getLsbD n then s.writeReq p.1 p.2 (k.heldReq.getD k.req) else s
  (add (add s (d, peer)) (peer, d)).linkCheck d peer

/-- One lane of a refresh. -/
def refreshLane (s : State) (d peer n : Nat) (m : LaneSample) : State :=
  let s := s.modLink d peer fun k => k.setLane n (Lane.refresh (laneAt k n) m)
  let l := laneAt (s.link d peer) n
  if Lane.fails l m then s.dropLane d peer n
  else if l.lst = 2 && l.good ≠ 0 then
    if !goodSample m then
      (s.modLink d peer fun k => k.setLane n { laneAt k n with good := 0 }).due
        [.retrainTimer d peer n (s.pick (.other (2 ^ 24 + n)) 2 = 0)]
    else if l.good = 3 then s.rejoin d peer n
    else s.modLink d peer fun k => k.setLane n { laneAt k n with good := l.good + 1 }
  else s

def refreshLanes (s : State) (d peer : Nat) : List (Nat × LaneSample) → State
  | [] => s
  | (n, m) :: rest => (s.refreshLane d peer n m).refreshLanes d peer rest

/-- A dropped lane is retrained; one that does not train waits for the next round. -/
def retrain (s : State) (d peer n : Nat) (good : Bool) : State :=
  let l := laneAt (s.link d peer) n
  if l.lst ≠ 2 || l.good ≠ 0 then s
  else if good then s.modLink d peer fun k => k.setLane n { laneAt k n with good := 1 }
  else s.due [.retrainTimer d peer n (s.pick (.other (2 ^ 24 + n)) 2 = 0)]

/-- Flits reach a die from its peer and are acknowledged; an uncorrectable codeword is replayed (11 R291, R294). How many
flits arrive at a time is the fabric's choice (log 19). -/
def flits (s : State) (d peer : Nat) (good : Bool) : State :=
  let waiting := (s.link peer d).unacked
  if waiting = 0 then s
  else if !good then s.dueNew [.flitReceive d peer true]
  else
    let n := 1 + s.pick (.other (2 ^ 25 + peer)) waiting
    let s := s.modLink peer d fun k => Link.sendFlits { k with unacked := k.unacked - n }
    let s := s.modLink d peer fun k => { k with rxfl := k.rxfl + Word.ofNat n, idle := false }
    if (s.link peer d).unacked ≠ 0 then s.dueNew [.flitReceive d peer (s.pick (.other (2 ^ 26 + peer)) 2 = 0)] else s

/-! ### The light budget (11 R298, 18 R384) -/

/-- A grant of light arrives; one below use is reported on each die, and the device sheds links after 1 ms. -/
def granted (s : State) (chip : Nat) (mw : BitVec 20) : State :=
  let s := s.modPkg chip fun p => { p with grantSeq := p.grantSeq + 1, grant := mw }
  if s.lightUse chip ≤ mw.toNat then s.modPkg chip fun p => { p with overGrant := false }
  else
    let s := (s.modPkg chip fun p => { p with overGrant := true }).dueNew [.lightShed chip]
    ([0, 1, 2, 3] : List Nat).foldl (fun s q =>
      let d := 4 * chip + q
      let s := s.modDie d fun k => { k with links := k.links.map fun p => (p.1, { p.2 with idle := true }) }
      s.report d 4 (s.anyValue (.other (2 ^ 27 + d))) none) s

/-- Links of a package: die and peer, in ascending order. -/
def packageLinks (chip : Nat) : List (Nat × Nat) :=
  ([0, 1, 2, 3] : List Nat).flatMap fun q =>
    ((List.range 256).filter fun p => p ≠ 4 * chip + q).map fun p => (4 * chip + q, p)

/-- Links taken from a list while light above the grant is in use. -/
def shedUntil (saves : Nat × Nat → Nat) (grant : Nat) : Nat → List (Nat × Nat) → List (Nat × Nat)
  | _, [] => []
  | use, p :: rest => if use ≤ grant then [] else p :: shedUntil saves grant (use - saves p) rest

/-- The active lanes of a link all have MARGIN 0 or 1. -/
def Link.fair (k : Link) : Bool := ([0, 1, 2, 3] : List Nat).all fun n => !k.act.getLsbD n || (laneAt k n).margin.toNat ≤ 1

/-- The device sets a link to L3: EVENT 5, and the link goes down. -/
def switchOff (s : State) (p : Nat × Nat) : State :=
  ((((s.modLink p.1 p.2 fun k => { k with lps := 3, nextLps := none, busy := false, relock := false }).darken p.1 p.2).report
    p.1 5 p.2 none).linkDown p.1 p.2).applyHeld p.1 p.2

/-- The device brings light in use within the grant. -/
def shed (s : State) (chip : Nat) : State :=
  let grant := (s.pkg chip).grant.toNat
  let lpsOf (s : State) (p : Nat × Nat) : BitVec 2 := (s.link p.1 p.2).lps
  let cost (s : State) (p : Nat × Nat) : Nat := 4 * Config.laneLight (lpsOf s p).toNat
  let dim := shedUntil (fun _ => 40) grant (s.lightUse chip) ((packageLinks chip).filter fun p =>
    lpsOf s p == 0 && Link.fair (s.link p.1 p.2))
  let s := dim.foldl (fun s p => s.modLink p.1 p.2 fun k => { k with lps := 1 }) s
  let quiet := shedUntil (cost s) grant (s.lightUse chip) ((packageLinks chip).reverse.filter fun p =>
    (lpsOf s p).toNat < 2 && (s.link p.1 p.2).idle)
  let s := quiet.foldl (fun s p => s.switchOff p) s
  let last := shedUntil (cost s) grant (s.lightUse chip) ((packageLinks chip).reverse.filter fun p => lpsOf s p != 3)
  (last.foldl (fun s p => s.switchOff p) s).modPkg chip fun p => { p with overGrant := false }

/-! ### Islands (11 R303, 17 R369) -/

/-- A gang holds the core of an island. -/
def islandBusy (s : State) (d i : Nat) : Bool :=
  let c := 128 * d + i
  (s.die d).placed.any (fun p => p.core == c) || (s.die d).handed.any fun p => p.core == c

/-- A core island that GATE asks to gate does so once its core holds no gang. -/
def gateEntry (s : State) (d i : Nat) : State :=
  if !(s.island d i).gate then s
  else if s.islandBusy d i then s.dueNew [.islandGateEntry d i]
  else s.modIsland d i fun k => { k with gated := true, woken := false }

/-- GATE cleared: the island runs again, and gangs may be placed on its core. -/
def ungate (s : State) (d i : Nat) : State :=
  if (s.island d i).gate then s else (s.modIsland d i fun k => { k with gated := false, woken := false }).kick d

/-- A woken island gates again. -/
def regate (s : State) (d i : Nat) : State :=
  if !(s.island d i).gate || !(s.island d i).woken then s
  else if s.islandBusy d i then s.dueNew [.islandRegateTimer d i]
  else s.modIsland d i fun k => { k with gated := true, woken := false }

/-- Core clocks lowered or raised by 100 MHz, spread evenly over the package's cores. -/
def capAdjust (s : State) (chip : Nat) (down : Bool) : State :=
  ([0, 1, 2, 3] : List Nat).foldl (fun s q => (List.range 96).foldl (fun s i =>
    s.modIsland (4 * chip + q) i fun k =>
      if down then (if 100 < k.cur.toNat then { k with cur := k.cur - 100 } else k)
      else if k.cur.toNat < k.freq.toNat then { k with cur := k.cur + 100 } else k) s) s

end State

/-! ### The steps -/

/-- A step of a link between two dies, at a die whose package is not frozen. -/
def onLink (d peer : Nat) (s : State) (k : State → State) : Host.Outcome State Fault Refusal :=
  awake (chipOfDie d) s fun s => if State.isPair d peer then k s else s

def execHealthRefresh (die peer : Nat) (smp : List LaneSample) (s : State) : Host.Outcome State Fault Refusal :=
  onLink die peer s fun s => s.refreshLanes die peer (([0, 1, 2, 3] : List Nat).zip smp)

def execDropNotice (die peer lane : Nat) (s : State) : Host.Outcome State Fault Refusal :=
  onLink die peer s fun s => s.narrow die peer lane

def execMarkerFlit (die peer : Nat) (s : State) : Host.Outcome State Fault Refusal :=
  onLink die peer s fun s => s.marker die peer

def execLaneTransitionComplete (die peer : Nat) (s : State) : Host.Outcome State Fault Refusal :=
  onLink die peer s fun s => s.completeTransition die peer

def execFlitReceive (die peer : Nat) (good : Bool) (s : State) : Host.Outcome State Fault Refusal :=
  onLink die peer s fun s => s.flits die peer good

def execRetrainTimer (die peer lane : Nat) (good : Bool) (s : State) : Host.Outcome State Fault Refusal :=
  onLink die peer s fun s => s.retrain die peer lane good

def execLctlReqWrite (die peer : Nat) (req : BitVec 4) (s : State) : Host.Outcome State Fault Refusal :=
  onLink die peer s fun s => s.writeReq die peer req

def execLctlLpsWrite (die peer : Nat) (lps : BitVec 2) (s : State) : Host.Outcome State Fault Refusal :=
  onLink die peer s fun s => s.writeLps die peer lps

def execL3Relock (die peer : Nat) (s : State) : Host.Outcome State Fault Refusal :=
  onLink die peer s fun s => s.relocked die peer

def execLightGrant (chip : Nat) (mw : BitVec 20) (s : State) : Host.Outcome State Fault Refusal :=
  awake chip s fun s => s.granted chip mw

def execLightShed (chip : Nat) (s : State) : Host.Outcome State Fault Refusal := awake chip s fun s => s.shed chip

/-- Islands above 95 are written by the Ubgoim controller alone. -/
def execIslandFreqWrite (die isl : Nat) (mhz : BitVec 12) (ubgoim : Bool) (s : State) : Host.Outcome State Fault Refusal :=
  awake (chipOfDie die) s fun s => if 128 ≤ isl || (96 ≤ isl && !ubgoim) then s else s.writeFreq die isl mhz

def execFreqChangeApplied (die isl : Nat) (s : State) : Host.Outcome State Fault Refusal :=
  awake (chipOfDie die) s fun s => s.modIsland die isl fun k => { k with cur := k.freq }

/-- GATE exists on core islands only, whoever writes it. -/
def execIslandGateWrite (die isl : Nat) (gate _ubgoim : Bool) (s : State) : Host.Outcome State Fault Refusal :=
  awake (chipOfDie die) s fun s => s.writeGate die isl gate

def execIslandGateEntry (die isl : Nat) (s : State) : Host.Outcome State Fault Refusal :=
  awake (chipOfDie die) s fun s => s.gateEntry die isl

def execIslandUngate (die isl : Nat) (s : State) : Host.Outcome State Fault Refusal :=
  awake (chipOfDie die) s fun s => s.ungate die isl

def execIslandRegateTimer (die isl : Nat) (s : State) : Host.Outcome State Fault Refusal :=
  awake (chipOfDie die) s fun s => s.regate die isl

def execPowerCapAdjust (chip : Nat) (down : Bool) (s : State) : Host.Outcome State Fault Refusal :=
  awake chip s fun s => s.capAdjust chip down

end Sys2Proof.Machine
end

