-- ==== Sys2Proof/Machine/HostSide.lean ====
section
/-! DEFINITION. The world outside: the bridge port, the mailbox, the cold reset and the freeze of a package, and words
that encode no instruction (06 R164, 11 R299 to R302, 19 R407). -/
namespace Sys2Proof.Machine

/-! ### The bridge port (11 R299, R300) -/

/-- Bytes that the second BAR covers. -/
def apertureBytes : Nat := 2 ^ 36

namespace State

/-- A host access reaches the aperture: an enabled port of a package that runs. -/
def apertureOpen (s : State) (chip off n : Nat) : Bool :=
  s.bridgeOn chip && !(s.pkg chip).held && Decidable.decide (0 < n) && Decidable.decide (off + n ≤ apertureBytes)

/-- A piece of a host write, in one granule, at its home: a refused piece is dropped and logged. -/
def hostWritePiece (s : State) (chip va : Nat) (bs : List Byte) : State :=
  let d := globalDie va
  let job := (s.pkg chip).apjob
  if !s.reaches (4 * chip) d then s
  else
    let s := s.carry (4 * chip) d bs.length
    match s.homeLeaf job .write va with
    | .error code => s.logRefusal d job (4 * chip) true code va
    | .ok k => (s.storeEach ⟨none, none, mtHint k.2 .noAlloc, some s.opSeq, []⟩ (cellsAt k.1 bs)).holdHome job va

/-- A host write: its pieces in order, each performed before the next (11 R300). -/
def hostWrite (s : State) (chip off : Nat) (bs : List Byte) : State :=
  if !s.apertureOpen chip off bs.length then s
  else
    let va := (s.pkg chip).apbase.toNat + off
    (rangeElems va bs.length).foldl (fun s e => s.hostWritePiece chip e.va ((bs.drop (e.va - va)).take e.bytes)) s

/-- A piece of a host read at its home: its bytes, or none. -/
def hostReadPiece (s : State) (chip va n : Nat) : Option (List Byte) × State :=
  let d := globalDie va
  let job := (s.pkg chip).apjob
  if !s.reaches (4 * chip) d then (none, s)
  else
    let s := s.carry (4 * chip) d 0
    match s.homeAddr job .read va with
    | .error code => (none, s.logRefusal d job (4 * chip) true code va)
    | .ok key =>
      if (s.keyPoison key n).isSome then (none, s)
      else (some (s.mem.readBytes key n), (s.holdHome job va).carry d (4 * chip) n)

/-- A host read: the bytes of its pieces, or an abort if one of them has none. -/
def hostRead (s : State) (chip off n : Nat) : State :=
  if !s.apertureOpen chip off n then s
  else
    let g := (rangeElems ((s.pkg chip).apbase.toNat + off) n).foldl (fun (acc : Option (List Byte) × State) e =>
      let p := acc.2.hostReadPiece chip e.va e.bytes
      (match acc.1, p.1 with
        | some a, some b => some (a ++ b)
        | _, _ => none, p.2)) (some [], s)
    g.2.modPkg chip fun p => { p with hostReads := p.hostReads ++ [(off, g.1)] }

/-! ### The first BAR (11 R299 to R301) -/

/-- Where an offset of the first BAR lies, if the port shows it: of a package held in reset the mailbox alone. Accesses of
8 aligned bytes at listed offsets are answered, as for supervisor code (log 91). -/
def barPlace (s : State) (chip off : Nat) : Option Nat :=
  let pa := 2 ^ 40 + 0x20000 + off
  let shown := match devReg (4 * chip) (devOffset pa) with
    | some (.mailbox _) => true
    | some (.bridge _) => !(s.pkg chip).held
    | _ => false
  if s.bridgeOn chip && Decidable.decide (off < 0x20000) && shown && devAccessOk chip pa 8 then some pa else none

def barWrite (s : State) (chip off : Nat) (v : Word) : State :=
  match s.barPlace chip off with
  | some pa => s.devWrite chip pa v
  | none => s

def barRead (s : State) (chip off : Nat) : State :=
  let got := (s.barPlace chip off).map fun pa => bytesOfNat 8 (s.devRead chip pa).toNat
  s.modPkg chip fun p => { p with hostReads := p.hostReads ++ [(apertureBytes + off, got)] }

/-! ### Cold reset and freeze (11 R301, 19 R403, R404, R407) -/

/-- What a hart's number, or a die's own messages, belong to. -/
def ofChip (chip h : Nat) : Bool := fromDie h / 4 == chip

/-- The transmitters of a package stop: the lanes that other packages receive drop, and its links go down (19 R407). -/
def linksDown (s : State) (chip : Nat) : State :=
  (packageLinks chip).foldl (fun s p =>
    if !s.pod.chips.contains (chipOfDie p.2) then s
    else if chipOfDie p.2 = chip then s.linkDown p.1 p.2
    else
      let s := s.modLink p.2 p.1 fun k => { k with lanes := k.lanes.map (Lane.locked false) }
      let used := (List.range 4).filter fun n => Decidable.decide ((laneAt (s.link p.2 p.1) n).lst.toNat < 2)
      (used.foldl (fun s n => s.dropLane p.2 p.1 n) s).linkDown p.1 p.2) s

end State

/-- A core after a cold reset: what the wear record says of it stands (19 R398, R404). -/
def Core.worn (k : Core) : Core :=
  { Core.reset with retired := k.retired, drain := false, groups := k.working, gone := k.gone, underReset := k.gone }

/-- A die after a cold reset. -/
def Die.worn (k : Die) : Die :=
  { Die.reset with
    l2ret := k.l2ret, l2gone := k.l2gone, hbmsp := k.hbmsp, spares := k.spares, shrunk := k.shrunk, usedRows := k.usedRows, nextKey := k.nextKey }

namespace State

/-- What a package's dies had of the pod's work is gone: requests, collectives, lines of the L2, harts, cores and dies. -/
def clearPackage (s : State) (chip : Nat) : State :=
  let mineKey (k : Nat) : Bool := k / 2 ^ 48 == chip
  let drop (p : MemberPart) : MemberPart := if chipOf p.hart == chip then { p with stage := p.stage.lost } else p
  { s with
    harts := s.harts.filter fun p => chipOf p.1 ≠ chip
    cores := s.cores.map fun p => if p.1 / 512 = chip then (p.1, p.2.worn) else p
    dies := s.dies.map fun p => if chipOfDie p.1 = chip then (p.1, p.2.worn) else p
    net := s.net.filter fun r => !ofChip chip r.hart
    mem := s.mem.writeCells (s.backing.filter fun c => mineKey c.1)
    backing := s.backing.filter fun c => !mineKey c.1
    poison := s.poison.filter fun g => !(g.l2 && mineKey g.base)
    pod := { s.pod with colls := s.pod.colls.map fun (c : CollInst) => { c with parts := c.parts.map drop } } }

/-- A link to another package as boot trains it: this die's transmit lanes have light if the boot grant reaches them, and the
peer's if the peer gives them any. -/
def bootLinks (s : State) (chip : Nat) : State :=
  (packageLinks chip).foldl (fun s p =>
    if chipOfDie p.2 = chip || !s.pod.chips.contains (chipOfDie p.2) then s
    else
      let q := s.pkg (chipOfDie p.2)
      let mine := linkIndex p.1 p.2 < s.bootLit p.1
      let theirs := !q.frozen && !q.held && (s.link p.2 p.1).lps != 3
      let lane : Lane := { Lane.reset with lock := theirs, lst := if mine && theirs then 1 else 3 }
      let s := s.modLink p.1 p.2 fun _ => { Link.absent with lps := if mine then 0 else 3, lanes := Vector.replicate 4 lane }
      let relit (l : Lane) : Lane := Lane.locked mine { l with lst := if mine && theirs then 1 else 3, good := 0 }
      let s := s.modLink p.2 p.1 fun k => { k with lanes := k.lanes.map relit }
      s.linkCheck p.1 p.2) s

/-- The links of a package that is held in reset stay dark, those between its own dies too. -/
def darkLinks (s : State) (chip : Nat) : State :=
  (packageLinks chip).foldl (fun s p => s.modLink p.1 p.2 fun _ => { Link.absent with lps := 3 }) s

/-- Images that a boot checks in turn: the Ubgoim firmware, and those of the sequencer, the save engine and the
transceivers (11 R301). -/
def bootImages : Nat := 4

/-- Bytes of the digest of an image. -/
def digestBytes : Nat := 32

/-- A package as its boot leaves it: with every image accepted, or held in reset by the first that is refused, with the
digests of those accepted before it (11 R301). -/
def booted (s : State) (chip : Nat) (ok : Bool) : Package :=
  let p := { s.bootPkg chip with rate := (s.pkg chip).rate, x16 := (s.pkg chip).x16 }
  if ok then p
  else
    let image := s.pick (.other 44) bootImages
    { p with measured := p.measured.take (digestBytes * image), held := true, refusal := some (image, s.pick (.other 45) 2 = 1) }

/-- A cold reset: the images are checked in boot order; a refused one holds the package in reset (11 R301). The contents
of HBM4E stand (log 28). -/
def coldReset (s : State) (chip : Nat) (ok : Bool) : State :=
  let s := (s.linksDown chip).clearPackage chip
  let s := s.setPkg chip (s.booted chip ok)
  if ok then s.bootLinks chip else s.darkLinks chip

/-! ### The read-out image (19 R407, R408) -/

/-- Numbers of the system registers that a die's part of the image holds; those among them that belong to a hart or to a core
stand in its part. -/
def imageRegs : List Nat :=
  ((List.range 4).map (0x030 + ·) ++ (List.range 12).map (0x200 + ·) ++ (List.range 0x33).map (0x300 + ·)).filter fun n =>
    !sysOwn n && n ≠ 0x321

/-- A hart's part of the image: every register is treated as live. -/
def imageHart (s : State) (h : Nat) : ImagePart :=
  let k := s.hart h
  let c := s.core (coreOf h)
  let cmds := (List.range 8).filterMap fun n => ((c.rack n).cmds.find? fun m => m.hart == h).map fun m => (n, m)
  .hart h (hartBlock s c.vlmax cmds true k)
    ([Word.ofNat (hidOf h), k.gid, k.prq, k.ddl.setWidth 64, k.jobtag.setWidth 64, k.ptbase, k.frhdr, k.frsel.setWidth 64] ++ k.frEntries) k.poison

/-- A core's part of the image. -/
def imageCore (s : State) (c : Nat) : ImagePart :=
  let k := s.core c
  let reqs := s.net.filter fun r => k.cellar.any fun e => match e.kind with
    | .request id => id == r.id
    | _ => false
  .core c k.rstat k.lgstat k.nb k.cellar reqs k.racks k.spad k.defq k.poison

/-- A die's part of the image. -/
def imageDie (s : State) (d : Nat) : ImagePart :=
  let k := s.die d
  let entry (e : Nat) : List Word := (List.range 4).map fun i => s.tableWord (chipOfDie d) (k.gtbase.toNat + 32 * e + 8 * i)
  .die d (imageRegs.map fun n => (n, s.sharedReg d n)) (if k.gtbase = 0 then [] else (List.range 256).map entry) k.graphs
    (sortReady k.ready) k.records

/-- The image that the Ubgoim controller reads out of a frozen package: header, harts, cores, dies. -/
def readOut (s : State) (chip : Nat) (cause : Word) : List ImagePart :=
  let dies := (List.range 4).map (4 * chip + ·)
  [.header chip cause ((List.range 4).map fun q => Word.ofNat (s.readTicks (4 * chip + q)).1)]
    ++ ((s.harts.map fun p => p.1).filter fun h => chipOf h = chip).map s.imageHart
    ++ ((s.cores.map fun p => p.1).filter fun c => c / 512 = chip).map s.imageCore
    ++ dies.map s.imageDie

/-- A freeze: the entry of the log, if it can be written, and then nothing of the package executes, and its state is read
out. -/
def freezePackage (s : State) (chip : Nat) (cause : Word) : State :=
  let s := ([0, 1, 2, 3] : List Nat).foldl (fun s q =>
    if s.pick (.other (2 ^ 28 + q)) 2 = 0 then s else s.logEvent (4 * chip + q) 13 s.anyUnit 0 cause) s
  let s := (s.modPkg chip fun p => { p with frozen := true, freezeCause := cause }).linksDown chip
  s.modPkg chip fun p => { p with image := s.readOut chip cause }

end State

/-! ### What the world does -/

/-- The package that an upset happens in. -/
def Upset.chip : Upset → Nat
  | .mismatch c _ | .residue c | .lostSpad c _ | .lostEntry c _ => c / 512
  | .corrected d _ _ _ _ => chipOfDie d
  | .badCopy h _ _ | .lostReg h _ => chipOf h
  | .lostMem key => key / 2 ^ 48
  | .barWrite c _ _ | .barRead c _ | .msixEntry c _ _ _ => c

/-- The machine notices what the world has done (log 21). -/
def State.suffer (s : State) (u : Upset) : State :=
  if (s.pkg u.chip).frozen then s
  else match u with
    | .mismatch c g => s.mismatch c g
    | .residue c => s.rollback c 4
    | .corrected d cls unit row addr => s.corrected d cls unit row addr
    | .badCopy h key again => s.dropCopy h key again
    | .lostMem key => s.loseMem key
    | .lostSpad c off => s.loseSpad c off
    | .lostReg h r => s.loseReg h r
    | .lostEntry c seq => s.loseEntry c seq
    | .barWrite chip off v => s.barWrite chip off v
    | .barRead chip off => s.barRead chip off
    | .msixEntry chip vec addr data => s.modPkg chip fun p => { p with msixTable := Tab.set p.msixTable vec.toNat (addr, data) }

/-! ### The steps -/

def execMsixRaise (chip : Nat) (vec : BitVec 6) (s : State) : Host.Outcome State Fault Refusal :=
  awake chip s fun s => s.raiseVector chip vec

def execHostApertureWrite (chip off : Nat) (bytes : List Byte) (s : State) : Host.Outcome State Fault Refusal :=
  awake chip s fun s => s.hostWrite chip off bytes

def execHostApertureRead (chip off len : Nat) (s : State) : Host.Outcome State Fault Refusal :=
  awake chip s fun s => s.hostRead chip off len

def execMailboxMeasurementLog (chip : Nat) (s : State) : Host.Outcome State Fault Refusal :=
  awake chip s fun s => s.modPkg chip Package.giveLog

def execMailboxCertChain (chip : Nat) (s : State) : Host.Outcome State Fault Refusal :=
  awake chip s fun s => s.modPkg chip fun p => p.giveChain chip

def execMailboxAttest (chip : Nat) (s : State) : Host.Outcome State Fault Refusal :=
  awake chip s fun s => s.modPkg chip fun p => p.attest chip

def execColdReset (chip : Nat) (imagesOk : Bool) (s : State) : Host.Outcome State Fault Refusal :=
  .next (s.coldReset chip imagesOk)

def execFreeze (chip : Nat) (cause : Word) (s : State) : Host.Outcome State Fault Refusal :=
  awake chip s fun s => s.freezePackage chip cause

/-- A convoy that holds a word with an undefined MAJ or an unassigned MIN traps with code 3 before any of it issues
(06 R164). -/
def execUndefinedOpcode (bits : IWord) (s : State) : Host.Outcome State Fault Refusal :=
  issued (.undefinedOpcode bits) s fun _ s => s.takeTrap { code := 3 }

end Sys2Proof.Machine
end

