-- ==== Sys2Proof/Machine/Matrix.lean ====
section
/-! DEFINITION. The matrix arrays and the accumulator instructions: MAJ 0x30 to 0x32, but for ZLD and ZST (10 R270 to
R288, 03 R86 to R94, R416, 16 R343, R344). -/
namespace Sys2Proof.Machine

/-! ### Operands (10 R271 to R276, R278) -/

/-- K-positions of a format. -/
def depth (f : Fmt) : Nat := 2048 / f.bits

/-- Register j of a tile. -/
def Hart.tileReg (h : Hart) (w : Wd) (j : Nat) : BitVec 8192 := (h.vr (idxOf w.b + BitVec.ofNat 6 j)).bits

/-- Element k of row r of the A operand. -/
def Hart.aBits (h : Hart) (w : Wd) (f : Fmt) (r k : Nat) : Nat := getElem (h.vecReg w.a).bits f.bits (r * depth f + k)

/-- An element of row r of the A operand times its scale. -/
def Hart.aScaled (h : Hart) (vm : Nat) (w : Wd) (x : Xx) (f : Fmt) (r k : Nat) : Val × Bool :=
  scaled (elemVal f (h.aBits w f r k)) (h.scaleAt vm x x.sa f (dataIndex w.a) (r * depth f + k))

/-- Element k of column c of the Fresco tile times its scale. -/
def Hart.bScaled (h : Hart) (vm : Nat) (w : Wd) (x : Xx) (f : Fmt) (k c : Nat) : Val × Bool :=
  let e := c % 4 * depth f + k
  scaled (elemVal f (getElem (h.tileReg w (c / 4)) f.bits e)) (h.scaleAt vm x x.sb f ((idxOf w.b).toNat + c / 4) e)

/-- A product of two scaled elements. -/
def product (a b : Val × Bool) : Val × Bool :=
  let p := mulVal a.1 b.1
  (p.1, a.2 || b.2 || p.2)

/-! ### Accumulation (03 R93, R94, 10 R277) -/

/-- An exact sum added to an accumulator element: clamped for i8, else rounded once. -/
def addChunk (f : Fmt) (z : Nat) (ps : List (Val × Bool)) : Nat × Raised :=
  let s := sumVals .rne (ps.map fun p => p.1)
  if f == .i8 then
    match s.1 with
    | .fin n m e =>
      let c := clampInt .i32 (intOf .i32 z + scaledInt n m e 0)
      (wrapInt .i32 c.1, { sat := c.2 })
    | _ => (z, {})
  else
    let t := addVal .rne (elemVal .fp32 z) s.1
    finishFp .fp32 .rne (t.1, t.2 || s.2 || ps.any fun p => p.2)

/-- Chunks of 32 positions added in ascending order. -/
def addChunks (f : Fmt) (z : Nat) (chunks : List (List (Val × Bool))) : Nat × Raised :=
  chunks.foldl (fun acc ps => let t := addChunk f acc.1 ps
    (t.1, acc.2.or t.2)) (z, {})

/-- A list cut into pieces of 32. -/
def chunksOf {α : Type} : Nat → List α → List (List α)
  | 0, _ => []
  | n + 1, l => l.take 32 :: chunksOf n (l.drop 32)

/-- The contents from before matrix operations under way, which a reader may still see (10 R283). -/
def Hart.matrixEarly (h : Hart) : List Early :=
  h.early.filter fun e => match e.op with
    | some id => h.ops.any fun o => o.id == id && o.matrix
    | none => false

/-- A matrix operation retires: its accumulator takes the new elements and its tag, and its flags wait for the
completion. The contents from before earlier ones that have not completed stay readable (10 R275, R283, R284). -/
def State.accumulate (s : State) (i : Instr) (w : Wd) (tag : Fmt) (out : List (Nat × Nat × Raised)) : State :=
  let old := s.my
  (s.upd fun h =>
    let k := h.putZ (Hart.accOf w.d) (fun b => setElems b 32 (out.map fun q => (q.1, q.2.1))) tag
    { k with early := h.matrixEarly.filter (fun e => !k.early.any fun q => q.reg == e.reg && q.op == e.op) ++ k.early }).retireOp i old
    (Flags.of (out.map fun q => (q.1, q.2.2)))

/-- Index of an accumulator element. -/
def accIndex (r c : Nat) : Nat := r * 160 + c

/-- The element of an accumulator as read. -/
def Hart.accAt (h : Hart) (o : Operand) (i : Nat) : Nat := getElem (h.zr (Hart.accOf o)).bits 32 i

def execMma (w : Wd) (x : Xx) (s : State) : Host.Outcome State Fault Refusal :=
  issued (.mma w x) s fun h s =>
    let f := Instr.format (.mma w x) s.my
    let vm := s.myCore.vlmax
    let ks := List.range (depth f)
    let rows := (List.range 4).map fun r => ks.map fun k => h.aScaled vm w x f r k
    let cols := (List.range 32).map fun c => ks.map fun k => h.bScaled vm w x f k c
    let out := ((List.range 4).zip rows).flatMap fun r => ((List.range 32).zip cols).map fun c =>
      let i := accIndex r.1 c.1
      (i, addChunks f (h.accAt w.d i) (chunksOf (depth f / 32) (List.zipWith product r.2 c.2)))
    s.accumulate (.mma w x) w (accFmt f) out

/-! ### MMAS (10 R278 to R280, 16 R344) -/

/-- The live columns of a bitmap, ascending. -/
def liveColumns (bitmap : Nat) : List Nat := (List.range 32).filter fun c => bitmap.testBit c

/-- Metadata byte of live column q and group g. -/
def Hart.metaByte (h : Hart) (w : Wd) (q g : Nat) : Nat := getElem (h.tileReg w 4) 8 (q * 32 + g)

/-- The lowest metadata byte, among those read, without four set bits. -/
def Hart.badMeta (h : Hart) (w : Wd) (f : Fmt) (live : Nat) : Option Nat :=
  ((List.range live).flatMap fun q => (List.range (depth f / 8)).filterMap fun g =>
    if popIn 8 (h.metaByte w q g) = 4 then none else some (q * 32 + g)).head?

/-- The compressed element that stands for position k of live column q; none for a pruned position. -/
def Hart.sparseElem (h : Hart) (w : Wd) (f : Fmt) (q k : Nat) : Option Nat :=
  let m := h.metaByte w q (k / 8)
  if m.testBit (k % 8) then
    let kk := 4 * (k / 8) + popIn (k % 8) m
    some (getElem (h.tileReg w (q / 8)) f.bits (q % 8 * (depth f / 2) + kk))
  else none

/-- One element of MMAS: the chunks of kept positions, and whether a pruned element of A is infinite or a NaN. -/
def Hart.sparseSum (h : Hart) (vm : Nat) (w : Wd) (x : Xx) (f : Fmt) (r q z : Nat) : Nat × Raised :=
  let ks := List.range (depth f)
  let kept := (chunksOf (depth f / 32) ks).map fun ch => ch.filterMap fun k =>
    (h.sparseElem w f q k).map fun b => product (h.aScaled vm w x f r k) (elemVal f b, false)
  let nfs := ks.any fun k => (h.sparseElem w f q k).isNone && (let v := elemVal f (h.aBits w f r k)
    v.isNan || v.isInf)
  let t := addChunks f z kept
  (t.1, { t.2 with nfs := nfs })

def execMmas (w : Wd) (x : Xx) (s : State) : Host.Outcome State Fault Refusal :=
  issued (.mmas w x) s fun h s =>
    let f := Instr.format (.mmas w x) s.my
    let bitmap := (h.xr x.sb).toNat % 2 ^ 32
    let live := liveColumns bitmap
    if live.length ≠ x.cnt.toNat then s.takeTrap { code := 0x0A, sub := live.length, eaddr := Word.ofNat bitmap }
    else match h.badMeta w f live.length with
      | some i => s.takeTrap { code := 0x0B, eaddr := Word.ofNat i }
      | none =>
        let vm := s.myCore.vlmax
        let out := (List.range 4).flatMap fun r => ((List.range live.length).zip live).map fun q =>
          let i := accIndex r q.2
          (i, h.sparseSum vm w x f r q.1 (h.accAt w.d i))
        s.accumulate (.mmas w x) w (accFmt f) out

/-! ### TMMA (10 R273, R281, R282) -/

/-- Byte n of the Palette tile. -/
def Hart.tileByte (h : Hart) (w : Wd) (n : Nat) : Nat := getElem (h.tileReg w (n / 1024)) 8 (n % 1024)

/-- The lowest illegal byte of the tile. -/
def Hart.badTile (h : Hart) (w : Wd) : Option Nat := (List.range 8192).find? fun n => 243 ≤ h.tileByte w n

/-- The trit of K-row k and column c, as −1, 0 or 1. -/
def Hart.tileTrit (h : Hart) (w : Wd) (k c : Nat) : Int := (h.tileByte w (k * 32 + c / 5) / 3 ^ (c % 5) % 3 : Nat) - 1

def execTmma (w : Wd) (x : Xx) (s : State) : Host.Outcome State Fault Refusal :=
  issued (.tmma w x) s fun h s =>
    match h.badTile w with
    | some n => s.takeTrap (ternTrap n 0)
    | none =>
      let ks := List.range 256
      let rows := (List.range 4).map fun r => ks.map fun k => intOf .i8 (h.aBits w .i8 r k)
      let cols := (List.range 160).map fun c => ks.map fun k => h.tileTrit w k c
      let out := ((List.range 4).zip rows).flatMap fun r => ((List.range 160).zip cols).map fun c =>
        let i := accIndex r.1 c.1
        let t := clampInt .i32 (intOf .i32 (h.accAt w.d i) + (List.zipWith (· * ·) r.2 c.2).foldl (· + ·) 0)
        (i, wrapInt .i32 t.1, ({ sat := t.2 } : Raised))
      s.accumulate (.tmma w x) w .i32 out

/-! ### ZCLR, ZADD (10 R286) -/

def execZclr (w : Wd) (s : State) : Host.Outcome State Fault Refusal :=
  issued (.zclr w) s fun _ s =>
    (s.upd fun h => h.putZ (Hart.accOf w.d) (fun _ => 0) w.fmt).retireOp (.zclr w) s.my Flags.none

/-- The sum of two accumulator elements. -/
def zaddElem (f : Fmt) (a b : Nat) : Nat × Raised :=
  if f == .i32 then satElem (· + ·) .i32 a b else addElem .rne .fp32 a b

def execZadd (w : Wd) (s : State) : Host.Outcome State Fault Refusal :=
  issued (.zadd w) s fun h s =>
    let f := Instr.format (.zadd w) s.my
    let out := (List.range 640).map fun i => (i, zaddElem f (h.accAt w.a i) (h.accAt w.b i))
    (s.upd fun k => (k.putZ (Hart.accOf w.d) (fun b => setElems b 32 (out.map fun q => (q.1, q.2.1))) f).mergeFlags
      (Flags.of (out.map fun q => (q.1, q.2.2)))).retireOp (.zadd w) s.my Flags.none

/-! ### ZDRAIN (10 R288, R289) -/

/-- Columns of the selector's width, and its part. -/
def drainWidth (sel : Nat) : Nat := if sel.testBit 3 then 160 else 32
def drainPart (sel : Nat) : Nat := sel % 8

/-- Elements of a full part, and of the selected part. -/
def drainSpan (t : Fmt) : Nat := if t == .bf16 then 512 else 256
def drainCount (t : Fmt) (sel : Nat) : Nat := min (drainSpan t) (4 * drainWidth sel - drainPart sel * drainSpan t)

/-- One drained element: a row scale, a rounding to fp32, a column scale, and a rounding to the format. -/
def drainElem (t : Fmt) (rm : Rm) (zf : Fmt) (z : Nat) (srow scol : Val) : Nat × Raised :=
  let u := finishFp .fp32 rm (scaled (elemVal zf z) srow)
  let d := finishFp t rm (scaled (elemVal .fp32 u.1) scol)
  (d.1, u.2.or d.2)

/-- A scale byte of ZDRAIN; 1 without a block length. -/
def Hart.drainScale (h : Hart) (x : Xx) (reg : BitVec 6) (byte : Nat) : Val :=
  if x.blen == .none then Val.one else scaleVal x.sfmt (getElem (h.vr reg).bits 8 byte)

def execZdrain (w : Wd) (x : Xx) (s : State) : Host.Outcome State Fault Refusal :=
  issued (.zdrain w x) s fun h s =>
    let t := w.fmt
    let sel := match w.b with
      | .const k => k.toNat
      | _ => 0
    let width := drainWidth sel
    let zf : Fmt := if (h.zr (Hart.accOf w.a)).tag == .i32 then .i32 else .fp32
    let out := (h.actives w.grd t (drainCount t sel)).map fun i =>
      let e := drainPart sel * drainSpan t + i
      let r := e / width
      let c := e % width
      (i, accIndex r c, drainElem t x.rm zf (h.accAt w.a (accIndex r c)) (h.drainScale x x.sa r)
        (h.drainScale x x.sb (c / BlockLen.elems x.blen)))
    (s.upd fun k => (k.putVec w.d 3 (fun b => setElems b t.bits (out.map fun q => (q.1, q.2.2.1))) t).mergeFlags
      (Flags.of (out.map fun q => (q.2.1, q.2.2.2)))).retireOp (.zdrain w x) s.my Flags.none

end Sys2Proof.Machine
end

