-- ==== Sys2Proof/Machine/Sync.lean ====
section
/-! DEFINITION. Wait counters, barriers, yielding, SEAL and FENCE: MAJ 0x0A (07 R194 to R202, 05 R126 to R131). -/
namespace Sys2Proof.Machine

/-! ### Wait counters (07 R194, R195, 15 R330) -/

/-- A wait on some counters: a status that one of them holds is raised first; otherwise it waits until `met`, and every
operation counted on a counter of `drained` comes before the hart's later accesses (05 R135). -/
def State.waitOn (s : State) (covers : BitVec 3 → Bool) (met : Bool) (drained : List (BitVec 3)) : State :=
  match s.my.heldStatus covers with
  | some st => s.takeTrap st.trap
  | none => if met then
      (s.upd fun h => drained.foldl (fun h c => h.after (h.waitMarks[c.toNat]'c.isLt)) h).retire else s.block

/-- WAIT w, n waits until the counter is at most n (07 R194; DESIGN CHOICE between that and 05 R135's count of operations
completed, log 105). -/
def execWait (w : Wd) (s : State) : Host.Outcome State Fault Refusal :=
  issued (.wait w) s fun r s =>
    let c := ctrOf w.a
    s.waitOn (· == c) (decide ((s.my.w[c.toNat]'c.isLt).toNat ≤ (r.xSrc w.b).toNat)) (if r.xSrc w.b = 0 then [c] else [])

/-- WAITA's mask names a counter. -/
def maskHas (m : Word) (c : BitVec 3) : Bool := m.getLsbD c.toNat

def execWaita (w : Wd) (s : State) : Host.Outcome State Fault Refusal :=
  issued (.waita w) s fun r s =>
    let m := r.xSrc w.b
    s.waitOn (maskHas m) (([0, 1, 2, 3, 4, 5, 6, 7] : List (BitVec 3)).all fun c =>
      !maskHas m c || (s.my.w[c.toNat]'c.isLt) == 0) (([0, 1, 2, 3, 4, 5, 6, 7] : List (BitVec 3)).filter (maskHas m))

/-! ### Barriers (07 R196 to R198) -/

/-- GBAR arrives once, after the release that it is, and passes when every hart of the gang has (05 R131). -/
def execGbar (w : Wd) (s : State) : Host.Outcome State Fault Refusal :=
  issued (.gbar w) s fun _ s =>
    if !s.my.inGbar && s.owes .all .gang then s.block
    else
      let s := if s.my.inGbar then s else s.arriveGbar
      if s.gbarDone s.me then ((s.passGbar s.me).upd fun h => { h with inGbar := false }).retire else s.block

/-- Marks a named barrier as used by the hart (17 R357). -/
def Hart.useBarrier (h : Hart) (n : BitVec 6) : Hart :=
  { h with nbUsed := h.nbUsed ||| (1#64 <<< n.toNat) }

def execNbinit (w : Wd) (x : Xm) (s : State) : Host.Outcome State Fault Refusal :=
  issued (.nbinit w x) s fun r s =>
    let n := idxOf w.a
    ((s.setMyCore (s.myCore.setBarrier n ⟨(r.xSrc w.b).setWidth 16, 0, 0, s.my.jobtag, []⟩)).upd fun h => h.useBarrier n).retire

/-- An arrival of the hart in focus at a barrier of its core, a release at a scope or none: the phase it names, P + 1 in the
32 bits of P (DESIGN CHOICE, log 98), and the state after it. -/
def State.arriveAt (s : State) (n : BitVec 6) (rel : Bool) (sc : Scope) : BitVec 32 × State :=
  let b := s.myCore.barrier n
  let rels := if rel then s.carried s.me true sc else []
  (b.p + 1, (s.setMyCore (s.myCore.setBarrier n (b.arrive rels))).upd fun h => h.useBarrier n)

def execNbarr (rel : Bool) (w : Wd) (x : Xm) (s : State) : Host.Outcome State Fault Refusal :=
  issued (.nbarr rel w x) s fun _ s =>
    if s.releaseWaits rel x.scope || s.signalsFirst s.me (idxOf w.a) then s.block
    else
      let a := s.arriveAt (idxOf w.a) rel x.scope
      a.2.scalarResult w.d (a.1.setWidth 64)

def execNbwait (acq : Bool) (w : Wd) (x : Xm) (s : State) : Host.Outcome State Fault Refusal :=
  issued (.nbwait acq w x) s fun r s =>
    let n := idxOf w.a
    let s := s.upd fun h => h.useBarrier n
    let phase := (r.xSrc w.b).setWidth 32
    if (s.myCore.barrier n).passed phase then
      (if acq then s.acquireFrom s.me x.scope ((s.myCore.barrier n).releases phase) else s).retire
    else s.block

def execNbaw (ord : MemOrd) (w : Wd) (x : Xm) (s : State) : Host.Outcome State Fault Refusal :=
  issued (.nbaw ord w x) s fun _ s =>
    let n := idxOf w.a
    if s.my.inNbaw.isNone && (s.releaseWaits (MemOrd.releases ord) x.scope || s.signalsFirst s.me n) then s.block
    else
      let a : Arrival × State := match s.my.inNbaw with
        | some w => (w, s)
        | none =>
          let a := s.arriveAt n (MemOrd.releases ord) x.scope
          let w : Arrival := ⟨n, a.1, w.d, if MemOrd.acquires ord then some x.scope else none⟩
          (w, a.2.upd fun h => { h with inNbaw := some w })
      if (a.2.myCore.barrier n).passed a.1.phase then (a.2.passNbaw s.me a.1).retire else a.2.block

/-! ### Yielding (07 R199, R200) -/

def execYield (w : Wd) (s : State) : Host.Outcome State Fault Refusal :=
  issued (.yield w) s fun _ s =>
    (s.setMyCore { s.myCore with
      quota := Vector.ofFn fun (i : Fin 8) => if i.val = hidOf s.me then 0 else s.myCore.quota[i] }).retire

def execYieldp (w : Wd) (s : State) : Host.Outcome State Fault Refusal :=
  issued (.yieldp w) s fun _ s =>
    let s := s.retire
    if s.my.prqReq then s.stopAt s.me false else s

/-! ### SEAL and FENCE (07 R201, R202) -/

def execSeal (w : Wd) (s : State) : Host.Outcome State Fault Refusal :=
  issued (.seal w) s fun _ s => if s.unsealed then s.block else s.retire

/-- Where a fence puts the hart's later loads: after the stores of the agents within its scope that stand, and what the
releases have known that its loads have met; at hart scope after the scratchpad's stores alone (05 R126, R127, 07 R202). -/
def State.fenceLoads (s : State) (sc : Scope) : State :=
  if sc == .hart then s.upd fun h => { h with marks := { h.marks with upTo := h.marks.upTo.set 5 (max h.marks.upTo[5] s.history.length) } }
  else s.acquireFrom s.me sc s.my.met

/-- A fence waits for its first set. Its later loads come after it unless it orders stores alone, and its later stores carry
it; at a wide scope nothing that it has read is held any more. Of kind all at core scope or wider it is a fetch barrier
(05 R126, R127, R417). -/
def State.fence (s : State) (k : FenceKind) (sc : Scope) : State :=
  if s.owes k sc then s.block
  else
    let s := if k == .st then s else s.fenceLoads sc
    let s := s.publish s.me sc (k != .ld)
    let s := if Scope.wide sc then s.upd fun h => { h with reads := [] } else s
    (if k == .all && sc.atLeastCore then s.upd fun h => { h with fetchMark := s.history.length } else s).retire

def execFenceLd (w : Wd) (x : Xm) (s : State) : Host.Outcome State Fault Refusal :=
  issued (.fenceLd w x) s fun _ s => s.fence .ld x.scope

def execFenceSt (w : Wd) (x : Xm) (s : State) : Host.Outcome State Fault Refusal :=
  issued (.fenceSt w x) s fun _ s => s.fence .st x.scope

def execFenceAll (w : Wd) (x : Xm) (s : State) : Host.Outcome State Fault Refusal :=
  issued (.fenceAll w x) s fun _ s => s.fence .all x.scope

end Sys2Proof.Machine
end

