-- ==== Sys2Proof/Machine/Dispatch.lean ====
section
/-! DEFINITION. Dispatch: one arm for each constructor of `Instr`, each a direct call of its meaning. -/
namespace Sys2Proof.Machine

def exec (i : Instr) (s : State) : Host.Outcome State Fault Refusal :=
  match i with
  | .add w => Sys2Proof.Machine.execAdd w s
  | .sub w => Sys2Proof.Machine.execSub w s
  | .and w => Sys2Proof.Machine.execAnd w s
  | .or w => Sys2Proof.Machine.execOr w s
  | .xor w => Sys2Proof.Machine.execXor w s
  | .andn w => Sys2Proof.Machine.execAndn w s
  | .shl w => Sys2Proof.Machine.execShl w s
  | .shr w => Sys2Proof.Machine.execShr w s
  | .shra w => Sys2Proof.Machine.execShra w s
  | .rot w => Sys2Proof.Machine.execRot w s
  | .min w => Sys2Proof.Machine.execMin w s
  | .max w => Sys2Proof.Machine.execMax w s
  | .minn w => Sys2Proof.Machine.execMinn w s
  | .maxn w => Sys2Proof.Machine.execMaxn w s
  | .sel w c rm => Sys2Proof.Machine.execSel w c rm s
  | .mov w => Sys2Proof.Machine.execMov w s
  | .clz w => Sys2Proof.Machine.execClz w s
  | .ctz w => Sys2Proof.Machine.execCtz w s
  | .popc w => Sys2Proof.Machine.execPopc w s
  | .sext w => Sys2Proof.Machine.execSext w s
  | .zext w => Sys2Proof.Machine.execZext w s
  | .mul w => Sys2Proof.Machine.execMul w s
  | .mulh w => Sys2Proof.Machine.execMulh w s
  | .mulhn w => Sys2Proof.Machine.execMulhn w s
  | .div w => Sys2Proof.Machine.execDiv w s
  | .divn w => Sys2Proof.Machine.execDivn w s
  | .rem w => Sys2Proof.Machine.execRem w s
  | .remn w => Sys2Proof.Machine.execRemn w s
  | .scmp c w => Sys2Proof.Machine.execScmp c w s
  | .pcmp c w => Sys2Proof.Machine.execPcmp c w s
  | .lil w imm => Sys2Proof.Machine.execLil w imm s
  | .lih w imm => Sys2Proof.Machine.execLih w imm s
  | .lit w imm => Sys2Proof.Machine.execLit w imm s
  | .pand w => Sys2Proof.Machine.execPand w s
  | .por w => Sys2Proof.Machine.execPor w s
  | .pxor w => Sys2Proof.Machine.execPxor w s
  | .pandn w => Sys2Proof.Machine.execPandn w s
  | .pnot w => Sys2Proof.Machine.execPnot w s
  | .pmov w => Sys2Proof.Machine.execPmov w s
  | .ppop w => Sys2Proof.Machine.execPpop w s
  | .pfirst w => Sys2Proof.Machine.execPfirst w s
  | .plast w => Sys2Proof.Machine.execPlast w s
  | .psetn w => Sys2Proof.Machine.execPsetn w s
  | .lea w imm => Sys2Proof.Machine.execLea w imm s
  | .bra w off => Sys2Proof.Machine.execBra w off s
  | .call w off => Sys2Proof.Machine.execCall w off s
  | .ret w => Sys2Proof.Machine.execRet w s
  | .jmp w => Sys2Proof.Machine.execJmp w s
  | .brc c w off => Sys2Proof.Machine.execBrc c w off s
  | .setvl w => Sys2Proof.Machine.execSetvl w s
  | .setvlg w => Sys2Proof.Machine.execSetvlg w s
  | .loopvl w off => Sys2Proof.Machine.execLoopvl w off s
  | .loop w endOff lvl => Sys2Proof.Machine.execLoop w endOff lvl s
  | .lcrd w => Sys2Proof.Machine.execLcrd w s
  | .lcwr w => Sys2Proof.Machine.execLcwr w s
  | .wait w => Sys2Proof.Machine.execWait w s
  | .waita w => Sys2Proof.Machine.execWaita w s
  | .gbar w => Sys2Proof.Machine.execGbar w s
  | .nbinit w x => Sys2Proof.Machine.execNbinit w x s
  | .nbarr rel w x => Sys2Proof.Machine.execNbarr rel w x s
  | .nbwait acq w x => Sys2Proof.Machine.execNbwait acq w x s
  | .nbaw ord w x => Sys2Proof.Machine.execNbaw ord w x s
  | .yield w => Sys2Proof.Machine.execYield w s
  | .yieldp w => Sys2Proof.Machine.execYieldp w s
  | .seal w => Sys2Proof.Machine.execSeal w s
  | .fenceLd w x => Sys2Proof.Machine.execFenceLd w x s
  | .fenceSt w x => Sys2Proof.Machine.execFenceSt w x s
  | .fenceAll w x => Sys2Proof.Machine.execFenceAll w x s
  | .mfs w sys => Sys2Proof.Machine.execMfs w sys s
  | .mts w sys => Sys2Proof.Machine.execMts w sys s
  | .teambaseInstall w => Sys2Proof.Machine.execTeambaseInstall w s
  | .csctlRetry w => Sys2Proof.Machine.execCsctlRetry w s
  | .lightRequest w => Sys2Proof.Machine.execLightRequest w s
  | .ecall w imm => Sys2Proof.Machine.execEcall w imm s
  | .eret w => Sys2Proof.Machine.execEret w s
  | .exit w => Sys2Proof.Machine.execExit w s
  | .nop w => Sys2Proof.Machine.execNop w s
  | .brk w imm => Sys2Proof.Machine.execBrk w imm s
  | .tlbi w => Sys2Proof.Machine.execTlbi w s
  | .grun w => Sys2Proof.Machine.execGrun w s
  | .vadd w rm => Sys2Proof.Machine.execVadd w rm s
  | .vsub w rm => Sys2Proof.Machine.execVsub w rm s
  | .vmul w rm => Sys2Proof.Machine.execVmul w rm s
  | .vmulh w rm => Sys2Proof.Machine.execVmulh w rm s
  | .vfma w c rm => Sys2Proof.Machine.execVfma w c rm s
  | .vmin w rm => Sys2Proof.Machine.execVmin w rm s
  | .vmax w rm => Sys2Proof.Machine.execVmax w rm s
  | .vabs w rm => Sys2Proof.Machine.execVabs w rm s
  | .vneg w rm => Sys2Proof.Machine.execVneg w rm s
  | .vand w rm => Sys2Proof.Machine.execVand w rm s
  | .vor w rm => Sys2Proof.Machine.execVor w rm s
  | .vxor w rm => Sys2Proof.Machine.execVxor w rm s
  | .vandn w rm => Sys2Proof.Machine.execVandn w rm s
  | .vshl w rm => Sys2Proof.Machine.execVshl w rm s
  | .vshr w rm => Sys2Proof.Machine.execVshr w rm s
  | .vshra w rm => Sys2Proof.Machine.execVshra w rm s
  | .vadds w rm => Sys2Proof.Machine.execVadds w rm s
  | .vsubs w rm => Sys2Proof.Machine.execVsubs w rm s
  | .vdiv w rm => Sys2Proof.Machine.execVdiv w rm s
  | .vsqrt w rm => Sys2Proof.Machine.execVsqrt w rm s
  | .vrcp w rm => Sys2Proof.Machine.execVrcp w rm s
  | .vrsq w rm => Sys2Proof.Machine.execVrsq w rm s
  | .vexp2 w rm => Sys2Proof.Machine.execVexp2 w rm s
  | .vlog2 w rm => Sys2Proof.Machine.execVlog2 w rm s
  | .vclass w rm => Sys2Proof.Machine.execVclass w rm s
  | .vround w rm => Sys2Proof.Machine.execVround w rm s
  | .vcmp c w => Sys2Proof.Machine.execVcmp c w s
  | .vsel w => Sys2Proof.Machine.execVsel w s
  | .vcvt w rm => Sys2Proof.Machine.execVcvt w rm s
  | .vqnt w x => Sys2Proof.Machine.execVqnt w x s
  | .vscl w x => Sys2Proof.Machine.execVscl w x s
  | .trnpk w => Sys2Proof.Machine.execTrnpk w s
  | .trnup w => Sys2Proof.Machine.execTrnup w s
  | .vred op w rm => Sys2Proof.Machine.execVred op w rm s
  | .vscan op w rm => Sys2Proof.Machine.execVscan op w rm s
  | .vdotb w x => Sys2Proof.Machine.execVdotb w x s
  | .vperm w => Sys2Proof.Machine.execVperm w s
  | .vsldu w => Sys2Proof.Machine.execVsldu w s
  | .vsldd w => Sys2Proof.Machine.execVsldd w s
  | .vbcast w => Sys2Proof.Machine.execVbcast w s
  | .viota w => Sys2Proof.Machine.execViota w s
  | .vext w => Sys2Proof.Machine.execVext w s
  | .vins w => Sys2Proof.Machine.execVins w s
  | .vzip w => Sys2Proof.Machine.execVzip w s
  | .vunzip w => Sys2Proof.Machine.execVunzip w s
  | .vrev w => Sys2Proof.Machine.execVrev w s
  | .vcomp w => Sys2Proof.Machine.execVcomp w s
  | .vexpnd w => Sys2Proof.Machine.execVexpnd w s
  | .vunionKz w => Sys2Proof.Machine.execVunionKz w s
  | .vunionDz w => Sys2Proof.Machine.execVunionDz w s
  | .vprn48 w => Sys2Proof.Machine.execVprn48 w s
  | .defer w x => Sys2Proof.Machine.execDefer w x s
  | .drain w x => Sys2Proof.Machine.execDrain w x s
  | .qapp w x => Sys2Proof.Machine.execQapp w x s
  | .qpop w x => Sys2Proof.Machine.execQpop w x s
  | .qlen w x => Sys2Proof.Machine.execQlen w x s
  | .queueOpAtHome req => Sys2Proof.Machine.execQueueOpAtHome req s
  | .ld w x => Sys2Proof.Machine.execLd w x s
  | .st w x => Sys2Proof.Machine.execSt w x s
  | .pref w x => Sys2Proof.Machine.execPref w x s
  | .vld w x => Sys2Proof.Machine.execVld w x s
  | .vst w x => Sys2Proof.Machine.execVst w x s
  | .vlds w x => Sys2Proof.Machine.execVlds w x s
  | .vsts w x => Sys2Proof.Machine.execVsts w x s
  | .vldw w x => Sys2Proof.Machine.execVldw w x s
  | .vstw w x => Sys2Proof.Machine.execVstw w x s
  | .vldx w x => Sys2Proof.Machine.execVldx w x s
  | .vstx w x => Sys2Proof.Machine.execVstx w x s
  | .vldxo w x => Sys2Proof.Machine.execVldxo w x s
  | .vstxo w x => Sys2Proof.Machine.execVstxo w x s
  | .vldg w x => Sys2Proof.Machine.execVldg w x s
  | .vcst w x => Sys2Proof.Machine.execVcst w x s
  | .amo op ord w x => Sys2Proof.Machine.execAmo op ord w x s
  | .vamo op ord w x => Sys2Proof.Machine.execVamo op ord w x s
  | .rput w x => Sys2Proof.Machine.execRput w x s
  | .rget w x => Sys2Proof.Machine.execRget w x s
  | .rfence w x => Sys2Proof.Machine.execRfence w x s
  | .rsig rel w x => Sys2Proof.Machine.execRsig rel w x s
  | .collAr op w x => Sys2Proof.Machine.execCollAr op w x s
  | .collRs op w x => Sys2Proof.Machine.execCollRs op w x s
  | .collAg w x => Sys2Proof.Machine.execCollAg w x s
  | .collBc w x => Sys2Proof.Machine.execCollBc w x s
  | .kapp w x => Sys2Proof.Machine.execKapp w x s
  | .keyPageAppendAtHome req => Sys2Proof.Machine.execKeyPageAppendAtHome req s
  | .kbnd w x => Sys2Proof.Machine.execKbnd w x s
  | .khrv w x => Sys2Proof.Machine.execKhrv w x s
  | .rkpush w x => Sys2Proof.Machine.execRkpush w x s
  | .rkpop w x => Sys2Proof.Machine.execRkpop w x s
  | .rkwm w x => Sys2Proof.Machine.execRkwm w x s
  | .rkwait w x => Sys2Proof.Machine.execRkwait w x s
  | .rackingCopyLand core ch n => Sys2Proof.Machine.execRackingCopyLand core ch n s
  | .clean w x => Sys2Proof.Machine.execClean w x s
  | .inval w x => Sys2Proof.Machine.execInval w x s
  | .invro w x => Sys2Proof.Machine.execInvro w x s
  | .zerol w x => Sys2Proof.Machine.execZerol w x s
  | .mma w x => Sys2Proof.Machine.execMma w x s
  | .mmas w x => Sys2Proof.Machine.execMmas w x s
  | .tmma w x => Sys2Proof.Machine.execTmma w x s
  | .zclr w => Sys2Proof.Machine.execZclr w s
  | .zadd w => Sys2Proof.Machine.execZadd w s
  | .zld w x => Sys2Proof.Machine.execZld w x s
  | .zst w x => Sys2Proof.Machine.execZst w x s
  | .zdrain w x => Sys2Proof.Machine.execZdrain w x s
  | .convoyBind core => Sys2Proof.Machine.execConvoyBind core s
  | .counterFall h op => Sys2Proof.Machine.execCounterFall h op s
  | .interlockedResult h op => Sys2Proof.Machine.execInterlockedResult h op s
  | .matrixOpComplete h op => Sys2Proof.Machine.execMatrixOpComplete h op s
  | .cellarSeal core => Sys2Proof.Machine.execCellarSeal core s
  | .cellarLeave h => Sys2Proof.Machine.execCellarLeave h s
  | .globalWindowAccessAtHome req => Sys2Proof.Machine.execGlobalWindowAccessAtHome req s
  | .rsigArrival req => Sys2Proof.Machine.execRsigArrival req s
  | .collArrival inst m sender => Sys2Proof.Machine.execCollArrival inst m sender s
  | .releaseNotice inst m sender => Sys2Proof.Machine.execReleaseNotice inst m sender s
  | .ready inst m => Sys2Proof.Machine.execReady inst m s
  | .commit inst m => Sys2Proof.Machine.execCommit inst m s
  | .abort inst m code lost => Sys2Proof.Machine.execAbort inst m code lost s
  | .memberLost die => Sys2Proof.Machine.execMemberLost die s
  | .collWatchdogExpiry inst m => Sys2Proof.Machine.execCollWatchdogExpiry inst m s
  | .graphArm die entry => Sys2Proof.Machine.execGraphArm die entry s
  | .queueFlush die run node => Sys2Proof.Machine.execQueueFlush die run node s
  | .queueFiring die run node => Sys2Proof.Machine.execQueueFiring die run node s
  | .gangPlace die => Sys2Proof.Machine.execGangPlace die s
  | .preemptVictimChoice die => Sys2Proof.Machine.execPreemptVictimChoice die s
  | .saveExclusionExpiry die => Sys2Proof.Machine.execSaveExclusionExpiry die s
  | .preemptDeadlineExpiry die gang => Sys2Proof.Machine.execPreemptDeadlineExpiry die gang s
  | .contextSave die => Sys2Proof.Machine.execContextSave die s
  | .contextRestore die => Sys2Proof.Machine.execContextRestore die s
  | .strikeReport pos => Sys2Proof.Machine.execStrikeReport pos s
  | .drainCoreReset core => Sys2Proof.Machine.execDrainCoreReset core s
  | .spareRowInsert core => Sys2Proof.Machine.execSpareRowInsert core s
  | .healthRefresh die peer smp => Sys2Proof.Machine.execHealthRefresh die peer smp s
  | .dropNotice die peer lane => Sys2Proof.Machine.execDropNotice die peer lane s
  | .markerFlit die peer => Sys2Proof.Machine.execMarkerFlit die peer s
  | .laneTransitionComplete die peer => Sys2Proof.Machine.execLaneTransitionComplete die peer s
  | .flitReceive die peer good => Sys2Proof.Machine.execFlitReceive die peer good s
  | .retrainTimer die peer lane good => Sys2Proof.Machine.execRetrainTimer die peer lane good s
  | .lctlReqWrite die peer req => Sys2Proof.Machine.execLctlReqWrite die peer req s
  | .lctlLpsWrite die peer lps => Sys2Proof.Machine.execLctlLpsWrite die peer lps s
  | .lightGrant chip mw => Sys2Proof.Machine.execLightGrant chip mw s
  | .lightShed chip => Sys2Proof.Machine.execLightShed chip s
  | .islandFreqWrite die isl mhz ubgoim => Sys2Proof.Machine.execIslandFreqWrite die isl mhz ubgoim s
  | .freqChangeApplied die isl => Sys2Proof.Machine.execFreqChangeApplied die isl s
  | .islandGateWrite die isl gate ubgoim => Sys2Proof.Machine.execIslandGateWrite die isl gate ubgoim s
  | .islandGateEntry die isl => Sys2Proof.Machine.execIslandGateEntry die isl s
  | .islandRegateTimer die isl => Sys2Proof.Machine.execIslandRegateTimer die isl s
  | .powerCapAdjust chip down => Sys2Proof.Machine.execPowerCapAdjust chip down s
  | .msixRaise chip vec => Sys2Proof.Machine.execMsixRaise chip vec s
  | .hostApertureWrite chip off bytes => Sys2Proof.Machine.execHostApertureWrite chip off bytes s
  | .hostApertureRead chip off len => Sys2Proof.Machine.execHostApertureRead chip off len s
  | .mailboxMeasurementLog chip => Sys2Proof.Machine.execMailboxMeasurementLog chip s
  | .mailboxCertChain chip => Sys2Proof.Machine.execMailboxCertChain chip s
  | .mailboxAttest chip => Sys2Proof.Machine.execMailboxAttest chip s
  | .coldReset chip imagesOk => Sys2Proof.Machine.execColdReset chip imagesOk s
  | .freeze chip cause => Sys2Proof.Machine.execFreeze chip cause s
  | .undefinedOpcode bits => Sys2Proof.Machine.execUndefinedOpcode bits s
  | .islandUngate die isl => Sys2Proof.Machine.execIslandUngate die isl s
  | .l3Relock die peer => Sys2Proof.Machine.execL3Relock die peer s
  | .coreResetEnd core => Sys2Proof.Machine.execCoreResetEnd core s

end Sys2Proof.Machine
end

