-- ==== Sys2Proof/Machine/Convoy.lean ====
section
/-! DEFINITION. Running a convoy: its members in order through `exec`, all or none; what its retirement does beside
them; and one turn of a hart or of the device (02 R27 to R31, 06 R147 to R156, 07 R184, R185, 15 R316 to R321,
19 R392, R397). -/
namespace Sys2Proof.Machine

/-! ### Issue and retirement -/

/-- The fixed latencies still wanted, once a vector convoy of stall count n issues (06 R147, R148). -/
def Hart.elapse (h : Hart) (n : Nat) : Hart :=
  { h with early := (h.early.map fun e => { e with need := e.need - max 1 n }).filter fun e => e.op.isSome || 0 < e.need }

/-- A member that has run between two states is a producer: for the registers that it writes, its fixed latency, with their
contents from before it. The members after it read its result at once (06 R148, R156). -/
def State.started (s t : State) (i : Instr) : State :=
  match Instr.latency i (Instr.format i s.my) with
  | none => t
  | some n => t.modHart s.me fun h => { h with
      early := h.early ++ (dedup i.writes).map fun r => ⟨r, s.my.regVal r, n, true, none, true⟩ }

/-- The producers of a convoy that has retired are such for later convoys. -/
def Hart.settled (h : Hart) : Hart := { h with early := h.early.map fun e => { e with own := false } }

/-- What the core keeps of a convoy that retired, or trapped, at a point, for a rollback (19 R392); what has sealed is
forgotten. -/
def Core.keep (c : Core) (h : Nat) (before : Hart) (p : CorePoint) : Core :=
  let recent (t : Nat) : Bool := decide (c.clock < t + Config.sealWindow + 1)
  { c with
    log := (c.log.filter fun r => recent r.cycle) ++ [⟨p.cycle, h, .retired before⟩]
    points := (c.points.filter fun q => recent q.cycle) ++ [p]
    outside := c.outside.filter fun o => recent o.1
    clock := c.clock + 1 }

/-- A convoy of the hart in focus, begun in `s0`, has retired or trapped. -/
def State.keep (s0 s : State) : State := s.modCore (coreOf s0.me) fun k => Core.keep k s0.me s0.my (s0.point (coreOf s0.me))

/-- Vector-ALU members, which the checking lane counts (19 R397). -/
def Instr.checkedMember (i : Instr) : Bool := i.isWord && 0x10 ≤ Instr.maj i && Instr.maj i ≤ 0x16

/-- A convoy of the hart in focus, begun in `s0`, has retired or trapped, and nothing of it is compared any more (19 R397). -/
def State.leaves (s0 s : State) : State := (s0.keep s).modCore (coreOf s0.me) fun k => { k with lastChecked := [] }

/-- The retirement of a convoy that began at `pc`, of which the last members ran since `s0`: the end test, the latencies it
starts, a yield point, the core's clock and history. -/
def State.retireConvoy (s s0 : State) (pc : Word) (words : List IWord) : State :=
  let s := if s.disp == .retired then s.upd fun h => h.endTest (h.endingAt pc) else s
  let s := s.upd Hart.settled
  let yields := words.any fun w => w.getLsbD 33
  let s := if yields && s.my.prqReq && s.my.run == .running then s.stopAt s.me false else s
  s0.leaves s

/-! ### The members of a convoy -/

/-- What running the members gives. -/
inductive Ran where
  | done (s : State)
  | blocked (s : State)
  /-- a member, with those after it, waits for the result of an operation -/
  | suspended (member op : Nat) (s : State)
  | trapped (t : Trap) (member : Nat) (s : State)
  | stopped (f : Fault)
  | refused (r : Refusal)

/-- An operation of the convoy whose result is still to come, and which a member reads (06 R156). -/
def Instr.awaits (i : Instr) (first : Nat) (h : Hart) : Option Nat :=
  (h.ops.find? fun o => first ≤ o.id && !o.landed && o.regs.any i.reads.contains).map fun o => o.id

/-- A register's bits, in the width of the widest. -/
def RegVal.bits : RegVal → BitVec 20480
  | .scalar v => v.setWidth 20480
  | .vec r => r.bits.setWidth 20480
  | .pred v => v.setWidth 20480
  | .accum r => r.bits

/-- The bits of a register that a member writes: those that it leaves the same whatever the register held. -/
def State.written (s : State) (i : Instr) (r : RegId) : BitVec 20480 :=
  let after (ones : Bool) : BitVec 20480 := match exec i (s.upd fun h => h.filled r ones) with
    | .next t => (t.my.regVal r).bits
    | _ => 0
  ~~~(after false ^^^ after true)

/-- What a member writes stands against results of the convoy's operations that are still to come (06 R156). -/
def State.shielded (s t : State) (first : Nat) (i : Instr) : State :=
  t.upd fun h => { h with ops := h.ops.map fun o =>
    if o.id < first || o.landed then o
    else { o with shield := o.shield ++ (o.regs.filter i.writes.contains).map fun r => (r, s.written i r) } }

/-- Member k of a convoy does not wait for operations that earlier members of the convoy started: it reads their
results (06 R156). -/
def execMember (first k : Nat) (i : Instr) (s : State) : Host.Outcome State Fault Refusal :=
  let mine (o : Op) : Bool := decide (0 < k) && decide (first ≤ o.id)
  let hidden := s.my.ops.filter mine
  if hidden.isEmpty then exec i s
  else
    let me := s.me
    let young (e : Early) : Bool := (e.op.map fun o => decide (first ≤ o)).getD false
    let early := s.my.early.filter young
    let bare := s.upd fun h => { h with ops := h.ops.filter fun o => !mine o, early := h.early.filter fun e => !young e }
    match exec i bare with
    | .next t =>
      let back := t.modHart me fun h => { h with ops := hidden ++ h.ops, early := early ++ h.early }
      .next (if hidden.any fun o => !o.landed && o.regs.any i.writes.contains then
          (bare.shielded { back with me := me } first i) else back)
    | o => o

/-- The members in order, each acting on what the earlier ones left (06 R156). -/
def runMembers (first : Nat) : Nat → List Instr → State → Ran
  | _, [], s => .done s
  | k, i :: rest, s =>
    match (if k = 0 then none else Instr.awaits i first s.my) with
    | some op => .suspended k op s
    | none => match execMember first k i s with
      | .fault f => .stopped f
      | .refused r => .refused r
      | .next t => match t.disp with
        | .blocked => .blocked t
        | .trapped tr => .trapped tr k t
        | .jumped => match rest with
          | [] => .done (s.started t i)
          | rest => runMembers first (k + 1) rest (s.started t i)
        | .retired => runMembers first (k + 1) rest (s.started t i)

/-- Translations that the members of a trapped convoy left held stay held (04 R102). -/
def State.keepTlb (s t : State) : State :=
  let c := coreOf s.me
  s.modCore c fun k => { k with tlb := (t.core c).tlb }

/-- What a hart was before some members of its convoy ran, as far as they may change it: the registers that they write, the
length, the flags, its producers and the poison of those registers. -/
def Hart.undo (h : Hart) (ran : List Instr) : Undo :=
  let regs := dedup (ran.flatMap Instr.writes)
  { regs := regs.map fun r => (r, h.regVal r), fflags := h.fflags, fxi := h.fxi, vl := h.vl, gvl := h.gvl, early := h.early
    poison := h.poison.filter fun p => regs.contains p.reg }

/-- What it was before the convoy began, with what later members have run since. -/
def Undo.after (first later : Undo) : Undo :=
  let new := later.regs.filter fun r => !first.regs.any fun q => q.1 == r.1
  { first with
    regs := first.regs ++ new, poison := first.poison ++ later.poison.filter fun p => new.any fun r => r.1 == p.reg }

/-- All that a convoy of a hart has done outside its registers, from its first operation on, is to issue loads (15 R316). -/
def State.onlyLoads (s : State) (h first : Nat) : Bool :=
  !((s.core (coreOf h)).cellar.any fun e => e.hart == h && !e.engine && first ≤ e.seq)
    && s.net.all fun r => r.hart != h || r.op < first || r.kind == .load

/-- The hart in focus as it was before its convoy, whose members so far are undone: its operations and their loads are
dropped (02 R27, 15 R316, R318, 16 R333). -/
def State.undone (s : State) (t : Tail) (u : Undo) : State :=
  let h := s.me
  let mine (o : Op) : Bool := Decidable.decide (t.first ≤ o.id)
  let drop (w : Vector (BitVec 16) 8) (o : Op) : Vector (BitVec 16) 8 := match o.ctr with
    | some c => w.set c.toNat ((w[c.toNat]'c.isLt) - 1) c.isLt
    | none => w
  let s := s.upd fun k =>
    let w := (k.ops.filter mine).foldl drop k.w
    let kept := k.poison.filter fun p => !u.regs.any fun r => r.1 == p.reg
    let k := u.regs.foldl (fun k r => k.withReg r.1 r.2) k
    { k with
      tail := none, vl := u.vl, gvl := u.gvl, fflags := u.fflags, fxi := u.fxi, early := u.early, poison := kept ++ u.poison
      ops := k.ops.filter fun o => !mine o, w := w }
  { s with net := s.net.filter fun r => !(r.hart == h && Decidable.decide (t.first ≤ r.op)) }

/-- The members of a convoy from one on run in `s`, and leave it as a unit: retired, waiting for a result of its own, or
trapped, in `trap`. `s0` is the hart before them, and `undo` what it was before the convoy; a convoy that must wait leaves
`back`. -/
def State.runRest (s0 back trap : State) (undo : Option Undo) (q : QConvoy) (is : List Instr) (first k : Nat) (s : State) :
    Host.Outcome State Fault Refusal :=
  match runMembers first k (is.drop k) s with
  | .done s => .next (s.retireConvoy s0 q.pc q.words)
  | .suspended n op s =>
    let u := (undo.map fun u => u.after (s0.my.undo ((is.drop k).take (n - k)))).filter fun _ => s.onlyLoads s.me first
    .next (s0.keep (s.upd fun h => { h with pc := q.pc, tail := some ⟨q, n, first, op, u⟩ }))
  | .blocked s => .next (if is.any fun i => i.inVectorQueue then back.block else s)
  | .trapped t n s => .next (s0.leaves (((trap.keepTlb s).known t).takeTrapAs t n))
  | .stopped f => .fault f
  | .refused r => .refused r

/-- A convoy's words run as one unit: every member takes effect, or none (02 R27, 15 R316, R321). A scalar word that
waits keeps what it has done at a barrier (17 R355). -/
def State.runConvoy (s0 : State) (ws : List IWord) : Host.Outcome State Fault Refusal :=
  let ds := ws.map decodeFull
  let is := ds.map fun d => d.instr
  let s1 := match is, ws with
    | i :: _, w :: _ => if i.inVectorQueue then s0.upd fun h => h.elapse (stallCount w) else s0
    | _, _ => s0
  match s1.checkConvoy ws ds with
  | some (t, k) => .next (s0.leaves (s0.takeTrapAs t k))
  | none => s0.runRest s0 s0 (some (s0.my.undo [])) ⟨s0.my.pc, ws⟩ is s1.opSeq 0 s1

/-- The rest of a convoy whose memory member's result has come. A trap undoes the members before too, unless the memory member
has done what cannot be taken back (02 R27, 15 R316, log 29). -/
def State.runTail (s : State) (t : Tail) : Host.Outcome State Fault Refusal :=
  if s.my.ops.any fun o => o.id == t.op && !o.landed then .next s.block
  else
    let s1 := s.upd fun h => { h with tail := none, pc := t.convoy.pc + Word.ofNat (12 * t.next) }
    let trap := match t.undo with
      | some u => s.undone t u
      | none => s
    s.runRest s trap t.undo t.convoy (t.convoy.words.map fun w => (decodeFull w).instr) t.first t.next s1

/-! ### One turn of a hart -/

/-- A member covers an element group, as far as is known when its convoy binds: some element below vl is active under its guard,
or an earlier member writes the guard (02 R35). -/
def Instr.mayCover (i : Instr) (h : Hart) (wrote : List RegId) : Bool :=
  h.vl != 0 && (match i.wd with
    | some w => wrote.contains (.p w.grd.p) || (List.range (min h.vl.toNat 1024)).any (h.guardBit w.grd)
    | none => true)

/-- The numbers, from one on, of the checked members among some that compute something (19 R397). -/
def Hart.checkedFrom (h : Hart) : Nat → List RegId → List Instr → List Nat
  | _, _, [] => []
  | m, wrote, i :: rest =>
    let on := Instr.checkedMember i
    (if on && Instr.mayCover i h wrote then [m] else []) ++ h.checkedFrom (if on then m + 1 else m) (wrote ++ i.writes) rest

/-- The checked members of a convoy that binds are counted (19 R397). -/
def State.countChecked (s : State) (q : QConvoy) : State :=
  let is := q.words.map fun w => (decodeFull w).instr
  let n := (is.filter Instr.checkedMember).length
  s.modCore (coreOf s.me) fun k => { k with checked := k.checked + n, lastChecked := s.my.checkedFrom k.checked [] is }

/-- The checking lane disagrees over a member of the convoy that the hart in focus has bound, which does not retire
(19 R397). -/
def State.disagrees (s : State) : Option State :=
  let c := coreOf s.me
  let hit (u : Upset) : Option (Fin 5) := match u with
    | .mismatch k g => if k = c && (s.core c).watchedNow.contains g.val then some g else none
    | _ => none
  match s.upsets.findSome? hit with
  | some g =>
    if s.pick (.other 50) 2 = 0 then none
    else some { ({ s with upsets := s.upsets.erase (.mismatch c g) } : State).mismatch c g with disp := .jumped }
  | none => none

/-- Takes the head convoy of the hart in focus out of its queue and runs it; a convoy that must wait stays queued, and
the bind has not happened (02 R29, R30). -/
def State.runHead (s back : State) : Host.Outcome State Fault Refusal :=
  match s.my.queue with
  | [] => .next s.block
  | q :: rest =>
    let bound := s.countChecked q
    match bound.disagrees with
    | some t => .next t
    | none => match (bound.upd fun h => { h with queue := rest }).runConvoy q.words with
      | .next t => if t.disp == .blocked then .next back.block else .next t
      | o => o

/-- The arbiter binds a head convoy among some harts of a core, which runs; a head that must wait was not ready, and the
choice is made without it (02 R30, R31). -/
def State.bindAmong (s : State) : Nat → List Nat → Host.Outcome State Fault Refusal
  | 0, _ => .next s.block
  | n + 1, ready =>
    let c := coreOf s.me
    match s.arbitrateAmong c ready with
    | none => .next s.block
    | some (m, t) => match ({ t with me := 8 * c + m } : State).runHead s with
      | .next u => if u.disp == .blocked then s.bindAmong n (ready.filter fun r => r ≠ m) else .next u
      | o => o

/-- The arbiter binds a ready head convoy of the core, which runs (02 R31). -/
def State.bindAndRun (s : State) : Host.Outcome State Fault Refusal :=
  let c := coreOf s.me
  let free := s.modCore c fun k => { k with bound := none }
  match (s.core c).bound with
  | some n => match ({ free with me := 8 * c + n.toNat } : State).runHead free with
    | .next t => if t.disp == .blocked then free.bindAmong 8 (free.readyHarts c) else .next t
    | o => o
  | none => s.bindAmong 8 (s.readyHarts c)

/-! ### The scalar sequencer ahead of the queue (02 R29, 06 R149, 15 R316) -/

/-- Scalar words that the sequencer runs ahead of convoys that have not retired: they change nothing but the hart's own
registers, loops and pc (log 57). -/
def Instr.runsAhead (i : Instr) : Bool :=
  i.isWord && [0x00, 0x02, 0x03, 0x04, 0x05, 0x08, 0x09].contains (Instr.maj i)

/-- The hart as the scalar sequencer sees it past one convoy of its queue, and the registers that the queue's vector
convoys will write. -/
def State.past (s : State) (q : QConvoy) (at_ : Hart × List RegId) : Option (Hart × List RegId) :=
  let is := q.words.map fun w => (decodeFull w).instr
  if q.isVector then
    let h := { at_.1 with pc := q.pc + Word.ofNat (12 * is.length) }
    some (h.endTest (h.endingAt q.pc), at_.2 ++ is.flatMap Instr.writes)
  else match (s.setMy at_.1).runConvoy q.words with
    | .next t => if t.disp == .retired || t.disp == .jumped then some (t.my, at_.2) else none
    | _ => none

/-- The scalar sequencer's view past the whole queue. -/
def State.front (s : State) : Option (Hart × List RegId) :=
  s.my.queue.foldl (fun at_ q => at_.bind (s.past q)) (some ({ s.my with queue := [] }, []))

/-- The scalar sequencer takes the next convoy of its program order into the queue: a vector one if it has room, a scalar
one if it depends on nothing that the queue has yet to write, and would not trap (02 R29, 06 R149). -/
def State.runAhead (s : State) : Option State :=
  match s.front with
  | none => none
  | some (h, writes) => match (s.setMy h).fetchConvoy s.me 4 h.pc.toNat with
    | .error _ => none
    | .ok ws =>
      let q : QConvoy := ⟨h.pc, ws⟩
      let free (i : Instr) : Bool := Instr.runsAhead i && !(i.reads ++ i.writes).any writes.contains
      let may : Bool :=
        if q.isVector then Decidable.decide ((s.my.queue.filter QConvoy.isVector).length < Config.queueDepth)
        else ws.all fun w => free (decodeFull w).instr && (s.past q (h, writes)).isSome
      if may then some ((s.holdFetch s.me h.pc.toNat ws.length).upd fun k => { k with queue := k.queue ++ [q] }) else none

/-- The head of a queue acts: a scalar convoy run ahead retires in its place, a vector one waits to bind. -/
def State.headActs (s : State) : Host.Outcome State Fault Refusal :=
  match s.my.queue with
  | q :: _ => if q.isVector then s.bindAndRun else s.runHead s
  | [] => .next s.block

/-- A turn of a running hart. With nothing queued, the convoy at its pc is fetched: a scalar one executes, any other goes
through the vector queue. With convoys queued, the head acts, or the scalar sequencer goes on ahead of it, as the device
chooses (02 R29). A convoy that waits for its own memory member's result waits for that alone. -/
def State.stepHart (s : State) : Host.Outcome State Fault Refusal :=
  match s.my.tail with
  | some t => s.runTail t
  | none =>
    if !s.my.queue.isEmpty then
      match s.runAhead with
      | some t => if s.pick (.other 2) 2 = 0 then s.headActs else .next { t with disp := .retired }
      | none => s.headActs
    else
      let va := s.my.pc.toNat
      match s.fetchConvoy s.me 4 va with
      | .error t => .next (s.keep ((s.known t).takeTrap t))
      | .ok ws =>
        let s := s.holdFetch s.me va ws.length
        let queued := s.upd fun h => { h with queue := [⟨h.pc, ws⟩] }
        match ws with
        | [w] => if (decodeFull w).instr.inVectorQueue then queued.bindAndRun else s.runConvoy ws
        | _ => queued.bindAndRun

/-! ### Who acts next -/

/-- What may happen next. -/
inductive Turn where
  | event (i : Instr) (rest : List Instr)
  | upset (u : Upset) (rest : List Upset)
  | hart (h : Nat)

/-- Harts that can take a turn: running, on a core in use, in a package that is not frozen (19 R407, 17 R370). -/
def State.runnable (s : State) : List Nat :=
  (s.harts.filter fun p => p.2.run == .running && !(s.core (coreOf p.1)).underReset && !(s.core (coreOf p.1)).gone
    && !(s.pkg (chipOf p.1)).frozen).map fun p => p.1

/-- The due steps, each with those that remain. -/
def dueTurns : List Instr → List Instr → List Turn
  | _, [] => []
  | pre, i :: rest => .event i (pre ++ rest) :: dueTurns (pre ++ [i]) rest

/-- The upsets not yet noticed, each with those that remain. -/
def upsetTurns : List Upset → List Upset → List Turn
  | _, [] => []
  | pre, u :: rest => .upset u (pre ++ rest) :: upsetTurns (pre ++ [u]) rest

def State.turns (s : State) : List Turn := dueTurns [] s.agenda ++ upsetTurns [] s.upsets ++ s.runnable.map Turn.hart

/-- One turn: a due step of the device, or the next convoy of a hart, as the device chooses (log 8). -/
def State.turn (s : State) : Host.Outcome State Fault Refusal :=
  let s := { s with fresh := s.fresh + 1, time := s.time + 1 }
  match s.turns with
  | [] => if (s.pkg (chipOf s.me)).frozen then .fault .frozen else .next s
  | t :: ts => match s.pickFrom .hart (t :: ts) t with
    | .event i rest => exec i { s with agenda := rest }
    | .upset u rest => .next (({ s with upsets := rest } : State).suffer u)
    | .hart h => ({ s with me := h } : State).stepHart

end Sys2Proof.Machine
end

