-- ==== Sys2Proof/Machine/Step.lean ====
section
/-! DEFINITION. One step of the machine, and the placing of one instruction where the next step fetches. -/
namespace Sys2Proof.Machine

/-- One step: a due step of the device or the next convoy of a hart (see `State.turn`). -/
def step (s : State) : Host.Outcome State Fault Refusal := s.turn

/-- The root and level-2 tables that `withFetchWord` writes, and the two entries: the root names the level-2 table, and
a leaf maps the first 32 GiB onto itself for every access of both modes (04 R99, R100). -/
def fetchRoot : Nat := 0x10000
def fetchTable : Nat := 0x20000
def fetchRootEntry : Nat := 0x20003
def fetchLeaf : Nat := 0x3D

/-- The state with one instruction stored where the next step fetches: hart `me` runs at address 0 through a table of
its own, in a core in use, with nothing due and nothing under way (log 11). It stands for the load of a program from outside. -/
def State.withFetchWord (s : State) (_nbits w : Nat) : State :=
  let chip := chipOf s.me
  let bytes := bytesOfWord (BitVec.ofNat 96 w)
  let mem := ((s.mem.writeCells (cellsAt (physKey chip 0) bytes)).writeCells
    (cellsAt (physKey chip fetchRoot) (bytesOfNat 8 fetchRootEntry))).writeCells
    (cellsAt (physKey chip fetchTable) (bytesOfNat 8 fetchLeaf))
  let s := { s with mem := mem, agenda := [], upsets := [], net := [], poison := [], harts := [], cores := [], pkgs := [] }
  s.setMy { Hart.reset with run := .running, ptbase := Word.ofNat fetchRoot, fetchMark := s.history.length }

end Sys2Proof.Machine
end

