-- ==== Sys2Proof/Safety.lean ====
section
/-! DEFINITION. What a sound state is, when a word issues and a memory word reaches its places, which words share one
shape of effect, and the bytes that a store's word writes: the terms that the statements use. -/
namespace Sys2Proof.Machine

/-! ### Sound states -/

/-- Every scratchpad that a table of cores lists is in canonical form (04 R104). -/
def CoresOk (t : Tab Core) : Prop := ∀ p ∈ t, p.2.spad.wf = true

/-- The package memories and every core's scratchpad are in canonical form (04 R98, R104, log 6). -/
def State.Sound (s : State) : Prop := s.mem.wf = true ∧ CoresOk s.cores

/-! ### Who acts next -/

/-- The state as a step begins: its free choices and its time are its own. -/
def State.begun (s : State) : State := { s with fresh := s.fresh + 1, time := s.time + 1 }

/-- What a step does next, as the device chooses among what may happen (log 8); none when nothing may. -/
def State.chosen (s : State) : Option Turn :=
  match s.begun.turns with
  | [] => none
  | t :: ts => some (s.begun.pickFrom .hart (t :: ts) t)

/-! ### A word that issues -/

/-- Nothing stands in a word's way in the hart in focus: no check before issue fails (15 R319), no interlock holds it
(06 R149, R150), its guard lets it act (06 R146) and no register that it reads is poisoned (19 R400). -/
structure State.Clear (s : State) (i : Instr) : Prop where
  checks : s.precheck i = none
  free : Instr.waitsOn i s.my = false
  settled : s.awaitsNew i = false
  guard : Instr.guardOk i (s.readView i) = true
  whole : s.poisonTrap i = none

/-- A hart with nothing under way: no operation, no early read, no poisoned register. -/
def Hart.quiet (h : Hart) : Bool := h.ops.isEmpty && h.early.isEmpty && h.poison.isEmpty

/-- The elements of a memory word lie at `ps`, and the word may take effect: no acquire is outstanding (05 R128), no
element fails its checks (15 R320), no racking command holds one back (05 R133), no earlier request of the hart is in
its way (05 R121), and the cellar has room (04 R117). -/
structure State.Reaches (s : State) (i : Instr) (acc : Acc) (es : List Elem) (need : List Placed → Nat) (ps : List Placed) :
    Prop where
  ungated : s.gated = false
  placed : s.placeAll s.me acc es = .ok ps
  landed : (s.holdElems s.me es).myCore.stallsAny es = false
  ordered : (s.holdElems s.me es).ordersAfter acc ps = false
  room : (Instr.memClass i && !(s.holdElems s.me es).myCore.cellarFits (need ps)) = false

/-- What a word reads of n bytes at an address at its own place, and the state after it: nothing holds the word back, and
nothing it reads is lost; no bytes where a home refuses them (09 R254, R257, R258). -/
def State.Loads (s : State) (i : Instr) (va n : Nat) (r : Option (List Byte) × State) : Prop :=
  ∃ ps, s.Reaches i .read (rangeElems va n) (fun _ => 0) ps ∧ (s.holdElems s.me (rangeElems va n)).lostTrap ps = none
    ∧ r = (s.holdElems s.me (rangeElems va n)).loadParts (ps.flatMap fun p => p.parts.flatMap eightParts)

/-- The trap that reading n bytes at an address meets: a failing range, or poison (15 R319, 19 R400). -/
def State.LoadTraps (s : State) (i : Instr) (va n : Nat) (t : Trap) : Prop :=
  (s.gated = false ∧ s.placeAll s.me .read (rangeElems va n) = .error t)
    ∨ ∃ ps, s.Reaches i .read (rangeElems va n) (fun _ => 0) ps
        ∧ (s.holdElems s.me (rangeElems va n)).lostTrap ps = some t

/-- How the step ended is a trap. -/
def Disposition.isTrap : Disposition → Bool
  | .trapped _ => true
  | _ => false

/-! ### Words of one shape -/

/-- Words whose only result is an x register, of fixed latency (07 R172 to R188). -/
def Instr.scalarOnly : Instr → Bool
  | .add _ | .sub _ | .and _ | .or _ | .xor _ | .andn _ | .shl _ | .shr _ | .shra _ | .rot _ | .min _ | .max _
  | .minn _ | .maxn _ | .sel _ _ _ | .mov _ | .clz _ | .ctz _ | .popc _ | .sext _ | .zext _ | .scmp _ _ | .lil _ _
  | .lih _ _ | .lit _ _ | .lea _ _ | .ppop _ | .pfirst _ | .plast _ | .lcrd _ | .mfs _ _ => true
  | _ => false

/-- Words whose only result is a predicate (07 R176, R179). -/
def Instr.predOnly : Instr → Bool
  | .pcmp _ _ | .pand _ | .por _ | .pxor _ | .pandn _ | .pnot _ | .pmov _ | .psetn _ => true
  | _ => false

/-- Words whose only result is one vector register and the flags, of fixed latency (08 R203 to R227). -/
def Instr.vectorOnly : Instr → Bool
  | .vadd _ _ | .vsub _ _ | .vmul _ _ | .vmulh _ _ | .vfma _ _ _ | .vmin _ _ | .vmax _ _ | .vabs _ _ | .vneg _ _
  | .vand _ _ | .vor _ _ | .vxor _ _ | .vandn _ _ | .vshl _ _ | .vshr _ _ | .vshra _ _ | .vadds _ _ | .vsubs _ _
  | .vdiv _ _ | .vsqrt _ _ | .vrcp _ _ | .vrsq _ _ | .vexp2 _ _ | .vlog2 _ _ | .vclass _ _ | .vround _ _ | .vsel _
  | .vcvt _ _ | .vscl _ _ | .trnpk _ | .trnup _ | .vperm _ | .vsldu _ | .vsldd _ | .vbcast _ | .viota _ | .vins _
  | .vzip _ | .vunzip _ | .vrev _ | .vcomp _ | .vexpnd _ => true
  | _ => false

/-- Interlocked words whose only result is an x register (07 R174, R175). -/
def Instr.slowScalar : Instr → Bool
  | .mul _ | .mulh _ | .mulhn _ | .div _ | .divn _ | .rem _ | .remn _ => true
  | _ => false

/-- Interlocked words whose results are vector registers and the flags (08 R218, R222 to R224, R228, R230). -/
def Instr.slowVector : Instr → Bool
  | .vqnt _ _ | .vred _ _ _ | .vscan _ _ _ | .vdotb _ _ | .vunionKz _ | .vunionDz _ | .vprn48 _ => true
  | _ => false

/-- Words that write system registers, but for teambase (07 R188, 11 R298, 17 R363). -/
def Instr.writesSys : Instr → Bool
  | .mts _ _ | .lightRequest _ | .csctlRetry _ => true
  | _ => false

/-- Branches, calls and returns, and the loop words that transfer (07 R180, R182). -/
def Instr.transfers : Instr → Bool
  | .bra _ _ | .call _ _ | .ret _ | .jmp _ | .brc _ _ _ | .loopvl _ _ => true
  | _ => false

/-- The elements that a storing word writes, with the hart as it reads it; none for a word that stores no element
(09 R242 to R246, R269, 10 R287). -/
def State.storedElems (s : State) (r : Hart) (i : Instr) : List Elem :=
  match i with
  | .st w x => [⟨0, r.effAddr w x 1, scalarBytes w.fmt, false⟩]
  | .vst w x => (s.accessed r w).map
      (stridedElem (r.effAddr w x (offUnit w.fmt)) (Word.ofNat (elemBytes w.fmt)) (elemBytes w.fmt))
  | .vsts w x => (s.accessed r w).map (stridedElem (r.effAddr w x (offUnit w.fmt)) (r.xSrc w.b) (elemBytes w.fmt))
  | .vstw w x => wholeElems w.fmt s.myCore.vlmax (r.effAddr w x (offUnit w.fmt))
  | .vstx w x | .vstxo w x => s.indexedElems r w x (elemBytes w.fmt) false
  | .vcst w x =>
    let stored := (s.accessed r w).take (r.xSrc w.b).toNat
    ((List.range stored.length).zip stored).map fun p =>
      { stridedElem (r.effAddr w x (offUnit w.fmt)) (Word.ofNat (elemBytes w.fmt)) (elemBytes w.fmt) p.1 with idx := p.2 }
  | .zst w x => accElems (r.effAddr w x 4)
  | .zerol w _ => zeroElems (r.xSrc w.a).toNat (r.xSrc w.b).toNat
  | _ => []

/-- The state in which a storing word's elements are placed: ZEROL checks its range first, and places its lines with the
translations held since. -/
def State.storeView (s : State) (r : Hart) (i : Instr) : State :=
  match i with
  | .zerol w _ => s.holdElems s.me (rangeElems (r.xSrc w.a).toNat (r.xSrc w.b).toNat)
  | _ => s

/-- Words that store elements. -/
def Instr.stores : Instr → Bool
  | .st _ _ | .vst _ _ | .vsts _ _ | .vstw _ _ | .vstx _ _ | .vstxo _ _ | .vcst _ _ | .zst _ _ | .zerol _ _ => true
  | _ => false

/-- Words that load and store nothing (09 R239 to R245, 10 R287). -/
def Instr.loads : Instr → Bool
  | .ld _ _ | .pref _ _ | .vld _ _ | .vlds _ _ | .vldw _ _ | .vldx _ _ | .vldxo _ _ | .vldg _ _ | .zld _ _ => true
  | _ => false

/-- A checked element covers a byte of its core's scratchpad. -/
def Placed.coversSpad (p : Placed) (off : Nat) : Bool := p.parts.any fun q => match q.1 with
  | .spad _ o => o ≤ off && off < o + q.2
  | _ => false

/-- A checked element covers a byte of package memory. -/
def Placed.coversMem (p : Placed) (key : Nat) : Bool := p.parts.any fun q => match q.1 with
  | .mem k _ => k ≤ key && key < k + q.2
  | _ => false

/-- A checked element stores to a byte of package memory: its own, or one that a home's translation puts behind its part in
the global window (09 R240). -/
def State.storesTo (s : State) (job : BitVec 12) (p : Placed) (key : Nat) : Bool :=
  p.coversMem key || p.parts.any fun q => match q.1 with
    | .global va => (List.range q.2).any fun j => (s.homeAddr job .write (va + j)).toOption == some key
    | _ => false

/-- Words that retire with a request that acts at a home (08 R234 to R236, 09 R247 to R252, R259). -/
def Instr.requests : Instr → Bool
  | .amo _ _ _ _ | .vamo _ _ _ _ | .qapp _ _ | .qpop _ _ | .qlen _ _ | .rput _ _ | .rget _ _ | .rsig _ _ _ | .kapp _ _ => true
  | _ => false

/-- The elements that an atomic changes, with the hart as it reads it (09 R247). -/
def State.atomicElems (s : State) (r : Hart) (i : Instr) : List Elem :=
  match i with
  | .amo _ _ w x => [⟨0, r.effAddr w x 1, scalarBytes w.fmt, true⟩]
  | .vamo _ _ w x => s.indexedElems r w x (elemBytes w.fmt) true
  | _ => []

/-- A byte of the event ring of some die, which entries of the log may overwrite (19 R405). -/
def State.RingByte (s : State) (key : Nat) : Prop :=
  ∃ d n, let base := (s.die d).evbase
    base.toNat / 2 ^ 16 ≠ 0 ∧ n < State.ringSize base
      ∧ let k := physKey (chipOfDie d) ((base.toNat / 2 ^ 16 * 2 ^ 16 + 32 * n) % 2 ^ 40)
        k ≤ key ∧ key < k + 32

/-- A byte of the descriptor of a work queue, or of one of its entries, as a request reaches them (08 R231). -/
def State.QueueByte (s : State) (r : Request) (key : Nat) : Prop :=
  let va := (r.elems.head?.map fun e => e.cmp).getD 0
  (∃ j mt, j < 64 ∧ s.spaceKey r .write ((va + j) % 2 ^ 64) = .ok (.mem key mt))
    ∨ ∃ q n j mt, readDesc (fun off n => (s.spaceNat r (va + off) n).toOption) = some q ∧ j < 4
        ∧ s.spaceKey r .write ((entryAt q n + j) % 2 ^ 64) = .ok (.mem key mt)

/-- A byte of the key page that a key append names (09 R258). -/
def State.PageByte (s : State) (r : Request) (key : Nat) : Prop :=
  let va := (r.elems.head?.map fun e => e.cmp).getD 0
  ∃ off n ps, off + n ≤ 0x40 + 132 * 256 ∧ s.pagePlaces r (va + off) n = .ok ps
    ∧ ∃ q ∈ ps, ∃ j mt, j < q.2 ∧ q.1.shift j = .mem key mt

end Sys2Proof.Machine
end

