-- ==== Sys2Proof/Certificates/Slice0/Obligations.lean ====
section
/-! DEFINITION. Statements for the provers, each formalising the rules that its docstring cites. -/
open Sys2Proof Sys2Proof.Machine

/-- What a cold reset leaves in the registers whose reset value the spec gives, with memory and device at rest (logs
3, 6, 7) (02 R32, 02 R53, 03 R66, 03 R67, 04 R105, 04 R109, 07 R197, 11 R298, 11 R300, 15 R324, 18 R386, 19 R395). -/
def Obligations.ResetState : Prop :=
  (∀ n, let h := State.reset.hart n
    h.run = .free ∧ h.fflags = 0 ∧ h.fxi.iv = BitVec.allOnes 64 ∧ h.fxi.dz = BitVec.allOnes 64
      ∧ h.fxi.ovf = BitVec.allOnes 64 ∧ h.fxi.unf = BitVec.allOnes 64 ∧ h.fxi.nx = BitVec.allOnes 64
      ∧ h.fxi.sat = BitVec.allOnes 64 ∧ h.fxi.nfs = BitVec.allOnes 64 ∧ h.hwgt = 0 ∧ h.prq = 0
      ∧ h.yieldmask = BitVec.allOnes 64 ∧ h.yieldaux = 0x1FFFFF ∧ h.chk = false ∧ h.estat = 0 ∧ h.collwd = 100000)
  ∧ (∀ c, (State.reset.core c).spmode = false ∧ (∀ n, (State.reset.core c).barrier n = ⟨0, 0, 0, 0, []⟩)
      ∧ (State.reset.core c).rstat = 0)
  ∧ (∀ d, (State.reset.die d).gtbase = 0 ∧ (State.reset.die d).l2ways = 0xFF)
  ∧ (∀ p, (State.reset.pkg p).lbreq = 81600 ∧ (State.reset.pkg p).apbase = 0x8000000000000000
      ∧ (State.reset.pkg p).apjob = 0)
  ∧ State.reset.mem = [] ∧ State.reset.net = [] ∧ State.reset.agenda = []

/-- The state after reset is sound (04 R98, 04 R104). -/
def Obligations.ResetIsSound : Prop :=
  State.reset.Sound

/-- Every step keeps the canonical form of every memory (04 R98, 04 R104). -/
def Obligations.StepKeepsSound : Prop :=
  ∀ s t : State, s.Sound → step s = .next t → t.Sound

/-- Decoding the word of a well-formed instruction gives it back (06 R141, 06 R143, 06 R144, 06 R146, 06 R157, 06
R162, 06 R163). -/
def Obligations.DecodeInvertsEncode : Prop :=
  ∀ i : Instr, i.wellFormed = true →
    ∃ b, encode i = some b ∧ decodeWord b = .ok i ∧ wordOfBytes (bytesOfWord b) = b

/-- Words written out in the spec decode to the instructions they stand for (06 R161, 06 R163, 07 R173, 07 R183, 08
R211, 09 R252, 10 R277). -/
def Obligations.DecodeWords : Prop :=
  decodeWord 0x0000000C0107FF8000000000#96
      = .ok (.add ⟨.raw, .always, .main 3 .plain, .main 4 .plain, .const 0x3FF, 0, false, false, false, false⟩)
  ∧ decodeWord 0x243000000200000000000C80#96
      = .ok (.loop ⟨.raw, .always, .zero, .main 8 .plain, .zero, 0, false, false, false, false⟩ 6 1)
  ∧ decodeWord 0x4046000400800C0000404000#96
      = .ok (.vfma ⟨.fp32, .always, .main 1 .plain, .main 2 .plain, .main 3 .plain, 0, false, false, false, false⟩
          (.main 4 .plain) .rtz)
  ∧ decodeWord 0x840600040080000080040200#96
      = .ok (.vld ⟨.fp32, .always, .main 1 .plain, .main 2 .plain, .zero, 0, false, false, false, true⟩
          ⟨64, 1, .hart, .normal, false⟩)
  ∧ decodeWord 0xC00B00080040200094618018#96
      = .ok (.mma ⟨.e2m1, .always, .main 2 .plain, .main 1 .plain, .main 8 .plain, 0, false, false, false, true⟩
          ⟨40, 48, .b32, .e8m0, 0, 3, .rne⟩)
  ∧ decodeWord 0x90A000000146008000000140#96
      = .ok (.rsig true ⟨.raw, .always, .zero, .main 5 .plain, .const 1, 0, false, false, false, false⟩
          ⟨0, 0, .pod, .normal, false⟩)
  ∧ decodeWord 0xFC0000000000000000000000#96 = .ok (.undefinedOpcode 0xFC0000000000000000000000#96)

/-- A step is the due step of the device, the upset or the convoy that the device chooses (00 R10, 02 R29, 19 R407).
-/
def Obligations.StepTakesATurn : Prop :=
  ∀ s : State,
    (∀ i rest, s.chosen = some (.event i rest) → step s = exec i { s.begun with agenda := rest })
    ∧ (∀ h, s.chosen = some (.hart h) → step s = ({ s.begun with me := h } : State).stepHart)
    ∧ (∀ u rest, s.chosen = some (.upset u rest) → step s = .next (({ s.begun with upsets := rest } : State).suffer u))
    ∧ (s.chosen = none → (s.pkg (chipOf s.me)).frozen = false → step s = .next s.begun)
    ∧ (s.chosen = none → (s.pkg (chipOf s.me)).frozen = true → step s = .fault .frozen)

/-- A hart whose turn it is runs the instruction that the word at its pc decodes to (02 R29, 02 R31, 06 R142, 06
R161). -/
def Obligations.StepRunsTheDecodedWord : Prop :=
  ∀ (s : State) (h : Nat) (w : IWord) (i : Instr),
    let a : State := { s.begun with me := h }
    s.chosen = some (.hart h) → a.my.queue = [] → a.my.tail = none → a.fetchWord h a.my.pc.toNat = .ok w → chainBit w = false →
    decodeWord w = .ok i →
    let b := a.holdFetch h a.my.pc.toNat 1
    let q := b.upd fun k => { k with queue := [⟨k.pc, [w]⟩] }
    (Instr.inVectorQueue i = false → step s = b.runConvoy [w])
    ∧ (∀ t r, Instr.inVectorQueue i = true → (q.core (coreOf h)).bound = none → q.arbitrate (coreOf h) = some (h % 8, t) →
        let bound := t.countChecked ⟨a.my.pc, [w]⟩
        (∀ u, bound.disagrees = some u → step s = .next u)
        ∧ (bound.disagrees = none → (bound.upd fun k => { k with queue := [] }).runConvoy [w] = .next r →
          (r.disp ≠ .blocked → step s = .next r)
          ∧ (r.disp = .blocked → q.readyHarts (coreOf h) = [h % 8] → step s = .next q.block)))

/-- A convoy of one word is exec of the instruction it decodes to (02 R27, 06 R147, 06 R151, 06 R161, 07 R184, 15
R316, 15 R319, 15 R321, 05 R417). -/
def Obligations.OneWordConvoyRunsItsInstruction : Prop :=
  ∀ (s : State) (w : IWord) (i : Instr), decodeWord w = .ok i →
    let b := if Instr.inVectorQueue i then s.upd fun h => h.elapse (stallCount w) else s
    (b.checkConvoy [w] [decodeFull w] = none →
      s.runConvoy [w] = match exec i b with
        | .next t => .next (match t.disp with
          | .retired | .jumped => (b.started t i).retireConvoy s s.my.pc [w]
          | .blocked => if Instr.inVectorQueue i then s.block else t
          | .trapped tr => s.leaves (((s.keepTlb t).known tr).takeTrapAs tr 0))
        | .fault f => .fault f
        | .refused r => .refused r)
    ∧ (∀ t k, b.checkConvoy [w] [decodeFull w] = some (t, k) → s.runConvoy [w] = .next (s.leaves (s.takeTrapAs t k)))

/-- A hart with nothing under way issues every good word, and the word reads the registers as they stand (06 R146, 06
R149, 06 R150, 06 R161, 15 R319, 16 R338, 19 R400). -/
def Obligations.QuietHartIssuesItsWord : Prop :=
  ∀ (s : State) (i : Instr) (k : Hart → State → State),
    s.my.quiet = true → i.reservedSubs = [] → (∃ o, Instr.resolve i s.my = .ok o) →
    Instr.undefinedHere i s.myCore.vlmax = false → (Instr.privileged i = true → s.my.sup = true) →
    (∀ c, i.counter = some c → s.my.w[c.toNat]'c.isLt ≠ 0xFFFF) → Instr.guardOk i s.my = true →
    s.Clear i ∧ s.readView i = s.my ∧ issued i s k = .next (k s.my s)

/-- What every instruction word does when a check, an interlock, its guard or a poisoned register stands in its way
(06 R146, 06 R149, 06 R150, 06 R161, 15 R319, 19 R400). -/
def Obligations.EveryWordMeetsItsChecks : Prop :=
  ∀ (s : State) (i : Instr), i.isWord = true →
    (∀ t, s.precheck i = some t → exec i s = .next (s.takeTrap t))
    ∧ (s.precheck i = none → (Instr.waitsOn i s.my || s.awaitsNew i) = true → exec i s = .next s.block)
    ∧ (s.precheck i = none → (Instr.waitsOn i s.my || s.awaitsNew i) = false → Instr.guardOk i (s.readView i) = false →
        exec i s = .next s.retire)
    ∧ (s.precheck i = none → (Instr.waitsOn i s.my || s.awaitsNew i) = false → Instr.guardOk i (s.readView i) = true →
        ∀ t, s.poisonTrap i = some t → exec i s = .next (s.takeTrap t)
          ∨ ∃ u own, exec i s = .next u ∧ u.disp = .trapped own ∧ own.code < t.code)
    ∧ (s.precheck i = none → (Instr.waitsOn i s.my || s.awaitsNew i) = false → Instr.guardOk i (s.readView i) = true →
        s.poisonTrap i = none → s.Clear i)

/-- Undefined words, reserved fields and privileged forms in user mode trap with their codes, in that order (06 R161,
06 R165, 15 R319, 16 R338, 16 R341). -/
def Obligations.ChecksBeforeIssue : Prop :=
  ∀ (s : State) (i : Instr),
    (∀ bits, exec (.undefinedOpcode bits) s = .next (s.takeTrap { code := 3 }))
    ∧ (i.isWord = true → Instr.undefinedHere i s.myCore.vlmax = true → exec i s = .next (s.takeTrap { code := 3 }))
    ∧ (i.isWord = true → Instr.undefinedHere i s.myCore.vlmax = false → i.reservedSubs ≠ [] →
        ∃ sub ∈ i.reservedSubs, exec i s = .next (s.takeTrap { code := 5, sub := sub }))
    ∧ (Instr.privileged i = true → i.reservedSubs = [] → s.my.sup = false → s.my.early = [] →
        exec i s = .next (s.takeTrap { code := 8 }))

/-- What taking a trap writes, the fault record with it, and what it leaves (15 R321, 15 R324, 15 R325, 15 R327, 15
R328, 15 R330). -/
def Obligations.TrapEntry : Prop :=
  (∀ (s : State) (t : Trap) (m : Nat), s.my.exl = false → s.my.svec ≠ 0 →
    let r := s.takeTrapAs t m
    let h := r.my
    h.epc = (if t.code = 0x15 then s.my.pc + 12 else s.my.pc)
    ∧ (h.ecause.extractLsb' 0 8).toNat = t.code % 256 ∧ h.ecause.extractLsb' 8 8 = 0
    ∧ (h.ecause.extractLsb' 16 16).toNat = t.sub % 2 ^ 16 ∧ (h.ecause.extractLsb' 32 2).toNat = t.acc % 4
    ∧ (h.ecause.extractLsb' 34 2).toNat = m % 4 ∧ h.ecause.extractLsb' 36 4 = 0 ∧ h.ecause.extractLsb' 40 24 = t.imm
    ∧ h.eaddr = t.eaddr ∧ h.pm = s.my.sup ∧ h.exl = true ∧ h.recSet = !(t.code == 0x15) ∧ h.sup = true ∧ h.pc = s.my.svec
    ∧ h.run = s.my.run ∧ h.x = s.my.x ∧ h.v = s.my.v ∧ h.p = s.my.p ∧ h.z = s.my.z ∧ h.o = s.my.o ∧ h.l = s.my.l
    ∧ h.w = s.my.w ∧ h.lc = s.my.lc ∧ h.vl = s.my.vl ∧ h.gvl = s.my.gvl ∧ h.fflags = s.my.fflags ∧ h.fxi = s.my.fxi
    ∧ h.svec = s.my.svec ∧ h.ops = s.my.ops ∧ h.frsel = s.my.frsel
    ∧ (∀ n, n ≠ s.me → r.hart n = s.hart n) ∧ r.cores = s.cores ∧ r.dies = s.dies ∧ r.pkgs = s.pkgs ∧ r.mem = s.mem
    ∧ r.net = s.net ∧ r.disp = .trapped t
    ∧ (t.code = 0x15 → h.frhdr = s.my.frhdr &&& 0x7FFFFFFFFFFFFFFF ∧ h.frEntries = s.my.frEntries)
    ∧ (t.code ≠ 0x15 →
        h.frhdr.extractLsb' 63 1 = 1 ∧ h.frhdr.getLsbD 62 = t.ovf ∧ h.frhdr.extractLsb' 59 3 = 0
        ∧ (h.frhdr.extractLsb' 48 11).toNat = t.entries.length % 2 ^ 11 ∧ h.frhdr.extractLsb' 37 11 = 0
        ∧ h.frhdr.getLsbD 36 = t.ctr.isSome ∧ (h.frhdr.extractLsb' 34 2).toNat = m % 4 ∧ h.frhdr.extractLsb' 32 2 = 0
        ∧ (h.frhdr.extractLsb' 16 16).toNat = t.elem % 2 ^ 16 ∧ h.frhdr.extractLsb' 15 1 = 0
        ∧ h.frhdr.extractLsb' 12 3 = t.ctr.getD 0 ∧ h.frhdr.extractLsb' 8 4 = 0
        ∧ (h.frhdr.extractLsb' 0 8).toNat = t.code % 256
        ∧ (t.entries.length ≤ 256 → ∀ n : BitVec 8, ({ h with frsel := n } : Hart).sysReg 0x302 = t.entries.getD n.toNat 0))
    ∧ (t.ctr = none → h.stats = s.my.stats)
    ∧ (∀ st before later, t.ctr = some st.ctr → s.my.stats = before ++ st :: later → (∀ q ∈ before, q.ctr ≠ st.ctr) →
        h.stats = before ++ later))
  ∧ (∀ (s : State) (hk : Nat) (acc : Acc) (es : List Elem) (t : Trap), s.placeAll hk acc es = .error t →
    let errs (e : Elem) : List (Nat × AccErr) := match s.placeElem hk acc e with
      | .error l => l
      | .ok _ => []
    let all := es.flatMap fun e => (errs e).map fun q => (q.1 / 2 ^ 16 % 2 ^ 48, q.2.kind, e.idx)
    let firsts := (List.range all.length).filterMap fun n => (all[n]?).filter fun g => (all.take n).all fun b => b.1 != g.1
    t.entries = (firsts.take 256).map (fun g => Word.ofNat (g.1 * 2 ^ 16 + acc.code * 2 ^ 14 + g.2.1 * 2 ^ 12 + g.2.2 % 2 ^ 12))
    ∧ t.ovf = decide (256 < firsts.length) ∧ t.acc = acc.code ∧ t.ctr = none
    ∧ ∃ e, es.find? (fun e => !(errs e).isEmpty) = some e ∧ t.eaddr = Word.ofNat e.va ∧ t.elem = e.idx)

/-- A trap without a handler halts the hart, and fails its graph once that is sealed (15 R321, 15 R322, 19 R391). -/
def Obligations.TrapWithoutHandler : Prop :=
  ∀ (s : State) (t : Trap) (m : Nat),
    let b : State := { s with disp := .trapped t }
    let held := b.setMy { t.record m s.my with run := .halted, queue := [], tail := none }
    let entered := b.setMy { t.record m s.my with
      epc := if t.code = 0x15 then s.my.pc + 12 else s.my.pc
      ecause := t.cause m, eaddr := t.eaddr, pm := s.my.sup, exl := true, recSet := decide (t.code ≠ 0x15), run := .halted
      queue := [], tail := none }
    (s.my.exl = true → s.takeTrapAs t m = match s.my.gang with
      | none => held
      | some g => held.hold 0 (.failure g.graph g.node 0x11))
    ∧ (s.my.exl = false → s.my.svec = 0 → s.takeTrapAs t m = match s.my.gang with
      | none => entered
      | some g => entered.hold 0 (.failure g.graph g.node 0x10))
    ∧ (∀ h e g n cause, (s.pkg (chipOf h)).frozen = false → e.kind = .failure g n cause → e.sealed = true →
        (s.core (coreOf h)).cellar.filter (fun e => e.hart == h && !e.isUndo) = [e] →
        exec (.cellarLeave h) s = .next ((s.dropEntry (coreOf h) e.seq).failGraph (dieOf h) g n cause))

/-- ECALL and BRK enter the handler with their imm24, and ERET returns (02 R56, 07 R189, 07 R191, 15 R319, 15 R321, 15
R325, 15 R331, 05 R417). -/
def Obligations.CallsBreakpointsAndReturns : Prop :=
  ∀ (s : State) (w : Wd) (imm : BitVec 24),
    (s.Clear (.ecall w imm) → s.my.exl = false → s.my.svec ≠ 0 →
      exec (.ecall w imm) s = .next ({ s with disp := .trapped { code := 0x15, imm := imm } }.setMy { s.my with
        epc := s.my.pc + 12, ecause := Word.ofNat (imm.toNat * 2 ^ 40 + 0x15), eaddr := 0, pm := s.my.sup, exl := true
        recSet := false, sup := true, pc := s.my.svec, queue := [], tail := none, frhdr := s.my.frhdr &&& 0x7FFFFFFFFFFFFFFF }))
    ∧ (s.Clear (.brk w imm) → s.my.exl = false → s.my.svec ≠ 0 →
      exec (.brk w imm) s = .next ({ s with disp := .trapped { code := 0x14, imm := imm } }.setMy { s.my with
        epc := s.my.pc, ecause := Word.ofNat (imm.toNat * 2 ^ 40 + 0x14), eaddr := 0, pm := s.my.sup, exl := true
        recSet := true, sup := true, pc := s.my.svec, queue := [], tail := none, frhdr := 0x8000000000000014, frEntries := [] }))
    ∧ (s.Clear (.eret w) → exec (.eret w) s = .next { s.setMy { s.my with
        pc := s.my.epc, sup := s.my.pm, exl := false, recSet := false, frhdr := s.my.frhdr &&& 0x7FFFFFFFFFFFFFFF
        early := [], fetchMark := s.history.length } with disp := .jumped })

/-- The results of ADD, SUB, the bitwise forms, the shifts, ROT and the minimum and maximum forms (07 R172, 07 R173).
-/
def Obligations.ScalarArithmetic : Prop :=
  ∀ (s : State) (w : Wd),
    let a := s.my.xSrc w.a
    let b := s.my.xSrc w.b
    (s.Clear (.add w) → ∃ v, exec (.add w) s = .next (s.scalarResult w.d v) ∧ v.toNat = (a.toNat + b.toNat) % 2 ^ 64)
    ∧ (s.Clear (.sub w) → ∃ v, exec (.sub w) s = .next (s.scalarResult w.d v) ∧ (v.toNat + b.toNat) % 2 ^ 64 = a.toNat)
    ∧ (s.Clear (.and w) → ∃ v, exec (.and w) s = .next (s.scalarResult w.d v) ∧ ∀ n, v.getLsbD n = (a.getLsbD n && b.getLsbD n))
    ∧ (s.Clear (.or w) → ∃ v, exec (.or w) s = .next (s.scalarResult w.d v) ∧ ∀ n, v.getLsbD n = (a.getLsbD n || b.getLsbD n))
    ∧ (s.Clear (.xor w) → ∃ v, exec (.xor w) s = .next (s.scalarResult w.d v) ∧ ∀ n, v.getLsbD n = (a.getLsbD n != b.getLsbD n))
    ∧ (s.Clear (.andn w) → ∃ v, exec (.andn w) s = .next (s.scalarResult w.d v) ∧ ∀ n, v.getLsbD n = (a.getLsbD n && !b.getLsbD n))
    ∧ (s.Clear (.shl w) → ∃ v, exec (.shl w) s = .next (s.scalarResult w.d v) ∧ v.toNat = a.toNat * 2 ^ (b.toNat % 64) % 2 ^ 64)
    ∧ (s.Clear (.shr w) → ∃ v, exec (.shr w) s = .next (s.scalarResult w.d v) ∧ v.toNat = a.toNat / 2 ^ (b.toNat % 64))
    ∧ (s.Clear (.shra w) → ∃ v, exec (.shra w) s = .next (s.scalarResult w.d v) ∧ v.toInt = a.toInt / 2 ^ (b.toNat % 64))
    ∧ (s.Clear (.rot w) → ∃ v, exec (.rot w) s = .next (s.scalarResult w.d v) ∧ ∀ n < 64, v.getLsbD n = a.getLsbD ((n + b.toNat % 64) % 64))
    ∧ (s.Clear (.min w) → ∃ v, exec (.min w) s = .next (s.scalarResult w.d v) ∧ v.toInt = min a.toInt b.toInt)
    ∧ (s.Clear (.max w) → ∃ v, exec (.max w) s = .next (s.scalarResult w.d v) ∧ v.toInt = max a.toInt b.toInt)
    ∧ (s.Clear (.minn w) → ∃ v, exec (.minn w) s = .next (s.scalarResult w.d v) ∧ v.toNat = min a.toNat b.toNat)
    ∧ (s.Clear (.maxn w) → ∃ v, exec (.maxn w) s = .next (s.scalarResult w.d v) ∧ v.toNat = max a.toNat b.toNat)

/-- The results of SEL, MOV, CLZ, CTZ, POPC, SEXT and ZEXT (07 R172, 07 R173). -/
def Obligations.ScalarSelectAndCount : Prop :=
  ∀ (s : State) (w : Wd),
    let a := s.my.xSrc w.a
    let b := s.my.xSrc w.b
    (∀ c rm, s.Clear (.sel w c rm) → ∃ v, exec (.sel w c rm) s = .next (s.scalarResult w.d v)
        ∧ (s.my.xSrc c ≠ 0 → v = a) ∧ (s.my.xSrc c = 0 → v = b))
    ∧ (s.Clear (.mov w) → ∃ v, exec (.mov w) s = .next (s.scalarResult w.d v) ∧ v = a)
    ∧ (s.Clear (.clz w) → ∃ v, exec (.clz w) s = .next (s.scalarResult w.d v) ∧ v.toNat ≤ 64 ∧ a.toNat / 2 ^ (64 - v.toNat) = 0 ∧ (v.toNat < 64 → a.getLsbD (63 - v.toNat) = true))
    ∧ (s.Clear (.ctz w) → ∃ v, exec (.ctz w) s = .next (s.scalarResult w.d v) ∧ v.toNat ≤ 64 ∧ a.toNat % 2 ^ v.toNat = 0 ∧ (v.toNat < 64 → a.getLsbD v.toNat = true))
    ∧ (s.Clear (.popc w) → ∃ v, exec (.popc w) s = .next (s.scalarResult w.d v) ∧ v.toNat = (List.range 64).countP fun n => a.getLsbD n)
    ∧ (s.Clear (.sext w) → ∃ v, exec (.sext w) s = .next (s.scalarResult w.d v) ∧ let n := b.toNat % 128
        (1 ≤ n → n ≤ 63 → v = (a.setWidth n).signExtend 64) ∧ (n = 0 ∨ 64 ≤ n → v = a))
    ∧ (s.Clear (.zext w) → ∃ v, exec (.zext w) s = .next (s.scalarResult w.d v) ∧ let n := b.toNat % 128
        (1 ≤ n → n ≤ 63 → v.toNat = a.toNat % 2 ^ n) ∧ (n = 0 ∨ 64 ≤ n → v = a))

/-- The results of the multiply and divide forms, which their readers wait for (06 R150, 07 R174). -/
def Obligations.MultiplyAndDivide : Prop :=
  ∀ (s : State) (w : Wd),
    let a := s.my.xSrc w.a
    let b := s.my.xSrc w.b
    (s.Clear (.mul w) → ∃ v, exec (.mul w) s = .next ((s.upd fun h => h.putX w.d v).retireOp (.mul w) s.my Flags.none)
        ∧ v.toNat = a.toNat * b.toNat % 2 ^ 64)
    ∧ (s.Clear (.mulh w) → ∃ v, exec (.mulh w) s = .next ((s.upd fun h => h.putX w.d v).retireOp (.mulh w) s.my Flags.none)
        ∧ v.toInt = a.toInt * b.toInt / 2 ^ 64)
    ∧ (s.Clear (.mulhn w) → ∃ v, exec (.mulhn w) s = .next ((s.upd fun h => h.putX w.d v).retireOp (.mulhn w) s.my Flags.none)
        ∧ v.toNat = a.toNat * b.toNat / 2 ^ 64)
    ∧ (s.Clear (.div w) → ∃ v, exec (.div w) s = .next ((s.upd fun h => h.putX w.d v).retireOp (.div w) s.my Flags.none)
        ∧ (b ≠ 0 → v = BitVec.ofInt 64 (a.toInt.tdiv b.toInt)))
    ∧ (s.Clear (.divn w) → ∃ v, exec (.divn w) s = .next ((s.upd fun h => h.putX w.d v).retireOp (.divn w) s.my Flags.none)
        ∧ (b ≠ 0 → v.toNat = a.toNat / b.toNat))
    ∧ (s.Clear (.rem w) → ∃ v, exec (.rem w) s = .next ((s.upd fun h => h.putX w.d v).retireOp (.rem w) s.my Flags.none)
        ∧ (b ≠ 0 → v.toInt = a.toInt.tmod b.toInt))
    ∧ (s.Clear (.remn w) → ∃ v, exec (.remn w) s = .next ((s.upd fun h => h.putX w.d v).retireOp (.remn w) s.my Flags.none)
        ∧ (b ≠ 0 → v.toNat = a.toNat % b.toNat))

/-- Division by zero, and the overflow of the signed division, give stated results without a flag or a trap (07 R175).
-/
def Obligations.DivideBorderlineCases : Prop :=
  ∀ (s : State) (w : Wd),
    let a := s.my.xSrc w.a
    let b := s.my.xSrc w.b
    (s.Clear (.div w) → ∀ v, (b = 0 ∧ v = 0xFFFFFFFFFFFFFFFF ∨ a = 0x8000000000000000 ∧ b = 0xFFFFFFFFFFFFFFFF ∧ v = 0x8000000000000000) →
        exec (.div w) s = .next ((s.upd fun h => h.putX w.d v).retireOp (.div w) s.my Flags.none))
    ∧ (s.Clear (.divn w) → ∀ v, (b = 0 ∧ v = 0xFFFFFFFFFFFFFFFF) →
        exec (.divn w) s = .next ((s.upd fun h => h.putX w.d v).retireOp (.divn w) s.my Flags.none))
    ∧ (s.Clear (.rem w) → ∀ v, (b = 0 ∧ v = a ∨ a = 0x8000000000000000 ∧ b = 0xFFFFFFFFFFFFFFFF ∧ v = 0) →
        exec (.rem w) s = .next ((s.upd fun h => h.putX w.d v).retireOp (.rem w) s.my Flags.none))
    ∧ (s.Clear (.remn w) → ∀ v, (b = 0 ∧ v = a) →
        exec (.remn w) s = .next ((s.upd fun h => h.putX w.d v).retireOp (.remn w) s.my Flags.none))

/-- The results of SCMP, PCMP, LIL, LIH, LIT and LEA (07 R176, 07 R177, 07 R178). -/
def Obligations.ComparesConstantsAndLea : Prop :=
  ∀ (s : State) (w : Wd) (c : Cond) (imm : BitVec 24),
    let a := s.my.xSrc w.a
    let b := s.my.xSrc w.b
    let x := s.my.xSrc w.d
    let holds := match c with
      | .eq => a.toNat = b.toNat | .ne => a.toNat ≠ b.toNat | .lt => a.toInt < b.toInt | .ge => b.toInt ≤ a.toInt
      | .ltu => a.toNat < b.toNat | .geu => b.toNat ≤ a.toNat
    (s.Clear (.scmp c w) → ∃ v, exec (.scmp c w) s = .next (s.scalarResult w.d v) ∧ (holds → v = 1) ∧ (¬ holds → v = 0))
    ∧ (s.Clear (.pcmp c w) → ∃ v, exec (.pcmp c w) s = .next (s.predResult w.d v)
        ∧ (holds → v = BitVec.allOnes 1024) ∧ (¬ holds → v = 0))
    ∧ (s.Clear (.lil w imm) → ∃ v, exec (.lil w imm) s = .next (s.scalarResult w.d v) ∧ v.toInt = imm.toInt)
    ∧ (s.Clear (.lih w imm) → ∃ v, exec (.lih w imm) s = .next (s.scalarResult w.d v)
        ∧ v.extractLsb' 24 24 = imm ∧ v.extractLsb' 0 24 = x.extractLsb' 0 24 ∧ v.extractLsb' 48 16 = x.extractLsb' 48 16)
    ∧ (s.Clear (.lit w imm) → ∃ v, exec (.lit w imm) s = .next (s.scalarResult w.d v)
        ∧ v.extractLsb' 48 16 = imm.extractLsb' 0 16 ∧ v.extractLsb' 0 48 = x.extractLsb' 0 48)
    ∧ (s.Clear (.lea w imm) → ∃ v, exec (.lea w imm) s = .next (s.scalarResult w.d v)
        ∧ (v.toInt - (a.toInt + b.toInt + imm.toInt)) % 2 ^ 64 = 0)

/-- The results of the predicate forms over all 1,024 bits (03 R58, 03 R59, 07 R179). -/
def Obligations.PredicateForms : Prop :=
  ∀ (s : State) (w : Wd),
    let a := s.my.pSrc w.a
    let b := s.my.pSrc w.b
    (s.Clear (.pand w) → ∃ v, exec (.pand w) s = .next (s.predResult w.d v) ∧ ∀ n < 1024, v.getLsbD n = (a.getLsbD n && b.getLsbD n))
    ∧ (s.Clear (.por w) → ∃ v, exec (.por w) s = .next (s.predResult w.d v) ∧ ∀ n < 1024, v.getLsbD n = (a.getLsbD n || b.getLsbD n))
    ∧ (s.Clear (.pxor w) → ∃ v, exec (.pxor w) s = .next (s.predResult w.d v) ∧ ∀ n < 1024, v.getLsbD n = (a.getLsbD n != b.getLsbD n))
    ∧ (s.Clear (.pandn w) → ∃ v, exec (.pandn w) s = .next (s.predResult w.d v) ∧ ∀ n < 1024, v.getLsbD n = (a.getLsbD n && !b.getLsbD n))
    ∧ (s.Clear (.pnot w) → ∃ v, exec (.pnot w) s = .next (s.predResult w.d v) ∧ ∀ n < 1024, v.getLsbD n = !a.getLsbD n)
    ∧ (s.Clear (.pmov w) → ∃ v, exec (.pmov w) s = .next (s.predResult w.d v) ∧ ∀ n < 1024, v.getLsbD n = a.getLsbD n)
    ∧ (s.Clear (.psetn w) → ∃ v, exec (.psetn w) s = .next (s.predResult w.d v) ∧ ∀ n < 1024, v.getLsbD n = decide (n < (s.my.xSrc w.a).toNat))
    ∧ (s.Clear (.ppop w) → ∃ v, exec (.ppop w) s = .next (s.scalarResult w.d v) ∧ v.toNat = (List.range 1024).countP fun n => a.getLsbD n)
    ∧ (s.Clear (.pfirst w) → ∃ v, exec (.pfirst w) s = .next (s.scalarResult w.d v) ∧ (a = 0 → v = 0xFFFFFFFFFFFFFFFF) ∧ (a ≠ 0 → a.getLsbD v.toNat = true
        ∧ ∀ n, a.getLsbD n = true → v.toNat ≤ n))
    ∧ (s.Clear (.plast w) → ∃ v, exec (.plast w) s = .next (s.scalarResult w.d v) ∧ (a = 0 → v = 0xFFFFFFFFFFFFFFFF) ∧ (a ≠ 0 → a.getLsbD v.toNat = true
        ∧ ∀ n, a.getLsbD n = true → n ≤ v.toNat))

/-- Where the branch forms go, and the link that CALL and JMP write (06 R159, 07 R176, 07 R180). -/
def Obligations.Branches : Prop :=
  ∀ (s : State) (w : Wd) (off : BitVec 24) (c : Cond),
    let a := s.my.xSrc w.a
    let b := s.my.xSrc w.b
    let link := s.upd fun h => h.putX w.d (s.my.pc + 12)
    let holds := match c with
      | .eq => a.toNat = b.toNat | .ne => a.toNat ≠ b.toNat | .lt => a.toInt < b.toInt | .ge => b.toInt ≤ a.toInt
      | .ltu => a.toNat < b.toNat | .geu => b.toNat ≤ a.toNat
    ∃ target : Word, (target.toInt - (s.my.pc.toInt + 4 * off.toInt)) % 2 ^ 64 = 0
    ∧ (s.Clear (.bra w off) → exec (.bra w off) s = .next (s.jumpTo target))
    ∧ (s.Clear (.call w off) → exec (.call w off) s = .next (link.jumpTo target))
    ∧ (s.Clear (.ret w) → exec (.ret w) s = .next (s.jumpTo a))
    ∧ (s.Clear (.jmp w) → exec (.jmp w) s = .next (link.jumpTo a))
    ∧ (s.Clear (.brc c w off) → holds → exec (.brc c w off) s = .next (s.jumpTo target))
    ∧ (s.Clear (.brc c w off) → ¬ holds → exec (.brc c w off) s = .next s.retire)

/-- The grants of SETVL and SETVLG, and the closing LOOPVL (02 R26, 07 R181, 07 R182). -/
def Obligations.VectorLengthGrants : Prop :=
  ∀ (s : State) (w : Wd) (off : BitVec 24),
    let a := (s.my.xSrc w.a).toNat
    let vm := s.myCore.vlmax
    let V := match w.fmt with
      | .raw | .i32 | .fp32 => vm | .i16 | .bf16 | .fp16 => 2 * vm | .i64 => vm / 2 | .e2m1 => 8 * vm | .tern => 20 * vm
      | .i8 | .n8 | .e4m3 | .e5m2 | .e8m0 | .mask8 => 4 * vm
    let grant (g l : Nat) := (s.upd fun h => { h.putX w.d (Word.ofNat g) with
      vl := BitVec.ofNat 13 l, gvl := BitVec.ofNat 16 g }).retire
    let G := min a (2 ^ s.my.gsz.toNat * V)
    let diff := s.my.xSrc w.d - s.my.xSrc w.a
    let t := s.upd fun h => h.putX w.d diff
    (s.Clear (.setvl w) → exec (.setvl w) s = .next (grant (min a V) (min a V)))
    ∧ (s.Clear (.setvlg w) → ∃ l, exec (.setvlg w) s = .next (grant G l)
        ∧ (l : Int) = max 0 (min ((G : Int) - s.my.rank.toNat * V) V))
    ∧ (s.Clear (.loopvl w off) → 0 < diff.toInt → exec (.loopvl w off) s = .next (t.jumpTo (branchTarget s.my.pc off)))
    ∧ (s.Clear (.loopvl w off) → diff.toInt ≤ 0 → exec (.loopvl w off) s = .next t.retire)

/-- LOOP arms its level or skips its body, and LCRD and LCWR read and write a count (07 R183, 07 R186, 15 R319). -/
def Obligations.HardwareLoops : Prop :=
  ∀ (s : State) (w : Wd) (off : BitVec 20) (lvl : BitVec 2),
    let n := min (s.my.xSrc w.a).toNat (2 ^ 32 - 1)
    let stop := s.my.pc + Word.ofNat (4 * off.toNat)
    let k := lvlOf w.d
    (s.Clear (.loop w off lvl) → n ≠ 0 → ∃ num, (∀ m < 4, ∀ l, s.my.lc[m]? = some l → l.active = true → l.armed < num)
        ∧ exec (.loop w off lvl) s = .next (s.upd fun h => { h with
            lc := h.lc.set lvl.toNat ⟨Word.ofNat n, true, num, h.pc + 12, stop⟩ lvl.isLt }).retire)
    ∧ (s.Clear (.loop w off lvl) → n = 0 → ∀ ws, s.fetchConvoy s.me 4 stop.toNat = .ok ws →
        exec (.loop w off lvl) s = .next { (s.upd fun h => { h with
            lc := h.lc.set lvl.toNat { h.lc[lvl.toNat]'lvl.isLt with count := 0, active := false } lvl.isLt }).jumpTo
          (stop + Word.ofNat (12 * ws.length)) with disp := .retired })
    ∧ (s.Clear (.loop w off lvl) → n = 0 → ∀ t, s.fetchConvoy s.me 4 stop.toNat = .error t →
        exec (.loop w off lvl) s = .next (s.takeTrap t))
    ∧ (s.Clear (.lcrd w) → exec (.lcrd w) s
        = .next (s.scalarResult w.d ((s.my.lc[(lvlOf w.a).toNat]'(lvlOf w.a).isLt).count)))
    ∧ (s.Clear (.lcwr w) → exec (.lcwr w) s = .next (s.upd fun h => { h with
        lc := h.lc.set k.toNat { h.lc[k.toNat]'k.isLt with count := Word.ofNat n } k.isLt }).retire)

/-- WAIT and WAITA: when they retire, when they wait, and when they raise a status held on a counter (05 R135, 07
R194, 07 R195, 15 R330). -/
def Obligations.WaitsOnCounters : Prop :=
  ∀ (s : State) (w : Wd),
    let c := ctrOf w.a
    let b := s.my.xSrc w.b
    let count (n : BitVec 3) : BitVec 16 := s.my.w[n.toNat]'n.isLt
    let oldest (n : BitVec 3) := s.my.stats.find? fun st => st.ctr == n
    let raises (i : Instr) (st : CtrStatus) : Prop := ∃ t before later, exec i s = .next t
      ∧ t = s.takeTrap { code := st.code, sub := st.sub, eaddr := st.eaddr, acc := st.acc, elem := st.elem, ctr := some st.ctr }
      ∧ s.my.stats = before ++ st :: later ∧ (∀ q ∈ before, q.ctr ≠ st.ctr) ∧ t.my.stats = before ++ later
    let past (l : List (BitVec 3)) :=
      (s.upd fun h => l.foldl (fun h n => h.after (h.waitMarks[n.toNat]'n.isLt)) h).retire
    (s.Clear (.wait w) → oldest c = none → (count c).toNat ≤ b.toNat →
        exec (.wait w) s = .next (past (if b = 0 then [c] else [])))
    ∧ (s.Clear (.wait w) → oldest c = none → b.toNat < (count c).toNat → exec (.wait w) s = .next s.block)
    ∧ (s.Clear (.wait w) → ∀ st, oldest c = some st → raises (.wait w) st)
    ∧ (s.Clear (.waita w) → (∀ n : BitVec 3, b.getLsbD n.toNat = true → oldest n = none) →
        ((∀ n : BitVec 3, b.getLsbD n.toNat = true → count n = 0) →
          exec (.waita w) s = .next (past (([0, 1, 2, 3, 4, 5, 6, 7] : List (BitVec 3)).filter fun n => b.getLsbD n.toNat)))
        ∧ ((∃ n : BitVec 3, b.getLsbD n.toNat = true ∧ count n ≠ 0) → exec (.waita w) s = .next s.block))
    ∧ (s.Clear (.waita w) → ∀ (n : BitVec 3) (st : CtrStatus), b.getLsbD n.toNat = true → oldest n = some st →
        (∀ m : BitVec 3, m.toNat < n.toNat → b.getLsbD m.toNat = true → oldest m = none) →
        raises (.waita w) st)

/-- Gang barriers and named barriers: arrivals, phases and waits (05 R128, 05 R129, 05 R131, 05 R139, 07 R196, 07
R197, 07 R198). -/
def Obligations.BarrierForms : Prop :=
  ∀ (s : State) (w : Wd) (x : Xm) (rel acq : Bool) (ord : MemOrd),
    let n := idxOf w.a
    let bar := s.myCore.barrier n
    let use (t : State) := t.upd fun h => { h with nbUsed := h.nbUsed ||| (1#64 <<< n.toNat) }
    let phase : BitVec 32 := bar.p + 1
    let kept (releases : Bool) : List (BitVec 32 × Release) :=
      (((if releases then s.carried s.me true x.scope else []).map fun r => (phase, r)).filter fun r => !bar.rels.contains r) ++ bar.rels
    let after (releases : Bool) : NamedBarrier :=
      if bar.e = 0 then bar
      else if bar.a.toNat + 1 = bar.e.toNat then ⟨bar.e, 0, phase, bar.job, kept releases⟩
      else ⟨bar.e, bar.a + 1, bar.p, bar.job, kept releases⟩
    let arrived (releases : Bool) := use (s.setMyCore (s.myCore.setBarrier n (after releases)))
    let told (b : NamedBarrier) (p : BitVec 32) : List Release := (b.rels.filter fun r => r.1 == p).map fun r => r.2
    let g := if s.my.inGbar then s else s.arriveGbar
    let first (releases : Bool) : Bool := (releases && s.owes .all x.scope) || s.signalsFirst s.me n
    let mine : Arrival := ⟨n, phase, w.d, if MemOrd.acquires ord then some x.scope else none⟩
    let counted := (arrived (MemOrd.releases ord)).upd fun h => { h with inNbaw := some mine }
    let pass (t : State) (r : Arrival) := ((match r.acquire with
      | some sc => t.acquireFrom s.me sc (told (t.myCore.barrier r.bar) r.phase)
      | none => t).modHart s.me fun h => { h.putX r.dest (r.phase.setWidth 64) with inNbaw := none }).retire
    (s.Clear (.gbar w) → s.my.inGbar = false → s.owes .all .gang = true → exec (.gbar w) s = .next s.block)
    ∧ (s.Clear (.gbar w) → (s.my.inGbar = true ∨ s.owes .all .gang = false) →
        exec (.gbar w) s = .next (if g.gbarDone s.me
          then ((g.passGbar s.me).upd fun h => { h with inGbar := false }).retire else g.block))
    ∧ s.arriveGbar.my.gbars = s.my.gbars + 1
    ∧ (s.Clear (.nbinit w x) → exec (.nbinit w x) s = .next (use (s.setMyCore (s.myCore.setBarrier n
        ⟨(s.my.xSrc w.b).setWidth 16, 0, 0, s.my.jobtag, []⟩))).retire)
    ∧ (s.Clear (.nbarr rel w x) → first rel = true → exec (.nbarr rel w x) s = .next s.block)
    ∧ (s.Clear (.nbarr rel w x) → first rel = false →
        exec (.nbarr rel w x) s = .next ((arrived rel).scalarResult w.d (phase.setWidth 64)))
    ∧ (s.Clear (.nbwait acq w x) → exec (.nbwait acq w x) s = .next
        (if (bar.p - (s.my.xSrc w.b).setWidth 32).toNat < 2 ^ 31
          then (if acq then (use s).acquireFrom s.me x.scope (told bar ((s.my.xSrc w.b).setWidth 32)) else use s).retire else (use s).block))
    ∧ (s.Clear (.nbaw ord w x) → s.my.inNbaw = none → first (MemOrd.releases ord) = true →
        exec (.nbaw ord w x) s = .next s.block)
    ∧ (s.Clear (.nbaw ord w x) → s.my.inNbaw = none → first (MemOrd.releases ord) = false →
        exec (.nbaw ord w x) s = .next
          (if ((after (MemOrd.releases ord)).p - phase).toNat < 2 ^ 31 then pass counted mine else counted.block))
    ∧ (s.Clear (.nbaw ord w x) → ∀ r, s.my.inNbaw = some r → exec (.nbaw ord w x) s = .next
          (if (bar.p - r.phase).toNat < 2 ^ 31 then pass s r else s.block))

/-- YIELD, YIELDP, SEAL and the fences (02 R52, 05 R126, 05 R127, 07 R199, 07 R200, 07 R201, 07 R202, 05 R417). -/
def Obligations.YieldsSealsAndFences : Prop :=
  ∀ (s : State) (w : Wd) (x : Xm),
    let past := if x.scope = .hart then s.upd fun h => { h with
        marks := { h.marks with upTo := h.marks.upTo.set 5 (max h.marks.upTo[5] s.history.length) } }
      else s.acquireFrom s.me x.scope s.my.met
    let ends (t : State) (own : Bool) : State :=
      let u := t.publish s.me x.scope own
      if Scope.wide x.scope then u.upd fun h => { h with reads := [] } else u
    (s.Clear (.yield w) → ∃ q : Vector (BitVec 4) 8,
        (∀ i : Fin 8, q[i] = if i.val = s.me % 8 then 0 else s.myCore.quota[i])
        ∧ exec (.yield w) s = .next (s.setMyCore { s.myCore with quota := q }).retire)
    ∧ (s.Clear (.yieldp w) → exec (.yieldp w) s = .next (if s.my.prqReq then s.retire.stopAt s.me false else s.retire))
    ∧ (s.Clear (.seal w) → exec (.seal w) s = .next (if s.unsealed then s.block else s.retire))
    ∧ (s.Clear (.fenceLd w x) → exec (.fenceLd w x) s = .next (if s.owes .ld x.scope then s.block else (ends past false).retire))
    ∧ (s.Clear (.fenceSt w x) → exec (.fenceSt w x) s = .next (if s.owes .st x.scope then s.block else (ends s true).retire))
    ∧ (s.Clear (.fenceAll w x) → exec (.fenceAll w x) s = .next (if s.owes .all x.scope then s.block
        else if x.scope = .hart ∨ x.scope = .gang then (ends past true).retire
        else ((ends past true).upd fun h => { h with fetchMark := s.history.length }).retire))

/-- MFS gives what the register holds, and 0 in user mode where user mode has no access (02 R24, 03 R63, 03 R64, 07
R188, 15 R324, 19 R395). -/
def Obligations.MfsReadsItsRegister : Prop :=
  ∀ (s : State) (w : Wd) (n : BitVec 12),
    let h := s.my
    (s.Clear (.mfs w n) → exec (.mfs w n) s = .next (s.scalarResult w.d (s.sysRead n.toNat)))
    ∧ (h.sup = false → (n.toNat = 0x021 ∨ (0x028 ≤ n.toNat ∧ n.toNat ≤ 0x02D) ∨ (0x030 ≤ n.toNat ∧ n.toNat ≤ 0x033)
        ∨ 0x200 ≤ n.toNat) → s.sysRead n.toNat = 0)
    ∧ (∀ p ∈ [(0x000, h.vl.setWidth 64), (0x001, h.gvl.setWidth 64), (0x002, Word.ofNat s.myCore.vlmax),
          (0x003, h.fflags.setWidth 64), (0x004, h.fxi.iv), (0x005, h.fxi.dz), (0x006, h.fxi.ovf), (0x007, h.fxi.unf),
          (0x008, h.fxi.nx), (0x009, h.fxi.sat), (0x00A, h.fxi.nfs), (0x010, Word.ofNat (s.me % 8)),
          (0x011, Word.ofNat (h.gangIdx.toNat * 256 + h.gsz.toNat * 8 + h.rank.toNat)),
          (0x012, Word.ofNat (s.me / 8 % 128)), (0x013, Word.ofNat (s.me / 1024 % 4)), (0x014, Word.ofNat (s.me / 4096)),
          (0x018, h.hwgt.setWidth 64), (0x01A, h.ddl.setWidth 64), (0x01B, h.yieldmask), (0x01C, h.yieldaux.setWidth 64)],
        s.sysRead p.1 = p.2)
    ∧ (h.sup = true → ∀ p ∈ [(0x021, if s.myCore.spmode then 1 else 0), (0x028, h.epc), (0x029, h.ecause), (0x02A, h.eaddr),
          (0x02B, Word.ofNat ((if h.recSet then 4 else 0) + (if h.exl then 2 else 0) + (if h.pm then 1 else 0))),
          (0x02C, h.svec), (0x031, h.jobtag.setWidth 64), (0x032, h.ptbase), (0x300, h.frhdr), (0x301, h.frsel.setWidth 64)],
        s.sysRead p.1 = (p.2 : Word))

/-- What MTS leaves in each register of the hart, and in no other (03 R63, 03 R64, 03 R65, 07 R188, 11 R298, 15 R324,
15 R325, 17 R363, 19 R391). -/
def Obligations.MtsWritesItsRegister : Prop :=
  ∀ (s : State) (w : Wd) (n : BitVec 12),
    let v := s.my.xSrc w.a
    let most := 20 * s.myCore.vlmax
    let may (k : Nat) : Prop := s.my.sup = true ∨ k ∈ [0x000, 0x001, 0x003, 0x004, 0x005, 0x006, 0x007, 0x008, 0x009, 0x00A,
      0x01B, 0x01C, 0x020, 0x100, 0x102, 0x110, 0x111, 0x112]
    let readOnly : List Nat := [0x002, 0x010, 0x011, 0x012, 0x013, 0x014, 0x019, 0x02E, 0x101, 0x103, 0x120, 0x121, 0x122, 0x123,
      0x124, 0x125, 0x126, 0x127, 0x201, 0x202, 0x208, 0x20B, 0x300, 0x302, 0x310, 0x311, 0x312, 0x320, 0x321, 0x331]
    (s.Clear (.mts w n) →
    (¬ may n.toNat ∨ n.toNat ∈ readOnly → exec (.mts w n) s = .next s.retire)
    ∧ (may n.toNat → ∀ m : Word, (n.toNat, m) ∈ [(0x003, 0x7F), (0x004, BitVec.allOnes 64), (0x005, BitVec.allOnes 64),
          (0x006, BitVec.allOnes 64), (0x007, BitVec.allOnes 64), (0x008, BitVec.allOnes 64), (0x009, BitVec.allOnes 64),
          (0x00A, BitVec.allOnes 64), (0x018, 0xF), (0x01A, 0xFFFFFFFF), (0x01B, BitVec.allOnes 64), (0x01C, 0x1FFFFF),
          (0x020, 1), (0x028, BitVec.allOnes 64), (0x029, 0xFFFFFF0FFFFF00FF), (0x02A, BitVec.allOnes 64),
          (0x02C, 0xFFFFFFFFFFFFFFFC), (0x031, 0xFFF), (0x032, 0x0000FFFFFFFFC000), (0x102, 0xFFFFFFFF),
          (0x110, 0xFFFFFFFFFFFFFF00), (0x111, 0x0000FFFF00000013), (0x112, 0xFFFFFFFFFFFFFFFC), (0x301, 0xFF)] →
        ∃ t, exec (.mts w n) s = .next t ∧ t.disp = .retired ∧ t.my.pc = s.my.pc + 12 ∧ t.my.sysReg n.toNat = v &&& m
          ∧ ∀ k, k ≠ n.toNat → (n.toNat = 0x301 → k ≠ 0x302) → t.my.sysReg k = s.my.sysReg k)
    ∧ (n.toNat = 0x000 → exec (.mts w n) s
        = .next (s.upd fun h => { h with vl := BitVec.ofNat 13 (min v.toNat most) }).retire)
    ∧ (n.toNat = 0x001 → exec (.mts w n) s
        = .next (s.upd fun h => { h with gvl := BitVec.ofNat 16 (min v.toNat (8 * most)) }).retire)
    ∧ (n.toNat = 0x02B → s.my.sup = true → exec (.mts w n) s
        = .next (s.upd fun h => { h with exl := v.getLsbD 1, pm := v.getLsbD 0 }).retire)
    ∧ (n.toNat = 0x021 → s.my.sup = true → exec (.mts w n) s = .next
        (if s.coreReserved (coreOf s.me) = false then (s.setMyCore { s.myCore with spmode := v.getLsbD 0 }).retire else s.retire))
    ∧ (s.my.sup = true → n.toNat ∈ [0x02D, 0x030, 0x033, 0x200, 0x209, 0x20A, 0x313, 0x330, 0x332] →
        exec (.mts w n) s = .next (s.hold 32 (.sysWrite n.toNat v)).retire))
    ∧ (s.Clear (.lightRequest w) → exec (.lightRequest w) s
        = .next (if s.my.sup then (s.hold 32 (.sysWrite 0x200 v)).retire else s.retire))
    ∧ (s.Clear (.csctlRetry w) → exec (.csctlRetry w) s
        = .next (if s.my.sup then (s.hold 32 (.sysWrite 0x314 v)).retire else s.retire))

/-- MTS to teambase reads the team table and installs it, or traps, or clears VALID (09 R253, 09 R254). -/
def Obligations.TeamInstall : Prop :=
  ∀ (s : State) (w : Wd), s.Clear (.teambaseInstall w) →
    let i : Instr := .teambaseInstall w
    let base := s.my.xSrc w.a &&& 0xFFFFFFFFFFFFFFC0
    let run := exec i s
    let clear (t : State) := (t.upd fun h => { h with
      teambase := base, teamInst := 0, team := none, teamNmem := 0, teamSelf := 0, teamValid := false }).retire
    (∀ t, s.LoadTraps i base.toNat 64 t → run = .next ((s.holdElems s.me (rangeElems base.toNat 64)).takeTrap t))
    ∧ (∀ r, s.Loads i base.toNat 64 (none, r) → run = .next (clear r))
    ∧ (∀ hd r, s.Loads i base.toNat 64 (some hd, r) →
        let n := natOfBytes (hd.take 4)
        ((n < 2 ∨ 1024 < n) → run = .next (clear r))
        ∧ (2 ≤ n → n ≤ 1024 →
            (∀ t, r.LoadTraps i (base.toNat + 64) (16 * n) t →
              run = .next ((r.holdElems r.me (rangeElems (base.toNat + 64) (16 * n))).takeTrap t))
            ∧ (∀ q, r.Loads i (base.toNat + 64) (16 * n) (none, q) → run = .next (clear q))
            ∧ (∀ es q, r.Loads i (base.toNat + 64) (16 * n) (some es, q) →
                (teamOf hd es = none → run = .next (clear q))
                ∧ (∀ tm, teamOf hd es = some tm →
                    ((∀ m ∈ tm.members, m.hart ≠ s.me) → run = .next (clear q))
                    ∧ (∀ k, (tm.members.findIdx? fun m => m.hart == s.me) = some k →
                        run = .next (q.upd fun h => { h with
                          teambase := base, teamInst := 0, team := some tm, teamNmem := BitVec.ofNat 11 tm.members.length
                          teamSelf := BitVec.ofNat 10 k, teamValid := true }).retire)))))

/-- EXIT, NOP, TLBI and GRUN (02 R39, 02 R44, 07 R190, 07 R191, 07 R192, 07 R193, 15 R330, 19 R391). -/
def Obligations.ExitNopTlbiAndGrun : Prop :=
  ∀ (s : State) (w : Wd),
    let a := s.my.xSrc w.a
    let covers (t : TlbEntry) : Bool := t.base ≤ a.toNat && a.toNat < t.base + 2 ^ t.size
    let onDie (f : Core → Core) : State := { s with cores := s.cores.map fun p => if p.1 / 128 = s.me / 1024 then (p.1, f p.2) else p }
    (s.Clear (.nop w) → exec (.nop w) s = .next s.retire)
    ∧ (s.Clear (.exit w) → s.my.stats = [] → s.my.ops = [] → s.unsealed = false →
        exec (.exit w) s = .next ((s.retire.modCore (coreOf s.me) fun k => k.outlast [s.me]).hartExit s.me))
    ∧ (s.Clear (.exit w) → s.my.stats = [] → (s.my.ops ≠ [] ∨ s.unsealed = true) → exec (.exit w) s = .next s.block)
    ∧ (s.Clear (.exit w) → ∀ (n : BitVec 3) (st : CtrStatus), (s.my.stats.find? fun q => q.ctr == n) = some st →
        (∀ q ∈ s.my.stats, n.toNat ≤ q.ctr.toNat) → ∃ t before later, exec (.exit w) s = .next t
          ∧ t = s.takeTrap { code := st.code, sub := st.sub, eaddr := st.eaddr, acc := st.acc, elem := st.elem, ctr := some st.ctr }
          ∧ s.my.stats = before ++ st :: later ∧ (∀ q ∈ before, q.ctr ≠ st.ctr) ∧ t.my.stats = before ++ later)
    ∧ (s.Clear (.tlbi w) → s.owesStores = true → exec (.tlbi w) s = .next s.block)
    ∧ (∀ k : BitVec 10, s.Clear (.tlbi w) → s.owesStores = false → w.b = .const k →
        let t := match k.toNat with
          | 0 => s.modCore (coreOf s.me) fun c => { c with tlb := [] }
          | 1 => s.modCore (coreOf s.me) fun c => { c with tlb := c.tlb.filter fun t => !covers t }
          | 2 => onDie fun c => { c with tlb := [] }
          | 3 => onDie fun c => { c with tlb := c.tlb.filter fun t => !covers t }
          | _ => s.modDie (dieOf s.me) fun d => { d with homeTlb := d.homeTlb.filter fun t => t.1 ≠ a.setWidth 12 }
        let named (c : Nat) : Bool :=
          if k.toNat ≤ 1 then decide (c = s.me / 8) else k.toNat ≤ 3 && decide (c / 128 = s.me / 1024)
        exec (.tlbi w) s = .next (if t.usesLocal named then t.block else t.retire))
    ∧ (s.Clear (.grun w) → s.owes .all .pod = true → exec (.grun w) s = .next s.block)
    ∧ (s.Clear (.grun w) → s.owes .all .pod = false → exec (.grun w) s
        = .next ((s.startOp (.grun w) s.my false Flags.none).hold 32 (.arm a w.d s.opSeq)).retire)

/-- The element-wise vector words write their function of each active element, the tag and the flags (03 R84, 03 R85,
08 R203, 08 R206, 08 R209, 08 R211, 08 R212). -/
def Obligations.VectorElementWords : Prop :=
  ∀ (s : State) (w : Wd) (c : Operand) (rm : Rm),
    let land (i : Instr) (k : Fmt → (Operand → Nat) → Nat × Raised) : State :=
      let r := s.readView i
      let f := Instr.format i s.my
      let es := (List.range (min r.vl.toNat (elemsPer f s.myCore.vlmax))).filter fun e => r.selects w.grd f e
      let out := es.map fun e => (e, k f fun o => r.srcElem o f e)
      (s.upd fun h => h.vecWrite w.d f.bits (out.map fun p => (p.1, p.2.1)) f
        (Flags.of (out.map fun p => (p.1, p.2.2)))).retire
    (s.Clear (.vadd w rm) → exec (.vadd w rm) s = .next (land (.vadd w rm) fun f x => addElem rm f (x w.a) (x w.b)))
    ∧ (s.Clear (.vsub w rm) → exec (.vsub w rm) s = .next (land (.vsub w rm) fun f x => subElem rm f (x w.a) (x w.b)))
    ∧ (s.Clear (.vmul w rm) → exec (.vmul w rm) s = .next (land (.vmul w rm) fun f x => mulElem rm f (x w.a) (x w.b)))
    ∧ (s.Clear (.vmulh w rm) → exec (.vmulh w rm) s = .next (land (.vmulh w rm) fun f x => mulhElem f (x w.a) (x w.b)))
    ∧ (s.Clear (.vfma w c rm) → exec (.vfma w c rm) s = .next (land (.vfma w c rm) fun f x => fmaElem rm f (x w.a) (x w.b) (x c)))
    ∧ (s.Clear (.vmin w rm) → exec (.vmin w rm) s = .next (land (.vmin w rm) fun f x => minMaxElem false f (x w.a) (x w.b)))
    ∧ (s.Clear (.vmax w rm) → exec (.vmax w rm) s = .next (land (.vmax w rm) fun f x => minMaxElem true f (x w.a) (x w.b)))
    ∧ (s.Clear (.vabs w rm) → exec (.vabs w rm) s = .next (land (.vabs w rm) fun f x => absElem f (x w.a)))
    ∧ (s.Clear (.vneg w rm) → exec (.vneg w rm) s = .next (land (.vneg w rm) fun f x => negElem f (x w.a)))
    ∧ (s.Clear (.vshl w rm) → exec (.vshl w rm) s = .next (land (.vshl w rm) fun f x => shlElem f (x w.a) (x w.b)))
    ∧ (s.Clear (.vshr w rm) → exec (.vshr w rm) s = .next (land (.vshr w rm) fun f x => shrElem f (x w.a) (x w.b)))
    ∧ (s.Clear (.vshra w rm) → exec (.vshra w rm) s = .next (land (.vshra w rm) fun f x => shraElem f (x w.a) (x w.b)))
    ∧ (s.Clear (.vadds w rm) → exec (.vadds w rm) s = .next (land (.vadds w rm) fun f x => satElem (· + ·) f (x w.a) (x w.b)))
    ∧ (s.Clear (.vsubs w rm) → exec (.vsubs w rm) s = .next (land (.vsubs w rm) fun f x => satElem (· - ·) f (x w.a) (x w.b)))
    ∧ (s.Clear (.vdiv w rm) → exec (.vdiv w rm) s = .next (land (.vdiv w rm) fun f x => divElem rm f (x w.a) (x w.b)))
    ∧ (s.Clear (.vsqrt w rm) → exec (.vsqrt w rm) s = .next (land (.vsqrt w rm) fun f x => fpSqrt (fpFmt f) rm (elemVal f (x w.a))))
    ∧ (s.Clear (.vrcp w rm) → exec (.vrcp w rm) s = .next (land (.vrcp w rm) fun f x => fpRcp (fpFmt f) rm (elemVal f (x w.a))))
    ∧ (s.Clear (.vrsq w rm) → exec (.vrsq w rm) s = .next (land (.vrsq w rm) fun f x => fpRsq (fpFmt f) rm (elemVal f (x w.a))))
    ∧ (s.Clear (.vexp2 w rm) → exec (.vexp2 w rm) s = .next (land (.vexp2 w rm) fun f x => fpExp2 (fpFmt f) rm (elemVal f (x w.a))))
    ∧ (s.Clear (.vlog2 w rm) → exec (.vlog2 w rm) s = .next (land (.vlog2 w rm) fun f x => fpLog2 (fpFmt f) rm (elemVal f (x w.a))))
    ∧ (s.Clear (.vround w rm) → exec (.vround w rm) s = .next (land (.vround w rm) fun f x => fpRound (fpFmt f) rm (elemVal f (x w.a))))

/-- A vector result: the written elements, the kept ones, the tag, l1 and the flags (03 R61, 03 R66, 03 R69, 03 R84,
08 R203). -/
def Obligations.VectorResultsLand : Prop :=
  ∀ (h : Hart) (d : Operand) (width : Nat) (ws : List (Nat × Nat)) (tag : Fmt) (raised : List (Nat × Raised)),
    0 < width → (∀ p ∈ ws, width * (p.1 + 1) ≤ 8192) → (ws.map Prod.fst).Nodup → (∀ k, d ≠ .const k) →
    let r := h.vecWrite d width ws tag (Flags.of raised)
    let low (held new : Word) (on : Raised → Bool) : Prop :=
      new.toNat ≤ held.toNat ∧ (∀ p ∈ raised, on p.2 = true → new.toNat ≤ p.1)
        ∧ (new = held ∨ ∃ p ∈ raised, on p.2 = true ∧ new.toNat = p.1)
    (∀ o ∈ [d, .last 1 .plain], (r.vecReg o).tag = tag
      ∧ (∀ p ∈ ws, getElem (r.vecReg o).bits width p.1 = p.2 % 2 ^ width)
      ∧ (∀ e, width * (e + 1) ≤ 8192 → (∀ p ∈ ws, p.1 ≠ e) →
          getElem (r.vecReg o).bits width e = getElem (h.vecReg o).bits width e))
    ∧ r.fflags.getLsbD 0 = (h.fflags.getLsbD 0 || raised.any fun p => p.2.nx)
    ∧ r.fflags.getLsbD 1 = (h.fflags.getLsbD 1 || raised.any fun p => p.2.unf)
    ∧ r.fflags.getLsbD 2 = (h.fflags.getLsbD 2 || raised.any fun p => p.2.ovf)
    ∧ r.fflags.getLsbD 3 = (h.fflags.getLsbD 3 || raised.any fun p => p.2.dz)
    ∧ r.fflags.getLsbD 4 = (h.fflags.getLsbD 4 || raised.any fun p => p.2.iv)
    ∧ r.fflags.getLsbD 5 = (h.fflags.getLsbD 5 || raised.any fun p => p.2.sat)
    ∧ r.fflags.getLsbD 6 = (h.fflags.getLsbD 6 || raised.any fun p => p.2.nfs)
    ∧ low h.fxi.nx r.fxi.nx Raised.nx ∧ low h.fxi.unf r.fxi.unf Raised.unf ∧ low h.fxi.ovf r.fxi.ovf Raised.ovf
    ∧ low h.fxi.dz r.fxi.dz Raised.dz ∧ low h.fxi.iv r.fxi.iv Raised.iv ∧ low h.fxi.sat r.fxi.sat Raised.sat
    ∧ low h.fxi.nfs r.fxi.nfs Raised.nfs

/-- The integer arithmetic of the vector words on one element (03 R76, 03 R83, 08 R209, 08 R212). -/
def Obligations.VectorIntegerElements : Prop :=
  ∀ (f : Fmt) (a b c : Nat) (rm : Rm), f.isInt = true → a < 2 ^ f.bits → b < 2 ^ f.bits → c < 2 ^ f.bits →
    let v := intOf f
    let modEq (x y : Int) : Prop := (x - y) % 2 ^ f.bits = 0
    let hold (x : Int) : Int := max (intMin f) (min (intMax f) x)
    modEq (v (addElem rm f a b).1) (v a + v b) ∧ modEq (v (subElem rm f a b).1) (v a - v b)
    ∧ modEq (v (mulElem rm f a b).1) (v a * v b) ∧ modEq (v (fmaElem rm f a b c).1) (v a * v b + v c)
    ∧ v (mulhElem f a b).1 = v a * v b / 2 ^ f.bits
    ∧ v (minMaxElem false f a b).1 = min (v a) (v b) ∧ v (minMaxElem true f a b).1 = max (v a) (v b)
    ∧ modEq (v (negElem f a).1) (-(v a)) ∧ modEq (v (absElem f a).1) (v a).natAbs
    ∧ (shlElem f a b).1 = a * 2 ^ (b % f.bits) % 2 ^ f.bits ∧ (shrElem f a b).1 = a / 2 ^ (b % f.bits)
    ∧ v (shraElem f a b).1 = v a / 2 ^ (b % f.bits)
    ∧ v (satElem (· + ·) f a b).1 = hold (v a + v b) ∧ v (satElem (· - ·) f a b).1 = hold (v a - v b)
    ∧ ((satElem (· + ·) f a b).2.sat = true ↔ hold (v a + v b) ≠ v a + v b)
    ∧ ((satElem (· - ·) f a b).2.sat = true ↔ hold (v a - v b) ≠ v a - v b)
    ∧ (b = 0 → divElem rm f a b = (2 ^ f.bits - 1, { dz := true }))
    ∧ (b ≠ 0 → modEq (v (divElem rm f a b).1) ((v a).tdiv (v b)) ∧ (divElem rm f a b).2 = {})
    ∧ (addElem rm f a b).2 = {} ∧ (subElem rm f a b).2 = {} ∧ (mulElem rm f a b).2 = {} ∧ (mulhElem f a b).2 = {}
    ∧ (fmaElem rm f a b c).2 = {} ∧ (minMaxElem false f a b).2 = {} ∧ (minMaxElem true f a b).2 = {}
    ∧ (negElem f a).2 = {} ∧ (absElem f a).2 = {}

/-- Floating VMIN, VMAX, VABS and VNEG on NaNs and zeros (08 R210). -/
def Obligations.VectorMinMaxSpecialValues : Prop :=
  ∀ (s : State) (w : Wd) (rm : Rm) (i : Instr) (f : Fmt) (e eb mb : Nat),
    (f, eb, mb) ∈ [(Fmt.fp32, 8, 23), (.bf16, 8, 7), (.fp16, 5, 10)] → s.Clear i → Instr.format i s.my = f →
    (∀ k, w.d ≠ .const k) → f.bits * (e + 1) ≤ 8192 →
    let r := s.readView i
    e < min r.vl.toNat (elemsPer f s.myCore.vlmax) → r.selects w.grd f e = true →
    let a := r.srcElem w.a f e
    let b := r.srcElem w.b f e
    a < 2 ^ f.bits → b < 2 ^ f.bits →
    let isNan (x : Nat) : Prop := x / 2 ^ mb % 2 ^ eb = 2 ^ eb - 1 ∧ x % 2 ^ mb ≠ 0
    let isSig (x : Nat) : Prop := isNan x ∧ x % 2 ^ mb < 2 ^ (mb - 1)
    let canonical := (2 ^ eb - 1) * 2 ^ mb + 2 ^ (mb - 1)
    let minus := 2 ^ (eb + mb)
    let at_ (t : State) : Nat := getElem (t.my.vecReg w.d).bits f.bits e
    (i = .vmin w rm → ∃ t, exec i s = .next t ∧ (isNan a ∨ isNan b → at_ t = canonical)
      ∧ (isSig a ∨ isSig b → t.my.fflags.getLsbD 4 = true)
      ∧ (a = minus ∧ b = 0 ∨ a = 0 ∧ b = minus → at_ t = minus))
    ∧ (i = .vmax w rm → ∃ t, exec i s = .next t ∧ (isNan a ∨ isNan b → at_ t = canonical)
      ∧ (isSig a ∨ isSig b → t.my.fflags.getLsbD 4 = true)
      ∧ (a = minus ∧ b = 0 ∨ a = 0 ∧ b = minus → at_ t = 0))
    ∧ (i = .vabs w rm ∨ i = .vneg w rm → ∃ t, exec i s = .next t ∧ (isNan a → at_ t = canonical)
      ∧ t.my.fflags = s.my.fflags ∧ t.my.fxi = s.my.fxi)

/-- VCLASS writes the one bit of its source's class, as an integer of the source's width, and raises no flag (08
R213). -/
def Obligations.VclassSetsOneBit : Prop :=
  ∀ (s : State) (w : Wd) (rm : Rm) (f t : Fmt) (eb mb : Nat),
    (f, t, eb, mb) ∈ [(Fmt.fp32, Fmt.i32, 8, 23), (.bf16, .i16, 8, 7), (.fp16, .i16, 5, 10)] →
    s.Clear (.vclass w rm) → Instr.format (.vclass w rm) s.my = f → (∀ k, w.d ≠ .const k) →
    let r := s.readView (.vclass w rm)
    ∃ q, exec (.vclass w rm) s = .next q ∧ (q.my.vecReg w.d).tag = t ∧ q.my.fflags = s.my.fflags ∧ q.my.fxi = s.my.fxi
      ∧ ∀ e, e < min r.vl.toNat (elemsPer f s.myCore.vlmax) → r.selects w.grd f e = true →
        f.bits * (e + 1) ≤ 8192 →
        let a := r.srcElem w.a f e
        a < 2 ^ f.bits →
        let neg : Bool := 2 ^ (eb + mb) ≤ a
        let ex := a / 2 ^ mb % 2 ^ eb
        let man := a % 2 ^ mb
        let bit : Nat :=
          if ex = 2 ^ eb - 1 then
            (if man = 0 then (if neg then 0 else 7) else if man < 2 ^ (mb - 1) then 8 else 9)
          else if ex = 0 then (if man = 0 then (if neg then 3 else 4) else if neg then 2 else 5)
          else if neg then 1 else 6
        getElem (q.my.vecReg w.d).bits f.bits e = 2 ^ bit

/-- The bitwise vector words, VSEL and VCMP (03 R60, 03 R71, 06 R146, 08 R206, 08 R209, 08 R214, 08 R215). -/
def Obligations.BitwiseSelectAndCompare : Prop :=
  ∀ (s : State) (w : Wd) (rm : Rm) (cond : VCond),
    let land (i : Instr) (k : Nat → Nat → Nat) : State :=
      let r := s.readView i
      let f := Instr.format i s.my
      let a := r.neutralSource w.fmt w.a
      let b := r.neutralSource w.fmt w.b
      let n := movesOf f (min r.vl.toNat (elemsPer f s.myCore.vlmax))
      let es := (List.range n).filter fun e => r.guardBit w.grd e
      (s.upd fun h => h.vecWrite w.d (moveBits f) (es.map fun e => (e, k (a.1.srcUnit a.2 f e) (b.1.srcUnit b.2 f e))) f
        Flags.none).retire
    (s.Clear (.vand w rm) → exec (.vand w rm) s = .next (land (.vand w rm) fun x y => x &&& y))
    ∧ (s.Clear (.vor w rm) → exec (.vor w rm) s = .next (land (.vor w rm) fun x y => x ||| y))
    ∧ (s.Clear (.vxor w rm) → exec (.vxor w rm) s = .next (land (.vxor w rm) fun x y => x ^^^ y))
    ∧ (s.Clear (.vandn w rm) → exec (.vandn w rm) s = .next (land (.vandn w rm) fun x y => x - (x &&& y)))
    ∧ (s.Clear (.vsel w) →
        let r := s.readView (.vsel w)
        let f := Instr.format (.vsel w) s.my
        let a := r.neutralSource w.fmt w.a
        let b := r.neutralSource w.fmt w.b
        let n := min r.vl.toNat (elemsPer f s.myCore.vlmax)
        let ws : List (Nat × Nat) :=
          if f == .e2m1 then
            (List.range n).map fun e => (e, if r.selects w.grd f e then a.1.srcElem a.2 f e else b.1.srcElem b.2 f e)
          else (List.range (movesOf f n)).map fun e => (e, if r.guardBit w.grd e then a.1.srcUnit a.2 f e else b.1.srcUnit b.2 f e)
        let write (b : BitVec 8192) : BitVec 8192 :=
          if f == .tern then setTritBytes b n ws else setElems b (if f == .e2m1 then 4 else moveBits f) ws
        exec (.vsel w) s = .next (s.upd fun h => h.putVec w.d 1 write f).retire)
    ∧ (s.Clear (.vcmp cond w) →
        let r := s.readView (.vcmp cond w)
        let f := Instr.format (.vcmp cond w) s.my
        let n := min r.vl.toNat (elemsPer f s.myCore.vlmax)
        let res (e : Nat) := VCond.holds cond f (r.srcElem w.a f e) (r.srcElem w.b f e)
        let es := (List.range n).filter fun e => r.selects w.grd f e
        exec (.vcmp cond w) s = .next (s.upd fun h =>
          (h.putP (Hart.predOf w.d) fun p => setBits (p &&& BitVec.ofNat 1024 (2 ^ n - 1))
            (es.map fun e => (e, (res e).1))).mergeFlags (Flags.of (es.map fun e => (e, Raised.ofIv (res e).2)))).retire)

/-- VCVT, VQNT, VSCL, TRNPK and TRNUP write the converted elements of their part (03 R77, 03 R86, 03 R87, 03 R88, 08
R216, 08 R217, 08 R218, 08 R219, 08 R220, 08 R221). -/
def Obligations.ConversionWords : Prop :=
  ∀ (s : State) (w : Wd) (rm : Rm) (x : Xx),
    (s.Clear (.vcvt w rm) →
      let r := s.readView (.vcvt w rm)
      let f := Instr.format (.vcvt w rm) s.my
      let p := s.part r w f w.fmt
      let holds (j : Nat) : Bool := decide (j < elemsPer f s.myCore.vlmax)
      let src (j : Nat) : Nat := if holds j then r.srcElem w.a f j else s.anyValue (.other (2 ^ 24 + j)) % 3
      let bad := p.loop.find? fun e => f == .tern && holds (p.srcOff + e)
        && decide (243 ≤ getElem (r.vecReg w.a).bits 8 ((p.srcOff + e) / 5))
      let out := p.loop.map fun e => (e, convertElem f w.fmt rm (src (p.srcOff + e)))
      (∀ e, bad = some e → exec (.vcvt w rm) s
        = .next (s.takeTrap { code := 9, eaddr := Word.ofNat ((p.srcOff + e) / 5), elem := e }))
      ∧ (bad = none → exec (.vcvt w rm) s = .next (s.upd fun h => h.vecWrite w.d w.fmt.bits
          (out.map fun q => (p.dstOff + q.1, q.2.1)) w.fmt
          (Flags.of (out.map fun q => (p.srcOff + p.dstOff + q.1, q.2.2)))).retire))
    ∧ (s.Clear (.vscl w x) →
      let r := s.readView (.vscl w x)
      let f := Instr.format (.vscl w x) s.my
      let p := s.part r w f w.fmt
      let out := p.loop.map fun e =>
        let sc := r.scaleAt s.myCore.vlmax x x.sa f (dataIndex w.a) (p.srcOff + e)
        (e, finishFp w.fmt x.rm (scaled (elemVal f (r.srcElem w.a f (p.srcOff + e))) sc))
      exec (.vscl w x) s = .next (s.upd fun h => h.vecWrite w.d w.fmt.bits (out.map fun q => (p.dstOff + q.1, q.2.1)) w.fmt
        (Flags.of (out.map fun q => (p.srcOff + p.dstOff + q.1, q.2.2)))).retire)
    ∧ (s.Clear (.trnpk w) →
      let r := s.readView (.trnpk w)
      let p := s.part r w .i8 .tern
      let v (e : Nat) : Int := intOf .i8 (r.srcElem w.a .i8 e)
      exec (.trnpk w) s = .next (s.upd fun h =>
        (h.putVec w.d 1 (fun b => (p.loop.map fun e => (p.dstOff + e, v e)).foldl (fun b q =>
          setTrit b q.1 (if 0 < q.2 then 2 else if q.2 < 0 then 0 else 1)) b) .tern).mergeFlags
          (Flags.of (p.loop.map fun e => (p.dstOff + e, { sat := decide (1 < (v e).natAbs) })))).retire)
    ∧ (s.Clear (.trnup w) →
      let r := s.readView (.trnup w)
      let p := s.part r w .tern .i8
      let b := (r.vecReg w.a).bits
      let bad := p.loop.find? fun e => decide (243 ≤ getElem b 8 ((p.srcOff + e) / 5))
      (∀ e, bad = some e → exec (.trnup w) s
        = .next (s.takeTrap { code := 9, eaddr := Word.ofNat ((p.srcOff + e) / 5), elem := e }))
      ∧ (bad = none → exec (.trnup w) s = .next (s.upd fun h => h.vecWrite w.d 8
          (p.loop.map fun e => (e, (getTrit b (p.srcOff + e) + 255) % 256)) .i8 Flags.none).retire))
    ∧ (s.Clear (.vqnt w x) →
      let r := s.readView (.vqnt w x)
      let f := Instr.format (.vqnt w x) s.my
      let p := s.part r w f w.fmt
      let blen := BlockLen.elems x.blen
      let vals := p.loop.map fun e => (p.dstOff + e, elemVal f (r.srcElem w.a f e))
      let blocks := dedup ((List.range p.count).map fun e => (p.dstOff + e) / blen)
      let mine (b : Nat) := vals.filter fun q => q.1 / blen == b
      let sc (b : Nat) := blockScale w.fmt x.sfmt ((mine b).map fun q => q.2)
      let outs := blocks.flatMap fun b => (mine b).map fun q =>
        if (mine b).any fun q => q.2.isNan || q.2.isInf then (q.1, 0, ({ iv := q.2.isNan || q.2.isInf } : Raised))
        else (q.1, quantElem w.fmt x.rm q.2 (scaleVal x.sfmt (sc b)))
      exec (.vqnt w x) s = .next ((s.upd fun h =>
        (h.vecWrite w.d w.fmt.bits (outs.map fun q => (q.1, q.2.1)) w.fmt (Flags.of (outs.map fun q => (q.1, q.2.2)))).setVec
          (.main x.sa .plain) (fun b => setElems b 8 (blocks.map fun k =>
            (scaleByte s.myCore.vlmax w.fmt x.blen (dataIndex w.d) (k * blen), sc k))) (scaleTag x.sfmt)).retireOp
        (.vqnt w x) s.my Flags.none))

/-- VRED, VSCAN and VDOTB, whose readers wait for the result (03 R85, 03 R89, 03 R90, 03 R91, 03 R92, 08 R222, 08
R223, 08 R224). -/
def Obligations.ReductionsScansAndDots : Prop :=
  ∀ (s : State) (w : Wd) (op : RedOp) (rm : Rm) (x : Xx),
    (s.Clear (.vred op w rm) →
      let r := s.readView (.vred op w rm)
      let f := Instr.format (.vred op w rm) s.my
      let n := min r.vl.toNat (elemsPer f s.myCore.vlmax)
      let tag := if w.a.tagged then (s.my.vecReg w.a).tag else f
      let t := reduceTree op f rm ((List.range n).map fun e => if r.selects w.grd f e then some (r.srcElem w.a f e, e) else none)
      exec (.vred op w rm) s = .next
        ((s.upd fun h => h.vecWrite w.d f.bits [(0, t.1)] tag (Flags.of t.2)).retireOp (.vred op w rm) s.my Flags.none))
    ∧ (s.Clear (.vscan op w rm) →
      let r := s.readView (.vscan op w rm)
      let f := Instr.format (.vscan op w rm) s.my
      let es := (List.range (min r.vl.toNat (elemsPer f s.myCore.vlmax))).filter fun e => r.selects w.grd f e
      let out := scanFrom op f rm none (es.map fun e => (r.srcElem w.a f e, e))
      exec (.vscan op w rm) s = .next ((s.upd fun h => h.vecWrite w.d f.bits (out.map fun q => (q.1, q.2.1)) f
        (Flags.of (out.map fun q => q.2.2))).retireOp (.vscan op w rm) s.my Flags.none))
    ∧ (s.Clear (.vdotb w x) →
      let r := s.readView (.vdotb w x)
      let f := Instr.format (.vdotb w x) s.my
      let vm := s.myCore.vlmax
      let n := min r.vl.toNat (elemsPer f vm)
      let size := if x.blen = .none then max n 1 else BlockLen.elems x.blen
      let block (k : Nat) : Nat × Nat × Raised :=
        let es := ((List.range size).map fun j => k * size + j).filter fun e => e < n && r.selects w.grd f e
        (k * size, dotBlock x.rm (r.scaleAt vm x x.sa f (dataIndex w.a) (k * size))
          (r.scaleAt vm x x.sb f (dataIndex w.b) (k * size))
          (es.map fun e => (elemVal f (r.srcElem w.a f e), elemVal f (r.srcElem w.b f e))))
      let acc := dotSum ((List.range ((n + size - 1) / size)).map block)
      let res := finishFp .fp32 x.rm (mulVal (elemVal .fp32 acc.1) (decodeFp (fpFmt .bf16) ((r.xr x.cnt).toNat % 2 ^ 16)))
      exec (.vdotb w x) s = .next ((s.upd fun h => h.vecWrite w.d 32 [(0, res.1)] .fp32
        (Flags.of (acc.2 ++ [(0, res.2)]))).retireOp (.vdotb w x) s.my Flags.none))

/-- The permutes, VIOTA, VEXT, VINS, VCOMP and VEXPND move units as their entries give (03 R60, 08 R225, 08 R226, 08
R227). -/
def Obligations.PermuteWords : Prop :=
  ∀ (s : State) (w : Wd),
    let land (i : Instr) (k : Hart → Fmt → Nat → Nat → Nat → Option Nat) : State :=
      let r := s.readView i
      let f := Instr.permuteFmt i w s.my
      let n := movesOf f (min r.vl.toNat (elemsPer f s.myCore.vlmax))
      let es := (List.range n).filter fun e => r.guardBit w.grd e
      let ws := es.filterMap fun e => (k r f n (movesPer f s.myCore.vlmax) e).map fun x => (e, x)
      (s.upd fun h => h.vecWrite w.d (moveBits f) ws (Instr.format i s.my) Flags.none).retire
    let pack (i : Instr) (k : Hart → Fmt → List Nat → List (Nat × Nat)) : State :=
      let r := s.readView i
      let f := Instr.format i s.my
      let es := (List.range (movesOf f (min r.vl.toNat (elemsPer f s.myCore.vlmax)))).filter fun e => r.guardBit w.grd e
      (s.upd fun h => h.vecWrite w.d (moveBits f) (k r f es) f Flags.none).retire
    (s.Clear (.vperm w) → exec (.vperm w) s = .next (land (.vperm w) fun r f _ v e =>
        some (match r.indexElem w.b f s.myCore.vlmax e with
          | some j => r.unitOr0 w.a f v j
          | none => 0)))
    ∧ (s.Clear (.vsldu w) → exec (.vsldu w) s = .next (land (.vsldu w) fun r f _ v e =>
        if (r.xSrc w.b).toNat ≤ e then some (r.unitOr0 w.a f v (e - (r.xSrc w.b).toNat)) else none))
    ∧ (s.Clear (.vsldd w) → exec (.vsldd w) s = .next (land (.vsldd w) fun r f _ v e =>
        some (r.unitOr0 w.a f v (e + (r.xSrc w.b).toNat))))
    ∧ (s.Clear (.vbcast w) → exec (.vbcast w) s = .next (land (.vbcast w) fun r f _ v _ =>
        some (r.unitOr0 w.a f v (r.xSrc w.b).toNat)))
    ∧ (s.Clear (.vzip w) → exec (.vzip w) s = .next (land (.vzip w) fun r f _ _ e =>
        some (r.srcUnit (if e % 2 = 0 then w.a else w.b) f (e / 2))))
    ∧ (s.Clear (.vunzip w) → exec (.vunzip w) s = .next (land (.vunzip w) fun r f n _ e =>
        some (if 2 * e < n then r.srcUnit w.a f (2 * e) else r.srcUnit w.b f (2 * e - n))))
    ∧ (s.Clear (.vrev w) → exec (.vrev w) s = .next (land (.vrev w) fun r f n _ e =>
        some (r.srcUnit w.a f (n - 1 - e))))
    ∧ (s.Clear (.viota w) →
        let r := s.readView (.viota w)
        let f := Instr.format (.viota w) s.my
        let es := (List.range (min r.vl.toNat (elemsPer f s.myCore.vlmax))).filter fun e => r.selects w.grd f e
        exec (.viota w) s = .next (s.upd fun h => h.vecWrite w.d f.bits
          (es.map fun e => (e, ((r.xSrc w.a).toNat + e) % 2 ^ f.bits)) f Flags.none).retire)
    ∧ (s.Clear (.vext w) →
        let r := s.readView (.vext w)
        let f := Instr.permuteFmt (.vext w) w s.my
        let v := r.unitOr0 w.a f (movesPer f s.myCore.vlmax) (r.xSrc w.b).toNat
        exec (.vext w) s = .next (s.upd fun h => h.putXOnly w.d
          (if f == .i8 || f == .i16 || f == .i32 then (BitVec.ofNat f.bits v).signExtend 64 else Word.ofNat v)).retire)
    ∧ (s.Clear (.vins w) →
        let r := s.readView (.vins w)
        let f := Instr.format (.vins w) s.my
        let b := (r.xSrc w.b).toNat
        exec (.vins w) s = .next (s.upd fun h => h.vecWrite w.d (moveBits f)
          (if b < movesPer f s.myCore.vlmax then [(b, (r.xSrc w.a).toNat)] else []) f Flags.none).retire)
    ∧ (s.Clear (.vcomp w) → exec (.vcomp w) s = .next (pack (.vcomp w) fun r f es =>
        (List.range es.length).zip (es.map fun e => r.srcUnit w.a f e)))
    ∧ (s.Clear (.vexpnd w) → exec (.vexpnd w) s = .next (pack (.vexpnd w) fun r f es =>
        es.zip ((List.range es.length).map fun j => r.srcUnit w.a f j)))

/-- VUNION.kz, VUNION.dz and VPRN48, whose readers wait for the result (08 R228, 08 R229, 08 R230). -/
def Obligations.UnionsAndPruning : Prop :=
  ∀ (s : State) (w : Wd),
    let union (i : Instr) (dropZero : Bool) : State :=
      let r := s.readView i
      let f := Instr.format i s.my
      let m := min (min r.vl.toNat (elemsPer f s.myCore.vlmax)) s.myCore.vlmax
      let a := r.sparseList (idxOf w.a) f m
      let b := r.sparseList (idxOf w.b) f m
      let t := mergeLists f dropZero (a.length + b.length) 0 a b
      (s.upd fun h =>
        ((h.vecWrite w.d 32 ((List.range m).map fun q => (q, (t.1.map fun e => e.1).getD q 0xFFFFFFFF)) .i32
          (Flags.of t.2)).setVec (.main (idxOf w.d + 1) .plain) (fun v => setElems v f.bits
            ((List.range m).map fun q => (q, (t.1.map fun e => e.2).getD q 0))) f).setL0 (Word.ofNat t.1.length)).retireOp
        i s.my Flags.none
    (s.Clear (.vunionKz w) → exec (.vunionKz w) s = .next (union (.vunionKz w) false))
    ∧ (s.Clear (.vunionDz w) → exec (.vunionDz w) s = .next (union (.vunionDz w) true))
    ∧ (s.Clear (.vprn48 w) →
        let r := s.readView (.vprn48 w)
        let f := Instr.format (.vprn48 w) s.my
        let n := min r.vl.toNat (elemsPer f s.myCore.vlmax)
        let groups := (List.range ((n + 7) / 8)).map fun g => (g, keptFour f ((List.range 8).map fun j =>
          (j, if 8 * g + j < n then some (r.srcElem w.a f (8 * g + j)) else none)))
        exec (.vprn48 w) s = .next ((s.upd fun h =>
          (h.vecWrite w.d f.bits (groups.flatMap fun g => ((List.range 4).zip g.2).map fun p => (4 * g.1 + p.1, p.2.2.getD 0)) f
            Flags.none).setVec (.main (idxOf w.d + 1) .plain) (fun b => setElems b 8 (groups.map fun g =>
              (g.1, g.2.foldl (fun m p => m + 2 ^ p.1) 0))) .mask8).retireOp (.vprn48 w) s.my Flags.none))

/-- One turn of the union's merge: the lower index goes first, equal indices add, and .dz drops a zero sum (08 R228).
-/
def Obligations.UnionMergesOneEntry : Prop :=
  ∀ (f : Fmt) (dz : Bool) (u : Nat) (i j : Nat) (x y : Nat) (as bs : List (Nat × Nat)),
    let merge (u : Nat) (a b : List (Nat × Nat)) := mergeLists f dz (a.length + b.length) u a b
    let sum := addElem .rne f x y
    let zero : Prop := if f.isInt = true then sum.1 = 0 else (elemVal f sum.1).isZero = true
    (merge u [] bs = (bs, [])) ∧ (merge u as [] = (as, []))
    ∧ (i < j → merge u ((i, x) :: as) ((j, y) :: bs)
        = ((i, x) :: (merge (u + 1) as ((j, y) :: bs)).1, (merge (u + 1) as ((j, y) :: bs)).2))
    ∧ (j < i → merge u ((i, x) :: as) ((j, y) :: bs)
        = ((j, y) :: (merge (u + 1) ((i, x) :: as) bs).1, (merge (u + 1) ((i, x) :: as) bs).2))
    ∧ (i = j → dz = true → zero → merge u ((i, x) :: as) ((j, y) :: bs)
        = ((merge u as bs).1, (u, sum.2) :: (merge u as bs).2))
    ∧ (i = j → ¬ (dz = true ∧ zero) → merge u ((i, x) :: as) ((j, y) :: bs)
        = ((i, sum.1) :: (merge (u + 1) as bs).1, (u, sum.2) :: (merge (u + 1) as bs).2))

/-- A clear load that reaches its places writes what its core reads at once, fetches the rest, and retires (03 R69, 04
R116, 05 R121, 05 R122, 06 R150, 09 R239, 09 R242, 09 R243, 09 R244, 09 R245, 10 R287, 19 R400). -/
def Obligations.Loads : Prop :=
  ∀ (s : State) (w : Wd) (x : Xm),
    let r (i : Instr) : Hart := s.readView i
    let n := elemBytes w.fmt
    let width := moveBits w.fmt
    let dest : ReqDest := .vector w.d width 2
    let put (vs : List (Nat × Nat)) (h : Hart) : Hart := h.putVec w.d 2 (fun b => setElems b width vs) w.fmt
    let loads (i : Instr) (ordered : Bool) (es : List Elem) (dest : ReqDest) (put : List (Nat × Nat) → Hart → Hart) : Prop :=
      s.Clear i → ∀ ps, s.Reaches i .read es loadNeed ps →
        let b := s.holdElems s.me es
        let all := ps.all (b.atOnce s.me)
        let now := if ordered && !all then [] else ps.filter (b.atOnce s.me)
        (∀ t, b.freshTrap now = some t → exec i s = .next ((b.known t).takeTrap t))
        ∧ (b.freshTrap now = none →
          ∃ t, exec i s = .next t ∧ t.disp = .retired ∧ t.my.pc = s.my.pc + 12 ∧ t = b.load i x ordered dest put ps
            ∧ (all = true → b.elemsPoison ps = none →
                let vals := (b.elemsNow s.me ordered s.my.marks ps).map fun v => (v.1, v.2.1)
                let h := put vals s.my
                t.net = s.net ∧ t.my.x = h.x ∧ t.my.v = h.v ∧ t.my.p = h.p ∧ t.my.z = h.z ∧ t.my.o = h.o ∧ t.my.l = h.l
                ∧ (s.history = [] →
                    (∀ p ∈ ps, ∀ q ∈ p.parts, match q.1 with
                      | .spad _ o => o + q.2 ≤ 2 ^ 22
                      | .mem k _ => k + q.2 ≤ 2 ^ 56
                      | _ => True) →
                    let byte (p : Place) : Byte := match p with
                      | .spad c o => b.spadByte c o
                      | .mem k _ => b.coreByte (coreOf s.me) k
                      | .window va => (b.windowByte (dieOf s.me) s.my.jobtag va).getD 0
                      | _ => 0
                    vals = ps.map fun p => (p.elem.idx,
                      natOfBytes (p.parts.flatMap fun q => (List.range q.2).map fun j => byte (q.1.shift j))))))
    loads (.ld w x) false [⟨0, (r (.ld w x)).effAddr w x 1, scalarBytes w.fmt, false⟩] (.scalar w.d w.fmt) (fun vs h => match vs with | v :: _ => h.putX w.d (extendLoad w.fmt v.2) | [] => h)
    ∧ loads (.vld w x) false ((s.accessed (r (.vld w x)) w).map (stridedElem ((r (.vld w x)).effAddr w x (offUnit w.fmt)) (Word.ofNat n) n)) dest put
    ∧ loads (.vlds w x) false ((s.accessed (r (.vlds w x)) w).map (stridedElem ((r (.vlds w x)).effAddr w x (offUnit w.fmt)) ((r (.vlds w x)).xSrc w.b) n)) dest put
    ∧ loads (.vldw w x) false ((List.range (movesPer w.fmt s.myCore.vlmax)).map (stridedElem ((r (.vldw w x)).effAddr w x (offUnit w.fmt)) (Word.ofNat n) n)) dest put
    ∧ loads (.vldx w x) false (s.indexedElems (r (.vldx w x)) w x n false) dest put
    ∧ loads (.vldxo w x) true (s.indexedElems (r (.vldxo w x)) w x n false) dest put
    ∧ loads (.zld w x) false ((List.range 640).map (stridedElem ((r (.zld w x)).effAddr w x 4) 4 4)) (.accum (Hart.accOf w.d)) (fun vs h => h.putZ (Hart.accOf w.d) (fun b => setElems b 32 vs) w.fmt)
    ∧ (let q := r (.vldg w x)
      let base := q.effAddr w x (offUnit w.fmt)
      let live := q.activeUnits w.grd (min (movesOf w.fmt (s.count q w.fmt)) s.myCore.vlmax)
      let idx (e : Nat) : Int := indexAt .i32 (q.vr (idxOf w.b)).bits e
      let served := live.filter fun e => 0 ≤ idx e && idx e < 4 * (s.capacity w.fmt)
      loads (.vldg w x) false (served.map fun e => ⟨e, (base + (idx e).toNat * n) % 2 ^ 64, n, false⟩) dest fun vs h =>
        (put vs h).setP w.grd.p (setBits 0 ((live.filter fun e => !served.contains e).map fun e => (e, true))))
    ∧ (s.Clear (.pref w x) → exec (.pref w x) s
        = .next ((s.holdElems s.me [⟨0, (r (.pref w x)).effAddr w x 1, 1, false⟩]).retireOp (.pref w x) s.my Flags.none))

/-- A clear store that reaches its places stores each element's data there and retires (04 R115, 05 R122, 05 R124, 05
R135, 09 R239, 09 R242, 09 R243, 09 R244, 09 R246, 09 R269, 10 R287). -/
def Obligations.Stores : Prop :=
  ∀ (s : State) (w : Wd) (x : Xm),
    let r (i : Instr) : Hart := s.readView i
    let n := elemBytes w.fmt
    let data (i : Instr) (es : List Elem) : List (Elem × Nat) := es.map fun e => (e, (r i).srcUnit w.d w.fmt e.idx)
    let stores (i : Instr) (es : List (Elem × Nat)) (ordered : Bool) (mark : Hart → Hart) : Prop :=
      s.Clear i → ∀ ps, s.Reaches i .write (es.map Prod.fst) storeNeed ps →
        ∃ t, exec i s = .next t ∧ t.disp = .retired ∧ t.my.pc = (mark s.my).pc + 12
          ∧ t.my.x = s.my.x ∧ t.my.v = s.my.v ∧ t.my.o = s.my.o ∧ t.my.z = s.my.z ∧ t.my.l = (mark s.my).l ∧ t.my.p = (mark s.my).p
          ∧ t = (s.holdElems s.me (es.map Prod.fst)).store i x ordered mark (ps.zip (es.map Prod.snd))
          ∧ (∀ p k m d, ps = [p] → p.parts = [(.mem k m, p.elem.bytes)] → es.map Prod.snd = [d] → (∀ q ∈ s.net, q.id ≠ s.opSeq + 1) →
              ∀ j < p.elem.bytes, t.coreByte (coreOf s.me) (k + j) = BitVec.ofNat 8 (d / 256 ^ j))
          ∧ (∀ p o d, ps = [p] → p.parts = [(.spad (coreOf s.me) o, p.elem.bytes)] → es.map Prod.snd = [d] → s.Sound →
              ∀ j < p.elem.bytes, t.spadByte (coreOf s.me) (o + j) = BitVec.ofNat 8 (d / 256 ^ j))
    stores (.st w x) [(⟨0, (r (.st w x)).effAddr w x 1, scalarBytes w.fmt, false⟩, ((r (.st w x)).xSrc w.d).toNat)] false id
    ∧ stores (.vst w x) (data (.vst w x) ((s.accessed (r (.vst w x)) w).map (stridedElem ((r (.vst w x)).effAddr w x (offUnit w.fmt)) (Word.ofNat n) n))) false id
    ∧ stores (.vsts w x) (data (.vsts w x) ((s.accessed (r (.vsts w x)) w).map (stridedElem ((r (.vsts w x)).effAddr w x (offUnit w.fmt)) ((r (.vsts w x)).xSrc w.b) n))) false id
    ∧ stores (.vstw w x) (data (.vstw w x) ((List.range (movesPer w.fmt s.myCore.vlmax)).map (stridedElem ((r (.vstw w x)).effAddr w x (offUnit w.fmt)) (Word.ofNat n) n))) false id
    ∧ stores (.vstx w x) (data (.vstx w x) (s.indexedElems (r (.vstx w x)) w x n false)) false id
    ∧ stores (.vstxo w x) (data (.vstxo w x) (s.indexedElems (r (.vstxo w x)) w x n false)) true id
    ∧ stores (.zst w x) (((List.range 640).map (stridedElem ((r (.zst w x)).effAddr w x 4) 4 4)).map fun e => (e, getElem ((r (.zst w x)).zr (Hart.accOf w.d)).bits 32 e.idx)) false id
    ∧ (let q := r (.vcst w x)
      let sel := s.accessed q w
      let lim := (q.xSrc w.b).toNat
      let stored := sel.take lim
      stores (.vcst w x) (((List.range stored.length).zip stored).map fun p =>
          (⟨p.2, (q.effAddr w x (offUnit w.fmt) + p.1 * n % 2 ^ 64) % 2 ^ 64, n, false⟩, q.srcUnit w.d w.fmt p.2)) false
        fun h => (h.setP w.grd.p (setBits 0 ((sel.drop lim).map fun e => (e, true)))).setL0 (Word.ofNat stored.length))
    ∧ (let i : Instr := .zerol w x
      let a := ((r i).xSrc w.a).toNat
      let z := ((r i).xSrc w.b).toNat
      s.Clear i → a % 128 = 0 → z % 128 = 0 → ∀ rs ps, s.Reaches i .write (rangeElems a z) storeNeed rs →
        (s.holdElems s.me (rangeElems a z)).placeAll s.me .write
          ((List.range (z / 128)).map fun k => ⟨0, (a + 128 * k) % 2 ^ 64, 128, false⟩) = .ok ps →
        ∃ t, exec i s = .next t ∧ t.disp = .retired ∧ t.my.pc = s.my.pc + 12
          ∧ t = (s.holdElems s.me (rangeElems a z)).store i x false id (ps.map fun p => (p, 0)))

/-- DEFER appends a block to the gang's queue or traps, and DRAIN takes the oldest elements of its path (02 R49, 08
R204, 08 R232, 08 R233, 16 R345). -/
def Obligations.DeferralQueue : Prop :=
  ∀ (s : State) (w : Wd) (x : Xm),
    (let i : Instr := .defer w x
     let r := s.readView i
     let vm := s.myCore.vlmax
     let m := deferCount w.b
     let block : List DeferElem := (r.activeUnits w.grd (min r.vl.toNat vm)).map fun e =>
       ⟨r.rank.toNat * vm + e, x.off.toInt.toNat, (List.range m).map fun q =>
         BitVec.ofNat 32 (getElem (r.vr (idxOf w.a + BitVec.ofNat 6 q)).bits 32 e)⟩
     let bytes (l : List DeferElem) : Nat := (l.map fun e => 8 + 4 * e.vals.length).sum
     s.Clear i →
       (block = [] ∨ bytes s.deferQueue + bytes block ≤ s.my.dfsz →
         exec i s = .next ((s.setDeferQueue (s.deferQueue ++ block)).retireOp i s.my Flags.none))
       ∧ (block ≠ [] → s.my.dfsz < bytes s.deferQueue + bytes block →
         exec i s = .next (s.takeTrap { code := 0x0C, sub := 0, eaddr := Word.ofNat (bytes block) })))
    ∧ (let i : Instr := .drain w x
      let onPath (e : DeferElem) : Bool := e.path == x.off.toInt.toNat
      let got := (s.deferQueue.filter onPath).take s.myCore.vlmax
      let numbered := (List.range got.length).zip got
      let first (h : Hart) : Hart := h.putVec w.d 1 (fun b => setElems b 32 (numbered.map fun p => (p.1, p.2.idx))) .i32
      let value (h : Hart) (q : Nat) : Hart := h.setVec (.main (idxOf w.d + BitVec.ofNat 6 (q + 1)) .plain)
        (fun b => setElems b 32 (numbered.map fun p => (p.1, (p.2.vals.getD q 0).toNat))) w.fmt
      s.Clear i → ∃ left : List DeferElem,
        left.filter onPath = (s.deferQueue.filter onPath).drop s.myCore.vlmax
        ∧ left.filter (fun e => !onPath e) = s.deferQueue.filter (fun e => !onPath e)
        ∧ exec i s = .next (((s.setDeferQueue left).upd fun h =>
            ((List.range (deferCount w.b)).foldl value (first h)).putX w.a (Word.ofNat got.length)).retireOp i s.my Flags.none))

/-- QAPP, QPOP and QLEN check their descriptor and leave a request in the cellar; its home performs it in one step (02
R47, 04 R114, 05 R128, 08 R231, 08 R234, 08 R235, 08 R236, 16 R335, 16 R346). -/
def Obligations.WorkQueueRequests : Prop :=
  ∀ (s : State) (w : Wd) (x : Xm) (req : Nat),
    let r (i : Instr) : Hart := s.readView i
    let va (i : Instr) : Nat := ((r i).xSrc w.a).toNat
    let desc (i : Instr) : List Elem := [⟨0, va i, 64, false⟩]
    let goes (i : Instr) (b : State) (kind : ReqKind) (dest : ReqDest) (mark : Hart → Hart) (es : List ReqElem)
        (acq : Option Scope) : Prop :=
      ∃ t, exec i s = .next t ∧ t.disp = .retired ∧ t.my.pc = (mark s.my).pc + 12
        ∧ (let u := (b.upd mark).startOp i b.my false Flags.none
          let q : Request := { u.request u.opSeq b.opSeq kind es dest with acquire := acq, hint := x.hint }
          t = (u.holdRequest 32 q).retire ∧ t.net = s.net ++ [q])
    let head (i : Instr) (p : Place) : ReqElem := ⟨0, 0, p, 64, 0, va i, none, va i⟩
    (let i : Instr := .qlen w x
     let b := s.holdElems s.me (desc i)
     s.Clear i → va i % 64 = 0 →
     ∀ ps p n rest, s.Reaches i .read (desc i) (fun _ => 32) ps → ps.flatMap Placed.parts = (p, n) :: rest →
     b.Reaches i .read [] (fun _ => 32) [] → goes i b .queueLen (.scalar w.d .raw) id [head i p] none)
    ∧ (let i : Instr := .qpop w x
      let b := s.holdElems s.me (desc i)
      s.Clear i → va i % 64 = 0 →
      ∀ ps p n rest, s.Reaches i .write (desc i) (fun _ => 32) ps → ps.flatMap Placed.parts = (p, n) :: rest →
      b.Reaches i .write [] (fun _ => 32) [] → goes i b (.queuePop (min (r i).vl.toNat s.myCore.vlmax)) (.pop w.d w.b)
        (fun h => h.putVec w.d 1 id .i32) [head i p] (some .pod))
    ∧ (let i : Instr := .qapp w x
      let b := s.holdElems s.me (desc i)
      let is := (r i).activeUnits w.grd (min (r i).vl.toNat s.myCore.vlmax)
      let vals := is.map fun e => (r i).srcElem w.b .i32 e
      s.Clear i → va i % 64 = 0 →
      ∀ ps p n rest qs, s.Reaches i .write (desc i) (fun _ => 32) ps → ps.flatMap Placed.parts = (p, n) :: rest →
      b.Reaches i .write (b.entryElems p is) (fun _ => 32) qs →
      goes i (b.holdElems b.me (b.entryElems p is)) .queueAppend (.scalar w.d .raw) id
        (head i p :: ((List.range vals.length).zip vals).map fun v => ⟨v.1, 0, .window 0, 0, v.2, 0, none, va i⟩) none)
    ∧ (∀ i acc, (i, acc) ∈ [(Instr.qapp w x, Acc.write), (.qpop w x, .write), (.qlen w x, .read)] → s.Clear i → va i % 64 ≠ 0 →
        ∃ entry, exec i s = .next (s.takeTrap { code := 0x0E, sub := 10, eaddr := Word.ofNat (va i), acc := acc.code, entries := [entry] }))
    ∧ (∀ q, s.request? req = some q → s.asleep q = false → q.elems.any (s.flying q) = false → s.queueWaits q = false →
        let va := (q.elems.head?.map fun e => e.cmp).getD 0
        let data := q.elems.tail.map fun e => e.data
        let ends (t : State) : Prop := exec (.queueOpAtHome req) s = .next t ∧ t.request? req = none
        (∃ t, ends t)
        ∧ ∀ v d, s.spaceNat q va 64 = .ok v → s.spacePoison q va 64 = none →
          (readDesc fun off n => (s.spaceNat q (va + off) n).toOption) = some d → d.capOk = true →
            (q.kind = .queueLen → ∀ ps, s.spacePlaces q .read va 64 = .ok ps → ends (((s.spaceLines q ps).answer q d.count).stepDone q))
            ∧ (q.kind = .queueAppend → d.cap < d.count + data.length →
                ends ((s.answer q (2 ^ 64 - 1)).closeRequest (q.fail 0 0x0C 1 (Word.ofNat va))))
            ∧ (q.kind = .queueAppend → d.count + data.length ≤ d.cap → ∀ cs ts,
                (((List.range data.length).zip data).mapM fun p => s.spaceCells q (entryAt d (d.tail + p.1)) 4 p.2) = .ok cs →
                s.spaceCells q (va + 0x10) 8 (d.tail + data.length) = .ok ts →
                let wrote := if data.length = 0 then s else s.spaceStore q cs.flatten
                let rels := dedup (q.entryRelease (wrote.gangRef (some q.hart)) wrote.history.length cs.flatten
                  :: q.rels ++ s.placeRels (ts.map fun t => t.1))
                let stored := if data.length = 0 then wrote else wrote.spaceStore { q with rels := rels } ts
                let n := (d.tail + data.length) / d.batch - d.tail / d.batch
                let told := if 2 ^ 63 ≤ d.owner ∧ n ≠ 0 then stored.sendSignal q.hart q.job (d.owner % 2 ^ 63) n rels else stored
                ends ((told.answer q d.tail).stepDone q))
            ∧ (∀ most vs hs ps, q.kind = .queuePop most → s.readEntries q d (min d.count most) = .ok vs →
                s.spaceCells q (va + 0x18) 8 (d.head + min d.count most) = .ok hs → s.spacePlaces q .read (va + 0x10) 8 = .ok ps →
                let q' := { q with heard := s.placeRels ps }
                ends ((((s.spaceLines q' (s.entryPlaces q' d (min d.count most))).spaceStore q' hs).answerPop q' vs).stepDone q')))
    ∧ (∀ q, s.request? req = some q → s.asleep q = false → (q.elems.any (s.flying q) || s.queueWaits q) = true →
        exec (.queueOpAtHome req) s = .next (s.due [.queueOpAtHome req]))
    ∧ (∀ q, s.request? req = some q → s.asleep q = true → exec (.queueOpAtHome req) s = .next s)

/-- A clear atomic that reaches its places performs its scratchpad lanes, holds the others, and retires (04 R114, 04
R115, 05 R125, 05 R128, 06 R150, 08 R210, 09 R247, 09 R248, 09 R249). -/
def Obligations.Atomics : Prop :=
  ∀ (s : State) (op : AmoOp) (ord : MemOrd) (w : Wd) (x : Xm),
    (let i : Instr := .amo op ord w x
     let r := s.readView i
     let n := scalarBytes w.fmt
     let es : List Elem := [⟨0, r.effAddr w x 1, n, true⟩]
     let v := (r.xSrc w.b).toNat % 2 ^ (8 * n)
     let cmp := (r.xSrc w.d).toNat % 2 ^ (8 * n)
     let b := s.holdElems s.me es
     s.Clear i → s.releaseWaits (MemOrd.releases ord) x.scope = false →
     ∀ p k, s.Reaches i .atomic es atomicNeed [p] → p.parts = [(k, n)] → p.elem.bytes = n →
       ∃ t, exec i s = .next t ∧ t.disp = .retired ∧ t.my.pc = s.my.pc + 12
         ∧ (∀ c off, k = .spad c off → b.placePoison (coreOf s.me) k = none → s.Sound → (∀ o ∈ s.my.ops, o.id ≠ s.opSeq) →
             let old := natOfBytes ((List.range n).map fun j => s.spadByte c (off + j))
             (∀ j < n, t.spadByte c (off + j) = BitVec.ofNat 8 ((amoNew op w.fmt old v cmp).1 / 256 ^ j))
             ∧ t.my.x = (s.my.putX w.d (extendLoad w.fmt old)).x)
         ∧ (k.isSpad = false → t.my.x = s.my.x ∧ ∃ q, t.net = s.net ++ [q] ∧ q.hart = s.me ∧ q.kind = .atomic op w.fmt
             ∧ q.elems = [⟨p.elem.idx, 0, k, n, v, cmp, none, p.elem.va⟩] ∧ q.sent = false
             ∧ q.acquire = if MemOrd.acquires ord then some x.scope else none))
    ∧ (let i : Instr := .vamo op ord w x
      let r := s.readView i
      let es := s.indexedElems r w x (elemBytes w.fmt) true
      let b := s.holdElems s.me es
      s.Clear i → s.releaseWaits (MemOrd.releases ord) x.scope = false →
      ∀ ps, s.Reaches i .atomic es atomicNeed ps →
        ∃ t, exec i s = .next t ∧ t.disp = .retired ∧ t.my.pc = s.my.pc + 12
          ∧ t = b.atomics i x op w.fmt ord true (.vector w.d w.fmt.bits 1) (fun h => h.putVec w.d 1 id w.fmt)
              (s.my.coveredBy (fun h => h.putVec w.d 1 (fun b => setElems b w.fmt.bits (ps.map fun p => (p.elem.idx, 0))) w.fmt) i.writes)
              ps (ps.map fun p => p.lane (getElem (r.vr (idxOf w.b + 1)).bits w.fmt.bits p.elem.idx) (r.srcElem w.d w.fmt p.elem.idx)))
    ∧ (∀ i : Instr, i = .amo op ord w x ∨ i = .vamo op ord w x → s.Clear i →
        s.releaseWaits (MemOrd.releases ord) x.scope = true → exec i s = .next s.block)
    ∧ (∀ (f : Fmt) (old v cmp : Nat), f.isInt = true → old < 2 ^ f.bits → v < 2 ^ f.bits →
        let new (op : AmoOp) : Nat := (amoNew op f old v cmp).1
        new .add = (old + v) % 2 ^ f.bits ∧ intOf f (new .min) = min (intOf f old) (intOf f v)
        ∧ intOf f (new .max) = max (intOf f old) (intOf f v)
        ∧ (∀ n, (new .and).testBit n = (old.testBit n && v.testBit n)) ∧ (∀ n, (new .or).testBit n = (old.testBit n || v.testBit n))
        ∧ (∀ n, (new .xor).testBit n = (old.testBit n != v.testBit n)) ∧ ∀ op, (amoNew op f old v cmp).2 = {})
    ∧ (∀ (f : Fmt) (old v cmp : Nat), (amoNew .swap f old v cmp).1 = v ∧ (amoNew .cas f old v cmp).1 = if old = cmp then v else old)

/-- RPUT, RGET and RSIG leave one sealed request, RFENCE orders later ones, and a count of 0 does nothing (04 R114, 05
R128, 05 R136, 09 R250, 09 R251, 09 R252, 15 R327, 16 R342). -/
def Obligations.RemoteCopiesAndSignals : Prop :=
  ∀ (s : State) (w : Wd) (x : Xm) (rel : Bool),
    let goes (i : Instr) (b : State) (kind : ReqKind) (es : List ReqElem) (rels : State → List Release) : Prop :=
      ∃ t, exec i s = .next t ∧ t.disp = .retired ∧ t.my.pc = s.my.pc + 12
        ∧ (let u := b.startOp i b.my false Flags.none
          let q : Request := { u.request u.opSeq b.opSeq kind es .nowhere with hint := x.hint, rels := rels u }
          t = (u.holdRequest 32 q).retire ∧ t.net = s.net ++ [q])
    let nothing (i : Instr) : Prop := exec i s = .next (s.retireOp i s.my Flags.none)
    let tooLarge (i : Instr) : Prop := exec i s = .next (s.takeTrap { code := 5, sub := 11 })
    let copies (i : Instr) (put : Bool) (ga la : Word) : Prop :=
      let n := ((s.readView i).xSrc w.b).toNat
      let les : List Elem := (copyCuts ga.toNat la.toNat n).map fun c => ⟨0, (la.toNat + c.1) % 2 ^ 64, c.2, false⟩
      let b := s.holdElems s.me les
      s.Clear i →
        (2 ^ 24 < n → tooLarge i) ∧ (n = 0 → nothing i)
        ∧ (0 < n → n ≤ 2 ^ 24 → s.gated = true → exec i s = .next s.block)
        ∧ (0 < n → n ≤ 2 ^ 24 → s.gated = false →
            (∀ t, s.copyTrap put ga.toNat la.toNat n = some t → exec i s = .next (b.takeTrap t))
            ∧ (s.copyTrap put ga.toNat la.toNat n = none → b.myCore.stallsAny les = true → exec i s = .next b.block)
            ∧ (s.copyTrap put ga.toNat la.toNat n = none → b.myCore.stallsAny les = false →
                goes i b (if put then .put else .get) (s.copyElems put ga.toNat la.toNat n) fun u => u.my.pub))
    copies (.rput w x) true ((s.readView (.rput w x)).xSrc w.d) ((s.readView (.rput w x)).xSrc w.a)
    ∧ copies (.rget w x) false ((s.readView (.rget w x)).xSrc w.a) ((s.readView (.rget w x)).xSrc w.d)
    ∧ (let i : Instr := .rfence w x
      s.Clear i → (s.owesRemote s.me s.opSeq = false → nothing i)
        ∧ (s.owesRemote s.me s.opSeq = true →
            ∃ t, exec i s = .next t ∧ t.disp = .retired ∧ t.my.pc = s.my.pc + 12
              ∧ t = ((s.startOp i s.my false Flags.none).hold 0 (.rfence s.opSeq)).retire
              ∧ (s.my.w[x.ctr.toNat]'x.ctr.isLt) + 1 = (t.my.w[x.ctr.toNat]'x.ctr.isLt)))
    ∧ (let i : Instr := .rsig rel w x
      let a := ((s.readView i).xSrc w.a).toNat
      let n := ((s.readView i).xSrc w.b).toNat
      s.Clear i → (2 ^ 16 ≤ n → tooLarge i) ∧ (n = 0 → nothing i)
        ∧ (0 < n → n < 2 ^ 16 → ∀ t, s.signalFault a = some t → exec i s = .next (s.takeTrap t))
        ∧ (0 < n → n < 2 ^ 16 → s.signalFault a = none → (s.gated || s.releaseWaits rel x.scope) = true → exec i s = .next s.block)
        ∧ (0 < n → n < 2 ^ 16 → s.signalFault a = none → s.gated = false → s.releaseWaits rel x.scope = false →
            goes i s .signal [⟨0, 0, if 2 ^ 63 ≤ a then .global a else .window 0, if 2 ^ 63 ≤ a then 8 else 0, n, a, none, a⟩]
              fun u => if rel = true ∨ 2 ^ 63 ≤ a then u.carried s.me rel x.scope else []))

/-- A clear COLL of each kind issues its instance, or traps on its operands (09 R254, 09 R255, 09 R256, 16 R342). -/
def Obligations.Collectives : Prop :=
  ∀ (s : State) (op : RedOp) (w : Wd) (x : Xm),
    let good (i : Instr) (kind : CollKind) (op : RedOp) (root : Nat) : Prop :=
      let r := s.readView i
      let c := (r.xSrc w.b).toNat
      s.Clear i →
        (s.my.teamValid = false ∨ s.my.team = none → exec i s = .next (s.takeTrap { code := 5, sub := 11 }))
        ∧ ∀ t, s.my.teamValid = true → s.my.team = some t →
          (t.members.length ≤ root ∨ 2 ^ 32 ≤ c → exec i s = .next (s.takeTrap { code := 5, sub := 11 }))
          ∧ (root < t.members.length → c < 2 ^ 32 → s.gated = false →
              let h : CollHead := ⟨t, kind, op, w.fmt, c, root⟩
              let src := (r.xSrc w.a).toNat
              let dst := (r.xSrc w.d).toNat
              let ns := h.srcCount * h.width
              let nd := h.dstCount * h.width
              let both := rangeElems src ns ++ rangeElems dst nd
              (∀ e, s.collTrap t src dst ns nd = some e → exec i s = .next ((s.holdElems s.me both).takeTrap e))
              ∧ (s.collTrap t src dst ns nd = none → (s.holdElems s.me both).myCore.stallsAny both = false →
              s.my.teamSelf.toNat < t.members.length →
              ∃ n, exec i s = .next n ∧ n.disp = .retired ∧ n.my.pc = s.my.pc + 12 ∧ n.my.teamInst = s.my.teamInst + 1
                ∧ ∃ k ∈ n.pod.colls, k.team = t.id ∧ k.number = s.my.teamInst + 1
                  ∧ (k.part s.my.teamSelf.toNat).head = h ∧ (k.part s.my.teamSelf.toNat).dstAddr = r.xSrc w.d
                  ∧ (k.part s.my.teamSelf.toNat).hart = s.me ∧ (k.part s.my.teamSelf.toNat).stage = .issued))
    good (.collAr op w x) .allReduce op 0 ∧ good (.collRs op w x) .reduceScatter op 0
    ∧ good (.collAg w x) .allGather .add 0 ∧ good (.collBc w x) .broadcast .add x.off.toInt.toNat

/-- KAPP sends its vector to the page's home, which appends it in one step, and KBND has the pages read and selects
(04 R114, 05 R132, 09 R258, 09 R259, 09 R261, 16 R335, 16 R337, 16 R348). -/
def Obligations.KeyPages : Prop :=
  ∀ (s : State) (w : Wd) (x : Xm) (req : Nat),
    (let i : Instr := .kapp w x
     let r := s.readView i
     let va := (r.xSrc w.a).toNat
     let f := Instr.format i s.my
     s.Clear i → (va % 256 ≠ 0 → exec i s = .next (s.takeTrap { code := 0x0D, sub := 3, eaddr := Word.ofNat va }))
       ∧ (va % 256 = 0 → ∀ ps p n rest, s.Reaches i .write [⟨0, va, 64, false⟩] (fun _ => 32) ps →
           ps.flatMap Placed.parts = (p, n) :: rest →
           let b := s.holdElems s.me [⟨0, va, 64, false⟩]
           let u := b.startOp i b.my false Flags.none
           let es : List ReqElem := ⟨0, 0, p, 64, 0, va, none, va⟩ ::
             ((List.range 256).map fun c => ⟨c, 0, .window 0, 0, r.srcElem w.b f c, 0, none, va⟩) ++ b.pagePieces va
           let q : Request := { u.request u.opSeq b.opSeq (.keyAppend f) es .nowhere with hint := x.hint }
           ∃ t, exec i s = .next t ∧ t.disp = .retired ∧ t.my.pc = s.my.pc + 12
             ∧ t = (u.holdRequest 32 q).retire ∧ t.net = s.net ++ [q]))
    ∧ (∀ q f, s.request? req = some q → q.kind = .keyAppend f →
        let ends (t : State) : Prop := exec (.keyPageAppendAtHome req) s = .next t ∧ t.request? req = none
        (s.asleep q = false → q.elems.any (s.flying q) = false → s.heldBack q = false →
          let va := (q.elems.head?.map fun e => e.cmp).getD 0
          let page := Word.ofNat va
          let lost (ps : List (Place × Nat)) : Bool := s.placesPoison (coreOf q.hart) ps
          (∃ t, ends t)
          ∧ ∀ hd, s.pagePlaces q va 64 = .ok hd → lost hd = false →
            let count := s.placesNat hd / 2 ^ 64 % 2 ^ 16
            let dc := s.placesNat hd / 2 ^ 80 % 256
            let d := channels dc
            (2 < dc → ends (s.closeRequest (q.fail 0 0x0D 1 page)))
            ∧ (dc ≤ 2 → 64 ≤ count → ends (s.closeRequest (q.fail 0 0x0D 2 page)))
            ∧ (dc ≤ 2 → count < 64 → ∀ pl ph pk, s.pagePlaces q (va + 0x40) (2 * d) = .ok pl →
                s.pagePlaces q (va + 0x40 + 2 * d) (2 * d) = .ok ph →
                s.pagePlaces q (va + 0x40 + 4 * d + 2 * d * count) (2 * d) = .ok pk → lost pl = false → lost ph = false →
                let n := appendKey f ((q.elems.tail.map fun e => e.data).take d)
                  (halves d (s.placesNat pl)) (halves d (s.placesNat ph))
                let new := ((spreadBytes hd (bytesOfNat 8 0 ++ bytesOfNat 2 (count + 1))).drop 8) ++ spreadBytes pk (halfBytes n.1)
                  ++ spreadBytes pl (halfBytes n.2.1) ++ spreadBytes ph (halfBytes n.2.2)
                ends ((s.spaceStore q new).stepDone q)))
        ∧ (s.asleep q = false → (q.elems.any (s.flying q) || s.heldBack q) = true →
            exec (.keyPageAppendAtHome req) s = .next (s.due [.keyPageAppendAtHome req]))
        ∧ (s.asleep q = true → exec (.keyPageAppendAtHome req) s = .next s))
    ∧ (let i : Instr := .kbnd w x
      let r := s.readView i
      let h := s.my
      let f := Instr.format i h
      let dc := h.kpDc.toNat
      let base := h.kpbase.toNat
      let n := h.kpPages.toNat
      let off := h.kplist.toNat - Config.scratchBase
      let all := rangeElems base (n * pageStride dc)
      let b := s.holdElems s.me all
      let trap (sub : Nat) : Prop := exec i s = .next (s.takeTrap { code := 0x0D, sub := sub, eaddr := h.kplist })
      s.Clear i →
        (h.kpDc = 3 → trap 4)
        ∧ (h.kpDc ≠ 3 → h.kplist.toNat < Config.scratchBase ∨ h.reserves off = false → trap 5)
        ∧ (h.kpDc ≠ 3 → Config.scratchBase ≤ h.kplist.toNat → h.reserves off = true →
            (h.resOff + h.resSize < off + 4 * n → trap 6)
            ∧ (off + 4 * n ≤ h.resOff + h.resSize → s.owes .all .core = true → exec i s = .next s.block)
            ∧ (off + 4 * n ≤ h.resOff + h.resSize → s.owes .all .core = false →
                ∀ ps, s.Reaches i .read all (fun _ => 0) ps →
                (b.placeAll s.me .read ((List.range n).flatMap fun k =>
                  rangeElems (base + k * pageStride dc) (boundBytes dc))).toOption.bind b.lostTrap = none →
                let query := (List.range (channels dc)).map (r.srcElem w.a f)
                let u := b.startOp i h false Flags.none
                let q : Request := { u.request u.opSeq b.opSeq (.bound query f dc h.kpMode (r.xSrc w.b).toNat off)
                  (b.boundElems base dc n) (.bounds w.d []) with ordered := true, hint := x.hint }
                ∃ t, exec i s = .next t ∧ t.disp = .retired ∧ t.my.pc = s.my.pc + 12
                  ∧ t = (u.sendRequest q).retire ∧ t.net = s.net ++ [{ q with sent := true }])))
    ∧ (∀ q query f dc best limit list d done, s.request? req = some q → s.asleep q = false → q.elems = [] →
        q.kind = .bound query f dc best limit list → q.dest = .bounds d done → q.acquire = none →
        exec (.globalWindowAccessAtHome req) s = .next (if s.boundFull q then s.due [.globalWindowAccessAtHome req]
          else (s.finishBound q.hart q.op list d q.marks.told (selectPages best limit (done.foldr insertPage []))).closeRequest q))

/-- RKPUSH and KHRV put a command on a channel, and RKPOP, RKWM and RKWAIT read it (09 R262, 09 R264, 09 R266, 09
R267, 09 R268, 16 R349, 16 R351). -/
def Obligations.RackingWords : Prop :=
  ∀ (s : State) (w : Wd) (x : Xm),
    let c := coreOf s.me
    let chan (o : Operand) : Nat := konstOf o % 8
    let pushed (i : Instr) (b : State) (k : Nat) (words : List Word) (list : Option KeyList) : Prop :=
      ∃ t, exec i s = .next t ∧ t.disp = .retired ∧ t.my.pc = s.my.pc + 12 ∧ t = b.pushRack i k words list
    (let i : Instr := .rkpush w x
     let va := (s.readView i).effAddr w x 1
     s.Clear i → va < 2 ^ 63 → va % 8 = 0 →
       (s.owes .all .core = true → exec i s = .next s.block)
       ∧ (s.owes .all .core = false →
         (∀ t, s.LoadTraps i va 128 t → exec i s = .next ((s.holdElems s.me (rangeElems va 128)).takeTrap t))
         ∧ ∀ bs b, s.Loads i va 128 (bs, b) →
           let words := commandWords (natOfBytes (bs.getD []))
           let k := ((words.getD 0 0).extractLsb' 0 3).toNat
           let m : RackCmd := { RackCmd.idle with words := words }
           ((b.myCore.rack k).full = false → b.my.busyRegs m.regs = false → pushed i b k words none)
           ∧ ((b.myCore.rack k).full = true ∨ b.my.busyRegs m.regs = true → exec i s = .next b.block)))
    ∧ (let i : Instr := .khrv w x
      let r := s.readView i
      let h := s.my
      let k := chan w.b
      s.Clear i →
        (h.kpDc = 3 → exec i s = .next (s.takeTrap { code := 0x0D, sub := 4, eaddr := h.kplist }))
        ∧ (h.kpDc ≠ 3 → s.owes .all .core = true ∨ (s.myCore.rack k).full = true → exec i s = .next s.block)
        ∧ (h.kpDc ≠ 3 → s.owes .all .core = false → (s.myCore.rack k).full = false →
            pushed i s k [] (some { at_ := h.kplist.toNat, count := (r.xSrc w.a).toNat, entries := [], base := h.kpbase.toNat
                                    stride := pageStride h.kpDc.toNat, pages := h.kpPages.toNat, dst := (r.xSrc w.d).toNat
                                    hint := x.hint })))
    ∧ (let k := chan w.a
      s.Clear (.rkpop w x) →
        ((s.myCore.rack k).fifo = [] → exec (.rkpop w x) s = .next ((s.upd fun h => h.putX w.d 0).retireOp (.rkpop w x) s.my Flags.none))
        ∧ (∀ v rest, (s.myCore.rack k).fifo = v :: rest →
            let b := ((s.modRack c k fun ch => { ch with
              fifo := rest, cmds := ch.cmds.filter fun m => !(m.stopped && m.op == v.op) }).settleMarks c).note s.me v.seen
            exec (.rkpop w x) s = .next ((b.upd fun h => h.putX w.d v.word).retireOp (.rkpop w x) s.my Flags.none)))
    ∧ (s.Clear (.rkwm w x) → exec (.rkwm w x) s
        = .next ((s.upd fun h => h.putX w.d (s.myCore.rack (chan w.a)).mark).retireOp (.rkwm w x) s.my Flags.none))
    ∧ (let ch := s.myCore.rack (chan w.a)
      let b := (s.readView (.rkwait w x)).xSrc w.b
      let met : Prop := ch.cmds = [] ∨ b.toNat < ch.mark.toNat
      s.Clear (.rkwait w x) → s.my.run = .running → (∀ o ∈ s.my.ops, o.id ≠ s.opSeq) →
        ∃ t o, exec (.rkwait w x) s = .next t ∧ t.disp = .retired ∧ t.my.pc = s.my.pc + 12 ∧ t.mem = s.mem ∧ t.cores = s.cores
          ∧ t.my.w = s.my.w.set x.ctr.toNat ((s.my.w[x.ctr.toNat]'x.ctr.isLt) + 1) x.ctr.isLt
          ∧ o ∈ t.my.ops ∧ o.id = s.opSeq ∧ o.ctr = some x.ctr ∧ o.mark = some (BitVec.ofNat 3 (chan w.a), b)
          ∧ (o.landed = true ↔ met))
    ∧ (∀ h n o m b, (s.hart h).ops.find? (fun q => q.id == n) = some o → o.landed = false → o.mark = some (m, b) → coreOf h = c →
        (s.hart h).run ≠ .free → ((s.myCore.rack m.toNat).cmds = [] ∨ b.toNat < (s.myCore.rack m.toNat).mark.toNat) →
        ∃ q, ((s.settleMarks c).hart h).ops.find? (fun q => q.id == n) = some q ∧ q.landed = true)

/-- CLEAN and INVAL leave one request for the lines of their range, INVRO drops the window lines, and racking copies
land (04 R114, 05 R138, 09 R265, 09 R266, 09 R268, 09 R269, 16 R352). -/
def Obligations.CacheWordsAndRackingCopies : Prop :=
  ∀ (s : State) (w : Wd) (x : Xm),
    let cached (i : Instr) (kind : ReqKind) : Prop :=
      let a := ((s.readView i).xSrc w.a).toNat
      let z := ((s.readView i).xSrc w.b).toNat
      let b := s.holdElems s.me (rangeElems a z)
      s.Clear i → ∀ rs ps, s.Reaches i .read (rangeElems a z) (fun ps => if (lineElems ps).isEmpty then 0 else 32) rs →
        b.placeAll s.me .read (rangeElems (lineLo a) (lineLen a z)) = .ok ps →
        (lineElems ps = [] → exec i s = .next (b.retireOp i b.my Flags.none))
        ∧ (lineElems ps ≠ [] → ∃ t, exec i s = .next t ∧ t.disp = .retired ∧ t.my.pc = s.my.pc + 12
            ∧ (let u := b.startOp i b.my false Flags.none
              let q := u.request u.opSeq b.opSeq kind (lineElems ps) .nowhere
              t = (u.holdRequest 32 q).retire ∧ t.net = s.net ++ [q]))
    cached (.clean w x) .clean ∧ cached (.inval w x) .inval
    ∧ (s.Clear (.invro w x) → (s.gated || s.filling (dieOf s.me) || s.storesFirst) = true → exec (.invro w x) s = .next s.block)
    ∧ (s.Clear (.invro w x) → s.gated = false → s.filling (dieOf s.me) = false → s.storesFirst = false → exec (.invro w x) s
        = .next ((s.modDie (dieOf s.me) fun k => { k with window := [], fills := [], windowMark := s.history.length }).retireOp
          (.invro w x) s.my Flags.none))
    ∧ (∀ core ch n, (s.pkg (core / 512)).frozen = true → exec (.rackingCopyLand core ch n) s = .next s)
    ∧ (∀ core ch n m rest, (s.pkg (core / 512)).frozen = false → ((s.core core).rack ch).cmds = m :: rest → m.stopped = false →
        m.bad (s.hart m.hart) (s.core core).vlmax = false → n ∈ m.missing → ch < 8 →
        let b := s.modCore core fun k => { k with points := k.points ++ [s.point core] }
        ∃ t, exec (.rackingCopyLand core ch n) s = .next t
          ∧ t = ((State.rackGo core ch 6 (b.landCopy core ch n m)).settleMarks core).modCore core fun k => { k with clock := k.clock + 1 })
    ∧ (∀ core ch n, (s.pkg (core / 512)).frozen = false → ((s.core core).rack ch).cmds = [] →
        let b := s.modCore core fun k => { k with points := k.points ++ [s.point core] }
        ∃ t, exec (.rackingCopyLand core ch n) s = .next t
          ∧ t = (b.settleMarks core).modCore core (fun k => { k with clock := k.clock + 1 }) ∧ t.mem = s.mem
          ∧ (t.core core).clock = (s.core core).clock + 1 ∧ (t.core core).spad = (s.core core).spad)

/-- MMA, MMAS, TMMA, ZCLR, ZADD and ZDRAIN write their sums, and MMAS and TMMA trap on bad metadata and bytes (10
R270, 10 R272, 10 R275, 10 R277, 10 R278, 10 R279, 10 R280, 10 R281, 10 R282, 10 R284, 10 R286, 10 R288). -/
def Obligations.MatrixWords : Prop :=
  ∀ (s : State) (w : Wd) (x : Xx),
    let r (i : Instr) : Hart := s.readView i
    let vm := s.myCore.vlmax
    let z := Hart.accOf w.d
    let sums (i : Instr) (tag : Fmt) (out : List (Nat × Nat × Raised)) : Prop :=
      exec i s = .next ((s.upd fun h =>
        let k := h.putZ z (fun b => setElems b 32 (out.map fun q => (q.1, q.2.1))) tag
        { k with early := h.matrixEarly.filter (fun e => !k.early.any fun q => q.reg == e.reg && q.op == e.op) ++ k.early }).retireOp i s.my
          (Flags.of (out.map fun q => (q.1, q.2.2))))
    (let i : Instr := .mma w x
     let f := Instr.format i s.my
     let at_ (row col n : Nat) : Val × Bool := product ((r i).aScaled vm w x f row n) ((r i).bScaled vm w x f n col)
     s.Clear i → sums i (accFmt f) ((List.range 4).flatMap fun row => (List.range 32).map fun col =>
       (row * 160 + col, addChunks f ((r i).accAt w.d (row * 160 + col))
         (chunksOf (depth f / 32) ((List.range (depth f)).map (at_ row col))))))
    ∧ (let i : Instr := .mmas w x
      let f := Instr.format i s.my
      let bitmap := ((r i).xr x.sb).toNat % 2 ^ 32
      let live := (List.range 32).filter fun c => bitmap.testBit c
      s.Clear i →
        (live.length ≠ x.cnt.toNat →
          exec i s = .next (s.takeTrap { code := 0x0A, sub := live.length, eaddr := Word.ofNat bitmap }))
        ∧ (live.length = x.cnt.toNat → ∀ n, (r i).badMeta w f live.length = some n →
            exec i s = .next (s.takeTrap { code := 0x0B, eaddr := Word.ofNat n }))
        ∧ (live.length = x.cnt.toNat → (r i).badMeta w f live.length = none →
            sums i (accFmt f) ((List.range 4).flatMap fun row => ((List.range live.length).zip live).map fun q =>
              (row * 160 + q.2, (r i).sparseSum vm w x f row q.1 ((r i).accAt w.d (row * 160 + q.2))))))
    ∧ (let i : Instr := .tmma w x
      let total (row col : Nat) : Int := intOf .i32 ((r i).accAt w.d (row * 160 + col))
        + ((List.range 256).map fun n => intOf .i8 ((r i).aBits w .i8 row n) * (r i).tileTrit w n col).sum
      let held (t : Int) : Int := max (-2 ^ 31) (min (2 ^ 31 - 1) t)
      s.Clear i →
        (∀ n, (List.range 8192).find? (fun n => decide (243 ≤ (r i).tileByte w n)) = some n → ∃ trap,
          exec i s = .next (s.takeTrap trap) ∧ trap.code = 9 ∧ trap.eaddr = Word.ofNat n)
        ∧ ((∀ n < 8192, (r i).tileByte w n < 243) → sums i .i32 ((List.range 4).flatMap fun row => (List.range 160).map fun col =>
            (row * 160 + col, wrapInt .i32 (held (total row col)), { sat := decide (held (total row col) ≠ total row col) }))))
    ∧ (s.Clear (.zclr w) → exec (.zclr w) s
        = .next ((s.upd fun h => h.putZ z (fun _ => 0) w.fmt).retireOp (.zclr w) s.my Flags.none))
    ∧ (let i : Instr := .zadd w
      let f := Instr.format i s.my
      let out := (List.range 640).map fun n => (n, if f = .i32 then satElem (· + ·) .i32 ((r i).accAt w.a n) ((r i).accAt w.b n)
        else addElem .rne .fp32 ((r i).accAt w.a n) ((r i).accAt w.b n))
      s.Clear i → exec i s = .next ((s.upd fun h => (h.putZ z (fun b => setElems b 32 (out.map fun q => (q.1, q.2.1))) f).mergeFlags
        (Flags.of (out.map fun q => (q.1, q.2.2)))).retireOp i s.my Flags.none))
    ∧ (let i : Instr := .zdrain w x
      let sel := konstOf w.b
      let zf : Fmt := if ((r i).zr (Hart.accOf w.a)).tag = .i32 then .i32 else .fp32
      let out := ((r i).actives w.grd w.fmt (drainCount w.fmt sel)).map fun n =>
        let e := sel % 8 * drainSpan w.fmt + n
        let row := e / drainWidth sel
        let col := e % drainWidth sel
        (n, row * 160 + col, drainElem w.fmt x.rm zf ((r i).accAt w.a (row * 160 + col)) ((r i).drainScale x x.sa row)
          ((r i).drainScale x x.sb (col / BlockLen.elems x.blen)))
      s.Clear i → exec i s = .next ((s.upd fun h =>
        (h.putVec w.d 3 (fun b => setElems b w.fmt.bits (out.map fun q => (q.1, q.2.2.1))) w.fmt).mergeFlags
          (Flags.of (out.map fun q => (q.2.1, q.2.2.2)))).retireOp i s.my Flags.none))

/-- Binds, completions, the seal (log 4), and what leaves a cellar or arrives at a home (02 R31, 03 R84, 04 R114, 04
R115, 05 R121, 06 R150, 07 R195, 09 R252, 10 R284, 17 R369, 17 R370, 19 R391). -/
def Obligations.CompletionsAndSeal : Prop :=
  ∀ (s : State),
    (∀ (c : Nat) (h op : Nat) (i : Instr) (chip : Nat), (i, chip) ∈ [(Instr.convoyBind c, c / 512), (.cellarSeal c, c / 512),
        (.cellarLeave h, chipOf h), (.counterFall h op, chipOf h), (.interlockedResult h op, chipOf h), (.matrixOpComplete h op, chipOf h)] →
      (s.pkg chip).frozen = true → exec i s = .next s)
    ∧ (∀ c, (s.pkg (c / 512)).frozen = false →
        ((s.core c).bound = none → (s.core c).underReset = false → (s.core c).gone = false → ∀ n t, s.arbitrate c = some (n, t) →
          exec (.convoyBind c) s = .next (t.modCore c fun k => { k with bound := some (BitVec.ofNat 3 n) }))
        ∧ ((s.core c).bound ≠ none ∨ s.arbitrate c = none → exec (.convoyBind c) s = .next s))
    ∧ (∀ h op o i, (s.pkg (chipOf h)).frozen = false → (s.hart h).ops.find? (fun q => q.id == op) = some o → o.landed = true →
        (i, o.ctr.isSome, o.matrix) ∈ [(Instr.counterFall h op, true, false), (.interlockedResult h op, false, false),
          (.matrixOpComplete h op, true, true), (.matrixOpComplete h op, false, true)] →
        (o.matrix = true → (s.hart h).matrixFirst op = false) →
        ((s.hart h).tail.isSome = true → exec i s = .next (s.due [i]))
        ∧ ((s.hart h).tail = none → ∃ t, exec i s = .next t ∧ (t.hart h).ops = (s.hart h).ops.filter (fun q => q.id ≠ op)
          ∧ (t.hart h).fflags = (s.hart h).fflags ||| o.flags.bits ∧ (t.hart h).stats = (s.hart h).stats ++ o.status.toList
          ∧ (∀ c, o.ctr = some c → (t.hart h).w = (s.hart h).w.set c.toNat ((s.hart h).w[c.toNat]'c.isLt - 1) c.isLt)
          ∧ (o.ctr = none → (t.hart h).w = (s.hart h).w) ∧ (t.hart h).x = (s.hart h).x ∧ (t.hart h).pc = (s.hart h).pc))
    ∧ (∀ h op, (s.pkg (chipOf h)).frozen = false → (s.hart h).matrixFirst op = true →
        exec (.matrixOpComplete h op) s = .next (s.due [.matrixOpComplete h op]))
    ∧ (∀ c e, (s.pkg (c / 512)).frozen = false → (s.core c).cellar.find? (fun e => !e.sealed) = some e →
        ∃ t, exec (.cellarSeal c) s = .next t ∧ (t.core c).clock = max (s.core c).clock (e.cycle + 321)
          ∧ (t.core c).cellar = (s.core c).cellar.filterMap fun q =>
              if q.sealed || decide ((t.core c).clock ≤ q.cycle + 320) then some q
              else if q.isUndo then none else some { q with sealed := true })
    ∧ (∀ h, (s.pkg (chipOf h)).frozen = false →
        let mine := (s.core (coreOf h)).cellar.filter fun e => e.hart == h && !e.isUndo
        let first := ([s.nextLeaver false (mine.filter fun e => !e.engine), (mine.filter fun e => e.engine).head?].filterMap id).filter
          fun e => e.sealed
        ((∀ e ∈ mine, e.sealed = false) → exec (.cellarLeave h) s = .next s)
        ∧ (first = [] → (∃ e ∈ mine, e.sealed = true) → exec (.cellarLeave h) s = .next (s.due [.cellarLeave h]))
        ∧ (∀ a rest, first = a :: rest →
          let e := s.pickFrom (.order 3) (a :: rest) a
          let gone := s.dropEntry (coreOf h) e.seq
          (∀ n v, e.kind = .sysWrite n v → exec (.cellarLeave h) s = .next (gone.applyShared (dieOf h) n v))
          ∧ (∀ id r, e.kind = .request id → s.request? id = some r → exec (.cellarLeave h) s = .next (gone.leaveRequest r))
          ∧ (∀ op, e.kind = .rfence op → s.owesRemote h e.seq = false → exec (.cellarLeave h) s = .next (gone.land h op))
          ∧ (∀ g d op, e.kind = .arm g d op → s.armsFirst h e.seq g = false → exec (.cellarLeave h) s = .next (gone.armBy h g d op))
          ∧ (∀ i m, e.kind = .contribution i m → s.sourceWaits h e.seq i m = false → exec (.cellarLeave h) s = .next (gone.contribute i m))
          ∧ (∀ g n x, e.kind = .failure g n x → exec (.cellarLeave h) s = .next (gone.failGraph (dieOf h) g n x))
          ∧ (∀ chip pa n v op elem va, e.kind = .devWrite chip pa n v op elem va →
              exec (.cellarLeave h) s = .next (if s.olderTouches h e.seq (fun _ => true) [(deviceLoc, 1)] then s.due [.cellarLeave h]
                else gone.leaveDevice h chip pa n v op elem va))
          ∧ (∀ cells hint op, e.kind = .store cells hint op →
            let waits := s.olderStores (coreOf e.hart) e.seq (cells.map fun x => (x.1, 1)) = true
              ∨ ∃ x ∈ cells, s.reaches (dieOfCore (coreOf e.hart)) (homeDie x.1) = false
            (waits → exec (.cellarLeave h) s = .next (s.due [.cellarLeave e.hart]))
            ∧ (¬ waits → ∃ now t, exec (.cellarLeave h) s = .next t ∧ (now = cells ∨ now ∈ eights cells)
              ∧ (s.Sound → (∀ q ∈ s.dies, q.2.gtbase ≠ 0 → s.entriesAt q.1 (cells.map fun x => x.1) = []) →
                  ∀ k, t.mem.read k = (s.mem.writeCells now).read k)))))
    ∧ (∀ req, (s.request? req = none → exec (.globalWindowAccessAtHome req) s = .next s ∧ exec (.rsigArrival req) s = .next s)
        ∧ ∀ r, s.request? req = some r →
          (s.asleep r = true → exec (.globalWindowAccessAtHome req) s = .next s ∧ exec (.rsigArrival req) s = .next s)
          ∧ (s.asleep r = false → r.elems ≠ [] → s.eligible r = [] →
              exec (.globalWindowAccessAtHome req) s = .next (s.due [.globalWindowAccessAtHome r.id]))
          ∧ (s.asleep r = false → r.elems = [] → r.id = req → s.boundFull r = false →
              ∃ t, exec (.globalWindowAccessAtHome req) s = .next t ∧ t.request? req = none)
          ∧ (s.asleep r = false → ∀ a rest, s.eligible r = a :: rest →
              let e := s.pickFrom (.order 0) (a :: rest) a
              let cuts := if r.kind.copies then (List.range e.bytes).filter fun c => 0 < c && e.mayCut c else []
              let n := s.pick (.order 1) (cuts.length + 1)
              (n = 0 →
                let b := (s.modRequest r.id fun q => { q with elems := q.elems.erase e }).performElem r e
                let t := ((r.elemDie e).map fun d => b.carry d (fromDie r.hart) (State.replyBytes r e)).getD b
                ∀ q, t.request? r.id = some q → exec (.globalWindowAccessAtHome req) s
                  = .next (if q.elems = [] then t.endRequest r.id else t.due [.globalWindowAccessAtHome r.id]))
              ∧ (n ≠ 0 →
                let c := e.cut (cuts.getD (n - 1) 1)
                exec (.globalWindowAccessAtHome req) s = .next ((s.modRequest r.id fun q =>
                  { q with elems := q.elems.flatMap fun x => if x == e then [c.1, c.2] else [x] }).due [.globalWindowAccessAtHome r.id])))
          ∧ (s.asleep r = false → ∀ e rest, r.elems = e :: rest →
              let waits := s.flying r e || s.heldBack r || s.olderSignal r e.cmp
              let c := 128 * signalDie e.cmp + targetCore e.cmp
              let n := targetBarrier e.cmp
              (waits = true → exec (.rsigArrival req) s = .next (s.due [.rsigArrival r.id]))
              ∧ (waits = false → s.pod.chips.contains (chipOfDie (signalDie e.cmp)) = true →
                (e.cmp < 2 ^ 63 → targetMalformed e.cmp = false → (s.core c).underReset = true ∨ (s.core c).gone = true →
                  exec (.rsigArrival req) s = .next (s.closeRequest (r.fail 0 0x12 7 (Word.ofNat e.cmp))))
                ∧ (e.cmp < 2 ^ 63 → targetMalformed e.cmp = false → (s.core c).underReset = false → (s.core c).gone = false →
                    ((s.core c).barrier n).e = 0 ∨ ((s.core c).barrier n).job = r.job ∨ coreOf r.hart = c ∨ isDeviceHart r.hart = true →
                    ∃ t, exec (.rsigArrival req) s = .next t
                      ∧ (t.core c).barrier n = NamedBarrier.arriveN r.rels e.data ((s.core c).barrier n))
                ∧ (2 ^ 63 ≤ e.cmp → ∀ key, s.homeAddr r.job .atomic e.cmp = .ok key → s.keyPoison key 8 = none →
                    let chain := s.relsOf outside (s.nowAt ((List.range 8).map fun i => key + i))
                    exec (.rsigArrival req) s = .next (((s.storeHome { r.writer (s.hintAt r.job (.global e.cmp) r.hint) with
                      rels := dedup (r.rels ++ chain) } (cellsAt key (bytesOfNat 8 (s.mem.readNat key 8 + e.data)))).holdHome r.job e.cmp).stepDone r)))))

/-- Arrivals, releases, READY, COMMIT, ABORT, the watchdog and a lost member of a collective (logs 19, 58) (09 R256,
09 R257, 18 R385, 18 R386, 18 R387, 18 R388). -/
def Obligations.CollectiveSteps : Prop :=
  ∀ (s : State) (i m : Nat),
    (s.coll? i = none → ∀ q code, exec (.collArrival i m q) s = .next s ∧ exec (.releaseNotice i m q) s = .next s
      ∧ exec (.ready i m) s = .next s ∧ exec (.commit i m) s = .next s ∧ exec (.abort i m code q) s = .next s
      ∧ exec (.collWatchdogExpiry i m) s = .next s)
    ∧ (∀ q code, ((s.pkg (s.memberChip i m)).frozen = true → exec (.collArrival i m q) s = .next s ∧ exec (.ready i m) s = .next s
        ∧ exec (.commit i m) s = .next s ∧ exec (.abort i m code q) s = .next s ∧ exec (.collWatchdogExpiry i m) s = .next s)
      ∧ ((s.pkg (s.memberChip i q)).frozen = true → exec (.releaseNotice i m q) s = .next s))
    ∧ (∀ c, s.coll? i = some c → 
      let p := c.part m
      (∀ q, (s.pkg (s.memberChip i q)).frozen = false →
        (c.decided.isSome = true → exec (.releaseNotice i m q) s = .next s)
        ∧ (c.decided = none → s.inFlight (dieOf p.hart) (dieOf (c.part q).hart) = true →
            exec (.releaseNotice i m q) s = .next (s.due [.releaseNotice i m q]))
        ∧ (c.decided = none → ∀ tail head fs, s.inFlight (dieOf p.hart) (dieOf (c.part q).hart) = false →
            s.flow (c.part q) q m = .ok (tail, head) → s.flowCells (c.part q) q m tail (if head = tail then head else head + 1) = .ok fs →
            exec (.releaseNotice i m q) s
              = .next (State.pump c.team q m 17 (s.storeArea (c.part q) ((c.part q).head.flowAddr q m) fs)))))
    ∧ (∀ c, s.coll? i = some c → (s.pkg (s.memberChip i m)).frozen = false →
      let p := c.part m
      let stay (e : Instr) : Prop := exec e s = .next s
      (∀ q f, c.flying.find? (fun f => f.piece.sender == q && f.piece.dest == m) = some f →
          (c.decided.isSome = true → exec (.collArrival i m q) s = .next (s.modColl i fun c => { c with flying := c.flying.erase f }))
          ∧ (c.decided = none → p.stage = .absent ∨ s.earlierArrival i m q c.team = true ∨ s.inFlight (dieOf (c.part q).hart) (globalDie f.slot) = true →
              exec (.collArrival i m q) s = .next (s.due [.collArrival i m q]))
          ∧ (c.decided = none → p.stage ≠ .absent → s.earlierArrival i m q c.team = false →
              s.inFlight (dieOf (c.part q).hart) (globalDie f.slot) = false →
              let b := s.modColl i fun c => { c with flying := c.flying.erase f }
              let read := b.homeRead p.job b.standing b.keysPoison f.slot f.bytes
              ∀ v, read.val = .ok v → read.poison = none →
              let got := elemsOfBytes p.head.width f.bytes v
              exec (.collArrival i m q) s = .next (((((b.modPart i m fun p => { p with got := p.got ++ [(f.piece, got)] }).pumpAll i m
                ).checkCombined i m).sendTo (dieOf p.hart) (dieOf (c.part q).hart) 0).due [.releaseNotice i m q])))
      ∧ (p.stage ≠ .combined → p.stage ≠ .dropped false → stay (.ready i m))
      ∧ (p.stage = .combined ∨ p.stage = .dropped false →
          let waits := !s.reaches (dieOf p.hart) (s.coordinator c) || s.inFlight (dieOf p.hart) (s.coordinator c) || s.owesBefore p.hart p.op
          (waits = true → exec (.ready i m) s = .next (s.due [.ready i m]))
          ∧ (waits = false → m < c.parts.length → ∃ t k, exec (.ready i m) s = .next t ∧ t.coll? i = some k
              ∧ (k.part m).stage = p.stage.taken ∧ t.mem = s.mem
              ∧ (c.decided = none → (∀ q < c.parts.length, q ≠ m → (c.part q).stage.isReady = true) →
                  (k.commitSent = true ∨ k.decided.isSome = true)
                  ∧ (k.decided = none → ∀ q < c.parts.length, Instr.commit i q ∈ t.agenda ∨ c.commitSent = true))))
      ∧ (p.stage ≠ .ready → stay (.commit i m))
      ∧ (p.stage = .ready →
          let waits := p.saved || s.destBusy p || s.awaitsRelease i m || s.isolated p.head.team m || !s.reaches (s.coordinator c) (dieOf p.hart) || s.inFlight (s.coordinator c) (dieOf p.hart)
          (waits = true → exec (.commit i m) s = .next (s.due [.commit i m]))
          ∧ (waits = false → let b := (s.writeDest p (p.result m)).modPart i m fun p => { p with stage := .committed }
              exec (.commit i m) s = .next ((b.performed p.hart p.op b.history.length).land p.hart p.op)))
      ∧ (p.stage.open = false → stay (.collWatchdogExpiry i m) ∧ ∀ code q, stay (.abort i m code q))
      ∧ (p.stage.open = true → (p.saved || s.isolated p.head.team m || !s.reaches (s.coordinator c) (dieOf p.hart)) = true →
          ∀ code q, exec (.abort i m code q) s = .next (s.due [.abort i m code q]))
      ∧ (p.stage.open = true → (p.saved || s.isolated p.head.team m || !s.reaches (s.coordinator c) (dieOf p.hart)) = false → m < c.parts.length →
          ∀ code q, ∃ t k, exec (.abort i m code q) s = .next t
          ∧ t.coll? i = some k ∧ (k.part m).stage = .aborted
          ∧ (t.hart p.hart).collst = Word.ofNat (c.number.toNat * 2 ^ 48 + q % 2 ^ 10 * 2 ^ 32 + code.toNat))
      ∧ (p.stage.open = true → s.reaches (dieOf p.hart) (s.coordinator c) = false →
          exec (.collWatchdogExpiry i m) s = .next (s.due [.collWatchdogExpiry i m]))
      ∧ (p.stage.open = true → s.reaches (dieOf p.hart) (s.coordinator c) = true →
          (c.decided.isSome = true ∨ c.commitSent = true ∨ (∀ q < c.parts.length, (c.part q).stage.isReady = true) →
            stay (.collWatchdogExpiry i m))
          ∧ (c.decided = none → c.commitSent = false → ∀ q < c.parts.length, (c.part q).stage.isReady = false →
            (∀ l < q, (c.part l).stage.isReady = true) →
            ∃ t k, exec (.collWatchdogExpiry i m) s = .next t ∧ t.coll? i = some k ∧ k.decided = some (0x0A, q) ∧ t.mem = s.mem)))
    ∧ (∀ die, (s.pod.lost.contains die = true → exec (.memberLost die) s = .next s)
        ∧ (s.pod.lost.contains die = false → ∃ t, exec (.memberLost die) s = .next t ∧ t.pod.lost = s.pod.lost ++ [die]
            ∧ t.mem = s.mem ∧ t.harts = s.harts))

/-- Arms, firings, flushes, placement, the choice of a victim and the forced stop (logs 22, 29) (02 R36, 02 R37, 02
R39, 02 R45, 02 R47, 02 R48, 02 R50, 02 R52, 17 R362). -/
def Obligations.GraphSequencerSteps : Prop :=
  ∀ (s : State) (d e n key : Nat),
    (∀ i ∈ [Instr.graphArm d e, .queueFlush d e n, .queueFiring d e n, .gangPlace d, .preemptVictimChoice d, .saveExclusionExpiry d,
        .preemptDeadlineExpiry d key, .contextSave d, .contextRestore d], (s.pkg (chipOfDie d)).frozen = true → exec i s = .next s)
    ∧ ((s.pkg (chipOfDie d)).frozen = false →
      ((s.die d).registered.find? (fun r => r.1 == e) = none → exec (.graphArm d e) s = .next s)
      ∧ (∀ r, (s.die d).registered.find? (fun r => r.1 == e) = some r →
          (s.homeNat r.2 8 = 0 → exec (.graphArm d e) s = .next s)
          ∧ (s.homeNat r.2 8 ≠ 0 → s.reaches d (homeDie r.2) = false → exec (.graphArm d e) s = .next (s.dueNew [.graphArm d e]))
          ∧ (s.homeNat r.2 8 ≠ 0 → s.reaches d (homeDie r.2) = true →
              let t := s.tableEntry d e
              let hint := ((s.seqLeaf d t.ptbase t.job .write t.base.toNat).map fun k => mtHint k.2 .engine).getD (some .engine)
              exec (.graphArm d e) s = .next (((s.across d (homeDie r.2) 8 8).storeHome { Writer.engine d with hint := hint }
                (cellsAt r.2 (bytesOfNat 8 0))).armGraph d e).2))
      ∧ (s.activeQueue d e n = none → exec (.queueFiring d e n) s = .next s ∧ exec (.queueFlush d e n) s = .next s)
      ∧ (∀ g, s.activeQueue d e n = some g →
          let again (t : State) : State := t.dueNew (t.queueSteps d)
          let u := s.seqTouch d g.ptbase g.job .read (nodeAt g.data n).addr 64
          let key := u.seqKey d g.ptbase g.job .write ((nodeAt g.data n).addr + 0x18)
          let bad := (u.nodeDesc d g n).isNone || key.isNone
          (∀ q, u.rawDesc d g n = some q → (q.fires = false → exec (.queueFiring d e n) s = .next (again u))
            ∧ (q.flush = 0 ∨ q.fires = true → exec (.queueFlush d e n) s = .next (again u)))
          ∧ (u.rawDesc d g n = none → exec (.queueFiring d e n) s = .next (u.failGraph d g.base n 8)
              ∧ exec (.queueFlush d e n) s = .next (u.failGraph d g.base n 8))
          ∧ (∀ q, u.rawDesc d g n = some q → bad = true →
              (q.fires = true → exec (.queueFiring d e n) s = .next (u.failGraph d g.base n 8))
              ∧ (q.fires = false → q.flush ≠ 0 → exec (.queueFlush d e n) s = .next (u.failGraph d g.base n 8)))
          ∧ (∀ q, u.rawDesc d g n = some q → bad = false → ∀ w, u.nodeDesc d g n = some w →
              (q.fires = true → exec (.queueFiring d e n) s = .next (again (u.fire d g n w w.batch)))
              ∧ (q.flush ≠ 0 → q.fires = false →
                let a := if w.count = 0 then u else u.fire d g n w w.count
                let b := (a.seqStore d g.ptbase g.job ((nodeAt g.data n).addr + 0x30) 8 0).modRun d g.base fun g =>
                  g.setNode n fun r => { r with flushed := true }
                ∀ g', b.run? d g.base = some g' →
                ((g'.node n).live ≠ 0 → exec (.queueFlush d e n) s = .next (again b))
                ∧ ((g'.node n).live = 0 → exec (.queueFlush d e n) s
                    = .next ((b.modRun d g.base fun g => g.complete n fun _ => true).runGraph d g.base)))))
      ∧ (let u := s.resumeRuns d
        (∀ r c harts off, (sortReady (u.die d).ready).findSome? (fun r => (u.fit d r).map fun f => (r, f)) = some (r, c, harts, off) →
          (∀ g, u.run? d r.graph = some g → r.saved = none →
            exec (.gangPlace d) s = .next ((u.placeGang d g r c harts off).kick d))
          ∧ (r.saved ≠ none → exec (.gangPlace d) s = .next ((u.beginRestore d r c harts off).kick d)))
        ∧ ((∀ r ∈ sortReady (u.die d).ready, u.fit d r = none) →
          exec (.gangPlace d) s = .next (if (u.die d).ready.any fun r => !(u.die d).hasVictim r then u.dueNew [.preemptVictimChoice d] else u)))
      ∧ (let found := ((sortReady (s.die d).ready).filter fun r => !(s.die d).hasVictim r && (s.fit d r).isNone).findSome?
            fun r => (pickVictim (s.victims d r)).map fun v => (r, v)
        (found = none → exec (.preemptVictimChoice d) s = .next s)
        ∧ (∀ r v g, found = some (r, v) → s.run? d v.graph = some g →
          let area := s.saveArea d g
          let small : Bool := area.2.1 < slotBytes (nodeAt g.data v.node).gsize v.resSize
          let slot := (s.die d).freeSlot v.graph area.2.2
          let full : Bool := Config.saveRecords ≤ (s.die d).recordsTaken
          let declined (event : Nat) : State :=
            ((s.csEvent d event 0 v.graph v.node v.gang (Word.ofNat (s.anyValue (.other 31)))).modReady d r fun q => { q with
              excluded := v.key :: q.excluded }).dueNew [.saveExclusionExpiry d, .preemptVictimChoice d]
          (small = true → exec (.preemptVictimChoice d) s = .next (declined 2))
          ∧ (small = false → slot = none → exec (.preemptVictimChoice d) s = .next (declined 3))
          ∧ (small = false → slot ≠ none → full = true → exec (.preemptVictimChoice d) s = .next (declined 4))
          ∧ (small = false → slot ≠ none → full = false →
              exec (.preemptVictimChoice d) s = .next ((s.raise d r v).dueNew [.preemptVictimChoice d]))))
      ∧ (exec (.saveExclusionExpiry d) s = .next ((s.modDie d fun k => { k with
            ready := k.ready.map fun r => { r with excluded := [] } }).dueNew [.preemptVictimChoice d]))
      ∧ ((s.die d).placed.find? (fun g => g.key == key) = none → exec (.preemptDeadlineExpiry d key) s = .next s)
      ∧ (∀ p, (s.die d).placed.find? (fun g => g.key == key) = some p →
          let running := p.live.filter fun h => (s.hart h).run = .running
          let stopped := (running.filter fun h => (s.hart h).tail = none).foldl (fun s h => s.stopAt h true) s
          (p.preempt = none ∨ p.saving = true → exec (.preemptDeadlineExpiry d key) s = .next s)
          ∧ (p.preempt ≠ none → p.saving = false → (∀ h ∈ running, (s.hart h).tail = none) →
              exec (.preemptDeadlineExpiry d key) s = .next stopped)
          ∧ (p.preempt ≠ none → p.saving = false → (∃ h ∈ running, (s.hart h).tail ≠ none) →
              exec (.preemptDeadlineExpiry d key) s = .next (stopped.dueNew [.preemptDeadlineExpiry d key]))))

/-- The context-save engine's steps, strikes, and the resets of cores (02 R52, 17 R363, 17 R365, 17 R370, 19 R390, 19
R392, 19 R396, 19 R398, 19 R401, 19 R403). -/
def Obligations.SavesStrikesAndResets : Prop :=
  ∀ (s : State) (d c c2 : Nat),
    (∀ i ∈ [Instr.drainCoreReset c, .coreResetEnd c, .spareRowInsert c, .strikeReport (.inCore c), .strikeReport (.boundary c c2)],
        (s.pkg (c / 512)).frozen = true → exec i s = .next s)
    ∧ ((s.pkg (chipOfDie d)).frozen = false →
      ((s.die d).saveQueue = [] → exec (.contextSave d) s = .next s ∧ exec (.contextRestore d) s = .next s)
      ∧ (∀ key rest, (s.die d).saveQueue = key :: rest →
          (∀ p, (s.die d).placed.find? (fun g => g.key == key && g.saving) = some p →
            let slot? := (s.run? d p.graph).bind fun g => (s.die d).freeSlot p.graph (s.saveArea d g).2.2
            (∀ sv, (s.die d).record? p.firing p.gang = some sv → exec (.contextSave d) s = .next (s.writeSlot d sv p))
            ∧ ((s.die d).record? p.firing p.gang = none → s.saveWaits p = true ∨ slot? = none →
                exec (.contextSave d) s = .next (s.dueNew [.contextSave d]))
            ∧ ((s.die d).record? p.firing p.gang = none → s.saveWaits p = false → ∀ slot, slot? = some slot → ∀ sv,
                ((s.beginSave d p slot).die d).record? p.firing p.gang = some sv →
                exec (.contextSave d) s = .next ((s.beginSave d p slot).writeSlot d sv p))
            ∧ (∀ sv, (s.die d).record? p.firing p.gang = some sv → 
                (∀ b ∈ s.saveImage sv p, ∀ j < b.2.length, ∃ k, s.areaKey p.core d sv (s.slotBase d sv + (b.1 + j)) = .ok k) →
                ∃ t, exec (.contextSave d) s = .next t ∧ (∀ h ∈ p.live, (t.hart h).run = .free)
                  ∧ (∀ q ∈ (t.die d).placed, q.key ≠ p.key) ∧ (t.die d).saveQueue = rest
                  ∧ ∃ r ∈ (t.die d).ready, r.firing = p.firing ∧ r.gang = p.gang ∧ r.saved = some sv.slot))
          ∧ (∀ p g sv, (s.die d).handed.find? (fun g => g.key == key && g.saving) = some p → s.run? d p.graph = some g →
              (s.die d).record? p.firing p.gang = some sv →
              exec (.contextRestore d) s = .next (s.readSlot d g sv p)
              ∧ ((∀ o < imageOffset sv.gsize + sv.resSize + sv.dfsz, ∃ k, s.areaKey p.core d sv (s.slotBase d sv + o) = .ok k) → ∃ t, exec (.contextRestore d) s = .next t
                  ∧ { p with saving := false } ∈ (t.die d).placed ∧ (t.die d).record? p.firing p.gang = none
                  ∧ (t.die d).saveQueue = rest)))
      ∧ (∀ code, exec (.strikeReport (.uncore d code)) s = .next (s.logEvent d 2 (State.logUnit 5 s.anyUnit) 0 code)))
    ∧ ((s.pkg (c / 512)).frozen = false →
      exec (.strikeReport (.inCore c)) s = .next (s.rollback c 1)
      ∧ exec (.strikeReport (.boundary c c2)) s = .next ((s.rollback c 2).rollback c2 2)
      ∧ ((s.core c).gone = true → exec (.coreResetEnd c) s = .next s)
      ∧ ((s.core c).gone = false → ∃ t, exec (.coreResetEnd c) s = .next t
          ∧ t.core c = { s.core c with underReset := false } ∧ t.mem = s.mem ∧ t.harts = s.harts
          ∧ ((s.die (dieOfCore c)).ready ≠ [] → Instr.gangPlace (dieOfCore c) ∈ t.agenda))
      ∧ ((s.core c).drain = false → exec (.drainCoreReset c) s = .next s)
      ∧ (let holds : Bool := ((s.die (dieOfCore c)).placed.any fun p => p.core == c) || (s.die (dieOfCore c)).handed.any fun p => p.core == c
        (s.core c).drain = true → (holds = true → exec (.drainCoreReset c) s = .next (s.dueNew [.drainCoreReset c]))
          ∧ (holds = false → ∃ t, exec (.drainCoreReset c) s = .next t ∧ (t.core c).drain = false
              ∧ (t.core c).groups = (s.core c).working ∧ (t.core c).underReset = true ∧ (t.core c).spad = []
              ∧ (∀ b, (t.core c).barrier b = ⟨0, 0, 0, 0, []⟩) ∧ ∀ h, coreOf h = c → (t.hart h).run = .free))
      ∧ ((((s.die (dieOfCore c)).placed.any fun p => p.core == c) || (s.die (dieOfCore c)).handed.any fun p => p.core == c) = true →
          exec (.spareRowInsert c) s = .next (s.dueNew [.spareRowInsert c]))
      ∧ ((((s.die (dieOfCore c)).placed.any fun p => p.core == c) || (s.die (dieOfCore c)).handed.any fun p => p.core == c) = false →
          let mine := (s.die (dieOfCore c)).spareRows.filter fun r => r.1 == c % 128
          (mine = [] → exec (.spareRowInsert c) s = .next s)
          ∧ (∀ r, mine = [r] →
            let used := (s.die (dieOfCore c)).usedRows.filter fun u => u.1 == r.1 && arrayOf u.2 == arrayOf r.2
            let b := s.modDie (dieOfCore c) fun k => { k with spareRows := k.spareRows.erase r }
            let i := b.modDie (dieOfCore c) fun k => { k with usedRows := k.usedRows ++ [r] }
            exec (.spareRowInsert c) s = .next (if 16 ≤ used.length then b
              else i.logEvent (dieOfCore c) 8 (State.logUnit 0 r.1) (Word.ofNat r.2) (i.sharedReg (dieOfCore c) 0x320)))))
    ∧ (∀ cause, ((s.core c).underReset = true ∨ (s.core c).gone = true → s.rollback c cause = s)
        ∧ ((s.core c).underReset = false → (s.core c).gone = false →
            ((s.core c).rbCycles.filter fun t => (s.core c).clock < t + 2 ^ 21).length < 15 →
            ((s.rollback c cause).core c).rbCount = (s.core c).rbCount + 1
            ∧ ((s.rollback c cause).core c).rbCause = BitVec.ofNat 8 cause ∧ ((s.rollback c cause).core c).bound = none))

/-- Lane health and drops, planned changes of a lane set, laser power states, the light budget (logs 19, 27) (11 R294,
11 R295, 11 R296, 11 R297, 11 R298, 18 R379, 18 R380, 18 R381, 18 R382, 18 R384). -/
def Obligations.LinksLanesAndLight : Prop :=
  ∀ (s : State) (d peer n : Nat) (good : Bool) (smp : List LaneSample) (req : BitVec 4) (lps : BitVec 2) (mw : BitVec 20),
    let steps : List Instr := [.healthRefresh d peer smp, .dropNotice d peer n, .markerFlit d peer, .laneTransitionComplete d peer,
      .flitReceive d peer good, .retrainTimer d peer n good, .lctlReqWrite d peer req, .lctlLpsWrite d peer lps, .l3Relock d peer]
    (∀ i ∈ steps ++ [.lightGrant (chipOfDie d) mw, .lightShed (chipOfDie d)], (s.pkg (chipOfDie d)).frozen = true → exec i s = .next s)
    ∧ ((s.pkg (chipOfDie d)).frozen = false →
      (∀ i ∈ steps, d = peer ∨ 256 ≤ d ∨ 256 ≤ peer → exec i s = .next s)
      ∧ (∃ t, exec (.lightShed (chipOfDie d)) s = .next t ∧ (t.pkg (chipOfDie d)).overGrant = false)
      ∧ (let grant := (s.pkg (chipOfDie d)).grant.toNat
        let dim := State.shedUntil (fun _ => 40) grant (s.lightUse (chipOfDie d)) ((State.packageLinks (chipOfDie d)).filter fun p =>
          (s.link p.1 p.2).lps == 0 && State.Link.fair (s.link p.1 p.2))
        let b := dim.foldl (fun s p => s.modLink p.1 p.2 fun k => { k with lps := 1 }) s
        b.lightUse (chipOfDie d) ≤ grant →
          exec (.lightShed (chipOfDie d)) s = .next (b.modPkg (chipOfDie d) fun p => { p with overGrant := false }))
      ∧ (∃ t, exec (.lightGrant (chipOfDie d) mw) s = .next t ∧ (t.pkg (chipOfDie d)).grant = mw
          ∧ (t.pkg (chipOfDie d)).grantSeq = (s.pkg (chipOfDie d)).grantSeq + 1
          ∧ ((t.pkg (chipOfDie d)).overGrant = true ↔ mw.toNat < s.lightUse (chipOfDie d)))
      ∧ (d ≠ peer → d < 256 → peer < 256 →
        let k := s.link d peer
        let next := planes fun i => req.getLsbD i && (laneAt k i).lock && (laneAt k i).lst != 2
        (∀ a b c e, exec (.healthRefresh d peer [a, b, c, e]) s = .next
          ((((s.refreshLane d peer 0 a).refreshLane d peer 1 b).refreshLane d peer 2 c).refreshLane d peer 3 e))
        ∧ (∀ i < 4, ∀ m, let l := laneAt k i
            let late := 3 ≤ State.marginOf m ∧ l.bad ≠ 0
            State.Lane.fails (State.Lane.refresh l m) m = true ↔ (l.lst = 0 ∨ l.lst = 1) ∧ (m.lock = false ∨ m.skov = true ∨ late ∨ 64 ≤ m.unc))
        ∧ (∀ i < 4, ∀ m, State.Lane.fails (State.Lane.refresh (laneAt k i) m) m = true →
            s.refreshLane d peer i m = (s.modLink d peer fun k => k.setLane i (State.Lane.refresh (laneAt k i) m)).dropLane d peer i)
        ∧ (let b := s.report d 1 peer (some n)
          let left := (b.link d peer).act &&& planes fun i => i != n
          (left = 0 → exec (.dropNotice d peer n) s = .next (((b.modLink d peer fun k => { k with
              act := 0, busy := false, lps := k.nextLps.getD k.lps, nextLps := none }).linkDown d peer).applyHeld d peer))
          ∧ (left ≠ 0 → exec (.dropNotice d peer n) s
              = .next (b.beginTransition d peer left (if (b.link d peer).busy then (b.link d peer).nextLps else none))))
        ∧ (k.busy = true → exec (.lctlReqWrite d peer req) s = .next (s.modLink d peer fun k => { k with heldReq := some req }))
        ∧ (k.busy = false → next = 0 → exec (.lctlReqWrite d peer req) s = .next (s.modLink d peer fun k => { k with refused := true }))
        ∧ (k.busy = false → next ≠ 0 → ∃ t, exec (.lctlReqWrite d peer req) s = .next t
            ∧ t.link d peer = { k with req := req, refused := false, busy := true, next := next, nextLps := none
                                       txfl := k.txfl + Word.ofNat (lanesIn k.act) }
            ∧ Instr.markerFlit d peer ∈ t.agenda)
        ∧ (k.busy = true → exec (.lctlLpsWrite d peer lps) s = .next (s.modLink d peer fun k => { k with lpsReq := lps, heldLps := some lps }))
        ∧ (k.busy = false → lps = k.lps → exec (.lctlLpsWrite d peer lps) s = .next (s.modLink d peer fun k => { k with lpsReq := lps }))
        ∧ (k.busy = false → lps ≠ k.lps → let a := s.modLink d peer fun k => { k with lpsReq := lps }
            (a.refusesLps d peer lps = true →
              exec (.lctlLpsWrite d peer lps) s = .next (a.modLink d peer fun k => { k with refused := true }))
            ∧ (a.refusesLps d peer lps = false → k.lps = 3 → ∃ t, exec (.lctlLpsWrite d peer lps) s = .next t
              ∧ t.link d peer = { k with lpsReq := lps, refused := false, lps := lps, busy := true, relock := true }
              ∧ Instr.l3Relock d peer ∈ t.agenda)
            ∧ (a.refusesLps d peer lps = false → k.lps ≠ 3 → ∃ t, exec (.lctlLpsWrite d peer lps) s = .next t
              ∧ t.link d peer = { k with lpsReq := lps, refused := false, busy := true, next := k.act, nextLps := some lps
                                         txfl := k.txfl + Word.ofNat (lanesIn k.act) }
              ∧ Instr.markerFlit d peer ∈ t.agenda))
        ∧ (k.busy = false ∨ k.relock = true → exec (.markerFlit d peer) s = .next s ∧ exec (.laneTransitionComplete d peer) s = .next s)
        ∧ (k.busy = true → k.relock = false → exec (.markerFlit d peer) s
            = .next ((s.modLink peer d fun q => { q with rxSet := k.next, rxfl := q.rxfl + Word.ofNat (lanesIn k.act) }).dueNew [.laneTransitionComplete d peer]))
        ∧ (k.busy = true → k.relock = false → Instr.markerFlit d peer ∉ s.agenda → k.nextLps ≠ some 3 → k.up = true →
            k.heldReq = none → k.heldLps = none → ∃ t, exec (.laneTransitionComplete d peer) s = .next t
              ∧ (t.link d peer).act = k.next ∧ (k.dropping = false → (t.link d peer).lps = k.nextLps.getD k.lps)
              ∧ (t.link d peer).busy = false ∧ ((∀ n, Instr.dropNotice d peer n ∉ s.agenda) → (t.link d peer).dropping = false))
        ∧ (k.dropping = true → ∀ bytes, let q := (s.sendTo d peer bytes).link d peer
            q.txfl = k.txfl ∧ q.unacked = k.unacked ∧ q.lps = k.lps)
        ∧ ((s.link peer d).unacked = 0 → exec (.flitReceive d peer good) s = .next s)
        ∧ ((s.link peer d).unacked ≠ 0 → exec (.flitReceive d peer false) s = .next (s.dueNew [.flitReceive d peer true])
            ∧ ∃ t m, exec (.flitReceive d peer true) s = .next t ∧ 1 ≤ m ∧ m ≤ (s.link peer d).unacked
              ∧ t.link peer d = Link.sendFlits { s.link peer d with unacked := (s.link peer d).unacked - m }
              ∧ (t.link d peer).rxfl = k.rxfl + Word.ofNat m)
        ∧ (n < 4 → (laneAt k n).lst ≠ 2 → exec (.retrainTimer d peer n good) s = .next s)
        ∧ (n < 4 → (laneAt k n).lst = 2 → (laneAt k n).good = 0 → exec (.retrainTimer d peer n true) s
            = .next (s.modLink d peer fun k => k.setLane n { laneAt k n with good := 1 }))
        ∧ (n < 4 → (laneAt k n).lst = 2 → (laneAt k n).good = 0 → exec (.retrainTimer d peer n false) s
            = .next (s.due [.retrainTimer d peer n (s.pick (.other (2 ^ 24 + n)) 2 = 0)]))
        ∧ (k.relock = false → exec (.l3Relock d peer) s = .next s)
        ∧ (k.relock = true → k.up = true → k.heldReq = none → k.heldLps = none → ∃ t, exec (.l3Relock d peer) s = .next t
            ∧ (t.link d peer).relock = false ∧ (t.link d peer).busy = false ∧ ∀ i < 4, (laneAt (t.link peer d) i).lock = true)))

/-- Islands, the power cap, vectors, the host aperture, the mailbox, cold reset and freeze (logs 67, 69) (11 R298, 11
R299, 11 R300, 11 R301, 11 R302, 11 R303, 17 R369, 19 R407). -/
def Obligations.PowerHostAndReset : Prop :=
  ∀ (s : State) (chip d i off len : Nat) (mhz : BitVec 12) (by_ gate down : Bool) (vec : BitVec 6) (bs : List Byte) (cause : Word),
    (∀ e ∈ [Instr.powerCapAdjust chip down, .msixRaise chip vec, .hostApertureWrite chip off bs, .hostApertureRead chip off len,
        .mailboxMeasurementLog chip, .mailboxCertChain chip, .mailboxAttest chip, .freeze chip cause],
      (s.pkg chip).frozen = true → exec e s = .next s)
    ∧ (∀ e ∈ [Instr.islandFreqWrite d i mhz by_, .freqChangeApplied d i, .islandGateWrite d i gate by_, .islandGateEntry d i,
        .islandUngate d i, .islandRegateTimer d i], (s.pkg (chipOfDie d)).frozen = true → exec e s = .next s)
    ∧ ((s.pkg (chipOfDie d)).frozen = false →
      let k := s.island d i
      let allowed := i < 96 ∨ i < 128 ∧ by_ = true
      let legal := mhz.toNat % 100 = 0 ∧ 100 ≤ mhz.toNat ∧ mhz.toNat ≤ 2000
      let busy := s.islandBusy d i
      (allowed → legal → exec (.islandFreqWrite d i mhz by_) s
          = .next ((s.modIsland d i fun k => { k with freq := mhz }).due [.freqChangeApplied d i]))
      ∧ (¬ allowed ∨ ¬ legal → exec (.islandFreqWrite d i mhz by_) s = .next s)
      ∧ (∃ t, exec (.freqChangeApplied d i) s = .next t ∧ t.island d i = { k with cur := k.freq } ∧ t.mem = s.mem ∧ t.harts = s.harts)
      ∧ (96 ≤ i ∨ k.gate = gate → exec (.islandGateWrite d i gate by_) s = .next s)
      ∧ (i < 96 → k.gate ≠ gate → exec (.islandGateWrite d i gate by_) s
          = .next ((s.modIsland d i fun k => { k with gate := gate, woken := false }).due
              [if gate then .islandGateEntry d i else .islandUngate d i]))
      ∧ (k.gate = false → exec (.islandGateEntry d i) s = .next s ∧ exec (.islandRegateTimer d i) s = .next s)
      ∧ (k.gate = true → busy = true → exec (.islandGateEntry d i) s = .next (s.dueNew [.islandGateEntry d i]))
      ∧ (k.gate = true → busy = false → exec (.islandGateEntry d i) s
          = .next (s.modIsland d i fun k => { k with gated := true, woken := false }))
      ∧ (k.gate = true → k.woken = false → exec (.islandRegateTimer d i) s = .next s)
      ∧ (k.gate = true → k.woken = true → busy = false → exec (.islandRegateTimer d i) s
          = .next (s.modIsland d i fun k => { k with gated := true, woken := false }))
      ∧ (k.gate = true → k.woken = true → busy = true → exec (.islandRegateTimer d i) s = .next (s.dueNew [.islandRegateTimer d i]))
      ∧ (k.gate = true → exec (.islandUngate d i) s = .next s)
      ∧ (k.gate = false → ∃ t, exec (.islandUngate d i) s = .next t ∧ t.island d i = { k with gated := false, woken := false }))
    ∧ ((s.pkg chip).frozen = false →
      let open_ : Prop := s.bridgeOn chip = true ∧ (s.pkg chip).held = false
      (∃ t, exec (.powerCapAdjust chip down) s = .next t ∧ ∀ q < 4, ∀ j < 96,
          let a := s.island (4 * chip + q) j
          t.island (4 * chip + q) j = { a with cur :=
            if down then (if 100 < a.cur.toNat then a.cur - 100 else a.cur) else if a.cur.toNat < a.freq.toNat then a.cur + 100 else a.cur })
      ∧ (s.bridgeOn chip = true → exec (.msixRaise chip vec) s = .next (s.modPkg chip fun p => { p with msix := p.msix ++ [p.message vec] }))
      ∧ (s.bridgeOn chip = false → exec (.msixRaise chip vec) s = .next s)
      ∧ (¬ open_ ∨ bs = [] ∨ 2 ^ 36 < off + bs.length → exec (.hostApertureWrite chip off bs) s = .next s)
      ∧ (open_ → bs ≠ [] → off + bs.length ≤ 2 ^ 36 →
          let va := (s.pkg chip).apbase.toNat + off
          exec (.hostApertureWrite chip off bs) s = .next ((rangeElems va bs.length).foldl (fun s e =>
            s.hostWritePiece chip e.va ((bs.drop (e.va - va)).take e.bytes)) s))
      ∧ (¬ open_ ∨ len = 0 ∨ 2 ^ 36 < off + len → exec (.hostApertureRead chip off len) s = .next s)
      ∧ (open_ → 0 < len → off + len ≤ 2 ^ 36 → ∃ t got, exec (.hostApertureRead chip off len) s = .next t
          ∧ (t.pkg chip).hostReads = (s.pkg chip).hostReads ++ [(off, got)] ∧ ∀ l, got = some l → l.length = len)
      ∧ (∀ e c, (e, c) ∈ [(Instr.mailboxMeasurementLog chip, (1 : Word)), (.mailboxCertChain chip, 2), (.mailboxAttest chip, 3)] →
          ∃ t, exec e s = .next t ∧ (t.pkg chip).mbCmd = c ∧ (t.pkg chip).mbStatus = 1 ∧ (t.pkg chip).measured = (s.pkg chip).measured
            ∧ t.mem = s.mem ∧ t.harts = s.harts)
      ∧ (∃ t, exec (.mailboxMeasurementLog chip) s = .next t ∧ ∀ j < (s.pkg chip).measured.length, j < mailboxBytes →
          (t.pkg chip).mbData[j]? = (s.pkg chip).measured[j]?)
      ∧ (∃ t, exec (.mailboxCertChain chip) s = .next t ∧ ∀ j < (Config.certChain chip).length, j < mailboxBytes →
          (t.pkg chip).mbData[j]? = (Config.certChain chip)[j]?)
      ∧ (∃ t, exec (.mailboxAttest chip) s = .next t ∧ ∀ j < 384, (t.pkg chip).mbData[j]? = some
          ((Config.attest chip ((List.range 32).map fun i => (s.pkg chip).mbData.getD i 0) (s.pkg chip).measured).getD j 0))
      ∧ (∃ b, exec (.freeze chip cause) s = .next ((State.linksDown b chip).modPkg chip fun p =>
            { p with image := (State.linksDown b chip).readOut chip cause })
          ∧ (b.pkg chip).frozen = true ∧ (b.pkg chip).freezeCause = cause ∧ b.harts = s.harts ∧ b.cores = s.cores))
    ∧ (∀ ok, ∃ t, exec (.coldReset chip ok) s = .next t ∧ (t.pkg chip).frozen = false ∧ (t.pkg chip).held = !ok
        ∧ ((t.pkg chip).refusal.isSome = !ok) ∧ (ok = true → (t.pkg chip).measured = (Package.boot chip).measured)
        ∧ (∀ h, chipOf h = chip → t.hart h = Hart.reset) ∧ (∀ c, c / 512 = chip → (t.core c).spad = [])
        ∧ ∀ c, c / 512 = chip → (t.core c).barrier = Core.reset.barrier)

/-- Scalar, predicate, vector, MTS and branch words change what they write, the latest result, flags and pc, and no
memory (03 R61, 03 R66, 03 R84, 07 R172, 07 R174, 07 R176, 07 R179, 07 R180, 07 R188, 08 R203, 08 R226, 19 R400). -/
def Obligations.RegisterWordsFrame : Prop :=
  ∀ (s t : State) (i : Instr) (w : Wd), i.wd = some w → s.Clear i → exec i s = .next t → t.disp = .retired ∨ t.disp = .jumped →
    let a := s.my
    let b := t.my
    let outer := t.mem = s.mem ∧ t.dies = s.dies ∧ t.pkgs = s.pkgs ∧ t.pod = s.pod ∧ t.net = s.net
      ∧ (∀ h, h ≠ s.me → t.hart h = s.hart h)
    let same := outer ∧ t.cores = s.cores ∧ t.agenda = s.agenda
    let slow := outer ∧ t.cores = s.cores ∧ (∃ e, t.agenda = s.agenda ++ [e]) ∧ ∃ o, b.ops = a.ops ++ [o]
    let xOnly := ∀ n, (∀ m, w.d ≠ .main n m) → b.xr n = a.xr n
    let flags := b.fflags = a.fflags ∧ b.fxi = a.fxi
    let rest (c : Hart) : Prop := c = { a with
      pc := a.pc + 12, x := c.x, p := c.p, v := c.v, o := c.o, l := c.l, fflags := c.fflags, fxi := c.fxi, early := c.early, poison := c.poison }
    (Instr.scalarOnly i = true → same ∧ rest b ∧ b.p = a.p ∧ b.v = a.v ∧ b.o = a.o ∧ flags
      ∧ xOnly ∧ (∀ n, n ≠ 0 → b.lr n = a.lr n))
    ∧ (Instr.predOnly i = true → same ∧ rest b ∧ b.x = a.x ∧ b.v = a.v ∧ b.o = a.o ∧ b.l = a.l ∧ flags
      ∧ ∀ n, Hart.predOf w.d ≠ n → b.pr n = a.pr n)
    ∧ (Instr.vectorOnly i = true → same ∧ rest b ∧ b.x = a.x ∧ b.p = a.p
      ∧ (∀ n, (∀ m, w.d ≠ .main n m) → b.vr n = a.vr n) ∧ (∀ n, (∀ m, w.d ≠ .oper n m) → b.or n = a.or n)
      ∧ ∀ n, n ≠ 1 → (∀ m, w.d ≠ .last n m) → b.lr n = a.lr n)
    ∧ (∀ c, i = .vcmp c w → same ∧ rest b ∧ b.x = a.x ∧ b.v = a.v ∧ b.o = a.o ∧ b.l = a.l ∧ ∀ n, Hart.predOf w.d ≠ n → b.pr n = a.pr n)
    ∧ (i = .vext w → same ∧ rest b ∧ b.p = a.p ∧ b.v = a.v ∧ b.o = a.o ∧ b.l = a.l ∧ flags ∧ xOnly)
    ∧ (Instr.slowScalar i = true → slow ∧ rest { b with ops := a.ops } ∧ b.p = a.p ∧ b.v = a.v ∧ b.o = a.o ∧ flags ∧ xOnly
      ∧ ∀ n, n ≠ 0 → b.lr n = a.lr n)
    ∧ (Instr.slowVector i = true → slow ∧ rest { b with ops := a.ops } ∧ b.x = a.x ∧ b.p = a.p
      ∧ (∀ n, RegId.v n ∉ i.writes → b.vr n = a.vr n) ∧ (∀ n, RegId.o n ∉ i.writes → b.or n = a.or n)
      ∧ ∀ n, RegId.l n ∉ i.writes → b.lr n = a.lr n)
    ∧ (Instr.writesSys i = true → outer ∧ b.pc = a.pc + 12 ∧ b.x = a.x ∧ b.p = a.p ∧ b.v = a.v ∧ b.o = a.o ∧ b.l = a.l ∧ b.z = a.z
      ∧ b.w = a.w ∧ b.ops = a.ops ∧ ∀ c o, t.spadByte c o = s.spadByte c o)
    ∧ (Instr.transfers i = true → same ∧ rest { b with pc := a.pc + 12 } ∧ b.p = a.p ∧ b.v = a.v ∧ b.o = a.o ∧ flags ∧ xOnly
      ∧ (∀ n, n ≠ 0 → b.lr n = a.lr n) ∧ (∀ off, i = .bra w off ∨ i = .ret w ∨ (∃ c, i = .brc c w off) → b.x = a.x ∧ b.l = a.l))

/-- A memory word changes only the bytes that it stores, in its core's view and at their homes, and a load no memory
(04 R104, 04 R115, 04 R116, 05 R121, 05 R124, 08 R235, 09 R239, 09 R242, 09 R246, 09 R248, 09 R250, 09 R259). -/
def Obligations.MemoryWordsFrame : Prop :=
  ∀ (s t : State) (i : Instr),
    let fresh : Prop := (∀ r ∈ s.net, r.id < s.opSeq) ∧ ∀ c, ∀ e ∈ (s.core c).cellar, ∀ id, e.kind = .request id → id < s.opSeq
    (Instr.stores i = true → s.Sound → s.Clear i → exec i s = .next t → t.disp = .retired → ∀ ps,
      (s.storeView (s.readView i) i).placeAll s.me .write (s.storedElems (s.readView i) i) = .ok ps →
      t.mem = s.mem ∧ t.pkgs = s.pkgs ∧ t.pod = s.pod ∧ (∀ h, h ≠ s.me → t.hart h = s.hart h)
      ∧ (∀ d, { t.die d with l2 := (s.die d).l2, brought := (s.die d).brought } = s.die d)
      ∧ (∀ c o, c ≠ coreOf s.me → t.spadByte c o = s.spadByte c o)
      ∧ (∀ o, ps.any (fun p => p.coversSpad o) = false → t.spadByte (coreOf s.me) o = s.spadByte (coreOf s.me) o)
      ∧ (∃ rs, t.net = s.net ++ rs ∧ ∀ r ∈ rs, r.hart = s.me ∧ r.kind = .store)
      ∧ (fresh →
        (∀ k, ps.any (fun p => s.storesTo s.my.jobtag p k) = false → t.coreByte (coreOf s.me) k = s.coreByte (coreOf s.me) k)
        ∧ (∀ c k, c ≠ coreOf s.me → t.coreByte c k = s.coreByte c k)))
    ∧ (∀ w x p, i = .st w x → s.Sound → s.Clear i → fresh →
        s.Reaches i .write [⟨0, (s.readView i).effAddr w x 1, scalarBytes w.fmt, false⟩] storeNeed [p] →
        (∀ q ∈ p.parts, q.1.isDev = false) → exec i s = .next t →
        ∀ e ∈ p.accesses ((s.readView i).xSrc w.d).toNat, ∀ j < e.bytes, match e.at_ with
          | .spad k o => t.spadByte k (o + j) = BitVec.ofNat 8 (e.data / 2 ^ (8 * j))
          | .mem k _ => t.coreByte (coreOf s.me) (k + j) = BitVec.ofNat 8 (e.data / 2 ^ (8 * j))
          | .global va => ∀ k, s.homeAddr s.my.jobtag .write (va + j) = .ok k →
              t.coreByte (coreOf s.me) k = BitVec.ofNat 8 (e.data / 2 ^ (8 * j))
          | _ => True)
    ∧ (Instr.loads i = true → s.Clear i → exec i s = .next t → t.disp = .retired →
      t.mem = s.mem ∧ t.pkgs = s.pkgs ∧ t.pod = s.pod ∧ (∀ h, h ≠ s.me → t.hart h = s.hart h)
      ∧ (∀ c o, t.spadByte c o = s.spadByte c o) ∧ (fresh → ∀ c k, t.coreByte c k = s.coreByte c k))
    ∧ (Instr.requests i = true → s.Sound → s.Clear i → exec i s = .next t → t.disp = .retired →
      t.mem = s.mem ∧ t.pkgs = s.pkgs ∧ t.pod = s.pod ∧ (∀ h, h ≠ s.me → t.hart h = s.hart h)
      ∧ (∀ d, { t.die d with l2 := (s.die d).l2, brought := (s.die d).brought } = s.die d)
      ∧ (∀ c o, c ≠ coreOf s.me → t.spadByte c o = s.spadByte c o)
      ∧ (∀ ps, s.placeAll s.me .atomic (s.atomicElems (s.readView i) i) = .ok ps →
          ∀ o, ps.any (fun p => p.coversSpad o) = false → t.spadByte (coreOf s.me) o = s.spadByte (coreOf s.me) o)
      ∧ (fresh → ∀ c k, t.coreByte c k = s.coreByte c k))
    ∧ (∀ req r, s.Sound → s.request? req = some r → ∀ k, ¬ s.RingByte k →
      (r.kind ≠ .inval → (∀ e ∈ r.elems, e.at_.addr % 2 ^ 16 + e.bytes ≤ 2 ^ 16) →
        (∀ q ∈ s.requestRuns r, ¬ (q.1 ≤ k ∧ k < q.1 + q.2)) → exec (.globalWindowAccessAtHome req) s = .next t →
        t.mem.read k = s.mem.read k)
      ∧ (¬ s.QueueByte r k → exec (.queueOpAtHome req) s = .next t → t.mem.read k = s.mem.read k)
      ∧ (¬ s.PageByte r k → exec (.keyPageAppendAtHome req) s = .next t → t.mem.read k = s.mem.read k))
end

