-- ==== Sys2Proof/Laws/Elements.lean ====
section
/-! SUPPORT. Elements of a register: what one reads after one or several are written. -/
namespace Sys2Proof.Machine

theorem getLsbD_setElem {k : Nat} (b : BitVec k) (w i v j : Nat) :
    (setElem b w i v).getLsbD j =
      if j < k ∧ w * i ≤ j ∧ j < w * i + w then v.testBit (j - w * i) else b.getLsbD j := by
  simp only [setElem, BitVec.getLsbD_or, BitVec.getLsbD_and, BitVec.getLsbD_not, BitVec.getLsbD_shiftLeft,
    BitVec.getLsbD_ofNat, Nat.testBit_two_pow_sub_one, Nat.testBit_mod_two_pow]
  by_cases hj : j < k
  · by_cases h1 : w * i ≤ j
    · by_cases h2 : j < w * i + w
      · have h3 : j - w * i < w := by omega
        have h4 : ¬ j < w * i := by omega
        have h5 : j - w * i < k := by omega
        simp [hj, h1, h2, h3, h4, h5]
      · have h3 : ¬ j - w * i < w := by omega
        simp [hj, h1, h2, h3]
    · have h4 : j < w * i := by omega
      simp [hj, h1, h4]
  · have h5 : b.getLsbD j = false := BitVec.getLsbD_of_ge b j (by omega)
    simp [hj, h5]

theorem testBit_getElem {k : Nat} (b : BitVec k) (w i j : Nat) :
    (getElem b w i).testBit j = (decide (j < w) && b.getLsbD (w * i + j)) := by
  simp only [getElem, BitVec.testBit_toNat, BitVec.getLsbD_extractLsb']

/-- The element that was written, within its width. -/
theorem getElem_setElem_same {k : Nat} (b : BitVec k) (w i v : Nat) (h : w * i + w ≤ k) :
    getElem (setElem b w i v) w i = v % 2 ^ w := by
  apply Nat.eq_of_testBit_eq
  intro j
  rw [testBit_getElem, getLsbD_setElem, Nat.testBit_mod_two_pow]
  by_cases hj : j < w
  · have h1 : w * i + j < k := by omega
    have h2 : w * i ≤ w * i + j := by omega
    have h3 : w * i + j < w * i + w := by omega
    simp [hj, h1, h2]
  · simp [hj]

/-- Every other element stays. -/
theorem getElem_setElem_ne {k : Nat} (b : BitVec k) (w v : Nat) {i j : Nat} (h : j ≠ i) :
    getElem (setElem b w i v) w j = getElem b w j := by
  apply Nat.eq_of_testBit_eq
  intro n
  rw [testBit_getElem, testBit_getElem, getLsbD_setElem]
  by_cases hn : n < w
  · have : ¬ (w * i ≤ w * j + n ∧ w * j + n < w * i + w) := by
      rintro ⟨h1, h2⟩
      rcases Nat.lt_or_gt_of_ne h with hl | hl
      · have : w * (j + 1) ≤ w * i := Nat.mul_le_mul_left w hl
        rw [Nat.mul_add] at this; omega
      · have : w * (i + 1) ≤ w * j := Nat.mul_le_mul_left w hl
        rw [Nat.mul_add] at this; omega
    simp [hn, this]
  · simp [hn]

/-- An element that none of the writes names stays. -/
theorem getElem_setElems_ne {k : Nat} (w j : Nat) : ∀ (ws : List (Nat × Nat)) (b : BitVec k),
    (∀ p ∈ ws, p.1 ≠ j) → getElem (setElems b w ws) w j = getElem b w j
  | [], _, _ => rfl
  | p :: ws, b, h => by
    simp only [setElems, List.foldl_cons]
    have := getElem_setElems_ne w j ws (setElem b w p.1 p.2) fun q hq => h q (List.mem_cons_of_mem _ hq)
    rw [setElems] at this
    rw [this, getElem_setElem_ne]
    exact Ne.symm (h p List.mem_cons_self)

/-- A written element, when the indices are distinct. -/
theorem getElem_setElems_mem {k : Nat} (w : Nat) : ∀ (ws : List (Nat × Nat)) (b : BitVec k) (p : Nat × Nat),
    (ws.map Prod.fst).Nodup → p ∈ ws → w * p.1 + w ≤ k → getElem (setElems b w ws) w p.1 = p.2 % 2 ^ w
  | [], _, _, _, hm, _ => by cases hm
  | q :: ws, b, p, hn, hm, hk => by
    simp only [setElems, List.foldl_cons]
    simp only [List.map_cons, List.nodup_cons] at hn
    rcases List.mem_cons.1 hm with rfl | hm
    · have := getElem_setElems_ne w p.1 ws (setElem b w p.1 p.2) fun r hr he =>
        hn.1 (he ▸ List.mem_map_of_mem hr)
      rw [setElems] at this
      rw [this, getElem_setElem_same _ _ _ _ hk]
    · have := getElem_setElems_mem w ws (setElem b w q.1 q.2) p hn.2 hm hk
      rwa [setElems] at this

end Sys2Proof.Machine
end

