-- ==== Sys2Proof/Laws/State.lean ====
section
/-! SUPPORT. Updates of the state: which fields each one leaves, and what a table reads after a write. -/
namespace Sys2Proof.Machine

/-! ### Tables -/

@[simp] theorem Tab.find_set_same {α : Type} (t : Tab α) (a : Nat) (v : α) : Tab.find (Tab.set t a v) a = some v := by
  induction t with
  | nil => simp [Tab.set, Tab.find]
  | cons p t ih =>
    obtain ⟨k, w⟩ := p
    simp only [Tab.set]
    split
    · simp [Tab.find]
    · split
      · simp [Tab.find]
      · rename_i h _
        simp [Tab.find, Ne.symm h, ih]

theorem Tab.find_set_ne {α : Type} (t : Tab α) {a b : Nat} (v : α) (h : b ≠ a) :
    Tab.find (Tab.set t a v) b = Tab.find t b := by
  induction t with
  | nil => simp [Tab.set, Tab.find, Ne.symm h]
  | cons p t ih =>
    obtain ⟨k, w⟩ := p
    simp only [Tab.set]
    split
    · subst_vars; simp [Tab.find, Ne.symm h]
    · split
      · simp [Tab.find, Ne.symm h]
      · simp [Tab.find, ih]

@[simp] theorem Tab.get_set_same {α : Type} (t : Tab α) (d : α) (a : Nat) (v : α) : Tab.get (Tab.set t a v) d a = v := by
  simp [Tab.get]

@[simp] theorem Tab.get_set_ne {α : Type} (t : Tab α) (d : α) {a b : Nat} (v : α) (h : b ≠ a) :
    Tab.get (Tab.set t a v) d b = Tab.get t d b := by
  simp [Tab.get, Tab.find_set_ne t v h]

/-- The latest of two writes of a key stands. -/
theorem Tab.set_set {α : Type} (t : Tab α) (a : Nat) (v w : α) : Tab.set (Tab.set t a v) a w = Tab.set t a w := by
  induction t with
  | nil => simp [Tab.set]
  | cons p t ih =>
    obtain ⟨k, u⟩ := p
    by_cases h : a = k
    · simp [Tab.set, h]
    · by_cases h' : a < k
      · simp [Tab.set, h, h']
      · simp [Tab.set, h, h', ih]

/-- What a table lists after a write was listed before, or is what was written. -/
theorem Tab.mem_set {α : Type} {t : Tab α} {a : Nat} {v : α} {p : Nat × α} (h : p ∈ Tab.set t a v) : p ∈ t ∨ p = (a, v) := by
  induction t with
  | nil => simpa [Tab.set] using h
  | cons q t ih =>
    simp only [Tab.set] at h
    split at h
    · rcases List.mem_cons.1 h with h | h <;> simp [h]
    · split at h
      · rcases List.mem_cons.1 h with h | h <;> simp [h]
      · rcases List.mem_cons.1 h with h | h
        · simp [h]
        · rcases ih h with h | h <;> simp [h]

namespace State

/-! ### Fields that an update leaves -/

@[simp] theorem setHart_me (s : State) (h : Nat) (v : Hart) : (s.setHart h v).me = s.me := rfl
@[simp] theorem setHart_cores (s : State) (h : Nat) (v : Hart) : (s.setHart h v).cores = s.cores := rfl
@[simp] theorem setHart_dies (s : State) (h : Nat) (v : Hart) : (s.setHart h v).dies = s.dies := rfl
@[simp] theorem setHart_pkgs (s : State) (h : Nat) (v : Hart) : (s.setHart h v).pkgs = s.pkgs := rfl
@[simp] theorem setHart_pod (s : State) (h : Nat) (v : Hart) : (s.setHart h v).pod = s.pod := rfl
@[simp] theorem setHart_mem (s : State) (h : Nat) (v : Hart) : (s.setHart h v).mem = s.mem := rfl
@[simp] theorem setHart_backing (s : State) (h : Nat) (v : Hart) : (s.setHart h v).backing = s.backing := rfl
@[simp] theorem setHart_poison (s : State) (h : Nat) (v : Hart) : (s.setHart h v).poison = s.poison := rfl
@[simp] theorem setHart_net (s : State) (h : Nat) (v : Hart) : (s.setHart h v).net = s.net := rfl
@[simp] theorem setHart_history (s : State) (h : Nat) (v : Hart) : (s.setHart h v).history = s.history := rfl
@[simp] theorem setHart_agenda (s : State) (h : Nat) (v : Hart) : (s.setHart h v).agenda = s.agenda := rfl
@[simp] theorem setHart_upsets (s : State) (h : Nat) (v : Hart) : (s.setHart h v).upsets = s.upsets := rfl
@[simp] theorem setHart_disp (s : State) (h : Nat) (v : Hart) : (s.setHart h v).disp = s.disp := rfl
@[simp] theorem setHart_fresh (s : State) (h : Nat) (v : Hart) : (s.setHart h v).fresh = s.fresh := rfl
@[simp] theorem setHart_opSeq (s : State) (h : Nat) (v : Hart) : (s.setHart h v).opSeq = s.opSeq := rfl
@[simp] theorem setHart_time (s : State) (h : Nat) (v : Hart) : (s.setHart h v).time = s.time := rfl

@[simp] theorem setCore_me (s : State) (c : Nat) (v : Core) : (s.setCore c v).me = s.me := rfl
@[simp] theorem setCore_harts (s : State) (c : Nat) (v : Core) : (s.setCore c v).harts = s.harts := rfl
@[simp] theorem setCore_dies (s : State) (c : Nat) (v : Core) : (s.setCore c v).dies = s.dies := rfl
@[simp] theorem setCore_pkgs (s : State) (c : Nat) (v : Core) : (s.setCore c v).pkgs = s.pkgs := rfl
@[simp] theorem setCore_pod (s : State) (c : Nat) (v : Core) : (s.setCore c v).pod = s.pod := rfl
@[simp] theorem setCore_mem (s : State) (c : Nat) (v : Core) : (s.setCore c v).mem = s.mem := rfl
@[simp] theorem setCore_backing (s : State) (c : Nat) (v : Core) : (s.setCore c v).backing = s.backing := rfl
@[simp] theorem setCore_poison (s : State) (c : Nat) (v : Core) : (s.setCore c v).poison = s.poison := rfl
@[simp] theorem setCore_net (s : State) (c : Nat) (v : Core) : (s.setCore c v).net = s.net := rfl
@[simp] theorem setCore_history (s : State) (c : Nat) (v : Core) : (s.setCore c v).history = s.history := rfl
@[simp] theorem setCore_agenda (s : State) (c : Nat) (v : Core) : (s.setCore c v).agenda = s.agenda := rfl
@[simp] theorem setCore_upsets (s : State) (c : Nat) (v : Core) : (s.setCore c v).upsets = s.upsets := rfl
@[simp] theorem setCore_disp (s : State) (c : Nat) (v : Core) : (s.setCore c v).disp = s.disp := rfl
@[simp] theorem setCore_fresh (s : State) (c : Nat) (v : Core) : (s.setCore c v).fresh = s.fresh := rfl
@[simp] theorem setCore_opSeq (s : State) (c : Nat) (v : Core) : (s.setCore c v).opSeq = s.opSeq := rfl
@[simp] theorem setCore_time (s : State) (c : Nat) (v : Core) : (s.setCore c v).time = s.time := rfl

@[simp] theorem setDie_me (s : State) (d : Nat) (v : Die) : (s.setDie d v).me = s.me := rfl
@[simp] theorem setDie_harts (s : State) (d : Nat) (v : Die) : (s.setDie d v).harts = s.harts := rfl
@[simp] theorem setDie_cores (s : State) (d : Nat) (v : Die) : (s.setDie d v).cores = s.cores := rfl
@[simp] theorem setDie_pkgs (s : State) (d : Nat) (v : Die) : (s.setDie d v).pkgs = s.pkgs := rfl
@[simp] theorem setDie_pod (s : State) (d : Nat) (v : Die) : (s.setDie d v).pod = s.pod := rfl
@[simp] theorem setDie_mem (s : State) (d : Nat) (v : Die) : (s.setDie d v).mem = s.mem := rfl
@[simp] theorem setDie_backing (s : State) (d : Nat) (v : Die) : (s.setDie d v).backing = s.backing := rfl
@[simp] theorem setDie_poison (s : State) (d : Nat) (v : Die) : (s.setDie d v).poison = s.poison := rfl
@[simp] theorem setDie_net (s : State) (d : Nat) (v : Die) : (s.setDie d v).net = s.net := rfl
@[simp] theorem setDie_history (s : State) (d : Nat) (v : Die) : (s.setDie d v).history = s.history := rfl
@[simp] theorem setDie_agenda (s : State) (d : Nat) (v : Die) : (s.setDie d v).agenda = s.agenda := rfl
@[simp] theorem setDie_upsets (s : State) (d : Nat) (v : Die) : (s.setDie d v).upsets = s.upsets := rfl
@[simp] theorem setDie_disp (s : State) (d : Nat) (v : Die) : (s.setDie d v).disp = s.disp := rfl
@[simp] theorem setDie_fresh (s : State) (d : Nat) (v : Die) : (s.setDie d v).fresh = s.fresh := rfl
@[simp] theorem setDie_opSeq (s : State) (d : Nat) (v : Die) : (s.setDie d v).opSeq = s.opSeq := rfl
@[simp] theorem setDie_time (s : State) (d : Nat) (v : Die) : (s.setDie d v).time = s.time := rfl

@[simp] theorem setPkg_me (s : State) (c : Nat) (v : Package) : (s.setPkg c v).me = s.me := rfl
@[simp] theorem setPkg_harts (s : State) (c : Nat) (v : Package) : (s.setPkg c v).harts = s.harts := rfl
@[simp] theorem setPkg_cores (s : State) (c : Nat) (v : Package) : (s.setPkg c v).cores = s.cores := rfl
@[simp] theorem setPkg_dies (s : State) (c : Nat) (v : Package) : (s.setPkg c v).dies = s.dies := rfl
@[simp] theorem setPkg_pod (s : State) (c : Nat) (v : Package) : (s.setPkg c v).pod = s.pod := rfl
@[simp] theorem setPkg_mem (s : State) (c : Nat) (v : Package) : (s.setPkg c v).mem = s.mem := rfl
@[simp] theorem setPkg_backing (s : State) (c : Nat) (v : Package) : (s.setPkg c v).backing = s.backing := rfl
@[simp] theorem setPkg_poison (s : State) (c : Nat) (v : Package) : (s.setPkg c v).poison = s.poison := rfl
@[simp] theorem setPkg_net (s : State) (c : Nat) (v : Package) : (s.setPkg c v).net = s.net := rfl
@[simp] theorem setPkg_history (s : State) (c : Nat) (v : Package) : (s.setPkg c v).history = s.history := rfl
@[simp] theorem setPkg_agenda (s : State) (c : Nat) (v : Package) : (s.setPkg c v).agenda = s.agenda := rfl
@[simp] theorem setPkg_upsets (s : State) (c : Nat) (v : Package) : (s.setPkg c v).upsets = s.upsets := rfl
@[simp] theorem setPkg_disp (s : State) (c : Nat) (v : Package) : (s.setPkg c v).disp = s.disp := rfl
@[simp] theorem setPkg_fresh (s : State) (c : Nat) (v : Package) : (s.setPkg c v).fresh = s.fresh := rfl
@[simp] theorem setPkg_opSeq (s : State) (c : Nat) (v : Package) : (s.setPkg c v).opSeq = s.opSeq := rfl
@[simp] theorem setPkg_time (s : State) (c : Nat) (v : Package) : (s.setPkg c v).time = s.time := rfl

@[simp] theorem setMy_me (s : State) (v : Hart) : (s.setMy v).me = s.me := rfl
@[simp] theorem setMy_cores (s : State) (v : Hart) : (s.setMy v).cores = s.cores := rfl
@[simp] theorem setMy_dies (s : State) (v : Hart) : (s.setMy v).dies = s.dies := rfl
@[simp] theorem setMy_pkgs (s : State) (v : Hart) : (s.setMy v).pkgs = s.pkgs := rfl
@[simp] theorem setMy_pod (s : State) (v : Hart) : (s.setMy v).pod = s.pod := rfl
@[simp] theorem setMy_mem (s : State) (v : Hart) : (s.setMy v).mem = s.mem := rfl
@[simp] theorem setMy_backing (s : State) (v : Hart) : (s.setMy v).backing = s.backing := rfl
@[simp] theorem setMy_poison (s : State) (v : Hart) : (s.setMy v).poison = s.poison := rfl
@[simp] theorem setMy_net (s : State) (v : Hart) : (s.setMy v).net = s.net := rfl
@[simp] theorem setMy_history (s : State) (v : Hart) : (s.setMy v).history = s.history := rfl
@[simp] theorem setMy_agenda (s : State) (v : Hart) : (s.setMy v).agenda = s.agenda := rfl
@[simp] theorem setMy_upsets (s : State) (v : Hart) : (s.setMy v).upsets = s.upsets := rfl
@[simp] theorem setMy_disp (s : State) (v : Hart) : (s.setMy v).disp = s.disp := rfl
@[simp] theorem setMy_fresh (s : State) (v : Hart) : (s.setMy v).fresh = s.fresh := rfl
@[simp] theorem setMy_opSeq (s : State) (v : Hart) : (s.setMy v).opSeq = s.opSeq := rfl
@[simp] theorem setMy_time (s : State) (v : Hart) : (s.setMy v).time = s.time := rfl

@[simp] theorem setMyCore_me (s : State) (v : Core) : (s.setMyCore v).me = s.me := rfl
@[simp] theorem setMyCore_harts (s : State) (v : Core) : (s.setMyCore v).harts = s.harts := rfl
@[simp] theorem setMyCore_dies (s : State) (v : Core) : (s.setMyCore v).dies = s.dies := rfl
@[simp] theorem setMyCore_pkgs (s : State) (v : Core) : (s.setMyCore v).pkgs = s.pkgs := rfl
@[simp] theorem setMyCore_pod (s : State) (v : Core) : (s.setMyCore v).pod = s.pod := rfl
@[simp] theorem setMyCore_mem (s : State) (v : Core) : (s.setMyCore v).mem = s.mem := rfl
@[simp] theorem setMyCore_backing (s : State) (v : Core) : (s.setMyCore v).backing = s.backing := rfl
@[simp] theorem setMyCore_poison (s : State) (v : Core) : (s.setMyCore v).poison = s.poison := rfl
@[simp] theorem setMyCore_net (s : State) (v : Core) : (s.setMyCore v).net = s.net := rfl
@[simp] theorem setMyCore_history (s : State) (v : Core) : (s.setMyCore v).history = s.history := rfl
@[simp] theorem setMyCore_agenda (s : State) (v : Core) : (s.setMyCore v).agenda = s.agenda := rfl
@[simp] theorem setMyCore_upsets (s : State) (v : Core) : (s.setMyCore v).upsets = s.upsets := rfl
@[simp] theorem setMyCore_disp (s : State) (v : Core) : (s.setMyCore v).disp = s.disp := rfl
@[simp] theorem setMyCore_fresh (s : State) (v : Core) : (s.setMyCore v).fresh = s.fresh := rfl
@[simp] theorem setMyCore_opSeq (s : State) (v : Core) : (s.setMyCore v).opSeq = s.opSeq := rfl
@[simp] theorem setMyCore_time (s : State) (v : Core) : (s.setMyCore v).time = s.time := rfl

@[simp] theorem upd_me (s : State) (f : Hart → Hart) : (s.upd f).me = s.me := rfl
@[simp] theorem upd_cores (s : State) (f : Hart → Hart) : (s.upd f).cores = s.cores := rfl
@[simp] theorem upd_dies (s : State) (f : Hart → Hart) : (s.upd f).dies = s.dies := rfl
@[simp] theorem upd_pkgs (s : State) (f : Hart → Hart) : (s.upd f).pkgs = s.pkgs := rfl
@[simp] theorem upd_pod (s : State) (f : Hart → Hart) : (s.upd f).pod = s.pod := rfl
@[simp] theorem upd_mem (s : State) (f : Hart → Hart) : (s.upd f).mem = s.mem := rfl
@[simp] theorem upd_backing (s : State) (f : Hart → Hart) : (s.upd f).backing = s.backing := rfl
@[simp] theorem upd_poison (s : State) (f : Hart → Hart) : (s.upd f).poison = s.poison := rfl
@[simp] theorem upd_net (s : State) (f : Hart → Hart) : (s.upd f).net = s.net := rfl
@[simp] theorem upd_history (s : State) (f : Hart → Hart) : (s.upd f).history = s.history := rfl
@[simp] theorem upd_agenda (s : State) (f : Hart → Hart) : (s.upd f).agenda = s.agenda := rfl
@[simp] theorem upd_upsets (s : State) (f : Hart → Hart) : (s.upd f).upsets = s.upsets := rfl
@[simp] theorem upd_disp (s : State) (f : Hart → Hart) : (s.upd f).disp = s.disp := rfl
@[simp] theorem upd_fresh (s : State) (f : Hart → Hart) : (s.upd f).fresh = s.fresh := rfl
@[simp] theorem upd_opSeq (s : State) (f : Hart → Hart) : (s.upd f).opSeq = s.opSeq := rfl
@[simp] theorem upd_time (s : State) (f : Hart → Hart) : (s.upd f).time = s.time := rfl

@[simp] theorem modHart_me (s : State) (h : Nat) (f : Hart → Hart) : (s.modHart h f).me = s.me := rfl
@[simp] theorem modHart_cores (s : State) (h : Nat) (f : Hart → Hart) : (s.modHart h f).cores = s.cores := rfl
@[simp] theorem modHart_dies (s : State) (h : Nat) (f : Hart → Hart) : (s.modHart h f).dies = s.dies := rfl
@[simp] theorem modHart_pkgs (s : State) (h : Nat) (f : Hart → Hart) : (s.modHart h f).pkgs = s.pkgs := rfl
@[simp] theorem modHart_pod (s : State) (h : Nat) (f : Hart → Hart) : (s.modHart h f).pod = s.pod := rfl
@[simp] theorem modHart_mem (s : State) (h : Nat) (f : Hart → Hart) : (s.modHart h f).mem = s.mem := rfl
@[simp] theorem modHart_backing (s : State) (h : Nat) (f : Hart → Hart) : (s.modHart h f).backing = s.backing := rfl
@[simp] theorem modHart_poison (s : State) (h : Nat) (f : Hart → Hart) : (s.modHart h f).poison = s.poison := rfl
@[simp] theorem modHart_net (s : State) (h : Nat) (f : Hart → Hart) : (s.modHart h f).net = s.net := rfl
@[simp] theorem modHart_history (s : State) (h : Nat) (f : Hart → Hart) : (s.modHart h f).history = s.history := rfl
@[simp] theorem modHart_agenda (s : State) (h : Nat) (f : Hart → Hart) : (s.modHart h f).agenda = s.agenda := rfl
@[simp] theorem modHart_upsets (s : State) (h : Nat) (f : Hart → Hart) : (s.modHart h f).upsets = s.upsets := rfl
@[simp] theorem modHart_disp (s : State) (h : Nat) (f : Hart → Hart) : (s.modHart h f).disp = s.disp := rfl
@[simp] theorem modHart_fresh (s : State) (h : Nat) (f : Hart → Hart) : (s.modHart h f).fresh = s.fresh := rfl
@[simp] theorem modHart_opSeq (s : State) (h : Nat) (f : Hart → Hart) : (s.modHart h f).opSeq = s.opSeq := rfl
@[simp] theorem modHart_time (s : State) (h : Nat) (f : Hart → Hart) : (s.modHart h f).time = s.time := rfl

@[simp] theorem modCore_me (s : State) (c : Nat) (f : Core → Core) : (s.modCore c f).me = s.me := rfl
@[simp] theorem modCore_harts (s : State) (c : Nat) (f : Core → Core) : (s.modCore c f).harts = s.harts := rfl
@[simp] theorem modCore_dies (s : State) (c : Nat) (f : Core → Core) : (s.modCore c f).dies = s.dies := rfl
@[simp] theorem modCore_pkgs (s : State) (c : Nat) (f : Core → Core) : (s.modCore c f).pkgs = s.pkgs := rfl
@[simp] theorem modCore_pod (s : State) (c : Nat) (f : Core → Core) : (s.modCore c f).pod = s.pod := rfl
@[simp] theorem modCore_mem (s : State) (c : Nat) (f : Core → Core) : (s.modCore c f).mem = s.mem := rfl
@[simp] theorem modCore_backing (s : State) (c : Nat) (f : Core → Core) : (s.modCore c f).backing = s.backing := rfl
@[simp] theorem modCore_poison (s : State) (c : Nat) (f : Core → Core) : (s.modCore c f).poison = s.poison := rfl
@[simp] theorem modCore_net (s : State) (c : Nat) (f : Core → Core) : (s.modCore c f).net = s.net := rfl
@[simp] theorem modCore_history (s : State) (c : Nat) (f : Core → Core) : (s.modCore c f).history = s.history := rfl
@[simp] theorem modCore_agenda (s : State) (c : Nat) (f : Core → Core) : (s.modCore c f).agenda = s.agenda := rfl
@[simp] theorem modCore_upsets (s : State) (c : Nat) (f : Core → Core) : (s.modCore c f).upsets = s.upsets := rfl
@[simp] theorem modCore_disp (s : State) (c : Nat) (f : Core → Core) : (s.modCore c f).disp = s.disp := rfl
@[simp] theorem modCore_fresh (s : State) (c : Nat) (f : Core → Core) : (s.modCore c f).fresh = s.fresh := rfl
@[simp] theorem modCore_opSeq (s : State) (c : Nat) (f : Core → Core) : (s.modCore c f).opSeq = s.opSeq := rfl
@[simp] theorem modCore_time (s : State) (c : Nat) (f : Core → Core) : (s.modCore c f).time = s.time := rfl

@[simp] theorem modDie_me (s : State) (d : Nat) (f : Die → Die) : (s.modDie d f).me = s.me := rfl
@[simp] theorem modDie_harts (s : State) (d : Nat) (f : Die → Die) : (s.modDie d f).harts = s.harts := rfl
@[simp] theorem modDie_cores (s : State) (d : Nat) (f : Die → Die) : (s.modDie d f).cores = s.cores := rfl
@[simp] theorem modDie_pkgs (s : State) (d : Nat) (f : Die → Die) : (s.modDie d f).pkgs = s.pkgs := rfl
@[simp] theorem modDie_pod (s : State) (d : Nat) (f : Die → Die) : (s.modDie d f).pod = s.pod := rfl
@[simp] theorem modDie_mem (s : State) (d : Nat) (f : Die → Die) : (s.modDie d f).mem = s.mem := rfl
@[simp] theorem modDie_backing (s : State) (d : Nat) (f : Die → Die) : (s.modDie d f).backing = s.backing := rfl
@[simp] theorem modDie_poison (s : State) (d : Nat) (f : Die → Die) : (s.modDie d f).poison = s.poison := rfl
@[simp] theorem modDie_net (s : State) (d : Nat) (f : Die → Die) : (s.modDie d f).net = s.net := rfl
@[simp] theorem modDie_history (s : State) (d : Nat) (f : Die → Die) : (s.modDie d f).history = s.history := rfl
@[simp] theorem modDie_agenda (s : State) (d : Nat) (f : Die → Die) : (s.modDie d f).agenda = s.agenda := rfl
@[simp] theorem modDie_upsets (s : State) (d : Nat) (f : Die → Die) : (s.modDie d f).upsets = s.upsets := rfl
@[simp] theorem modDie_disp (s : State) (d : Nat) (f : Die → Die) : (s.modDie d f).disp = s.disp := rfl
@[simp] theorem modDie_fresh (s : State) (d : Nat) (f : Die → Die) : (s.modDie d f).fresh = s.fresh := rfl
@[simp] theorem modDie_opSeq (s : State) (d : Nat) (f : Die → Die) : (s.modDie d f).opSeq = s.opSeq := rfl
@[simp] theorem modDie_time (s : State) (d : Nat) (f : Die → Die) : (s.modDie d f).time = s.time := rfl

@[simp] theorem modPkg_me (s : State) (c : Nat) (f : Package → Package) : (s.modPkg c f).me = s.me := rfl
@[simp] theorem modPkg_harts (s : State) (c : Nat) (f : Package → Package) : (s.modPkg c f).harts = s.harts := rfl
@[simp] theorem modPkg_cores (s : State) (c : Nat) (f : Package → Package) : (s.modPkg c f).cores = s.cores := rfl
@[simp] theorem modPkg_dies (s : State) (c : Nat) (f : Package → Package) : (s.modPkg c f).dies = s.dies := rfl
@[simp] theorem modPkg_pod (s : State) (c : Nat) (f : Package → Package) : (s.modPkg c f).pod = s.pod := rfl
@[simp] theorem modPkg_mem (s : State) (c : Nat) (f : Package → Package) : (s.modPkg c f).mem = s.mem := rfl
@[simp] theorem modPkg_backing (s : State) (c : Nat) (f : Package → Package) : (s.modPkg c f).backing = s.backing := rfl
@[simp] theorem modPkg_poison (s : State) (c : Nat) (f : Package → Package) : (s.modPkg c f).poison = s.poison := rfl
@[simp] theorem modPkg_net (s : State) (c : Nat) (f : Package → Package) : (s.modPkg c f).net = s.net := rfl
@[simp] theorem modPkg_history (s : State) (c : Nat) (f : Package → Package) : (s.modPkg c f).history = s.history := rfl
@[simp] theorem modPkg_agenda (s : State) (c : Nat) (f : Package → Package) : (s.modPkg c f).agenda = s.agenda := rfl
@[simp] theorem modPkg_upsets (s : State) (c : Nat) (f : Package → Package) : (s.modPkg c f).upsets = s.upsets := rfl
@[simp] theorem modPkg_disp (s : State) (c : Nat) (f : Package → Package) : (s.modPkg c f).disp = s.disp := rfl
@[simp] theorem modPkg_fresh (s : State) (c : Nat) (f : Package → Package) : (s.modPkg c f).fresh = s.fresh := rfl
@[simp] theorem modPkg_opSeq (s : State) (c : Nat) (f : Package → Package) : (s.modPkg c f).opSeq = s.opSeq := rfl
@[simp] theorem modPkg_time (s : State) (c : Nat) (f : Package → Package) : (s.modPkg c f).time = s.time := rfl

@[simp] theorem due_me (s : State) (es : List Instr) : (s.due es).me = s.me := rfl
@[simp] theorem due_harts (s : State) (es : List Instr) : (s.due es).harts = s.harts := rfl
@[simp] theorem due_cores (s : State) (es : List Instr) : (s.due es).cores = s.cores := rfl
@[simp] theorem due_dies (s : State) (es : List Instr) : (s.due es).dies = s.dies := rfl
@[simp] theorem due_pkgs (s : State) (es : List Instr) : (s.due es).pkgs = s.pkgs := rfl
@[simp] theorem due_pod (s : State) (es : List Instr) : (s.due es).pod = s.pod := rfl
@[simp] theorem due_mem (s : State) (es : List Instr) : (s.due es).mem = s.mem := rfl
@[simp] theorem due_backing (s : State) (es : List Instr) : (s.due es).backing = s.backing := rfl
@[simp] theorem due_poison (s : State) (es : List Instr) : (s.due es).poison = s.poison := rfl
@[simp] theorem due_net (s : State) (es : List Instr) : (s.due es).net = s.net := rfl
@[simp] theorem due_history (s : State) (es : List Instr) : (s.due es).history = s.history := rfl
@[simp] theorem due_upsets (s : State) (es : List Instr) : (s.due es).upsets = s.upsets := rfl
@[simp] theorem due_disp (s : State) (es : List Instr) : (s.due es).disp = s.disp := rfl
@[simp] theorem due_fresh (s : State) (es : List Instr) : (s.due es).fresh = s.fresh := rfl
@[simp] theorem due_opSeq (s : State) (es : List Instr) : (s.due es).opSeq = s.opSeq := rfl
@[simp] theorem due_time (s : State) (es : List Instr) : (s.due es).time = s.time := rfl

@[simp] theorem retire_me (s : State) : (s.retire).me = s.me := rfl
@[simp] theorem retire_cores (s : State) : (s.retire).cores = s.cores := rfl
@[simp] theorem retire_dies (s : State) : (s.retire).dies = s.dies := rfl
@[simp] theorem retire_pkgs (s : State) : (s.retire).pkgs = s.pkgs := rfl
@[simp] theorem retire_pod (s : State) : (s.retire).pod = s.pod := rfl
@[simp] theorem retire_mem (s : State) : (s.retire).mem = s.mem := rfl
@[simp] theorem retire_backing (s : State) : (s.retire).backing = s.backing := rfl
@[simp] theorem retire_poison (s : State) : (s.retire).poison = s.poison := rfl
@[simp] theorem retire_net (s : State) : (s.retire).net = s.net := rfl
@[simp] theorem retire_history (s : State) : (s.retire).history = s.history := rfl
@[simp] theorem retire_agenda (s : State) : (s.retire).agenda = s.agenda := rfl
@[simp] theorem retire_upsets (s : State) : (s.retire).upsets = s.upsets := rfl
@[simp] theorem retire_fresh (s : State) : (s.retire).fresh = s.fresh := rfl
@[simp] theorem retire_opSeq (s : State) : (s.retire).opSeq = s.opSeq := rfl
@[simp] theorem retire_time (s : State) : (s.retire).time = s.time := rfl

@[simp] theorem jumpTo_me (s : State) (a : Word) : (s.jumpTo a).me = s.me := rfl
@[simp] theorem jumpTo_cores (s : State) (a : Word) : (s.jumpTo a).cores = s.cores := rfl
@[simp] theorem jumpTo_dies (s : State) (a : Word) : (s.jumpTo a).dies = s.dies := rfl
@[simp] theorem jumpTo_pkgs (s : State) (a : Word) : (s.jumpTo a).pkgs = s.pkgs := rfl
@[simp] theorem jumpTo_pod (s : State) (a : Word) : (s.jumpTo a).pod = s.pod := rfl
@[simp] theorem jumpTo_mem (s : State) (a : Word) : (s.jumpTo a).mem = s.mem := rfl
@[simp] theorem jumpTo_backing (s : State) (a : Word) : (s.jumpTo a).backing = s.backing := rfl
@[simp] theorem jumpTo_poison (s : State) (a : Word) : (s.jumpTo a).poison = s.poison := rfl
@[simp] theorem jumpTo_net (s : State) (a : Word) : (s.jumpTo a).net = s.net := rfl
@[simp] theorem jumpTo_history (s : State) (a : Word) : (s.jumpTo a).history = s.history := rfl
@[simp] theorem jumpTo_agenda (s : State) (a : Word) : (s.jumpTo a).agenda = s.agenda := rfl
@[simp] theorem jumpTo_upsets (s : State) (a : Word) : (s.jumpTo a).upsets = s.upsets := rfl
@[simp] theorem jumpTo_fresh (s : State) (a : Word) : (s.jumpTo a).fresh = s.fresh := rfl
@[simp] theorem jumpTo_opSeq (s : State) (a : Word) : (s.jumpTo a).opSeq = s.opSeq := rfl
@[simp] theorem jumpTo_time (s : State) (a : Word) : (s.jumpTo a).time = s.time := rfl

@[simp] theorem block_me (s : State) : (s.block).me = s.me := rfl
@[simp] theorem block_harts (s : State) : (s.block).harts = s.harts := rfl
@[simp] theorem block_cores (s : State) : (s.block).cores = s.cores := rfl
@[simp] theorem block_dies (s : State) : (s.block).dies = s.dies := rfl
@[simp] theorem block_pkgs (s : State) : (s.block).pkgs = s.pkgs := rfl
@[simp] theorem block_pod (s : State) : (s.block).pod = s.pod := rfl
@[simp] theorem block_mem (s : State) : (s.block).mem = s.mem := rfl
@[simp] theorem block_backing (s : State) : (s.block).backing = s.backing := rfl
@[simp] theorem block_poison (s : State) : (s.block).poison = s.poison := rfl
@[simp] theorem block_net (s : State) : (s.block).net = s.net := rfl
@[simp] theorem block_history (s : State) : (s.block).history = s.history := rfl
@[simp] theorem block_agenda (s : State) : (s.block).agenda = s.agenda := rfl
@[simp] theorem block_upsets (s : State) : (s.block).upsets = s.upsets := rfl
@[simp] theorem block_fresh (s : State) : (s.block).fresh = s.fresh := rfl
@[simp] theorem block_opSeq (s : State) : (s.block).opSeq = s.opSeq := rfl
@[simp] theorem block_time (s : State) : (s.block).time = s.time := rfl

/-! ### Records after a write -/

@[simp] theorem hart_setHart_same (s : State) (k : Nat) (v : Hart) : (s.setHart k v).hart k = v := by simp [hart, setHart]
@[simp] theorem hart_setHart_ne (s : State) {k j : Nat} (v : Hart) (h : j ≠ k) : (s.setHart k v).hart j = s.hart j := by simp [hart, setHart, h]
@[simp] theorem hart_modHart_same (s : State) (k : Nat) (f : Hart → Hart) : (s.modHart k f).hart k = f (s.hart k) := by simp [modHart]
@[simp] theorem hart_modHart_ne (s : State) {k j : Nat} (f : Hart → Hart) (h : j ≠ k) : (s.modHart k f).hart j = s.hart j := by simp [modHart, h]
@[simp] theorem core_setHart (s : State) (k j : Nat) (v : Hart) : (s.setHart k v).core j = s.core j := rfl
@[simp] theorem core_modHart (s : State) (k j : Nat) (f : Hart → Hart) : (s.modHart k f).core j = s.core j := rfl
@[simp] theorem die_setHart (s : State) (k j : Nat) (v : Hart) : (s.setHart k v).die j = s.die j := rfl
@[simp] theorem die_modHart (s : State) (k j : Nat) (f : Hart → Hart) : (s.modHart k f).die j = s.die j := rfl
@[simp] theorem pkg_setHart (s : State) (k j : Nat) (v : Hart) : (s.setHart k v).pkg j = s.pkg j := rfl
@[simp] theorem pkg_modHart (s : State) (k j : Nat) (f : Hart → Hart) : (s.modHart k f).pkg j = s.pkg j := rfl

@[simp] theorem core_setCore_same (s : State) (k : Nat) (v : Core) : (s.setCore k v).core k = v := by simp [core, setCore]
@[simp] theorem core_setCore_ne (s : State) {k j : Nat} (v : Core) (h : j ≠ k) : (s.setCore k v).core j = s.core j := by simp [core, setCore, h]
@[simp] theorem core_modCore_same (s : State) (k : Nat) (f : Core → Core) : (s.modCore k f).core k = f (s.core k) := by simp [modCore]
@[simp] theorem core_modCore_ne (s : State) {k j : Nat} (f : Core → Core) (h : j ≠ k) : (s.modCore k f).core j = s.core j := by simp [modCore, h]
@[simp] theorem hart_setCore (s : State) (k j : Nat) (v : Core) : (s.setCore k v).hart j = s.hart j := rfl
@[simp] theorem hart_modCore (s : State) (k j : Nat) (f : Core → Core) : (s.modCore k f).hart j = s.hart j := rfl
@[simp] theorem die_setCore (s : State) (k j : Nat) (v : Core) : (s.setCore k v).die j = s.die j := rfl
@[simp] theorem die_modCore (s : State) (k j : Nat) (f : Core → Core) : (s.modCore k f).die j = s.die j := rfl
@[simp] theorem pkg_setCore (s : State) (k j : Nat) (v : Core) : (s.setCore k v).pkg j = s.pkg j := rfl
@[simp] theorem pkg_modCore (s : State) (k j : Nat) (f : Core → Core) : (s.modCore k f).pkg j = s.pkg j := rfl

@[simp] theorem die_setDie_same (s : State) (k : Nat) (v : Die) : (s.setDie k v).die k = v := by simp [die, setDie]
@[simp] theorem die_setDie_ne (s : State) {k j : Nat} (v : Die) (h : j ≠ k) : (s.setDie k v).die j = s.die j := by simp [die, setDie, h]
@[simp] theorem die_modDie_same (s : State) (k : Nat) (f : Die → Die) : (s.modDie k f).die k = f (s.die k) := by simp [modDie]
@[simp] theorem die_modDie_ne (s : State) {k j : Nat} (f : Die → Die) (h : j ≠ k) : (s.modDie k f).die j = s.die j := by simp [modDie, h]
@[simp] theorem hart_setDie (s : State) (k j : Nat) (v : Die) : (s.setDie k v).hart j = s.hart j := rfl
@[simp] theorem hart_modDie (s : State) (k j : Nat) (f : Die → Die) : (s.modDie k f).hart j = s.hart j := rfl
@[simp] theorem core_setDie (s : State) (k j : Nat) (v : Die) : (s.setDie k v).core j = s.core j := rfl
@[simp] theorem core_modDie (s : State) (k j : Nat) (f : Die → Die) : (s.modDie k f).core j = s.core j := rfl
@[simp] theorem pkg_setDie (s : State) (k j : Nat) (v : Die) : (s.setDie k v).pkg j = s.pkg j := rfl
@[simp] theorem pkg_modDie (s : State) (k j : Nat) (f : Die → Die) : (s.modDie k f).pkg j = s.pkg j := rfl

@[simp] theorem pkg_setPkg_same (s : State) (k : Nat) (v : Package) : (s.setPkg k v).pkg k = v := by simp [pkg, setPkg]
@[simp] theorem pkg_setPkg_ne (s : State) {k j : Nat} (v : Package) (h : j ≠ k) : (s.setPkg k v).pkg j = s.pkg j := by simp [pkg, setPkg, bootPkg, h]
@[simp] theorem pkg_modPkg_same (s : State) (k : Nat) (f : Package → Package) : (s.modPkg k f).pkg k = f (s.pkg k) := by simp [modPkg]
@[simp] theorem pkg_modPkg_ne (s : State) {k j : Nat} (f : Package → Package) (h : j ≠ k) : (s.modPkg k f).pkg j = s.pkg j := by simp [modPkg, h]
@[simp] theorem hart_setPkg (s : State) (k j : Nat) (v : Package) : (s.setPkg k v).hart j = s.hart j := rfl
@[simp] theorem hart_modPkg (s : State) (k j : Nat) (f : Package → Package) : (s.modPkg k f).hart j = s.hart j := rfl
@[simp] theorem core_setPkg (s : State) (k j : Nat) (v : Package) : (s.setPkg k v).core j = s.core j := rfl
@[simp] theorem core_modPkg (s : State) (k j : Nat) (f : Package → Package) : (s.modPkg k f).core j = s.core j := rfl
@[simp] theorem die_setPkg (s : State) (k j : Nat) (v : Package) : (s.setPkg k v).die j = s.die j := rfl
@[simp] theorem die_modPkg (s : State) (k j : Nat) (f : Package → Package) : (s.modPkg k f).die j = s.die j := rfl

@[simp] theorem my_setMy (s : State) (h : Hart) : (s.setMy h).my = h := by simp [my, setMy]
@[simp] theorem my_upd (s : State) (f : Hart → Hart) : (s.upd f).my = f s.my := by simp [upd]
@[simp] theorem my_retire (s : State) : s.retire.my = { s.my with pc := s.my.pc + 12 } := my_setMy s _
@[simp] theorem my_jumpTo (s : State) (a : Word) : (s.jumpTo a).my = { s.my with pc := a } := my_setMy s _
@[simp] theorem my_block (s : State) : s.block.my = s.my := rfl
@[simp] theorem retire_disp (s : State) : s.retire.disp = .retired := rfl
@[simp] theorem jumpTo_disp (s : State) (a : Word) : (s.jumpTo a).disp = .jumped := rfl
@[simp] theorem block_disp (s : State) : s.block.disp = .blocked := rfl
@[simp] theorem myCore_setMyCore (s : State) (c : Core) : (s.setMyCore c).myCore = c := by simp [myCore, setMyCore]
@[simp] theorem myCore_setMy (s : State) (h : Hart) : (s.setMy h).myCore = s.myCore := rfl
@[simp] theorem myCore_upd (s : State) (f : Hart → Hart) : (s.upd f).myCore = s.myCore := rfl
@[simp] theorem myCore_retire (s : State) : s.retire.myCore = s.myCore := rfl
@[simp] theorem my_setMyCore (s : State) (c : Core) : (s.setMyCore c).my = s.my := rfl

/-- A hart other than the one in focus keeps everything when the one in focus changes. -/
@[simp] theorem hart_setMy_ne (s : State) {j : Nat} (v : Hart) (h : j ≠ s.me) : (s.setMy v).hart j = s.hart j := by
  simp [setMy, h]
@[simp] theorem hart_upd_ne (s : State) {j : Nat} (f : Hart → Hart) (h : j ≠ s.me) : (s.upd f).hart j = s.hart j := by
  simp [upd, h]
@[simp] theorem hart_retire_ne (s : State) {j : Nat} (h : j ≠ s.me) : s.retire.hart j = s.hart j := by
  simp only [retire]; exact hart_setMy_ne s _ h

end State

end Sys2Proof.Machine
end

