-- ==== Sys2Proof/Laws/Issue.lean ====
section
/-! SUPPORT. What an issued word, a memory word, a trap and a return can do: one lemma for each shared operation. -/
namespace Sys2Proof.Machine

/-! ### Issue -/

namespace State

/-- A word outside the vector queue reads its registers as they are. -/
theorem readView_scalar {s : State} {i : Instr} (h : Instr.inVectorQueue i = false) : s.readView i = s.my := by
  simp [readView, Instr.earlyReads, h]

/-- A hart with nothing to read early is read as it is. -/
theorem readView_quiet {s : State} {i : Instr} (h : s.my.early = []) : s.readView i = s.my := by
  simp [readView, Instr.earlyReads, h]

/-- A clear word has its own effect. -/
theorem Clear.issue {s : State} {i : Instr} (c : s.Clear i) (k : Hart → State → State) :
    s.issue i k = k (s.readView i) s := by
  simp [State.issue, c.checks, c.free, c.settled, c.guard, c.whole]

theorem Clear.issued {s : State} {i : Instr} (c : s.Clear i) (k : Hart → State → State) :
    Machine.issued i s k = .next (k (s.readView i) s) := by
  simp [Machine.issued, c.issue]

/-- A clear word of the scalar sequencer has its own effect on the hart as it is. -/
theorem Clear.issued_scalar {s : State} {i : Instr} (c : s.Clear i) (h : Instr.inVectorQueue i = false)
    (k : Hart → State → State) : Machine.issued i s k = .next (k s.my s) := by
  rw [c.issued, readView_scalar h]

/-- The effect of a word that reads a poisoned register is a trap, its own or that of the poison. -/
theorem lostFirst_cases (s t : State) (lost : Trap) :
    s.lostFirst t lost = s.takeTrap lost ∨ (s.lostFirst t lost = t ∧ ∃ own, t.disp = .trapped own) := by
  unfold State.lostFirst
  split
  · rename_i own h
    split
    · exact .inr ⟨rfl, own, h⟩
    · exact .inl rfl
  · exact .inl rfl

/-- An issued word traps, waits, retires without effect, or has its own effect: clear, or a trap. -/
theorem issue_cases (s : State) (i : Instr) (k : Hart → State → State) :
    (∃ t, s.issue i k = s.takeTrap t) ∨ s.issue i k = s.block ∨ s.issue i k = s.retire
      ∨ (s.issue i k = k (s.readView i) s ∧ (s.Clear i ∨ ∃ t, (k (s.readView i) s).disp = .trapped t)) := by
  unfold State.issue
  split
  · exact .inl ⟨_, rfl⟩
  · rename_i h1
    split
    · exact .inr (.inl rfl)
    · rename_i h2
      simp only [Bool.or_eq_true, not_or, Bool.not_eq_true] at h2
      dsimp only
      split
      · exact .inr (.inr (.inl rfl))
      · rename_i h3
        split
        · rename_i t h4
          rcases lostFirst_cases s (k (s.readView i) s) t with h | ⟨h, h'⟩
          · exact .inl ⟨t, h⟩
          · exact .inr (.inr (.inr ⟨h, .inr h'⟩))
        · rename_i h4
          exact .inr (.inr (.inr ⟨rfl, .inl ⟨h1, h2.1, h2.2, by simpa using h3, h4⟩⟩))

/-! ### Memory words -/

/-- A word that reaches its places has its effect there. -/
theorem Reaches.reach {s : State} {i : Instr} {acc : Acc} {es : List Elem} {need : List Placed → Nat} {ps : List Placed}
    (r : s.Reaches i acc es need ps) (k : List Placed → State → State) :
    s.reach i acc es need k = k ps (s.holdElems s.me es) := by
  have h1 := r.landed
  have h2 := r.ordered
  have h3 := r.room
  simp only [Bool.and_eq_false_iff] at h3
  unfold State.reach
  rw [r.ungated, r.placed]
  simp only [Bool.false_eq_true, if_false, h1, h2]
  rcases h3 with h3 | h3 <;> simp_all

/-- A memory word waits, traps, or reaches its places. -/
theorem reach_cases (s : State) (i : Instr) (acc : Acc) (es : List Elem) (need : List Placed → Nat)
    (k : List Placed → State → State) :
    s.reach i acc es need k = s.block ∨ (∃ t, s.reach i acc es need k = (s.holdElems s.me es).takeTrap t)
      ∨ s.reach i acc es need k = (s.holdElems s.me es).block
      ∨ ∃ ps, s.Reaches i acc es need ps ∧ s.reach i acc es need k = k ps (s.holdElems s.me es) := by
  unfold State.reach
  split
  · exact .inl rfl
  · rename_i h1
    split
    · exact .inr (.inl ⟨_, rfl⟩)
    · rename_i ps h2
      dsimp only
      split
      · exact .inr (.inr (.inl rfl))
      · rename_i h3
        simp only [Bool.or_eq_true, not_or, Bool.not_eq_true] at h3
        exact .inr (.inr (.inr ⟨ps, ⟨by simpa using h1, h2, h3.1.1, h3.1.2, by simpa using h3.2⟩, rfl⟩))

/-! ### Traps and returns -/

/-- A trap that a handler takes (15 R321). -/
theorem takeTrap_handled {s : State} {t : Trap} (h1 : s.my.exl = false) (h2 : s.my.svec ≠ 0) :
    s.takeTrap t = ({ s with disp := .trapped t } : State).setMy (t.enter 0 s.my) := by
  unfold takeTrap takeTrapAs
  simp only [h1, h2, Bool.false_eq_true, if_false]

theorem takeTrap_disp {s : State} {t : Trap} (h1 : s.my.exl = false) (h2 : s.my.svec ≠ 0) :
    (s.takeTrap t).disp = .trapped t := by
  rw [takeTrap_handled h1 h2]; rfl

/-! ### Two changes of the hart in focus are one -/

theorem setHart_setHart (s : State) (k : Nat) (a b : Hart) : (s.setHart k a).setHart k b = s.setHart k b := by
  simp [setHart, Tab.set_set]

@[simp] theorem setMy_setMy (s : State) (a b : Hart) : (s.setMy a).setMy b = s.setMy b := setHart_setHart s s.me a b

/-- A word that changes its hart and retires, as one change. -/
theorem upd_retire (s : State) (f : Hart → Hart) :
    (s.upd f).retire = { s.setMy { f s.my with pc := (f s.my).pc + 12 } with disp := .retired } := by
  simp only [retire, upd, setMy_setMy, my_setMy]

end State

end Sys2Proof.Machine
end

