-- ==== Sys2Proof/Laws/Memory.lean ====
section
/-! SUPPORT. Memory: a read after a write, and the canonical form that every memory operation keeps. -/
namespace Sys2Proof.Machine

namespace Memory

theorem read_below : ∀ (m : Memory) (lo a : Nat), wfFrom lo m = true → a < lo → read m a = blank
  | [], _, _, _, _ => rfl
  | (k, b) :: m, lo, a, h, ha => by
    simp only [wfFrom, Bool.and_eq_true, decide_eq_true_eq] at h
    have hk : k ≠ a := by omega
    have hlt : a < k := by omega
    simp [read, hk, hlt]

theorem wfFrom_mono : ∀ (m : Memory) {lo lo' : Nat}, lo ≤ lo' → wfFrom lo' m = true → wfFrom lo m = true
  | [], _, _, _, _ => rfl
  | (k, b) :: m, lo, lo', hl, h => by
    simp only [wfFrom, Bool.and_eq_true, decide_eq_true_eq] at h ⊢
    exact ⟨⟨by omega, h.1.2⟩, h.2⟩

/-- A write keeps the canonical form above any bound that the address meets. -/
theorem wfFrom_write : ∀ (m : Memory) (lo a : Nat) (b : Byte), lo ≤ a → wfFrom lo m = true → wfFrom lo (write m a b) = true
  | [], lo, a, b, ha, _ => by
    by_cases hb : b = blank <;> simp [write, hb, wfFrom, ha]
  | (k, c) :: m, lo, a, b, ha, h => by
    simp only [wfFrom, Bool.and_eq_true, decide_eq_true_eq, bne_iff_ne, ne_eq] at h
    obtain ⟨⟨h1, h2⟩, h3⟩ := h
    by_cases hlt : a < k
    · by_cases hb : b = blank
      · simp [write, hlt, hb, wfFrom, h1, h2, h3]
      · have : a + 1 ≤ k := hlt
        simp [write, hlt, hb, wfFrom, ha, h2, h3, this]
    · by_cases hak : a = k
      · subst hak
        by_cases hb : b = blank
        · simp only [write, Nat.lt_irrefl, if_false, if_true, hb]
          exact wfFrom_mono m (by omega) h3
        · simp [write, hb, wfFrom, ha, h3]
      · have hka : k + 1 ≤ a := by omega
        simp [write, hlt, hak, wfFrom, h1, h2, wfFrom_write m (k + 1) a b hka h3]

/-- A write keeps the canonical form. -/
@[simp] theorem wf_write {m : Memory} (a : Nat) (b : Byte) (h : m.wf = true) : (m.write a b).wf = true :=
  wfFrom_write m 0 a b (Nat.zero_le a) h

@[simp] theorem wf_nil : Memory.wf [] = true := rfl

@[simp] theorem wf_writeCells {m : Memory} (cells : List Host.Cell) (h : m.wf = true) : (m.writeCells cells).wf = true := by
  unfold writeCells
  induction cells generalizing m with
  | nil => exact h
  | cons c cs ih => exact ih (wf_write c.1 c.2 h)

theorem wfFrom_filter (p : Host.Cell → Bool) : ∀ (m : Memory) (lo : Nat), wfFrom lo m = true → wfFrom lo (m.filter p) = true
  | [], _, _ => rfl
  | (k, b) :: m, lo, h => by
    simp only [wfFrom, Bool.and_eq_true, decide_eq_true_eq] at h
    have ih := wfFrom_filter p m (k + 1) h.2
    rw [List.filter_cons]
    split
    · simp [wfFrom, ih, h.1.1, (by simpa using h.1.2 : ¬ b = blank)]
    · exact wfFrom_mono _ (by omega) ih

@[simp] theorem wf_filter {m : Memory} (p : Host.Cell → Bool) (h : m.wf = true) : Memory.wf (List.filter p m) = true :=
  wfFrom_filter p m 0 h

theorem read_write_above : ∀ (m : Memory) (lo a : Nat) (b : Byte), wfFrom lo m = true → read (write m a b) a = b
  | [], _, a, b, _ => by
    by_cases hb : b = blank <;> simp [write, hb, read]
  | (k, c) :: m, lo, a, b, h => by
    simp only [wfFrom, Bool.and_eq_true, decide_eq_true_eq] at h
    by_cases hlt : a < k
    · have hk : k ≠ a := by omega
      by_cases hb : b = blank <;> simp [write, hlt, hb, read, hk]
    · by_cases hak : a = k
      · subst hak
        by_cases hb : b = blank
        · simp [write, hb, read_below m (a + 1) a h.2 (by omega)]
        · simp [write, hb, read]
      · simp [write, hlt, hak, read, Ne.symm hak, read_write_above m (k + 1) a b h.2]

/-- A read after a write to the same address gives the byte written. -/
@[simp] theorem read_write_same {m : Memory} (a : Nat) (b : Byte) (h : m.wf = true) : (m.write a b).read a = b :=
  read_write_above m 0 a b h

theorem read_write_ne_above : ∀ (m : Memory) (lo : Nat) {a c : Nat} (b : Byte), wfFrom lo m = true → c ≠ a →
    read (write m a b) c = read m c
  | [], _, a, c, b, _, hc => by
    by_cases hb : b = blank
    · simp [write, hb]
    · simp [write, hb, read, Ne.symm hc]
  | (k, d) :: m, lo, a, c, b, h, hc => by
    simp only [wfFrom, Bool.and_eq_true, decide_eq_true_eq] at h
    by_cases hlt : a < k
    · by_cases hb : b = blank
      · simp [write, hlt, hb]
      · simp only [write, hlt, hb, read, if_true, if_false, Ne.symm hc]
        by_cases hca : c < a
        · have h1 : k ≠ c := by omega
          have h2 : c < k := by omega
          simp [hca, h1, h2]
        · simp [hca]
    · by_cases hak : a = k
      · subst hak
        by_cases hb : b = blank
        · simp only [write, Nat.lt_irrefl, if_false, if_true, hb, read, Ne.symm hc]
          by_cases hca : c < a
          · simp [hca, read_below m (a + 1) c h.2 (by omega)]
          · simp [hca]
        · simp [write, hb, read, Ne.symm hc]
      · simp only [write, hlt, hak, if_false, read]
        rw [read_write_ne_above m (k + 1) b h.2 hc]

/-- A write leaves every other address alone. -/
theorem read_write_ne {m : Memory} {a c : Nat} (b : Byte) (h : m.wf = true) (hc : c ≠ a) : (m.write a b).read c = m.read c :=
  read_write_ne_above m 0 b h hc

/-- Cells written leave every address outside them alone. -/
theorem read_writeCells_outside {m : Memory} (cells : List Host.Cell) {c : Nat} (h : m.wf = true)
    (hc : ∀ p ∈ cells, p.1 ≠ c) : (m.writeCells cells).read c = m.read c := by
  induction cells generalizing m with
  | nil => rfl
  | cons p cs ih =>
    have h1 := ih (m := m.write p.1 p.2) (wf_write _ _ h) fun q hq => hc q (List.mem_cons_of_mem _ hq)
    have h2 : c ≠ p.1 := Ne.symm (hc p List.mem_cons_self)
    exact h1.trans (read_write_ne p.2 h h2)

end Memory

end Sys2Proof.Machine
end

