-- ==== Sys2Proof/Laws/Sound.lean ====
section
/-! SUPPORT. Every operation over the state keeps the memories in canonical form: the lemmas that the step's invariant
follows from. -/
namespace Sys2Proof.Machine

/-! ### What soundness depends on -/

@[simp] theorem sound_mk (me : Nat) (harts : Tab Hart) (cores : Tab Core) (dies : Tab Die) (pkgs : Tab Package) (pod : Pod)
    (mem backing : Memory) (poison : List GranPoison) (net : List Request) (history : List Overwritten)
    (agenda : List Instr) (upsets : List Upset) (disp : Disposition) (fresh opSeq time : Nat) :
    State.Sound ⟨me, harts, cores, dies, pkgs, pod, mem, backing, poison, net, history, agenda, upsets, disp, fresh,
      opSeq, time⟩ ↔ mem.wf = true ∧ CoresOk cores := Iff.rfl

@[simp] theorem State.Sound.mem_wf {s : State} (h : s.Sound) : s.mem.wf = true := h.1
@[simp] theorem State.Sound.cores_ok {s : State} (h : s.Sound) : CoresOk s.cores := h.2

theorem CoresOk.set {t : Tab Core} (c : Nat) {k : Core} (h : CoresOk t) (hk : k.spad.wf = true) : CoresOk (Tab.set t c k) := by
  intro p hp
  rcases Tab.mem_set hp with hp | rfl
  · exact h p hp
  · exact hk

theorem CoresOk.get {t : Tab Core} (c : Nat) (h : CoresOk t) : (Tab.get t Core.reset c).spad.wf = true := by
  unfold Tab.get
  induction t with
  | nil => rfl
  | cons p t ih =>
    obtain ⟨k, v⟩ := p
    simp only [Tab.find]
    split
    · exact h (k, v) List.mem_cons_self
    · exact ih fun q hq => h q (List.mem_cons_of_mem _ hq)

/-- A table of cores each changed by a function that keeps its scratchpad's form. -/
@[simp] theorem CoresOk.map {t : Tab Core} {f : Nat × Core → Nat × Core} (h : CoresOk t)
    (hf : ∀ p : Nat × Core, p.2.spad.wf = true → (f p).2.spad.wf = true) : CoresOk (t.map f) := by
  intro p hp
  obtain ⟨q, hq, rfl⟩ := List.mem_map.1 hp
  exact hf q (h q hq)

namespace State

@[simp] theorem core_spad_wf {s : State} (c : Nat) (h : s.Sound) : (s.core c).spad.wf = true := h.2.get c

theorem foldl_sound {α : Type} {f : State → α → State} (l : List α) {s : State} (h : s.Sound)
    (hf : ∀ t a, t.Sound → (f t a).Sound) : (l.foldl f s).Sound := by
  induction l generalizing s with
  | nil => exact h
  | cons a l ih => exact ih (hf s a h)

@[simp] theorem setHart_sound {s : State} (h : Nat) (v : Hart) (hs : s.Sound) : (s.setHart h v).Sound := hs
@[simp] theorem setDie_sound {s : State} (d : Nat) (v : Die) (hs : s.Sound) : (s.setDie d v).Sound := hs
@[simp] theorem setPkg_sound {s : State} (c : Nat) (v : Package) (hs : s.Sound) : (s.setPkg c v).Sound := hs
@[simp] theorem setMy_sound {s : State} (v : Hart) (hs : s.Sound) : (s.setMy v).Sound := hs
@[simp] theorem setMyDie_sound {s : State} (v : Die) (hs : s.Sound) : (s.setMyDie v).Sound := hs
@[simp] theorem upd_sound {s : State} (f : Hart → Hart) (hs : s.Sound) : (s.upd f).Sound := hs
@[simp] theorem modHart_sound {s : State} (h : Nat) (f : Hart → Hart) (hs : s.Sound) : (s.modHart h f).Sound := hs
@[simp] theorem modDie_sound {s : State} (d : Nat) (f : Die → Die) (hs : s.Sound) : (s.modDie d f).Sound := hs
@[simp] theorem modPkg_sound {s : State} (c : Nat) (f : Package → Package) (hs : s.Sound) : (s.modPkg c f).Sound := hs
@[simp] theorem due_sound {s : State} (es : List Instr) (hs : s.Sound) : (s.due es).Sound := hs
@[simp] theorem retire_sound {s : State} (hs : s.Sound) : s.retire.Sound := hs
@[simp] theorem jumpTo_sound {s : State} (a : Word) (hs : s.Sound) : (s.jumpTo a).Sound := hs
@[simp] theorem block_sound {s : State} (hs : s.Sound) : s.block.Sound := hs

theorem setCore_sound {s : State} (c : Nat) {v : Core} (hs : s.Sound) (hv : v.spad.wf = true) : (s.setCore c v).Sound :=
  ⟨hs.1, hs.2.set c hv⟩
theorem setMyCore_sound {s : State} {v : Core} (hs : s.Sound) (hv : v.spad.wf = true) : (s.setMyCore v).Sound :=
  setCore_sound _ hs hv
theorem modCore_sound {s : State} (c : Nat) {f : Core → Core} (hs : s.Sound)
    (hf : ∀ k : Core, k.spad.wf = true → (f k).spad.wf = true) : (s.modCore c f).Sound :=
  setCore_sound c hs (hf _ (core_spad_wf c hs))

end State

/-! ### The operations, file by file -/

@[simp] theorem State.modLink_sound {s : State} (d : Nat) (peer : Nat) (f : Link → Link) (hs : s.Sound)  :
    (State.modLink s d peer f).Sound := hs

@[simp] theorem State.sendTo_sound {s : State} (d : Nat) (peer : Nat) (bytes : Nat) (hs : s.Sound)  :
    (State.sendTo s d peer bytes).Sound := by
  unfold State.sendTo
  dsimp only
  repeat' split
  all_goals simp_all [State.foldl_sound, State.modCore_sound]

@[simp] theorem State.carry_sound {s : State} (d : Nat) (peer : Nat) (bytes : Nat) (hs_s : s.Sound)  :
    (State.carry s d peer bytes).Sound := by
  unfold State.carry
  (try dsimp only)
  repeat' first
    | assumption
    | with_reducible apply State.sendTo_sound
    | with_reducible apply State.modLink_sound
    | intro _
    | with_reducible split
    | (simp only [sound_mk]; constructor)
    | with_reducible apply State.Sound.mem_wf
    | with_reducible apply State.Sound.cores_ok
  all_goals simp_all

@[simp] theorem State.writeBack_sound {s : State} (d : Nat) (leaves : L2Line → Bool) (hs : s.Sound)  :
    (State.writeBack s d leaves).Sound := by
  unfold State.writeBack
  dsimp only
  repeat' split
  all_goals simp_all [State.foldl_sound, State.modCore_sound]

@[simp] theorem State.takeWay_sound {s : State} (d : Nat) (l : L2Line) (hs : s.Sound)  :
    (State.takeWay s d l).Sound := by
  unfold State.takeWay
  repeat' split
  all_goals simp_all

@[simp] theorem State.bring_sound {s : State} (h : Hint) (keys : List Nat) (hs_s : s.Sound)  :
    (State.bring s h keys).Sound := by
  unfold State.bring
  (try dsimp only)
  repeat' first
    | assumption
    | with_reducible apply State.modDie_sound
    | with_reducible apply State.foldl_sound
    | intro _
    | with_reducible split
    | (simp only [sound_mk]; constructor)
    | with_reducible apply State.Sound.mem_wf
    | with_reducible apply State.Sound.cores_ok
  all_goals simp_all

@[simp] theorem State.storeLine_sound {s : State} (key : Nat) (hint : Option Hint) (hs : s.Sound)  :
    (State.storeLine s key hint).Sound := by
  unfold State.storeLine
  dsimp only
  repeat' split
  all_goals simp_all [State.foldl_sound, State.modCore_sound]

@[simp] theorem State.homeByte_sound {s : State} (w : Writer) (start key : Nat) (b : Byte) (hs : s.Sound) :
    (s.homeByte w start key b).Sound := by
  unfold State.homeByte
  extract_lets s1 old
  have h1 : s1.Sound := State.storeLine_sound _ _ hs
  clear_value s1
  exact ⟨Memory.wf_write key b h1.1, h1.2⟩

@[simp] theorem State.homeWrite_sound {s : State} (w : Writer) (cells : List Host.Cell) (hs_s : s.Sound)  :
    (State.homeWrite s w cells).Sound := by
  unfold State.homeWrite
  (try dsimp only)
  repeat' first
    | assumption
    | with_reducible apply State.homeByte_sound
    | with_reducible apply State.foldl_sound
    | intro _
    | with_reducible split
    | (simp only [sound_mk]; constructor)
    | with_reducible apply State.Sound.mem_wf
    | with_reducible apply State.Sound.cores_ok
  all_goals simp_all

@[simp] theorem State.writeHomeNat_sound {s : State} (w : Writer) (key : Nat) (n : Nat) (v : Nat) (hs : s.Sound)  :
    (State.writeHomeNat s w key n v).Sound := by
  unfold State.writeHomeNat
  repeat' split
  all_goals simp_all

@[simp] theorem State.holdWalk_sound {s : State} (c : Nat) (root : Word) (va : Nat) (hs : s.Sound)  :
    (State.holdWalk s c root va).Sound := by
  unfold State.holdWalk
  (try dsimp only)
  repeat' first
    | assumption
    | with_reducible apply State.modCore_sound
    | intro _
    | with_reducible split
    | (simp only [sound_mk]; constructor)
    | with_reducible apply State.Sound.mem_wf
    | with_reducible apply State.Sound.cores_ok
  all_goals simp_all

@[simp] theorem State.note_sound {s : State} (h : Nat) (at_ : List (Nat × Nat)) (hs : s.Sound)  :
    (State.note s h at_).Sound := by
  unfold State.note
  dsimp only
  repeat' split
  all_goals simp_all [State.foldl_sound, State.modCore_sound]

@[simp] theorem State.publish_sound {s : State} (h : Nat) (sc : Scope) (own : Bool) (hs_s : s.Sound)  :
    (State.publish s h sc own).Sound := by
  unfold State.publish
  (try dsimp only)
  repeat' first
    | assumption
    | with_reducible apply State.modHart_sound
    | intro _
    | with_reducible split
    | (simp only [sound_mk]; constructor)
    | with_reducible apply State.Sound.mem_wf
    | with_reducible apply State.Sound.cores_ok
  all_goals simp_all

@[simp] theorem State.acquireFrom_sound {s : State} (h : Nat) (sc : Scope) (rels : List Release) (hs_s : s.Sound)  :
    (State.acquireFrom s h sc rels).Sound := by
  unfold State.acquireFrom
  (try dsimp only)
  repeat' first
    | assumption
    | with_reducible apply State.modHart_sound
    | with_reducible apply State.foldl_sound
    | intro _
    | with_reducible split
    | (simp only [sound_mk]; constructor)
    | with_reducible apply State.Sound.mem_wf
    | with_reducible apply State.Sound.cores_ok
  all_goals simp_all

@[simp] theorem State.holdHome_sound {s : State} (job : BitVec 12) (va : Nat) (hs_s : s.Sound)  :
    (State.holdHome s job va).Sound := by
  unfold State.holdHome
  (try dsimp only)
  repeat' first
    | assumption
    | with_reducible apply State.modDie_sound
    | with_reducible apply State.bring_sound
    | intro _
    | with_reducible split
    | (simp only [sound_mk]; constructor)
    | with_reducible apply State.Sound.mem_wf
    | with_reducible apply State.Sound.cores_ok
  all_goals simp_all

@[simp] theorem State.seqWrite_sound {s : State} (d : Nat) (ptbase : Word) (job : BitVec 12) (va : Nat) (n : Nat) (v : Nat) (hs : s.Sound)  :
    (State.seqWrite s d ptbase job va n v).Sound := by
  unfold State.seqWrite
  repeat' split
  all_goals simp_all

@[simp] theorem State.dropRacks_sound {s : State} (c : Nat) (harts : List Nat) (hs : s.Sound)  :
    (State.dropRacks s c harts).Sound := by
  unfold State.dropRacks
  dsimp only
  repeat' split
  all_goals simp_all [State.foldl_sound, State.modCore_sound]

@[simp] theorem State.dropParts_sound {s : State} (ops : List Nat) (hs : s.Sound)  :
    (State.dropParts s ops).Sound := by
  unfold State.dropParts
  repeat' split
  all_goals simp_all

@[simp] theorem State.stopGraph_sound {s : State} (d : Nat) (graph : Word) (hs : s.Sound)  :
    (State.stopGraph s d graph).Sound := by
  unfold State.stopGraph
  (try dsimp only)
  repeat' first
    | assumption
    | with_reducible apply State.modHart_sound
    | with_reducible apply State.modDie_sound
    | with_reducible apply State.dropRacks_sound
    | with_reducible apply State.dropParts_sound
    | with_reducible apply State.foldl_sound
    | intro _
    | with_reducible split
    | (simp only [sound_mk]; constructor)
    | with_reducible apply State.Sound.mem_wf
    | with_reducible apply State.Sound.cores_ok
  all_goals simp_all

@[simp] theorem State.enterAt_sound {s : State} (h : Nat) (engine : Bool) (cycle size born : Nat) (k : CellarKind) (hs : s.Sound) :
    (s.enterAt h engine cycle size born k).Sound := by
  unfold State.enterAt
  extract_lets c e s1
  have h1 : s1.Sound := State.modCore_sound c (f := fun q => { q with cellar := q.cellar ++ [e] }) hs fun _ h => h
  split
  · exact h1
  · exact h1

@[simp] theorem State.enter_sound {s : State} (h : Nat) (engine : Bool) (size : Nat) (born : Nat) (k : CellarKind) (hs_s : s.Sound)  :
    (State.enter s h engine size born k).Sound := by
  unfold State.enter
  (try dsimp only)
  repeat' first
    | assumption
    | with_reducible apply State.enterAt_sound
    | intro _
    | with_reducible split
    | (simp only [sound_mk]; constructor)
    | with_reducible apply State.Sound.mem_wf
    | with_reducible apply State.Sound.cores_ok
  all_goals simp_all

@[simp] theorem State.hold_sound {s : State} (size : Nat) (k : CellarKind) (hs_s : s.Sound)  :
    (State.hold s size k).Sound := by
  unfold State.hold
  (try dsimp only)
  repeat' first
    | assumption
    | with_reducible apply State.enter_sound
    | intro _
    | with_reducible split
    | (simp only [sound_mk]; constructor)
    | with_reducible apply State.Sound.mem_wf
    | with_reducible apply State.Sound.cores_ok
  all_goals simp_all

@[simp] theorem State.takeTrapAs_sound (t : Trap) (member : Nat) {s : State} (hs : s.Sound)  :
    (State.takeTrapAs t member s).Sound := by
  unfold State.takeTrapAs
  (try dsimp only)
  repeat' first
    | assumption
    | with_reducible apply State.setMy_sound
    | with_reducible apply State.hold_sound
    | with_reducible apply State.enter_sound
    | intro _
    | with_reducible split
    | (simp only [sound_mk]; constructor)
    | with_reducible apply State.Sound.mem_wf
    | with_reducible apply State.Sound.cores_ok
  all_goals simp_all

@[simp] theorem State.takeTrap_sound (t : Trap) {s : State} (hs : s.Sound)  :
    (State.takeTrap t s).Sound := by
  unfold State.takeTrap
  repeat' split
  all_goals simp_all

@[simp] theorem State.returnFromTrap_sound {s : State} (hs : s.Sound)  :
    (State.returnFromTrap s).Sound := hs

@[simp] theorem State.lostFirst_sound {s : State} {t : State} (lost : Trap) (hs_s : s.Sound) (hs_t : t.Sound)  :
    (State.lostFirst s t lost).Sound := by
  unfold State.lostFirst
  (try dsimp only)
  repeat' first
    | assumption
    | with_reducible apply State.takeTrap_sound
    | intro _
    | with_reducible split
    | (simp only [sound_mk]; constructor)
    | with_reducible apply State.Sound.mem_wf
    | with_reducible apply State.Sound.cores_ok
  all_goals simp_all

@[simp] theorem State.issue_sound {s : State} (i : Instr) (k : Hart → State → State) (hs : s.Sound) (h_k : (∀ r t, t.Sound → (k r t).Sound)) :
    (State.issue s i k).Sound := by
  unfold State.issue
  dsimp only
  repeat' split
  all_goals simp_all [State.foldl_sound, State.modCore_sound]

@[simp] theorem State.startOp_sound {s : State} (i : Instr) (old : Hart) (landed : Bool) (flags : Flags) (hs : s.Sound)  :
    (State.startOp s i old landed flags).Sound := by
  unfold State.startOp
  (try dsimp only)
  repeat' first
    | assumption
    | with_reducible apply State.upd_sound
    | with_reducible apply State.due_sound
    | intro _
    | with_reducible split
    | (simp only [sound_mk]; constructor)
    | with_reducible apply State.Sound.mem_wf
    | with_reducible apply State.Sound.cores_ok
  all_goals simp_all

@[simp] theorem State.retireOp_sound {s : State} (i : Instr) (old : Hart) (flags : Flags) (hs : s.Sound)  :
    (State.retireOp s i old flags).Sound := hs

@[simp] theorem State.logFor_sound {s : State} (h : Nat) (e : HartEvent) (hs : s.Sound)  :
    (State.logFor s h e).Sound := by
  unfold State.logFor
  (try dsimp only)
  repeat' first
    | assumption
    | with_reducible apply State.modCore_sound
    | intro _
    | with_reducible split
    | (simp only [sound_mk]; constructor)
    | with_reducible apply State.Sound.mem_wf
    | with_reducible apply State.Sound.cores_ok
  all_goals simp_all

@[simp] theorem State.modOp_sound {s : State} (h : Nat) (op : Nat) (f : Op → Op) (hs : s.Sound)  :
    (State.modOp s h op f).Sound := hs

@[simp] theorem State.land_sound {s : State} (h : Nat) (op : Nat) (hs : s.Sound)  :
    (State.land s h op).Sound := by
  unfold State.land
  (try dsimp only)
  repeat' first
    | assumption
    | with_reducible apply State.modHart_sound
    | with_reducible apply State.due_sound
    | with_reducible apply State.modOp_sound
    | intro _
    | with_reducible split
    | (simp only [sound_mk]; constructor)
    | with_reducible apply State.Sound.mem_wf
    | with_reducible apply State.Sound.cores_ok
  all_goals simp_all

@[simp] theorem State.performed_sound {s : State} (h : Nat) (op : Nat) (at_ : Nat) (hs : s.Sound)  :
    (State.performed s h op at_).Sound := hs

@[simp] theorem State.noteStatus_sound {s : State} (h : Nat) (op : Nat) (f : Failure) (hs : s.Sound)  :
    (State.noteStatus s h op f).Sound := hs

@[simp] theorem State.finishOp_sound {s : State} (h : Nat) (op : Nat) (hs : s.Sound)  :
    (State.finishOp s h op).Sound := by
  unfold State.finishOp
  repeat' split
  all_goals simp_all

@[simp] theorem State.modIsland_sound {s : State} (d : Nat) (i : Nat) (f : Island → Island) (hs : s.Sound)  :
    (State.modIsland s d i f).Sound := hs

@[simp] theorem State.beginTransition_sound {s : State} (d : Nat) (peer : Nat) (next : BitVec 4) (lps : Option (BitVec 2)) (hs : s.Sound)  :
    (State.beginTransition s d peer next lps).Sound := by
  unfold State.beginTransition
  dsimp only
  repeat' split
  all_goals simp_all [State.foldl_sound, State.modCore_sound]

@[simp] theorem State.writeReq_sound {s : State} (d : Nat) (peer : Nat) (req : BitVec 4) (hs : s.Sound)  :
    (State.writeReq s d peer req).Sound := by
  unfold State.writeReq
  dsimp only
  repeat' split
  all_goals simp_all [State.foldl_sound, State.modCore_sound]

@[simp] theorem State.writeLps_sound {s : State} (d : Nat) (peer : Nat) (lps : BitVec 2) (hs : s.Sound)  :
    (State.writeLps s d peer lps).Sound := by
  unfold State.writeLps
  (try dsimp only)
  repeat' first
    | assumption
    | with_reducible apply State.due_sound
    | with_reducible apply State.modLink_sound
    | with_reducible apply State.beginTransition_sound
    | intro _
    | with_reducible split
    | (simp only [sound_mk]; constructor)
    | with_reducible apply State.Sound.mem_wf
    | with_reducible apply State.Sound.cores_ok
  all_goals simp_all

@[simp] theorem State.writeFreq_sound {s : State} (d : Nat) (i : Nat) (mhz : BitVec 12) (hs : s.Sound)  :
    (State.writeFreq s d i mhz).Sound := by
  unfold State.writeFreq
  repeat' split
  all_goals simp_all

@[simp] theorem State.writeGate_sound {s : State} (d : Nat) (i : Nat) (gate : Bool) (hs : s.Sound)  :
    (State.writeGate s d i gate).Sound := by
  unfold State.writeGate
  repeat' split
  all_goals simp_all

@[simp] theorem State.raiseVector_sound {s : State} (chip : Nat) (vec : BitVec 6) (hs : s.Sound)  :
    (State.raiseVector s chip vec).Sound := by
  unfold State.raiseVector
  repeat' split
  all_goals simp_all

@[simp] theorem State.devWrite_sound {s : State} (chip : Nat) (pa : Nat) (v : Word) (hs : s.Sound)  :
    (State.devWrite s chip pa v).Sound := by
  unfold State.devWrite
  dsimp only
  repeat' split
  all_goals simp_all [State.foldl_sound, State.modCore_sound]

@[simp] theorem State.holdElems_sound {s : State} (hk : Nat) (es : List Elem) (hs : s.Sound)  :
    (State.holdElems s hk es).Sound := by
  unfold State.holdElems
  (try dsimp only)
  repeat' first
    | assumption
    | with_reducible apply State.holdWalk_sound
    | with_reducible apply State.foldl_sound
    | intro _
    | with_reducible split
    | (simp only [sound_mk]; constructor)
    | with_reducible apply State.Sound.mem_wf
    | with_reducible apply State.Sound.cores_ok
  all_goals simp_all

@[simp] theorem State.known_sound {s : State} (t : Trap) (hs : s.Sound) : (s.known t).Sound := by
  unfold State.known
  split
  · exact hs
  · extract_lets s1
    have h1 : s1.Sound := hs
    split
    · exact State.setMyCore_sound h1 (State.core_spad_wf _ h1)
    · exact h1

@[simp] theorem State.remember_sound {s : State} (c : Nat) (src : Option Nat) (engine : Bool) (op : Option Nat) (rels : List Release) (accesses : List (List (Nat × Byte))) (hs_s : s.Sound)  :
    (State.remember s c src engine op rels accesses).Sound := by
  unfold State.remember
  (try dsimp only)
  repeat' first
    | assumption
    | with_reducible apply State.foldl_sound
    | intro _
    | with_reducible split
    | (simp only [sound_mk]; constructor)
    | with_reducible apply State.Sound.mem_wf
    | with_reducible apply State.Sound.cores_ok
  all_goals simp_all

@[simp] theorem State.holdStore_sound {s : State} (h : Nat) (size : Nat) (hint : Option Hint) (cells : List Host.Cell) (op : Option Nat) (hs_s : s.Sound)  :
    (State.holdStore s h size hint cells op).Sound := by
  unfold State.holdStore
  (try dsimp only)
  repeat' first
    | assumption
    | with_reducible apply State.remember_sound
    | with_reducible apply State.enter_sound
    | intro _
    | with_reducible split
    | (simp only [sound_mk]; constructor)
    | with_reducible apply State.Sound.mem_wf
    | with_reducible apply State.Sound.cores_ok
  all_goals simp_all

@[simp] theorem State.pinLines_sound {s : State} (c : Nat) (offs : List Nat) (hs : s.Sound)  :
    (State.pinLines s c offs).Sound := by
  unfold State.pinLines
  (try dsimp only)
  repeat' first
    | assumption
    | with_reducible apply State.takeWay_sound
    | with_reducible apply State.foldl_sound
    | intro _
    | with_reducible split
    | (simp only [sound_mk]; constructor)
    | with_reducible apply State.Sound.mem_wf
    | with_reducible apply State.Sound.cores_ok
  all_goals simp_all

@[simp] theorem State.spadWrite_sound {s : State} (src : Option Nat) (engine : Bool) (op : Option Nat) (rels : List Release) (c : Nat) (accesses : List (List Host.Cell)) (hs_s : s.Sound)  :
    (State.spadWrite s src engine op rels c accesses).Sound := by
  unfold State.spadWrite
  (try dsimp only)
  repeat' first
    | assumption
    | with_reducible apply State.modCore_sound
    | with_reducible apply State.remember_sound
    | with_reducible apply State.pinLines_sound
    | intro _
    | with_reducible split
    | (simp only [sound_mk]; constructor)
    | with_reducible apply State.Sound.mem_wf
    | with_reducible apply State.Sound.cores_ok
  all_goals simp_all

@[simp] theorem State.holdSpadAt_sound {s : State} (h : Nat) (engine : Bool) (cycle : Nat) (size : Nat) (rels : List Release) (accesses : List (List Host.Cell)) (op : Option Nat) (hs_s : s.Sound)  :
    (State.holdSpadAt s h engine cycle size rels accesses op).Sound := by
  unfold State.holdSpadAt
  (try dsimp only)
  repeat' first
    | assumption
    | with_reducible apply State.spadWrite_sound
    | with_reducible apply State.enterAt_sound
    | intro _
    | with_reducible split
    | (simp only [sound_mk]; constructor)
    | with_reducible apply State.Sound.mem_wf
    | with_reducible apply State.Sound.cores_ok
  all_goals simp_all

@[simp] theorem State.holdSpad_sound {s : State} (h : Nat) (engine : Bool) (size : Nat) (rels : List Release) (accesses : List (List Host.Cell)) (op : Option Nat) (hs_s : s.Sound)  :
    (State.holdSpad s h engine size rels accesses op).Sound := by
  unfold State.holdSpad
  (try dsimp only)
  repeat' first
    | assumption
    | with_reducible apply State.holdSpadAt_sound
    | intro _
    | with_reducible split
    | (simp only [sound_mk]; constructor)
    | with_reducible apply State.Sound.mem_wf
    | with_reducible apply State.Sound.cores_ok
  all_goals simp_all

@[simp] theorem State.holdRequest_sound {s : State} (size : Nat) (r : Request) (hs : s.Sound)  :
    (State.holdRequest s size r).Sound := by
  unfold State.holdRequest
  repeat' split
  all_goals simp_all

@[simp] theorem State.sendRequest_sound {s : State} (r : Request) (hs : s.Sound)  :
    (State.sendRequest s r).Sound := by
  unfold State.sendRequest
  (try dsimp only)
  repeat' first
    | assumption
    | with_reducible apply State.due_sound
    | with_reducible apply State.sendTo_sound
    | with_reducible apply State.foldl_sound
    | intro _
    | with_reducible split
    | (simp only [sound_mk]; constructor)
    | with_reducible apply State.Sound.mem_wf
    | with_reducible apply State.Sound.cores_ok
  all_goals simp_all

@[simp] theorem State.holdAccesses_sound {s : State} (op : Nat) (silent : Bool) (ordered : Bool) (hint : Hint) (size : Nat) (es : List ReqElem) (hs_s : s.Sound)  :
    (State.holdAccesses s op silent ordered hint size es).Sound := by
  unfold State.holdAccesses
  (try dsimp only)
  repeat' first
    | assumption
    | with_reducible apply State.remember_sound
    | with_reducible apply State.holdRequest_sound
    | intro _
    | with_reducible split
    | (simp only [sound_mk]; constructor)
    | with_reducible apply State.Sound.mem_wf
    | with_reducible apply State.Sound.cores_ok
  all_goals simp_all

@[simp] theorem State.holdDevice_sound {s : State} (op : Nat) (wide : Bool) (size : Nat) (e : ReqElem) (hs_s : s.Sound)  :
    (State.holdDevice s op wide size e).Sound := by
  unfold State.holdDevice
  (try dsimp only)
  repeat' first
    | assumption
    | with_reducible apply State.hold_sound
    | with_reducible apply State.devWrite_sound
    | with_reducible apply State.holdAccesses_sound
    | intro _
    | with_reducible split
    | (simp only [sound_mk]; constructor)
    | with_reducible apply State.Sound.mem_wf
    | with_reducible apply State.Sound.cores_ok
  all_goals simp_all

@[simp] theorem State.holdRuns_sound (op : Nat) (ordered wide : Bool) (hint : Hint) (room : Nat) (runs : List (Nat × Nat))
    (es : List ReqElem) : ∀ {s : State} (plain : List ReqElem), s.Sound →
      (s.holdRuns op ordered wide hint room runs es plain).Sound := by
  induction es with
  | nil =>
    intro s plain hs
    unfold State.holdRuns
    split
    · exact hs
    · exact State.holdAccesses_sound _ _ _ _ _ _ hs
  | cons e es ih =>
    intro s plain hs
    unfold State.holdRuns
    split
    · exact ih _ hs
    · extract_lets last t
      have ht : t.Sound := by
        unfold t
        split
        · exact hs
        · exact State.holdAccesses_sound _ _ _ _ _ _ hs
      clear_value t
      exact ih _ (State.holdDevice_sound _ _ _ _ ht)

@[simp] theorem State.performStores_sound {s : State} (ordered : Bool) (wide : Bool) (hint : Hint) (ps : List (Placed × Nat)) (op : Nat) (hs_s : s.Sound)  :
    (State.performStores s ordered wide hint ps op).Sound := by
  unfold State.performStores
  (try dsimp only)
  repeat' first
    | assumption
    | with_reducible apply State.holdSpad_sound
    | with_reducible apply State.holdRuns_sound
    | with_reducible apply State.performed_sound
    | intro _
    | with_reducible split
    | (simp only [sound_mk]; constructor)
    | with_reducible apply State.Sound.mem_wf
    | with_reducible apply State.Sound.cores_ok
  all_goals simp_all

@[simp] theorem State.holdFetch_sound {s : State} (hk : Nat) (va : Nat) (n : Nat) (hs : s.Sound)  :
    (State.holdFetch s hk va n).Sound := by
  unfold State.holdFetch
  repeat' split
  all_goals simp_all

theorem State.arbitrateAmong_sound {s : State} (c : Nat) (ready : List Nat) (hs : s.Sound) {n : Nat} {t : State}
    (h : s.arbitrateAmong c ready = some (n, t)) : t.Sound := by
  unfold State.arbitrateAmong at h
  extract_lets at h
  split at h
  · cases h
  · cases h
    exact State.setCore_sound _ hs (State.core_spad_wf _ hs)

theorem State.arbitrate_sound {s : State} (c : Nat) (hs : s.Sound) {n : Nat} {t : State} (h : s.arbitrate c = some (n, t)) :
    t.Sound := State.arbitrateAmong_sound c _ hs h

@[simp] theorem State.settle_sound {s : State} (h : Nat) (op : Nat) (hs : s.Sound)  :
    (State.settle s h op).Sound := by
  unfold State.settle
  repeat' split
  all_goals simp_all

@[simp] theorem State.closeRequest_sound {s : State} (r : Request) (hs : s.Sound)  :
    (State.closeRequest s r).Sound := by
  unfold State.closeRequest
  (try dsimp only)
  repeat' first
    | assumption
    | with_reducible apply State.noteStatus_sound
    | with_reducible apply State.settle_sound
    | intro _
    | with_reducible split
    | (simp only [sound_mk]; constructor)
    | with_reducible apply State.Sound.mem_wf
    | with_reducible apply State.Sound.cores_ok
  all_goals simp_all

@[simp] theorem State.modRequest_sound {s : State} (id : Nat) (f : Request → Request) (hs : s.Sound)  :
    (State.modRequest s id f).Sound := hs

@[simp] theorem State.registerEntry_sound {s : State} (d e : Nat) (hs : s.Sound) : (s.registerEntry d e).Sound := by
  unfold State.registerEntry
  extract_lets t s1
  have h1 : s1.Sound := hs
  clear_value s1
  split
  · exact h1
  · split
    · exact h1
    · extract_lets s2
      split <;> exact h1

@[simp] theorem State.modRun_sound {s : State} (d : Nat) (base : Word) (f : GraphRun → GraphRun) (hs : s.Sound)  :
    (State.modRun s d base f).Sound := hs

@[simp] theorem State.dueNew_sound {s : State} (es : List Instr) (hs : s.Sound)  :
    (State.dueNew s es).Sound := hs

@[simp] theorem State.kick_sound {s : State} (d : Nat) (hs : s.Sound)  :
    (State.kick s d).Sound := by
  unfold State.kick
  repeat' split
  all_goals simp_all

@[simp] theorem State.afterStore_sound {s : State} (keys : List Nat) (hs : s.Sound)  :
    (State.afterStore s keys).Sound := by
  unfold State.afterStore
  (try dsimp only)
  repeat' first
    | assumption
    | with_reducible apply State.registerEntry_sound
    | with_reducible apply State.dueNew_sound
    | with_reducible apply State.foldl_sound
    | intro _
    | with_reducible split
    | (simp only [sound_mk]; constructor)
    | with_reducible apply State.Sound.mem_wf
    | with_reducible apply State.Sound.cores_ok
  all_goals simp_all

@[simp] theorem State.homeStore_sound {s : State} (w : Writer) (cells : List Host.Cell) (hs_s : s.Sound)  :
    (State.homeStore s w cells).Sound := by
  unfold State.homeStore
  (try dsimp only)
  repeat' first
    | assumption
    | with_reducible apply State.homeWrite_sound
    | with_reducible apply State.afterStore_sound
    | intro _
    | with_reducible split
    | (simp only [sound_mk]; constructor)
    | with_reducible apply State.Sound.mem_wf
    | with_reducible apply State.Sound.cores_ok
  all_goals simp_all

@[simp] theorem State.sendSignal_sound {s : State} (h : Nat) (job : BitVec 12) (target : Nat) (count : Nat) (rels : List Release) (hs_s : s.Sound)  :
    (State.sendSignal s h job target count rels).Sound := by
  unfold State.sendSignal
  (try dsimp only)
  repeat' first
    | assumption
    | with_reducible apply State.due_sound
    | with_reducible apply State.sendTo_sound
    | intro _
    | with_reducible split
    | (simp only [sound_mk]; constructor)
    | with_reducible apply State.Sound.mem_wf
    | with_reducible apply State.Sound.cores_ok
  all_goals simp_all

@[simp] theorem State.notice_sound {s : State} (d : Nat) (target : Word) (hs_s : s.Sound)  :
    (State.notice s d target).Sound := by
  unfold State.notice
  (try dsimp only)
  repeat' first
    | assumption
    | with_reducible apply State.sendSignal_sound
    | intro _
    | with_reducible split
    | (simp only [sound_mk]; constructor)
    | with_reducible apply State.Sound.mem_wf
    | with_reducible apply State.Sound.cores_ok
  all_goals simp_all

@[simp] theorem State.across_sound {s : State} (d : Nat) (home : Nat) (out : Nat) (back : Nat) (hs_s : s.Sound)  :
    (State.across s d home out back).Sound := by
  unfold State.across
  (try dsimp only)
  repeat' first
    | assumption
    | with_reducible apply State.carry_sound
    | intro _
    | with_reducible split
    | (simp only [sound_mk]; constructor)
    | with_reducible apply State.Sound.mem_wf
    | with_reducible apply State.Sound.cores_ok
  all_goals simp_all

@[simp] theorem State.readTicks_sound {s : State} (d : Nat) (hs_s : s.Sound)  :
    (State.readTicks s d).2.Sound := by
  unfold State.readTicks
  (try dsimp only)
  repeat' first
    | assumption
    | with_reducible apply State.modDie_sound
    | intro _
    | with_reducible split
    | (simp only [sound_mk]; constructor)
    | with_reducible apply State.Sound.mem_wf
    | with_reducible apply State.Sound.cores_ok
  all_goals simp_all

@[simp] theorem State.logEvent_sound {s : State} (d kind unit : Nat) (addr detail : Word) (hs : s.Sound) :
    (s.logEvent d kind unit addr detail).Sound := by
  unfold State.logEvent
  extract_lets k n at_ key time entry s1
  have h1 : s1.Sound := State.modDie_sound _ _ (State.readTicks_sound d hs)
  clear_value s1
  split
  · exact h1
  · exact State.notice_sound _ _ (State.homeStore_sound _ _ (State.across_sound _ _ _ _ h1))

@[simp] theorem State.logRefusal_sound {s : State} (d : Nat) (job : BitVec 12) (reqDie : Nat) (bridge : Bool) (code : Nat) (va : Nat) (hs : s.Sound)  :
    (State.logRefusal s d job reqDie bridge code va).Sound := by
  unfold State.logRefusal
  repeat' split
  all_goals simp_all

@[simp] theorem State.fabricEvent_sound {s : State} (d : Nat) (event : Nat) (peer : Nat) (lane : Nat) (hs : s.Sound)  :
    (State.fabricEvent s d event peer lane).Sound := by
  unfold State.fabricEvent
  (try dsimp only)
  repeat' first
    | assumption
    | with_reducible apply State.modDie_sound
    | with_reducible apply State.notice_sound
    | with_reducible apply State.logEvent_sound
    | intro _
    | with_reducible split
    | (simp only [sound_mk]; constructor)
    | with_reducible apply State.Sound.mem_wf
    | with_reducible apply State.Sound.cores_ok
  all_goals simp_all

@[simp] theorem State.seqTouch_sound {s : State} (d : Nat) (ptbase : Word) (job : BitVec 12) (acc : Acc) (va : Nat) (n : Nat) (hs_s : s.Sound)  :
    (State.seqTouch s d ptbase job acc va n).Sound := by
  unfold State.seqTouch
  (try dsimp only)
  repeat' first
    | assumption
    | with_reducible apply State.bring_sound
    | with_reducible apply State.across_sound
    | with_reducible apply State.logRefusal_sound
    | intro _
    | with_reducible split
    | (simp only [sound_mk]; constructor)
    | with_reducible apply State.Sound.mem_wf
    | with_reducible apply State.Sound.cores_ok
  all_goals simp_all

@[simp] theorem State.seqLoad_sound {s : State} (d : Nat) (ptbase : Word) (job : BitVec 12) (va : Nat) (n : Nat) (hs_s : s.Sound)  :
    (State.seqLoad s d ptbase job va n).2.Sound := by
  unfold State.seqLoad
  (try dsimp only)
  repeat' first
    | assumption
    | with_reducible apply State.seqTouch_sound
    | intro _
    | with_reducible split
    | (simp only [sound_mk]; constructor)
    | with_reducible apply State.Sound.mem_wf
    | with_reducible apply State.Sound.cores_ok
  all_goals simp_all

@[simp] theorem State.seqStore_sound {s : State} (d : Nat) (ptbase : Word) (job : BitVec 12) (va : Nat) (n : Nat) (v : Nat) (hs_s : s.Sound)  :
    (State.seqStore s d ptbase job va n v).Sound := by
  unfold State.seqStore
  (try dsimp only)
  repeat' first
    | assumption
    | with_reducible apply State.seqTouch_sound
    | with_reducible apply State.seqWrite_sound
    | intro _
    | with_reducible split
    | (simp only [sound_mk]; constructor)
    | with_reducible apply State.Sound.mem_wf
    | with_reducible apply State.Sound.cores_ok
  all_goals simp_all

@[simp] theorem State.touchHeader_sound {s : State} (d : Nat) (e : Nat) (hs_s : s.Sound)  :
    (State.touchHeader s d e).Sound := by
  unfold State.touchHeader
  (try dsimp only)
  repeat' first
    | assumption
    | with_reducible apply State.seqTouch_sound
    | intro _
    | with_reducible split
    | (simp only [sound_mk]; constructor)
    | with_reducible apply State.Sound.mem_wf
    | with_reducible apply State.Sound.cores_ok
  all_goals simp_all

@[simp] theorem State.registerTable_sound {s : State} (d : Nat) (hs_s : s.Sound)  :
    (State.registerTable s d).Sound := by
  unfold State.registerTable
  (try dsimp only)
  repeat' first
    | assumption
    | with_reducible apply State.modDie_sound
    | with_reducible apply State.registerEntry_sound
    | with_reducible apply State.touchHeader_sound
    | with_reducible apply State.foldl_sound
    | intro _
    | with_reducible split
    | (simp only [sound_mk]; constructor)
    | with_reducible apply State.Sound.mem_wf
    | with_reducible apply State.Sound.cores_ok
  all_goals simp_all

@[simp] theorem State.storeHome_sound {s : State} (w : Writer) (cells : List Host.Cell) (hs_s : s.Sound)  :
    (State.storeHome s w cells).Sound := by
  unfold State.storeHome
  (try dsimp only)
  repeat' first
    | assumption
    | with_reducible apply State.touchHeader_sound
    | with_reducible apply State.homeStore_sound
    | with_reducible apply State.foldl_sound
    | intro _
    | with_reducible split
    | (simp only [sound_mk]; constructor)
    | with_reducible apply State.Sound.mem_wf
    | with_reducible apply State.Sound.cores_ok
  all_goals simp_all

@[simp] theorem State.storeEach_sound {s : State} (w : Writer) (cells : List Host.Cell) (hs_s : s.Sound)  :
    (State.storeEach s w cells).Sound := by
  unfold State.storeEach
  (try dsimp only)
  repeat' first
    | assumption
    | with_reducible apply State.storeHome_sound
    | with_reducible apply State.foldl_sound
    | intro _
    | with_reducible split
    | (simp only [sound_mk]; constructor)
    | with_reducible apply State.Sound.mem_wf
    | with_reducible apply State.Sound.cores_ok
  all_goals simp_all

@[simp] theorem State.failGraph_sound {s : State} (d : Nat) (graph : Word) (node : Nat) (cause : Nat) (hs_s : s.Sound)  :
    (State.failGraph s d graph node cause).Sound := by
  unfold State.failGraph
  (try dsimp only)
  repeat' first
    | assumption
    | with_reducible apply State.modDie_sound
    | with_reducible apply State.due_sound
    | with_reducible apply State.stopGraph_sound
    | with_reducible apply State.seqLoad_sound
    | with_reducible apply State.seqStore_sound
    | intro _
    | with_reducible split
    | (simp only [sound_mk]; constructor)
    | with_reducible apply State.Sound.mem_wf
    | with_reducible apply State.Sound.cores_ok
  all_goals simp_all

@[simp] theorem State.writeStatus_sound {s : State} (d : Nat) (g : GraphRun) (runs : Nat → Nat) (state : Nat) (node : Nat) (cause : Nat) (rearm : Bool) (hs : s.Sound)  :
    (State.writeStatus s d g runs state node cause rearm).Sound := by
  unfold State.writeStatus
  repeat' split
  all_goals simp_all

@[simp] theorem State.startRun_sound {s : State} (d : Nat) (g : GraphRun) (hs_s : s.Sound)  :
    (State.startRun s d g).Sound := by
  unfold State.startRun
  (try dsimp only)
  repeat' first
    | assumption
    | with_reducible apply State.modDie_sound
    | with_reducible apply State.seqTouch_sound
    | with_reducible apply State.writeStatus_sound
    | with_reducible apply State.foldl_sound
    | intro _
    | with_reducible split
    | (simp only [sound_mk]; constructor)
    | with_reducible apply State.Sound.mem_wf
    | with_reducible apply State.Sound.cores_ok
  all_goals simp_all

@[simp] theorem State.condition_sound {s : State} (d : Nat) (g : GraphRun) (i : Nat) (hs_s : s.Sound)  :
    (State.condition s d g i).2.Sound := by
  unfold State.condition
  (try dsimp only)
  repeat' first
    | assumption
    | with_reducible apply State.seqLoad_sound
    | intro _
    | with_reducible split
    | (simp only [sound_mk]; constructor)
    | with_reducible apply State.Sound.mem_wf
    | with_reducible apply State.Sound.cores_ok
  all_goals simp_all

@[simp] theorem State.testWhile_sound {s : State} (d : Nat) (g : GraphRun) (i : Nat) (hs : s.Sound)  :
    (State.testWhile s d g i).Sound := by
  have hc := State.condition_sound d g i hs
  unfold State.testWhile
  extract_lets n
  split <;> rename_i heq <;> rw [heq] at hc
  · exact State.failGraph_sound _ _ _ _ hc
  · split <;> exact State.modRun_sound _ _ _ hc

@[simp] theorem State.startNode_sound {s : State} (d : Nat) (g : GraphRun) (i : Nat) (hs : s.Sound)  :
    (State.startNode s d g i).Sound := by
  unfold State.startNode
  extract_lets n s1 s2 s3 s4
  have h1 : s1.Sound := State.modRun_sound _ _ _ hs
  have hc := State.condition_sound d g i h1
  have h2 : s2.Sound := State.modRun_sound _ _ _ h1
  have h3 : s3.Sound := State.seqTouch_sound _ _ _ _ _ _ h1
  have h4 : s4.Sound := State.modRun_sound _ _ _ h3
  clear_value s4 s3 s2 s1
  split
  · exact hs
  · split
    · exact State.kick_sound _ (State.modDie_sound _ _ h2)
    · split <;> rename_i heq <;> rw [heq] at hc
      · exact State.failGraph_sound _ _ _ _ hc
      · exact State.modRun_sound _ _ _ hc
    · split
      · exact State.testWhile_sound _ _ _ h1
      · exact h1
    · split <;> rename_i heq <;> rw [heq] at hc
      · exact State.failGraph_sound _ _ _ _ hc
      · exact State.modRun_sound _ _ _ hc
    · split
      · exact State.failGraph_sound _ _ _ _ h3
      · exact State.dueNew_sound _ h4
    · exact State.modRun_sound _ _ _ h1

@[simp] theorem State.finishGraph_sound {s : State} (d : Nat) (base : Word) (hs : s.Sound)  :
    (State.finishGraph s d base).Sound := by
  unfold State.finishGraph
  (try dsimp only)
  repeat' first
    | assumption
    | with_reducible apply State.modRun_sound
    | with_reducible apply State.writeStatus_sound
    | with_reducible apply State.startRun_sound
    | intro _
    | with_reducible split
    | (simp only [sound_mk]; constructor)
    | with_reducible apply State.Sound.mem_wf
    | with_reducible apply State.Sound.cores_ok
  all_goals simp_all

@[simp] theorem State.advance_sound (d : Nat) (base : Word) (n : Nat) : ∀ {s : State}, s.Sound → (State.advance d base n s).Sound := by
  induction n with
  | zero => intro s hs; exact State.dueNew_sound _ hs
  | succ n ih =>
    intro s hs
    unfold State.advance
    split
    · exact hs
    · split
      · exact hs
      · split
        · extract_lets t
          have ht : t.Sound := State.finishGraph_sound d base hs
          clear_value t
          split
          · split
            · exact ih ht
            · split
              · exact State.dueNew_sound _ ht
              · exact ht
          · exact ht
        · extract_lets s1
          have h1 : s1.Sound := State.modRun_sound _ _ _ hs
          clear_value s1
          apply ih
          split
          · exact State.startNode_sound _ _ _ h1
          · exact State.modRun_sound _ _ _ h1
          · exact State.testWhile_sound _ _ _ h1

@[simp] theorem State.runGraph_sound {s : State} (d : Nat) (base : Word) (hs : s.Sound)  :
    (State.runGraph s d base).Sound := by
  unfold State.runGraph
  repeat' split
  all_goals simp_all

@[simp] theorem State.resumeRuns_sound {s : State} (d : Nat) (hs : s.Sound)  :
    (State.resumeRuns s d).Sound := by
  unfold State.resumeRuns
  (try dsimp only)
  repeat' first
    | assumption
    | with_reducible apply State.runGraph_sound
    | with_reducible apply State.foldl_sound
    | intro _
    | with_reducible split
    | (simp only [sound_mk]; constructor)
    | with_reducible apply State.Sound.mem_wf
    | with_reducible apply State.Sound.cores_ok
  all_goals simp_all

@[simp] theorem State.armGraph_sound {s : State} (d : Nat) (e : Nat) (hs_s : s.Sound)  :
    (State.armGraph s d e).2.Sound := by
  unfold State.armGraph
  (try dsimp only)
  repeat' first
    | assumption
    | with_reducible apply State.touchHeader_sound
    | with_reducible apply State.modRun_sound
    | with_reducible apply State.writeStatus_sound
    | with_reducible apply State.startRun_sound
    | with_reducible apply State.runGraph_sound
    | intro _
    | with_reducible split
    | (simp only [sound_mk]; constructor)
    | with_reducible apply State.Sound.mem_wf
    | with_reducible apply State.Sound.cores_ok
  all_goals simp_all

@[simp] theorem State.placeGang_sound {s : State} (d : Nat) (g : GraphRun) (r : ReadyGang) (c : Nat) (harts : List Nat)
    (off : Nat) (hs : s.Sound) : (s.placeGang d g r c harts off).Sound := by
  unfold State.placeGang
  refine State.modDie_sound _ _ (State.foldl_sound _ (State.modCore_sound _ hs fun _ h => Memory.wf_filter _ h) ?_)
  exact fun t a h => State.modCore_sound _ (State.setHart_sound _ _ h) fun _ h => h

@[simp] theorem State.modGang_sound {s : State} (d : Nat) (key : Nat) (f : PlacedGang → PlacedGang) (hs : s.Sound)  :
    (State.modGang s d key f).Sound := hs

@[simp] theorem State.runEngine_sound {s : State} (d : Nat) (hs : s.Sound)  :
    (State.runEngine s d).Sound := by
  unfold State.runEngine
  dsimp only
  repeat' split
  all_goals simp_all [State.foldl_sound, State.modCore_sound]

@[simp] theorem State.gangEnds_sound {s : State} (d : Nat) (p : PlacedGang) (hs : s.Sound)  :
    (State.gangEnds s d p).Sound := by
  unfold State.gangEnds
  (try dsimp only)
  repeat' first
    | assumption
    | with_reducible apply State.modDie_sound
    | with_reducible apply State.modRun_sound
    | with_reducible apply State.runGraph_sound
    | with_reducible apply State.kick_sound
    | intro _
    | with_reducible split
    | (simp only [sound_mk]; constructor)
    | with_reducible apply State.Sound.mem_wf
    | with_reducible apply State.Sound.cores_ok
  all_goals simp_all

@[simp] theorem State.checkStopped_sound {s : State} (d : Nat) (p : PlacedGang) (hs : s.Sound)  :
    (State.checkStopped s d p).Sound := by
  unfold State.checkStopped
  (try dsimp only)
  repeat' first
    | assumption
    | with_reducible apply State.modDie_sound
    | with_reducible apply State.modGang_sound
    | with_reducible apply State.runEngine_sound
    | intro _
    | with_reducible split
    | (simp only [sound_mk]; constructor)
    | with_reducible apply State.Sound.mem_wf
    | with_reducible apply State.Sound.cores_ok
  all_goals simp_all

@[simp] theorem State.hartExit_sound {s : State} (h : Nat) (hs : s.Sound)  :
    (State.hartExit s h).Sound := by
  unfold State.hartExit
  (try dsimp only)
  repeat' first
    | assumption
    | with_reducible apply State.modHart_sound
    | with_reducible apply State.modRun_sound
    | with_reducible apply State.modGang_sound
    | with_reducible apply State.gangEnds_sound
    | with_reducible apply State.checkStopped_sound
    | with_reducible apply State.kick_sound
    | intro _
    | with_reducible split
    | (simp only [sound_mk]; constructor)
    | with_reducible apply State.Sound.mem_wf
    | with_reducible apply State.Sound.cores_ok
  all_goals simp_all

@[simp] theorem State.arriveGbar_sound {s : State} (hs_s : s.Sound)  :
    (State.arriveGbar s).Sound := by
  unfold State.arriveGbar
  (try dsimp only)
  repeat' first
    | assumption
    | with_reducible apply State.upd_sound
    | with_reducible apply State.modGang_sound
    | intro _
    | with_reducible split
    | (simp only [sound_mk]; constructor)
    | with_reducible apply State.Sound.mem_wf
    | with_reducible apply State.Sound.cores_ok
  all_goals simp_all

@[simp] theorem State.passGbar_sound {s : State} (h : Nat) (hs_s : s.Sound)  :
    (State.passGbar s h).Sound := by
  unfold State.passGbar
  (try dsimp only)
  repeat' first
    | assumption
    | with_reducible apply State.acquireFrom_sound
    | intro _
    | with_reducible split
    | (simp only [sound_mk]; constructor)
    | with_reducible apply State.Sound.mem_wf
    | with_reducible apply State.Sound.cores_ok
  all_goals simp_all

@[simp] theorem State.passNbaw_sound {s : State} (h : Nat) (w : Arrival) (hs : s.Sound)  :
    (State.passNbaw s h w).Sound := by
  unfold State.passNbaw
  repeat' split
  all_goals simp_all

@[simp] theorem State.withdraw_sound {s : State} (h : Nat) (hs_s : s.Sound)  :
    (State.withdraw s h).Sound := by
  unfold State.withdraw
  (try dsimp only)
  repeat' first
    | assumption
    | with_reducible apply State.modHart_sound
    | with_reducible apply State.modCore_sound
    | with_reducible apply State.logFor_sound
    | with_reducible apply State.passGbar_sound
    | with_reducible apply State.passNbaw_sound
    | intro _
    | with_reducible split
    | (simp only [sound_mk]; constructor)
    | with_reducible apply State.Sound.mem_wf
    | with_reducible apply State.Sound.cores_ok
  all_goals simp_all

@[simp] theorem State.stopAt_sound {s : State} (h : Nat) (forced : Bool) (hs : s.Sound)  :
    (State.stopAt s h forced).Sound := by
  unfold State.stopAt
  (try dsimp only)
  repeat' first
    | assumption
    | with_reducible apply State.modHart_sound
    | with_reducible apply State.withdraw_sound
    | with_reducible apply State.checkStopped_sound
    | intro _
    | with_reducible split
    | (simp only [sound_mk]; constructor)
    | with_reducible apply State.Sound.mem_wf
    | with_reducible apply State.Sound.cores_ok
  all_goals simp_all

@[simp] theorem State.scalarResult_sound {s : State} (d : Operand) (v : Word) (hs : s.Sound)  :
    (State.scalarResult s d v).Sound := hs

@[simp] theorem State.predResult_sound {s : State} (d : Operand) (v : BitVec 1024) (hs : s.Sound)  :
    (State.predResult s d v).Sound := hs

@[simp] theorem State.setLength_sound {s : State} (d : Operand) (g : Nat × Nat) (hs : s.Sound)  :
    (State.setLength s d g).Sound := hs

@[simp] theorem State.waitOn_sound {s : State} (covers : BitVec 3 → Bool) (met : Bool) (drained : List (BitVec 3)) (hs : s.Sound)  :
    (State.waitOn s covers met drained).Sound := by
  unfold State.waitOn
  repeat' split
  all_goals simp_all

@[simp] theorem State.arriveAt_sound {s : State} (n : BitVec 6) (rel : Bool) (sc : Scope) (hs : s.Sound) :
    (s.arriveAt n rel sc).2.Sound := State.upd_sound _ (State.setMyCore_sound hs (State.core_spad_wf _ hs))

@[simp] theorem State.fenceLoads_sound {s : State} (sc : Scope) (hs_s : s.Sound)  :
    (State.fenceLoads s sc).Sound := by
  unfold State.fenceLoads
  (try dsimp only)
  repeat' first
    | assumption
    | with_reducible apply State.upd_sound
    | with_reducible apply State.acquireFrom_sound
    | intro _
    | with_reducible split
    | (simp only [sound_mk]; constructor)
    | with_reducible apply State.Sound.mem_wf
    | with_reducible apply State.Sound.cores_ok
  all_goals simp_all

@[simp] theorem State.fence_sound {s : State} (k : FenceKind) (sc : Scope) (hs : s.Sound)  :
    (State.fence s k sc).Sound := by
  unfold State.fence
  (try dsimp only)
  repeat' first
    | assumption
    | with_reducible apply State.upd_sound
    | with_reducible apply State.retire_sound
    | with_reducible apply State.block_sound
    | intro _
    | with_reducible split
    | (simp only [sound_mk]; constructor)
    | with_reducible apply State.Sound.mem_wf
    | with_reducible apply State.Sound.cores_ok
  all_goals simp_all

@[simp] theorem State.applyShared_sound {s : State} (d : Nat) (n : Nat) (v : Word) (hs : s.Sound)  :
    (State.applyShared s d n v).Sound := by
  unfold State.applyShared
  repeat' split
  all_goals simp_all

@[simp] theorem State.sysWrite_sound {s : State} (n : Nat) (v : Word) (hs : s.Sound) : (s.sysWrite n v).Sound := by
  unfold State.sysWrite
  split
  · exact hs
  · split
    · exact State.hold_sound _ _ hs
    · split
      · split
        · exact hs
        · exact State.setMyCore_sound hs (State.core_spad_wf _ hs)
      · extract_lets s1
        have h1 : s1.Sound := hs
        clear_value s1
        split
        · exact State.setMyCore_sound h1 (State.core_spad_wf _ h1)
        · exact h1

@[simp] theorem State.invalidate_sound {s : State} (kind : Nat) (a : Word) (hs : s.Sound) : (s.invalidate kind a).Sound := by
  unfold State.invalidate
  extract_lets c d drop onDie
  have hd : ∀ b, (onDie b).Sound := fun b => ⟨hs.1, CoresOk.map hs.2 fun p hp => by
    split
    · exact hp
    · exact hp⟩
  split
  · exact State.modCore_sound _ hs fun _ h => h
  · exact State.modCore_sound _ hs fun _ h => h
  · exact hd true
  · exact hd false
  · exact hs

@[simp] theorem State.reach_sound {s : State} (i : Instr) (acc : Acc) (es : List Elem) (need : List Placed → Nat) (k : List Placed → State → State) (hs : s.Sound) (h_k : (∀ p t, t.Sound → (k p t).Sound)) :
    (State.reach s i acc es need k).Sound := by
  unfold State.reach
  dsimp only
  repeat' split
  all_goals simp_all [State.foldl_sound, State.modCore_sound]

@[simp] theorem State.deliver_sound {s : State} (h : Nat) (op : Nat) (dest : ReqDest) (idx : Nat) (off : Nat) (n : Nat) (data : Nat) (poison : Option Word) (hs : s.Sound)  :
    (State.deliver s h op dest idx off n data poison).Sound := by
  unfold State.deliver
  (try dsimp only)
  repeat' first
    | assumption
    | with_reducible apply State.modHart_sound
    | with_reducible apply State.modOp_sound
    | with_reducible apply State.logFor_sound
    | with_reducible apply State.foldl_sound
    | intro _
    | with_reducible split
    | (simp only [sound_mk]; constructor)
    | with_reducible apply State.Sound.mem_wf
    | with_reducible apply State.Sound.cores_ok
  all_goals simp_all

@[simp] theorem State.fillLine_sound {s : State} (d : Nat) (job : BitVec 12) (va : Nat) (hs : s.Sound)  :
    (State.fillLine s d job va).Sound := by
  unfold State.fillLine
  dsimp only
  repeat' split
  all_goals simp_all [State.foldl_sound, State.modCore_sound]

@[simp] theorem State.fillLines_sound {s : State} (d : Nat) (job : BitVec 12) (va : Nat) (n : Nat) (hs_s : s.Sound)  :
    (State.fillLines s d job va n).Sound := by
  unfold State.fillLines
  (try dsimp only)
  repeat' first
    | assumption
    | with_reducible apply State.fillLine_sound
    | with_reducible apply State.foldl_sound
    | intro _
    | with_reducible split
    | (simp only [sound_mk]; constructor)
    | with_reducible apply State.Sound.mem_wf
    | with_reducible apply State.Sound.cores_ok
  all_goals simp_all

@[simp] theorem State.readLines_sound {s : State} (hint : Option Hint) (keys : List Nat) (hs_s : s.Sound)  :
    (State.readLines s hint keys).Sound := by
  unfold State.readLines
  (try dsimp only)
  repeat' first
    | assumption
    | with_reducible apply State.bring_sound
    | intro _
    | with_reducible split
    | (simp only [sound_mk]; constructor)
    | with_reducible apply State.Sound.mem_wf
    | with_reducible apply State.Sound.cores_ok
  all_goals simp_all

@[simp] theorem State.loadAtHome_sound {s : State} (r : Request) (e : ReqElem) (hs_s : s.Sound)  :
    (State.loadAtHome s r e).2.Sound := by
  unfold State.loadAtHome
  (try dsimp only)
  repeat' first
    | assumption
    | with_reducible apply State.readLines_sound
    | with_reducible apply State.holdHome_sound
    | with_reducible apply State.logRefusal_sound
    | with_reducible apply State.fillLines_sound
    | with_reducible apply State.pinLines_sound
    | intro _
    | with_reducible split
    | (simp only [sound_mk]; constructor)
    | with_reducible apply State.Sound.mem_wf
    | with_reducible apply State.Sound.cores_ok
  all_goals simp_all

@[simp] theorem State.touchLines_sound {s : State} (c : Nat) (hint : Hint) (parts : List (Place × Nat)) (hs_s : s.Sound)  :
    (State.touchLines s c hint parts).Sound := by
  unfold State.touchLines
  (try dsimp only)
  repeat' first
    | assumption
    | with_reducible apply State.readLines_sound
    | with_reducible apply State.pinLines_sound
    | with_reducible apply State.foldl_sound
    | intro _
    | with_reducible split
    | (simp only [sound_mk]; constructor)
    | with_reducible apply State.Sound.mem_wf
    | with_reducible apply State.Sound.cores_ok
  all_goals simp_all

@[simp] theorem State.takeNow_sound {s : State} (i : Instr) (hint : Hint) (ordered : Bool) (put : List (Nat × Nat) → Hart → Hart) (now : List Placed) (hs_s : s.Sound)  :
    (State.takeNow s i hint ordered put now).2.Sound := by
  unfold State.takeNow
  (try dsimp only)
  repeat' first
    | assumption
    | with_reducible apply State.upd_sound
    | with_reducible apply State.touchLines_sound
    | intro _
    | with_reducible split
    | (simp only [sound_mk]; constructor)
    | with_reducible apply State.Sound.mem_wf
    | with_reducible apply State.Sound.cores_ok
  all_goals simp_all

@[simp] theorem State.redraw_sound {s : State} (hs : s.Sound)  :
    (State.redraw s).Sound := hs

@[simp] theorem State.load_sound {s : State} (i : Instr) (x : Xm) (ordered : Bool) (dest : ReqDest)
    (put : List (Nat × Nat) → Hart → Hart) (ps : List Placed) (hs : s.Sound) : (s.load i x ordered dest put ps).Sound := by
  unfold State.load
  extract_lets all now late sealed held free old id whole a s1 s2 s3 req s4 s5
  split
  · exact State.takeTrap_sound _ (State.known_sound _ hs)
  · have h1 : s1.Sound := State.startOp_sound _ _ _ _ (State.takeNow_sound _ _ _ _ _ hs)
    clear_value s1
    have h2 : s2.Sound := by
      unfold s2
      split
      · exact h1
      · exact State.modOp_sound _ _ _ h1
    clear_value s2
    have h3 : s3.Sound := State.note_sound _ _ (State.performed_sound _ _ _ h2)
    clear_value s3 req
    have h4 : s4.Sound := by
      unfold s4
      split
      · exact h3
      · exact State.sendRequest_sound _ h3
    clear_value s4
    have h5 : s5.Sound := by
      unfold s5
      split
      · exact h4
      · exact State.holdRequest_sound _ _ h4
    clear_value s5
    exact State.retire_sound (State.redraw_sound h5)

@[simp] theorem vectorLoad_sound (i : Instr) (w : Wd) (x : Xm) (ordered : Bool) (mark : Hart → Hart) (es : List Elem) {s : State} (hs : s.Sound)  :
    (vectorLoad i w x ordered mark es s).Sound := by
  unfold vectorLoad
  repeat' split
  all_goals simp_all

@[simp] theorem State.store_sound {s : State} (i : Instr) (x : Xm) (ordered : Bool) (mark : Hart → Hart) (ps : List (Placed × Nat)) (hs : s.Sound)  :
    (State.store s i x ordered mark ps).Sound := by
  unfold State.store
  (try dsimp only)
  repeat' first
    | assumption
    | with_reducible apply State.upd_sound
    | with_reducible apply State.retire_sound
    | with_reducible apply State.startOp_sound
    | with_reducible apply State.performStores_sound
    | with_reducible apply State.settle_sound
    | intro _
    | with_reducible split
    | (simp only [sound_mk]; constructor)
    | with_reducible apply State.Sound.mem_wf
    | with_reducible apply State.Sound.cores_ok
  all_goals simp_all

@[simp] theorem storeElems_sound (i : Instr) (x : Xm) (ordered : Bool) (mark : Hart → Hart) (es : List (Elem × Nat)) {s : State} (hs : s.Sound)  :
    (storeElems i x ordered mark es s).Sound := by
  unfold storeElems
  repeat' split
  all_goals simp_all

@[simp] theorem State.raiseIn_sound {s : State} (h : Nat) (op : Nat) (idx : Nat) (r : Raised) (hs : s.Sound)  :
    (State.raiseIn s h op idx r).Sound := hs

@[simp] theorem State.spadLane_sound {s : State} (aop : AmoOp) (f : Fmt) (flagged : Bool) (dest : ReqDest) (op : Nat) (waits : Option Nat) (rels : List Release) (size : Nat) (e : ReqElem) (hs_s : s.Sound)  :
    (State.spadLane s aop f flagged dest op waits rels size e).Sound := by
  unfold State.spadLane
  (try dsimp only)
  repeat' first
    | assumption
    | with_reducible apply State.holdSpad_sound
    | with_reducible apply State.note_sound
    | with_reducible apply State.performed_sound
    | with_reducible apply State.deliver_sound
    | with_reducible apply State.raiseIn_sound
    | intro _
    | with_reducible split
    | (simp only [sound_mk]; constructor)
    | with_reducible apply State.Sound.mem_wf
    | with_reducible apply State.Sound.cores_ok
  all_goals simp_all

@[simp] theorem State.spadLanes_sound {k : Nat → ReqElem → State → State} (hk : ∀ n e t, t.Sound → (k n e t).Sound)
    (l : List ReqElem) : ∀ {s : State} (size : Nat), s.Sound → (s.spadLanes k size l).Sound := by
  induction l with
  | nil => intro s size hs; exact hs
  | cons e l ih => intro s size hs; exact ih 0 (hk size e s hs)

@[simp] theorem State.atomics_sound {s : State} (i : Instr) (x : Xm) (aop : AmoOp) (f : Fmt) (ord : MemOrd) (flagged : Bool) (dest : ReqDest) (mark : Hart → Hart) (whole : List RegId) (ps : List Placed) (ls : List ReqElem) (hs_s : s.Sound)  :
    (State.atomics s i x aop f ord flagged dest mark whole ps ls).Sound := by
  unfold State.atomics
  (try dsimp only)
  repeat' first
    | assumption
    | with_reducible apply State.upd_sound
    | with_reducible apply State.retire_sound
    | with_reducible apply State.startOp_sound
    | with_reducible apply State.modOp_sound
    | with_reducible apply State.noteStatus_sound
    | with_reducible apply State.spadLanes_sound
    | with_reducible apply State.spadLane_sound
    | with_reducible apply State.acquireFrom_sound
    | with_reducible apply State.holdRequest_sound
    | with_reducible apply State.settle_sound
    | intro _
    | with_reducible split
    | (simp only [sound_mk]; constructor)
    | with_reducible apply State.Sound.mem_wf
    | with_reducible apply State.Sound.cores_ok
  all_goals simp_all

@[simp] theorem State.setDeferQueue_sound {s : State} (q : List DeferElem) (hs : s.Sound) : (s.setDeferQueue q).Sound := by
  unfold State.setDeferQueue
  split
  · exact State.setMyCore_sound hs (State.core_spad_wf _ hs)
  · exact hs

@[simp] theorem queueRequest_sound (i : Instr) (w : Wd) (acc : Acc) (kind : ReqKind) (x : Xm) (acq : Bool) (dest : ReqDest) (mark : Hart → Hart) (entries : Place → State → List Elem) (data : List Nat) (r : Hart) {s : State} (hs : s.Sound)  :
    (queueRequest i w acc kind x acq dest mark entries data r s).Sound := by
  unfold queueRequest
  (try dsimp only)
  repeat' first
    | assumption
    | with_reducible apply State.upd_sound
    | with_reducible apply State.retire_sound
    | with_reducible apply State.block_sound
    | with_reducible apply State.takeTrap_sound
    | with_reducible apply State.reach_sound
    | with_reducible apply State.startOp_sound
    | with_reducible apply State.holdRequest_sound
    | with_reducible apply State.acquire_sound
    | intro _
    | with_reducible split
    | (simp only [sound_mk]; constructor)
    | with_reducible apply State.Sound.mem_wf
    | with_reducible apply State.Sound.cores_ok
  all_goals simp_all

@[simp] theorem State.spaceStore_sound {s : State} (r : Request) (cs : List (Place × Byte)) (hs_s : s.Sound)  :
    (State.spaceStore s r cs).Sound := by
  unfold State.spaceStore
  (try dsimp only)
  repeat' first
    | assumption
    | with_reducible apply State.spadWrite_sound
    | with_reducible apply State.storeHome_sound
    | intro _
    | with_reducible split
    | (simp only [sound_mk]; constructor)
    | with_reducible apply State.Sound.mem_wf
    | with_reducible apply State.Sound.cores_ok
  all_goals simp_all

@[simp] theorem State.spaceLines_sound {s : State} (r : Request) (ps : List Place) (hs_s : s.Sound)  :
    (State.spaceLines s r ps).Sound := by
  unfold State.spaceLines
  (try dsimp only)
  repeat' first
    | assumption
    | with_reducible apply State.readLines_sound
    | with_reducible apply State.foldl_sound
    | intro _
    | with_reducible split
    | (simp only [sound_mk]; constructor)
    | with_reducible apply State.Sound.mem_wf
    | with_reducible apply State.Sound.cores_ok
  all_goals simp_all

@[simp] theorem State.noteRefusal_sound {s : State} (r : Request) (f : Refused) (hs : s.Sound)  :
    (State.noteRefusal s r f).Sound := by
  unfold State.noteRefusal
  repeat' split
  all_goals simp_all

@[simp] theorem State.failWith_sound {s : State} (r : Request) (code : Nat) (sub : Nat) (ea : Word) (land : State → State) (hs : s.Sound) (h_land : (∀ t, t.Sound → (land t).Sound)) :
    (State.failWith s r code sub ea land).Sound := by
  unfold State.failWith
  repeat' split
  all_goals simp_all

@[simp] theorem State.answer_sound {s : State} (r : Request) (v : Nat) (hs : s.Sound)  :
    (State.answer s r v).Sound := by
  unfold State.answer
  repeat' split
  all_goals simp_all

@[simp] theorem State.answerPop_sound {s : State} (r : Request) (vs : List (Nat × Option Word)) (hs : s.Sound)  :
    (State.answerPop s r vs).Sound := by
  unfold State.answerPop
  (try dsimp only)
  repeat' first
    | assumption
    | with_reducible apply State.deliver_sound
    | with_reducible apply State.foldl_sound
    | intro _
    | with_reducible split
    | (simp only [sound_mk]; constructor)
    | with_reducible apply State.Sound.mem_wf
    | with_reducible apply State.Sound.cores_ok
  all_goals simp_all

@[simp] theorem State.acquireFor_sound {s : State} (r : Request) (hs : s.Sound)  :
    (State.acquireFor s r).Sound := by
  unfold State.acquireFor
  repeat' split
  all_goals simp_all

@[simp] theorem State.stepDone_sound {s : State} (r : Request) (hs : s.Sound)  :
    (State.stepDone s r).Sound := by
  unfold State.stepDone
  (try dsimp only)
  repeat' first
    | assumption
    | with_reducible apply State.acquireFor_sound
    | with_reducible apply State.performed_sound
    | with_reducible apply State.closeRequest_sound
    | intro _
    | with_reducible split
    | (simp only [sound_mk]; constructor)
    | with_reducible apply State.Sound.mem_wf
    | with_reducible apply State.Sound.cores_ok
  all_goals simp_all

@[simp] theorem State.refuseStep_sound {s : State} (r : Request) (f : Refused) (hs_s : s.Sound)  :
    (State.refuseStep s r f).Sound := by
  unfold State.refuseStep
  (try dsimp only)
  repeat' first
    | assumption
    | with_reducible apply State.noteRefusal_sound
    | with_reducible apply State.failWith_sound
    | intro _
    | with_reducible split
    | (simp only [sound_mk]; constructor)
    | with_reducible apply State.Sound.mem_wf
    | with_reducible apply State.Sound.cores_ok
  all_goals simp_all

@[simp] theorem State.appendEntries_sound {s : State} (r : Request) (va : Nat) (q : QueueDesc) (data : List Nat) (hs_s : s.Sound)  :
    (State.appendEntries s r va q data).Sound := by
  unfold State.appendEntries
  (try dsimp only)
  repeat' first
    | assumption
    | with_reducible apply State.failWith_sound
    | with_reducible apply State.answer_sound
    | with_reducible apply State.spaceStore_sound
    | with_reducible apply State.sendSignal_sound
    | with_reducible apply State.stepDone_sound
    | with_reducible apply State.refuseStep_sound
    | intro _
    | with_reducible split
    | (simp only [sound_mk]; constructor)
    | with_reducible apply State.Sound.mem_wf
    | with_reducible apply State.Sound.cores_ok
  all_goals simp_all

@[simp] theorem State.popEntries_sound {s : State} (r : Request) (va : Nat) (q : QueueDesc) (most : Nat) (hs_s : s.Sound)  :
    (State.popEntries s r va q most).Sound := by
  unfold State.popEntries
  (try dsimp only)
  repeat' first
    | assumption
    | with_reducible apply State.spaceLines_sound
    | with_reducible apply State.spaceStore_sound
    | with_reducible apply State.answerPop_sound
    | with_reducible apply State.stepDone_sound
    | with_reducible apply State.refuseStep_sound
    | intro _
    | with_reducible split
    | (simp only [sound_mk]; constructor)
    | with_reducible apply State.Sound.mem_wf
    | with_reducible apply State.Sound.cores_ok
  all_goals simp_all

@[simp] theorem State.queueOp_sound {s : State} (r : Request) (hs_s : s.Sound)  :
    (State.queueOp s r).Sound := by
  unfold State.queueOp
  (try dsimp only)
  repeat' first
    | assumption
    | with_reducible apply State.refuseStep_sound
    | with_reducible apply State.failWith_sound
    | with_reducible apply State.answerPop_sound
    | with_reducible apply State.answer_sound
    | with_reducible apply State.appendEntries_sound
    | with_reducible apply State.popEntries_sound
    | with_reducible apply State.spaceLines_sound
    | with_reducible apply State.stepDone_sound
    | intro _
    | with_reducible split
    | (simp only [sound_mk]; constructor)
    | with_reducible apply State.Sound.mem_wf
    | with_reducible apply State.Sound.cores_ok
  all_goals simp_all

@[simp] theorem State.queueStep_sound {s : State} (req : Nat) (hs : s.Sound)  :
    (State.queueStep s req).Sound := by
  unfold State.queueStep
  repeat' split
  all_goals simp_all

@[simp] theorem remoteCopy_sound (i : Instr) (x : Xm) (put : Bool) (ga : Nat) (la : Nat) (n : Nat) {s : State} (hs : s.Sound)  :
    (remoteCopy i x put ga la n s).Sound := by
  unfold remoteCopy
  (try dsimp only)
  repeat' first
    | assumption
    | with_reducible apply State.retire_sound
    | with_reducible apply State.block_sound
    | with_reducible apply State.takeTrap_sound
    | with_reducible apply State.retireOp_sound
    | with_reducible apply State.holdElems_sound
    | with_reducible apply State.startOp_sound
    | with_reducible apply State.holdRequest_sound
    | intro _
    | with_reducible split
    | (simp only [sound_mk]; constructor)
    | with_reducible apply State.Sound.mem_wf
    | with_reducible apply State.Sound.cores_ok
  all_goals simp_all

@[simp] theorem State.windowRead_sound {s : State} (r : Request) (va : Nat) (n : Nat) (hs : s.Sound)  :
    (State.windowRead s r va n).2.Sound := by
  unfold State.windowRead
  dsimp only
  repeat' split
  all_goals simp_all [State.foldl_sound, State.modCore_sound]

@[simp] theorem State.engineRead_sound (r : Request) (l : List (Place × Nat)) : ∀ {s : State}, s.Sound →
    (s.engineRead r l).2.Sound := by
  induction l with
  | nil => intro s hs; exact hs
  | cons q l ih =>
    intro s hs
    unfold State.engineRead
    extract_lets c first
    have h1 : first.2.Sound := by
      unfold first
      split
      · exact State.windowRead_sound _ _ _ hs
      · exact State.loadAtHome_sound _ _ hs
      · exact hs
      · exact State.touchLines_sound _ _ _ hs
    clear_value first
    split
    · exact h1
    · exact ih h1

@[simp] theorem State.sourceBytes_sound (r : Request) (l : List (Place × Nat)) : ∀ {s : State}, s.Sound →
    (s.sourceBytes r l).2.Sound := by
  induction l with
  | nil => intro s hs; exact hs
  | cons q l ih =>
    intro s hs
    unfold State.sourceBytes
    extract_lets first
    have h1 : first.2.Sound := by
      unfold first
      split
      · exact State.windowRead_sound _ _ _ hs
      · exact hs
      · exact State.touchLines_sound _ _ _ hs
    clear_value first
    split
    · exact h1
    · exact ih h1

@[simp] theorem State.crossing_sound {s : State} (d : Nat) (reads : Bool) (ps : List (Place × Nat)) (hs_s : s.Sound)  :
    (State.crossing s d reads ps).Sound := by
  unfold State.crossing
  (try dsimp only)
  repeat' first
    | assumption
    | with_reducible apply State.across_sound
    | with_reducible apply State.foldl_sound
    | intro _
    | with_reducible split
    | (simp only [sound_mk]; constructor)
    | with_reducible apply State.Sound.mem_wf
    | with_reducible apply State.Sound.cores_ok
  all_goals simp_all

@[simp] theorem State.loadParts_sound (l : List (Place × Nat)) : ∀ {s : State}, s.Sound → (s.loadParts l).2.Sound := by
  induction l with
  | nil => intro s hs; exact hs
  | cons q l ih =>
    intro s hs
    unfold State.loadParts
    extract_lets g
    have h1 : g.2.Sound := State.loadAtHome_sound _ _ hs
    clear_value g
    split
    · exact h1
    · exact ih (State.note_sound _ _ h1)

@[simp] theorem State.readTable_sound {s : State} (i : Instr) (va n : Nat) {k : Option (List Byte) → State → State}
    (hs : s.Sound) (hk : ∀ b t, t.Sound → (k b t).Sound) : (s.readTable i va n k).Sound := by
  unfold State.readTable
  refine State.reach_sound _ _ _ _ _ hs fun ps t ht => ?_
  split
  · exact State.takeTrap_sound _ ht
  · exact hk _ _ (State.loadParts_sound _ ht)

@[simp] theorem teamInstall_sound (i : Instr) (base : Word) {s : State} (hs : s.Sound)  :
    (teamInstall i base s).Sound := by
  unfold teamInstall
  (try dsimp only)
  repeat' first
    | assumption
    | with_reducible apply State.upd_sound
    | with_reducible apply State.retire_sound
    | with_reducible apply State.readTable_sound
    | intro _
    | with_reducible split
    | (simp only [sound_mk]; constructor)
    | with_reducible apply State.Sound.mem_wf
    | with_reducible apply State.Sound.cores_ok
  all_goals simp_all

@[simp] theorem State.modColl_sound {s : State} (i : Nat) (f : CollInst → CollInst) (hs : s.Sound)  :
    (State.modColl s i f).Sound := hs

@[simp] theorem State.modPart_sound {s : State} (i : Nat) (m : Nat) (f : MemberPart → MemberPart) (hs : s.Sound)  :
    (State.modPart s i m f).Sound := hs

@[simp] theorem State.sendMembers_sound {s : State} (c : CollInst) (ms : List Nat) (hs : s.Sound)  :
    (State.sendMembers s c ms).Sound := by
  unfold State.sendMembers
  (try dsimp only)
  repeat' first
    | assumption
    | with_reducible apply State.sendTo_sound
    | with_reducible apply State.foldl_sound
    | intro _
    | with_reducible split
    | (simp only [sound_mk]; constructor)
    | with_reducible apply State.Sound.mem_wf
    | with_reducible apply State.Sound.cores_ok
  all_goals simp_all

@[simp] theorem State.decide_sound {s : State} (i : Nat) (code : BitVec 8) (lost : Nat) (ea : Word) (hs : s.Sound)  :
    (State.decide s i code lost ea).Sound := by
  unfold State.decide
  (try dsimp only)
  repeat' first
    | assumption
    | with_reducible apply State.due_sound
    | with_reducible apply State.modColl_sound
    | with_reducible apply State.sendMembers_sound
    | intro _
    | with_reducible split
    | (simp only [sound_mk]; constructor)
    | with_reducible apply State.Sound.mem_wf
    | with_reducible apply State.Sound.cores_ok
  all_goals simp_all

@[simp] theorem State.areaRefused_sound {s : State} (i : Nat) (job : BitVec 12) (from_ area code va : Nat) (hs : s.Sound) :
    (s.areaRefused i job from_ area code va).Sound := State.decide_sound _ _ _ _ (State.logRefusal_sound _ _ _ _ _ _ hs)

@[simp] theorem State.storeArea_sound {s : State} (p : MemberPart) (va : Nat) (cells : List Host.Cell) (hs_s : s.Sound)  :
    (State.storeArea s p va cells).Sound := by
  unfold State.storeArea
  (try dsimp only)
  repeat' first
    | assumption
    | with_reducible apply State.storeEach_sound
    | intro _
    | with_reducible split
    | (simp only [sound_mk]; constructor)
    | with_reducible apply State.Sound.mem_wf
    | with_reducible apply State.Sound.cores_ok
  all_goals simp_all

@[simp] theorem State.pump_sound (team : Word) (m peer n : Nat) : ∀ {s : State}, s.Sound → (State.pump team m peer n s).Sound := by
  induction n with
  | zero => intro s hs; exact hs
  | succ n ih =>
    intro s hs
    unfold State.pump
    split
    · exact hs
    · split
      · exact hs
      · extract_lets h bs mine
        split
        · exact hs
        · split
          · exact State.areaRefused_sound _ _ _ _ _ _ hs
          · split
            · exact hs
            · extract_lets slot
              split
              · exact State.areaRefused_sound _ _ _ _ _ _ hs
              · exact State.areaRefused_sound _ _ _ _ _ _ hs
              · exact ih (State.due_sound _ (State.modColl_sound _ _ (State.storeArea_sound _ _ _ (State.storeArea_sound _ _ _
                  (State.sendTo_sound _ _ _ (State.sendTo_sound _ _ _ hs))))))

@[simp] theorem State.pumpAll_sound {s : State} (i : Nat) (m : Nat) (hs : s.Sound)  :
    (State.pumpAll s i m).Sound := by
  unfold State.pumpAll
  dsimp only
  repeat' split
  all_goals simp_all [State.foldl_sound, State.modCore_sound]

@[simp] theorem State.pumpEvery_sound {s : State} (hs : s.Sound)  :
    (State.pumpEvery s).Sound := by
  unfold State.pumpEvery
  (try dsimp only)
  repeat' first
    | assumption
    | with_reducible apply State.pumpAll_sound
    | with_reducible apply State.foldl_sound
    | intro _
    | with_reducible split
    | (simp only [sound_mk]; constructor)
    | with_reducible apply State.Sound.mem_wf
    | with_reducible apply State.Sound.cores_ok
  all_goals simp_all

@[simp] theorem State.checkCombined_sound {s : State} (i : Nat) (m : Nat) (hs : s.Sound)  :
    (State.checkCombined s i m).Sound := by
  unfold State.checkCombined
  (try dsimp only)
  repeat' first
    | assumption
    | with_reducible apply State.due_sound
    | with_reducible apply State.modPart_sound
    | with_reducible apply State.sendTo_sound
    | intro _
    | with_reducible split
    | (simp only [sound_mk]; constructor)
    | with_reducible apply State.Sound.mem_wf
    | with_reducible apply State.Sound.cores_ok
  all_goals simp_all

@[simp] theorem State.beginColl_sound {s : State} (i : Instr) (h : CollHead) (src dst : Word) (ps ds : List (Place × Nat))
    (hs : s.Sound) : (s.beginColl i h src dst ps ds).Sound := by
  unfold State.beginColl
  extract_lets m number old op s1 idx at_ pod s2 s3 s4 s5
  have h1 : s1.Sound := State.startOp_sound _ _ _ _ (State.upd_sound _ hs)
  clear_value s1
  have h2 : s2.Sound := by
    unfold s2
    split
    · exact State.modColl_sound _ _ h1
    · exact h1
  clear_value s2
  have h3 : s3.Sound := State.modPart_sound _ _ _ h2
  clear_value s3
  have h4 : s4.Sound := by
    unfold s4
    split
    · split
      · exact h3
      · exact State.decide_sound _ _ _ _ h3
      · exact h3
    · exact h3
  clear_value s4
  have h5 : s5.Sound := by unfold s5; split <;> exact h4
  clear_value s5
  exact State.retire_sound (State.hold_sound _ _ h5)

@[simp] theorem collective_sound (i : Instr) (kind : CollKind) (op : RedOp) (root : Nat) (w : Wd) (r : Hart) {s : State}
    (hs : s.Sound) : (collective i kind op root w r s).Sound := by
  unfold collective
  extract_lets c src dst
  split
  · split
    · exact State.takeTrap_sound _ hs
    · extract_lets h ns nd both held
      split
      · exact hs
      · have h1 : held.Sound := State.holdElems_sound _ _ hs
        clear_value held
        split
        · exact State.takeTrap_sound _ h1
        · split
          · exact h1
          · exact State.beginColl_sound _ _ _ _ _ _ h1
  · exact State.takeTrap_sound _ hs

@[simp] theorem State.contribute_sound {s : State} (i m : Nat) (hs : s.Sound) : (s.contribute i m).Sound := by
  unfold State.contribute
  split
  · exact hs
  · extract_lets p bs
    split
    · exact hs
    · have h1 : bs.2.Sound := State.sourceBytes_sound _ _ hs
      clear_value bs
      split
      · exact State.decide_sound _ _ _ _ h1
      · exact State.decide_sound _ _ _ _ h1
      · exact State.checkCombined_sound _ _ (State.pumpAll_sound _ _ (State.modPart_sound _ _ _ h1))

@[simp] theorem State.arrive_sound {s : State} (i : Nat) (m : Nat) (sender : Nat) (hs : s.Sound)  :
    (State.arrive s i m sender).Sound := by
  unfold State.arrive
  (try dsimp only)
  repeat' first
    | assumption
    | with_reducible apply State.due_sound
    | with_reducible apply State.modColl_sound
    | with_reducible apply State.areaRefused_sound
    | with_reducible apply State.modPart_sound
    | with_reducible apply State.pumpAll_sound
    | with_reducible apply State.checkCombined_sound
    | with_reducible apply State.sendTo_sound
    | intro _
    | with_reducible split
    | (simp only [sound_mk]; constructor)
    | with_reducible apply State.Sound.mem_wf
    | with_reducible apply State.Sound.cores_ok
  all_goals simp_all

@[simp] theorem State.release_sound {s : State} (i : Nat) (m : Nat) (sender : Nat) (hs : s.Sound)  :
    (State.release s i m sender).Sound := by
  unfold State.release
  dsimp only
  repeat' split
  all_goals simp_all [State.foldl_sound, State.modCore_sound]

@[simp] theorem State.readyAt_sound {s : State} (i : Nat) (m : Nat) (hs : s.Sound)  :
    (State.readyAt s i m).Sound := by
  unfold State.readyAt
  (try dsimp only)
  repeat' first
    | assumption
    | with_reducible apply State.due_sound
    | with_reducible apply State.modPart_sound
    | with_reducible apply State.decide_sound
    | with_reducible apply State.modColl_sound
    | with_reducible apply State.sendMembers_sound
    | intro _
    | with_reducible split
    | (simp only [sound_mk]; constructor)
    | with_reducible apply State.Sound.mem_wf
    | with_reducible apply State.Sound.cores_ok
  all_goals simp_all

@[simp] theorem State.writeBlend_sound {s : State} (d : Nat) (width : Nat) (p : Place) (bs : List Byte) (hs_s : s.Sound)  :
    (State.writeBlend s d width p bs).Sound := by
  unfold State.writeBlend
  (try dsimp only)
  repeat' first
    | assumption
    | with_reducible apply State.spadWrite_sound
    | with_reducible apply State.storeHome_sound
    | with_reducible apply State.foldl_sound
    | intro _
    | with_reducible split
    | (simp only [sound_mk]; constructor)
    | with_reducible apply State.Sound.mem_wf
    | with_reducible apply State.Sound.cores_ok
  all_goals simp_all

@[simp] theorem State.writeDest_sound {s : State} (p : MemberPart) (vs : List Nat) (hs_s : s.Sound)  :
    (State.writeDest s p vs).Sound := by
  unfold State.writeDest
  (try dsimp only)
  repeat' first
    | assumption
    | with_reducible apply State.writeBlend_sound
    | with_reducible apply State.foldl_sound
    | intro _
    | with_reducible split
    | (simp only [sound_mk]; constructor)
    | with_reducible apply State.Sound.mem_wf
    | with_reducible apply State.Sound.cores_ok
  all_goals simp_all

@[simp] theorem State.commitAt_sound {s : State} (i : Nat) (m : Nat) (hs : s.Sound)  :
    (State.commitAt s i m).Sound := by
  unfold State.commitAt
  (try dsimp only)
  repeat' first
    | assumption
    | with_reducible apply State.due_sound
    | with_reducible apply State.writeDest_sound
    | with_reducible apply State.modPart_sound
    | with_reducible apply State.performed_sound
    | with_reducible apply State.land_sound
    | intro _
    | with_reducible split
    | (simp only [sound_mk]; constructor)
    | with_reducible apply State.Sound.mem_wf
    | with_reducible apply State.Sound.cores_ok
  all_goals simp_all

@[simp] theorem State.drainFlow_sound {s : State} (p : MemberPart) (m : Nat) (peer : Nat) (hs : s.Sound)  :
    (State.drainFlow s p m peer).Sound := by
  unfold State.drainFlow
  repeat' split
  all_goals simp_all

@[simp] theorem State.abortAt_sound {s : State} (i : Nat) (m : Nat) (code : BitVec 8) (lost : Nat) (hs : s.Sound)  :
    (State.abortAt s i m code lost).Sound := by
  unfold State.abortAt
  (try dsimp only)
  repeat' first
    | assumption
    | with_reducible apply State.modHart_sound
    | with_reducible apply State.due_sound
    | with_reducible apply State.drainFlow_sound
    | with_reducible apply State.modPart_sound
    | with_reducible apply State.logFor_sound
    | with_reducible apply State.noteStatus_sound
    | with_reducible apply State.land_sound
    | with_reducible apply State.foldl_sound
    | intro _
    | with_reducible split
    | (simp only [sound_mk]; constructor)
    | with_reducible apply State.Sound.mem_wf
    | with_reducible apply State.Sound.cores_ok
  all_goals simp_all

@[simp] theorem State.watchdogAt_sound {s : State} (i : Nat) (m : Nat) (hs_s : s.Sound)  :
    (State.watchdogAt s i m).Sound := by
  unfold State.watchdogAt
  (try dsimp only)
  repeat' first
    | assumption
    | with_reducible apply State.due_sound
    | with_reducible apply State.decide_sound
    | intro _
    | with_reducible split
    | (simp only [sound_mk]; constructor)
    | with_reducible apply State.Sound.mem_wf
    | with_reducible apply State.Sound.cores_ok
  all_goals simp_all

@[simp] theorem State.recall_sound {s : State} (gone : Instr → Bool) (hs : s.Sound)  :
    (State.recall s gone).Sound := hs

@[simp] theorem State.resolveLost_sound {s : State} (i : Nat) (die : Nat) (before : Nat) (hs : s.Sound)  :
    (State.resolveLost s i die before).Sound := by
  unfold State.resolveLost
  (try dsimp only)
  repeat' first
    | assumption
    | with_reducible apply State.due_sound
    | with_reducible apply State.recall_sound
    | with_reducible apply State.sendMembers_sound
    | with_reducible apply State.modColl_sound
    | with_reducible apply State.decide_sound
    | intro _
    | with_reducible split
    | (simp only [sound_mk]; constructor)
    | with_reducible apply State.Sound.mem_wf
    | with_reducible apply State.Sound.cores_ok
  all_goals simp_all

@[simp] theorem State.loseDie_sound {s : State} (die : Nat) (hs : s.Sound)  :
    (State.loseDie s die).Sound := by
  unfold State.loseDie
  dsimp only
  repeat' split
  all_goals simp_all [State.foldl_sound, State.modCore_sound]

@[simp] theorem State.failPage_sound {s : State} (r : Request) (at_ : PageFail) (f : PageFail) (hs : s.Sound)  :
    (State.failPage s r at_ f).Sound := by
  unfold State.failPage
  repeat' split
  all_goals simp_all

@[simp] theorem State.keyAppend_sound {s : State} (r : Request) (f : Fmt) (hs_s : s.Sound)  :
    (State.keyAppend s r f).Sound := by
  unfold State.keyAppend
  (try dsimp only)
  repeat' first
    | assumption
    | with_reducible apply State.failPage_sound
    | with_reducible apply State.closeRequest_sound
    | with_reducible apply State.spaceStore_sound
    | with_reducible apply State.stepDone_sound
    | intro _
    | with_reducible split
    | (simp only [sound_mk]; constructor)
    | with_reducible apply State.Sound.mem_wf
    | with_reducible apply State.Sound.cores_ok
  all_goals simp_all

@[simp] theorem State.keyStep_sound {s : State} (req : Nat) (hs : s.Sound)  :
    (State.keyStep s req).Sound := by
  unfold State.keyStep
  repeat' split
  all_goals simp_all

@[simp] theorem State.finishBound_sound {s : State} (h : Nat) (op : Nat) (list : Nat) (d : Operand) (read : List (Nat × Nat)) (pages : List Nat) (hs_s : s.Sound)  :
    (State.finishBound s h op list d read pages).Sound := by
  unfold State.finishBound
  (try dsimp only)
  repeat' first
    | assumption
    | with_reducible apply State.holdSpadAt_sound
    | with_reducible apply State.note_sound
    | with_reducible apply State.deliver_sound
    | with_reducible apply State.performed_sound
    | intro _
    | with_reducible split
    | (simp only [sound_mk]; constructor)
    | with_reducible apply State.Sound.mem_wf
    | with_reducible apply State.Sound.cores_ok
  all_goals simp_all

@[simp] theorem State.noteRead_sound {s : State} (r : Request) (at_ : List (Nat × Nat)) (hs_s : s.Sound)  :
    (State.noteRead s r at_).Sound := by
  unfold State.noteRead
  (try dsimp only)
  repeat' first
    | assumption
    | with_reducible apply State.modRequest_sound
    | intro _
    | with_reducible split
    | (simp only [sound_mk]; constructor)
    | with_reducible apply State.Sound.mem_wf
    | with_reducible apply State.Sound.cores_ok
  all_goals simp_all

@[simp] theorem State.boundPage_sound {s : State} (r : Request) (e : ReqElem) (hs : s.Sound) : (s.boundPage r e).Sound := by
  unfold State.boundPage
  split
  · extract_lets g
    have h1 : g.2.Sound := State.engineRead_sound _ _ hs
    clear_value g
    split <;> exact State.modRequest_sound _ _ h1
  · exact State.modRequest_sound _ _ hs
  · exact hs

@[simp] theorem State.boundEnd_sound {s : State} (r : Request) (hs_s : s.Sound)  :
    (State.boundEnd s r).Sound := by
  unfold State.boundEnd
  (try dsimp only)
  repeat' first
    | assumption
    | with_reducible apply State.finishBound_sound
    | intro _
    | with_reducible split
    | (simp only [sound_mk]; constructor)
    | with_reducible apply State.Sound.mem_wf
    | with_reducible apply State.Sound.cores_ok
  all_goals simp_all

@[simp] theorem State.inCycle_sound {s : State} (c : Nat) {f : State → State} (hs : s.Sound) (hf : ∀ t, t.Sound → (f t).Sound) :
    (s.inCycle c f).Sound :=
  State.modCore_sound _ (hf _ (State.modCore_sound _ hs fun _ h => h)) fun _ h => h

@[simp] theorem State.modRack_sound {s : State} (c : Nat) (k : Nat) (f : RackChannel → RackChannel) (hs : s.Sound)  :
    (State.modRack s c k f).Sound := by
  unfold State.modRack
  (try dsimp only)
  repeat' first
    | assumption
    | with_reducible apply State.modCore_sound
    | intro _
    | with_reducible split
    | (simp only [sound_mk]; constructor)
    | with_reducible apply State.Sound.mem_wf
    | with_reducible apply State.Sound.cores_ok
  all_goals simp_all

@[simp] theorem State.stopRack_sound {s : State} (c : Nat) (k : Nat) (m : RackCmd) (err : Nat) (addr : Word) (hs : s.Sound)  :
    (State.stopRack s c k m err addr).Sound := by
  unfold State.stopRack
  (try dsimp only)
  repeat' first
    | assumption
    | with_reducible apply State.modRack_sound
    | with_reducible apply State.noteStatus_sound
    | with_reducible apply State.performed_sound
    | with_reducible apply State.land_sound
    | intro _
    | with_reducible split
    | (simp only [sound_mk]; constructor)
    | with_reducible apply State.Sound.mem_wf
    | with_reducible apply State.Sound.cores_ok
  all_goals simp_all

@[simp] theorem State.finishRack_sound {s : State} (c : Nat) (k : Nat) (m : RackCmd) (hs : s.Sound)  :
    (State.finishRack s c k m).Sound := by
  unfold State.finishRack
  (try dsimp only)
  repeat' first
    | assumption
    | with_reducible apply State.modHart_sound
    | with_reducible apply State.modRack_sound
    | with_reducible apply State.modOp_sound
    | with_reducible apply State.performed_sound
    | with_reducible apply State.land_sound
    | intro _
    | with_reducible split
    | (simp only [sound_mk]; constructor)
    | with_reducible apply State.Sound.mem_wf
    | with_reducible apply State.Sound.cores_ok
  all_goals simp_all

@[simp] theorem State.rackGo_sound (c k n : Nat) : ∀ {s : State}, s.Sound → (State.rackGo c k n s).Sound := by
  induction n with
  | zero => intro s hs; exact hs
  | succ n ih =>
    intro s hs
    unfold State.rackGo
    split
    · exact hs
    · split
      · split
        · exact hs
        · exact ih (State.modRack_sound _ _ _ hs)
      · split
        · exact ih (State.stopRack_sound _ _ _ _ _ hs)
        · split
          · exact ih (State.finishRack_sound _ _ _ hs)
          · split <;> exact hs

@[simp] theorem State.settleMarks_sound {s : State} (c : Nat) (hs : s.Sound) : (s.settleMarks c).Sound := by
  unfold State.settleMarks
  exact State.foldl_sound _ hs fun _ _ h => State.foldl_sound _ h fun _ _ h => State.land_sound _ _ h

@[simp] theorem State.pushRack_sound {s : State} (i : Instr) (k : Nat) (words : List Word) (list : Option KeyList) (hs : s.Sound) :
    (State.pushRack s i k words list).Sound := by
  unfold State.pushRack
  extract_lets c old id m0 m regs nb s1 s2 s3
  have h1 : s1.Sound := State.modOp_sound _ _ _ (State.startOp_sound _ _ _ _ hs)
  clear_value s1
  have h2 : s2.Sound := by unfold s2; split <;> exact h1
  clear_value s2
  exact State.retire_sound (State.settleMarks_sound _ (State.rackGo_sound _ _ _ (State.modRack_sound _ _ _ h2)))

@[simp] theorem State.popStatus_sound {s : State} (k : Nat) (v : RackStatus) (hs : s.Sound) : (State.popStatus s k v).Sound :=
  State.note_sound _ _ (State.settleMarks_sound _ (State.modRack_sound _ _ _ hs))

@[simp] theorem State.asPusher_sound {s : State} (m : RackCmd) (hs : s.Sound)  :
    (State.asPusher s m).Sound := hs

@[simp] theorem State.rackParts_sound (r : Request) (l : List (Place × Nat)) : ∀ {s : State}, s.Sound →
    (s.rackParts r l).2.Sound := by
  induction l with
  | nil => intro s hs; exact hs
  | cons q l ih =>
    intro s hs
    unfold State.rackParts
    extract_lets first
    have h1 : first.2.Sound := by
      unfold first
      split
      · exact State.windowRead_sound _ _ _ hs
      · exact State.loadAtHome_sound _ _ hs
      · exact State.touchLines_sound _ _ _ hs
    clear_value first
    split
    · exact h1
    · exact h1
    · have h2 := ih h1
      split
      · rename_i h; rw [h] at h2; exact h2
      · exact h2

@[simp] theorem State.rackSource_sound {s : State} (m : RackCmd) (va : Nat) (n : Nat) (hs_s : s.Sound)  :
    (State.rackSource s m va n).2.Sound := by
  unfold State.rackSource
  (try dsimp only)
  repeat' first
    | assumption
    | with_reducible apply State.crossing_sound
    | with_reducible apply State.rackParts_sound
    | intro _
    | with_reducible split
    | (simp only [sound_mk]; constructor)
    | with_reducible apply State.Sound.mem_wf
    | with_reducible apply State.Sound.cores_ok
  all_goals simp_all

@[simp] theorem State.modHead_sound {s : State} (c : Nat) (k : Nat) (f : RackCmd → RackCmd) (hs : s.Sound)  :
    (State.modHead s c k f).Sound := by
  unfold State.modHead
  repeat' split
  all_goals simp_all

@[simp] theorem State.noteLanded_sound {s : State} (c : Nat) (k : Nat) (n : Nat) (m : RackCmd) (hs_s : s.Sound)  :
    (State.noteLanded s c k n m).Sound := by
  unfold State.noteLanded
  (try dsimp only)
  repeat' first
    | assumption
    | with_reducible apply State.modCore_sound
    | with_reducible apply State.decide_sound
    | with_reducible apply State.modHead_sound
    | intro _
    | with_reducible split
    | (simp only [sound_mk]; constructor)
    | with_reducible apply State.Sound.mem_wf
    | with_reducible apply State.Sound.cores_ok
  all_goals simp_all

@[simp] theorem State.landParts_sound (m : RackCmd) (l : List (Place × Nat)) : ∀ {s : State} (bs : List Byte), s.Sound →
    (s.landParts m l bs).Sound := by
  induction l with
  | nil => intro s bs hs; exact hs
  | cons q l ih =>
    intro s bs hs
    unfold State.landParts
    extract_lets t
    have ht : t.Sound := by
      unfold t
      split
      · exact State.holdSpad_sound _ _ _ _ _ _ hs
      · exact State.holdStore_sound _ _ _ _ _ hs
      · exact hs
    exact ih _ ht

@[simp] theorem State.landMemory_sound {s : State} (c : Nat) (k : Nat) (n : Nat) (m : RackCmd) (v : Nat) (hs_s : s.Sound)  :
    (State.landMemory s c k n m v).Sound := by
  unfold State.landMemory
  (try dsimp only)
  repeat' first
    | assumption
    | with_reducible apply State.due_sound
    | with_reducible apply State.stopRack_sound
    | with_reducible apply State.landParts_sound
    | with_reducible apply State.noteLanded_sound
    | intro _
    | with_reducible split
    | (simp only [sound_mk]; constructor)
    | with_reducible apply State.Sound.mem_wf
    | with_reducible apply State.Sound.cores_ok
  all_goals simp_all

@[simp] theorem State.landRegs_sound {s : State} (c : Nat) (k : Nat) (n : Nat) (m : RackCmd) (v : Nat) (hs : s.Sound)  :
    (State.landRegs s c k n m v).Sound := by
  unfold State.landRegs
  repeat' split
  all_goals simp_all

@[simp] theorem State.landCopy_sound {s : State} (c : Nat) (k : Nat) (n : Nat) (m : RackCmd) (hs : s.Sound)  :
    (State.landCopy s c k n m).Sound := by
  unfold State.landCopy
  (try dsimp only)
  repeat' first
    | assumption
    | with_reducible apply State.due_sound
    | with_reducible apply State.stopRack_sound
    | with_reducible apply State.rackSource_sound
    | with_reducible apply State.modHead_sound
    | with_reducible apply State.landMemory_sound
    | with_reducible apply State.landRegs_sound
    | intro _
    | with_reducible split
    | (simp only [sound_mk]; constructor)
    | with_reducible apply State.Sound.mem_wf
    | with_reducible apply State.Sound.cores_ok
  all_goals simp_all

@[simp] theorem cacheRequest_sound (i : Instr) (kind : ReqKind) (w : Wd) (r : Hart) {s : State} (hs : s.Sound)  :
    (cacheRequest i kind w r s).Sound := by
  unfold cacheRequest
  (try dsimp only)
  repeat' first
    | assumption
    | with_reducible apply State.retire_sound
    | with_reducible apply State.reach_sound
    | with_reducible apply State.takeTrap_sound
    | with_reducible apply State.retireOp_sound
    | with_reducible apply State.startOp_sound
    | with_reducible apply State.holdRequest_sound
    | intro _
    | with_reducible split
    | (simp only [sound_mk]; constructor)
    | with_reducible apply State.Sound.mem_wf
    | with_reducible apply State.Sound.cores_ok
  all_goals simp_all

@[simp] theorem State.dropLine_sound {s : State} (l : L2Line) (hs : s.Sound) : (s.dropLine l).Sound :=
  ⟨Memory.wf_writeCells _ hs.1, hs.2⟩

@[simp] theorem State.handleLines_sound {s : State} (drop : Bool) (key : Nat) (n : Nat) (hs_s : s.Sound)  :
    (State.handleLines s drop key n).Sound := by
  unfold State.handleLines
  (try dsimp only)
  repeat' first
    | assumption
    | with_reducible apply State.modDie_sound
    | with_reducible apply State.dropLine_sound
    | with_reducible apply State.writeBack_sound
    | with_reducible apply State.foldl_sound
    | intro _
    | with_reducible split
    | (simp only [sound_mk]; constructor)
    | with_reducible apply State.Sound.mem_wf
    | with_reducible apply State.Sound.cores_ok
  all_goals simp_all

@[simp] theorem State.accumulate_sound {s : State} (i : Instr) (w : Wd) (tag : Fmt) (out : List (Nat × Nat × Raised)) (hs : s.Sound)  :
    (State.accumulate s i w tag out).Sound := hs

@[simp] theorem State.bindNext_sound {s : State} (c : Nat) (hs : s.Sound) : (s.bindNext c).Sound := by
  unfold State.bindNext
  split
  · exact hs
  · split
    · exact hs
    · rename_i h
      exact State.modCore_sound _ (State.arbitrate_sound c hs h) fun _ h => h

@[simp] theorem State.completeOp_sound {s : State} (h : Nat) (op : Nat) (sort : Op → Bool) (hs : s.Sound)  :
    (State.completeOp s h op sort).Sound := by
  unfold State.completeOp
  repeat' split
  all_goals simp_all

@[simp] theorem State.seal_sound {s : State} (c : Nat) (hs : s.Sound)  :
    (State.seal s c).Sound := by
  unfold State.seal
  (try dsimp only)
  repeat' first
    | assumption
    | with_reducible apply State.due_sound
    | with_reducible apply State.modCore_sound
    | with_reducible apply State.decide_sound
    | with_reducible apply State.settle_sound
    | with_reducible apply State.foldl_sound
    | intro _
    | with_reducible split
    | (simp only [sound_mk]; constructor)
    | with_reducible apply State.Sound.mem_wf
    | with_reducible apply State.Sound.cores_ok
  all_goals simp_all

@[simp] theorem State.failElem_sound {s : State} (r : Request) (e : ReqElem) (code : Nat) (hs : s.Sound)  :
    (State.failElem s r e code).Sound := hs

@[simp] theorem State.refuseElem_sound {s : State} (r : Request) (e : ReqElem) (code : Nat) (hs : s.Sound)  :
    (State.refuseElem s r e code).Sound := by
  unfold State.refuseElem
  repeat' split
  all_goals simp_all

@[simp] theorem State.holdElem_sound {s : State} (r : Request) (e : ReqElem) (hs : s.Sound)  :
    (State.holdElem s r e).Sound := by
  unfold State.holdElem
  repeat' split
  all_goals simp_all

@[simp] theorem State.performedNow_sound {s : State} (r : Request) (hs : s.Sound)  :
    (State.performedNow s r).Sound := hs

@[simp] theorem State.storeElem_sound {s : State} (r : Request) (e : ReqElem) (key : Nat) (bs : List Byte) (hs_s : s.Sound)  :
    (State.storeElem s r e key bs).Sound := by
  unfold State.storeElem
  (try dsimp only)
  repeat' first
    | assumption
    | with_reducible apply State.storeEach_sound
    | with_reducible apply State.holdElem_sound
    | with_reducible apply State.performedNow_sound
    | intro _
    | with_reducible split
    | (simp only [sound_mk]; constructor)
    | with_reducible apply State.Sound.mem_wf
    | with_reducible apply State.Sound.cores_ok
  all_goals simp_all

@[simp] theorem State.atomicAt_sound {s : State} (r : Request) (op : AmoOp) (f : Fmt) (e : ReqElem) (hs_s : s.Sound)  :
    (State.atomicAt s r op f e).Sound := by
  unfold State.atomicAt
  (try dsimp only)
  repeat' first
    | assumption
    | with_reducible apply State.refuseElem_sound
    | with_reducible apply State.storeHome_sound
    | with_reducible apply State.holdElem_sound
    | with_reducible apply State.performedNow_sound
    | with_reducible apply State.modRequest_sound
    | with_reducible apply State.note_sound
    | with_reducible apply State.deliver_sound
    | with_reducible apply State.raiseIn_sound
    | intro _
    | with_reducible split
    | (simp only [sound_mk]; constructor)
    | with_reducible apply State.Sound.mem_wf
    | with_reducible apply State.Sound.cores_ok
  all_goals simp_all

@[simp] theorem State.loadElem_sound {s : State} (r : Request) (e : ReqElem) (hs : s.Sound)  :
    (State.loadElem s r e).Sound := by
  unfold State.loadElem
  (try dsimp only)
  repeat' first
    | assumption
    | with_reducible apply State.loadAtHome_sound
    | with_reducible apply State.failElem_sound
    | with_reducible apply State.deliver_sound
    | with_reducible apply State.note_sound
    | with_reducible apply State.performed_sound
    | with_reducible apply State.modRequest_sound
    | with_reducible apply State.foldl_sound
    | intro _
    | with_reducible split
    | (simp only [sound_mk]; constructor)
    | with_reducible apply State.Sound.mem_wf
    | with_reducible apply State.Sound.cores_ok
  all_goals simp_all

@[simp] theorem State.putElem_sound {s : State} (r : Request) (e : ReqElem) (data : Nat) (hs_s : s.Sound)  :
    (State.putElem s r e data).Sound := by
  unfold State.putElem
  (try dsimp only)
  repeat' first
    | assumption
    | with_reducible apply State.storeElem_sound
    | with_reducible apply State.refuseElem_sound
    | intro _
    | with_reducible split
    | (simp only [sound_mk]; constructor)
    | with_reducible apply State.Sound.mem_wf
    | with_reducible apply State.Sound.cores_ok
  all_goals simp_all

theorem foldl_keeps {α β : Type} {P : β → Prop} {f : β → α → β} (l : List α) {b : β} (hb : P b) (hf : ∀ b a, P b → P (f b a)) :
    P (l.foldl f b) := by
  induction l generalizing b with
  | nil => exact hb
  | cons a l ih => exact ih (hf b a hb)

@[simp] theorem State.copyOut_sound {s : State} (r : Request) (e : ReqElem) (p : Place) (hs : s.Sound) : (s.copyOut r e p).Sound := by
  unfold State.copyOut
  extract_lets fails poisoned step t
  have hf : ∀ (t : State) off code, t.Sound → (fails t off code).Sound := fun t _ _ h => State.failElem_sound _ _ _ h
  split
  · exact hf _ _ _ hs
  · have h1 : t.2.Sound := foldl_keeps (P := fun a : Except Nat (List Byte) × State => a.2.Sound) _
      (State.crossing_sound _ _ _ hs) fun a q ha => by
        unfold step
        split
        · exact ha
        · exact State.sourceBytes_sound _ _ ha
    clear_value t fails
    split
    · exact hf _ _ _ h1
    · exact hf _ _ _ h1
    · exact State.putElem_sound _ _ _ h1

@[simp] theorem State.writeSide_sound {s : State} (r : Request) (p : Place) (bs : List Byte) (hs_s : s.Sound)  :
    (State.writeSide s r p bs).Sound := by
  unfold State.writeSide
  (try dsimp only)
  repeat' first
    | assumption
    | with_reducible apply State.crossing_sound
    | with_reducible apply State.spadWrite_sound
    | with_reducible apply State.storeEach_sound
    | with_reducible apply State.devWrite_sound
    | with_reducible apply State.performedNow_sound
    | intro _
    | with_reducible split
    | (simp only [sound_mk]; constructor)
    | with_reducible apply State.Sound.mem_wf
    | with_reducible apply State.Sound.cores_ok
  all_goals simp_all

@[simp] theorem State.copyIn_sound {s : State} (r : Request) (e : ReqElem) (va : Nat) (p : Place) (hs_s : s.Sound)  :
    (State.copyIn s r e va p).Sound := by
  unfold State.copyIn
  (try dsimp only)
  repeat' first
    | assumption
    | with_reducible apply State.refuseElem_sound
    | with_reducible apply State.readLines_sound
    | with_reducible apply State.holdElem_sound
    | with_reducible apply State.failElem_sound
    | with_reducible apply State.writeSide_sound
    | intro _
    | with_reducible split
    | (simp only [sound_mk]; constructor)
    | with_reducible apply State.Sound.mem_wf
    | with_reducible apply State.Sound.cores_ok
  all_goals simp_all

@[simp] theorem State.performElem_sound {s : State} (r : Request) (e : ReqElem) (hs : s.Sound)  :
    (State.performElem s r e).Sound := by
  unfold State.performElem
  repeat' split
  all_goals simp_all

@[simp] theorem State.endRequest_sound {s : State} (id : Nat) (hs : s.Sound)  :
    (State.endRequest s id).Sound := by
  unfold State.endRequest
  (try dsimp only)
  repeat' first
    | assumption
    | with_reducible apply State.boundEnd_sound
    | with_reducible apply State.acquireFor_sound
    | with_reducible apply State.closeRequest_sound
    | intro _
    | with_reducible split
    | (simp only [sound_mk]; constructor)
    | with_reducible apply State.Sound.mem_wf
    | with_reducible apply State.Sound.cores_ok
  all_goals simp_all

@[simp] theorem State.accessAtHome_sound {s : State} (r : Request) (hs_s : s.Sound)  :
    (State.accessAtHome s r).Sound := by
  unfold State.accessAtHome
  (try dsimp only)
  repeat' first
    | assumption
    | with_reducible apply State.due_sound
    | with_reducible apply State.endRequest_sound
    | with_reducible apply State.modRequest_sound
    | with_reducible apply State.performElem_sound
    | with_reducible apply State.carry_sound
    | intro _
    | with_reducible split
    | (simp only [sound_mk]; constructor)
    | with_reducible apply State.Sound.mem_wf
    | with_reducible apply State.Sound.cores_ok
  all_goals simp_all

@[simp] theorem State.disconnect_sound {s : State} (r : Request) (hs : s.Sound)  :
    (State.disconnect s r).Sound := by
  unfold State.disconnect
  dsimp only
  repeat' split
  all_goals simp_all [State.foldl_sound, State.modCore_sound]

@[simp] theorem State.sendElems_sound {s : State} (r : Request) (hs : s.Sound)  :
    (State.sendElems s r).Sound := by
  unfold State.sendElems
  (try dsimp only)
  repeat' first
    | assumption
    | with_reducible apply State.due_sound
    | with_reducible apply State.sendTo_sound
    | with_reducible apply State.foldl_sound
    | intro _
    | with_reducible split
    | (simp only [sound_mk]; constructor)
    | with_reducible apply State.Sound.mem_wf
    | with_reducible apply State.Sound.cores_ok
  all_goals simp_all

@[simp] theorem State.leaveRequest_sound {s : State} (r : Request) (hs : s.Sound)  :
    (State.leaveRequest s r).Sound := by
  unfold State.leaveRequest
  (try dsimp only)
  repeat' first
    | assumption
    | with_reducible apply State.modRequest_sound
    | with_reducible apply State.disconnect_sound
    | with_reducible apply State.endRequest_sound
    | with_reducible apply State.sendElems_sound
    | intro _
    | with_reducible split
    | (simp only [sound_mk]; constructor)
    | with_reducible apply State.Sound.mem_wf
    | with_reducible apply State.Sound.cores_ok
  all_goals simp_all

@[simp] theorem State.dropEntry_sound {s : State} (c : Nat) (seq : Nat) (hs : s.Sound)  :
    (State.dropEntry s c seq).Sound := by
  unfold State.dropEntry
  (try dsimp only)
  repeat' first
    | assumption
    | with_reducible apply State.modCore_sound
    | intro _
    | with_reducible split
    | (simp only [sound_mk]; constructor)
    | with_reducible apply State.Sound.mem_wf
    | with_reducible apply State.Sound.cores_ok
  all_goals simp_all

@[simp] theorem State.settleFor_sound {s : State} (h : Nat) (op : Option Nat) (hs : s.Sound)  :
    (State.settleFor s h op).Sound := by
  unfold State.settleFor
  repeat' split
  all_goals simp_all

@[simp] theorem State.leaveStore_sound {s : State} (e : CellarEntry) (cells : List Host.Cell) (hint : Option Hint) (op : Option Nat) (hs_s : s.Sound)  :
    (State.leaveStore s e cells hint op).Sound := by
  unfold State.leaveStore
  (try dsimp only)
  repeat' first
    | assumption
    | with_reducible apply State.due_sound
    | with_reducible apply State.modCore_sound
    | with_reducible apply State.across_sound
    | with_reducible apply State.dropEntry_sound
    | with_reducible apply State.storeEach_sound
    | with_reducible apply State.settleFor_sound
    | with_reducible apply State.store_sound
    | with_reducible apply State.foldl_sound
    | intro _
    | with_reducible split
    | (simp only [sound_mk]; constructor)
    | with_reducible apply State.Sound.mem_wf
    | with_reducible apply State.Sound.cores_ok
  all_goals simp_all

@[simp] theorem State.leaveDevice_sound {s : State} (h : Nat) (chip : Nat) (pa : Nat) (n : Nat) (v : Nat) (op : Option Nat) (elem : Nat) (va : Nat) (hs_s : s.Sound)  :
    (State.leaveDevice s h chip pa n v op elem va).Sound := by
  unfold State.leaveDevice
  (try dsimp only)
  repeat' first
    | assumption
    | with_reducible apply State.across_sound
    | with_reducible apply State.devWrite_sound
    | with_reducible apply State.performed_sound
    | with_reducible apply State.settleFor_sound
    | with_reducible apply State.noteStatus_sound
    | intro _
    | with_reducible split
    | (simp only [sound_mk]; constructor)
    | with_reducible apply State.Sound.mem_wf
    | with_reducible apply State.Sound.cores_ok
  all_goals simp_all

@[simp] theorem State.armBy_sound {s : State} (h : Nat) (graph : Word) (d : Operand) (op : Nat) (hs : s.Sound) :
    (s.armBy h graph d op).Sound := by
  unfold State.armBy
  extract_lets a
  have ha : a.2.Sound := by
    unfold a
    split
    · exact hs
    · exact State.armGraph_sound _ _ hs
  clear_value a
  exact State.land_sound _ _ (State.deliver_sound _ _ _ _ _ _ _ _ ha)

@[simp] theorem State.leaveEntry_sound {s : State} (h : Nat) (e : CellarEntry) (hs_s : s.Sound)  :
    (State.leaveEntry s h e).Sound := by
  unfold State.leaveEntry
  (try dsimp only)
  repeat' first
    | assumption
    | with_reducible apply State.due_sound
    | with_reducible apply State.dropEntry_sound
    | with_reducible apply State.store_sound
    | with_reducible apply State.leaveStore_sound
    | with_reducible apply State.leaveRequest_sound
    | with_reducible apply State.sysWrite_sound
    | with_reducible apply State.applyShared_sound
    | with_reducible apply State.land_sound
    | with_reducible apply State.armBy_sound
    | with_reducible apply State.devWrite_sound
    | with_reducible apply State.leaveDevice_sound
    | with_reducible apply State.contribute_sound
    | with_reducible apply State.failGraph_sound
    | intro _
    | with_reducible split
    | (simp only [sound_mk]; constructor)
    | with_reducible apply State.Sound.mem_wf
    | with_reducible apply State.Sound.cores_ok
  all_goals simp_all

@[simp] theorem State.leave_sound {s : State} (h : Nat) (hs : s.Sound)  :
    (State.leave s h).Sound := by
  unfold State.leave
  dsimp only
  repeat' split
  all_goals simp_all [State.foldl_sound, State.modCore_sound]

@[simp] theorem State.signalBarrier_sound {s : State} (r : Request) (a : Nat) (count : Nat) (hs : s.Sound)  :
    (State.signalBarrier s r a count).Sound := by
  unfold State.signalBarrier
  (try dsimp only)
  repeat' first
    | assumption
    | with_reducible apply State.due_sound
    | with_reducible apply State.modCore_sound
    | with_reducible apply State.closeRequest_sound
    | with_reducible apply State.modIsland_sound
    | with_reducible apply State.logRefusal_sound
    | with_reducible apply State.stepDone_sound
    | intro _
    | with_reducible split
    | (simp only [sound_mk]; constructor)
    | with_reducible apply State.Sound.mem_wf
    | with_reducible apply State.Sound.cores_ok
  all_goals simp_all

@[simp] theorem State.signalCounter_sound {s : State} (r : Request) (a count : Nat) (hs : s.Sound) :
    (s.signalCounter r a count).Sound := by
  unfold State.signalCounter
  extract_lets fail
  have hf : ∀ c, (fail s c).Sound := fun c => State.closeRequest_sound _ (State.logRefusal_sound _ _ _ _ _ _ hs)
  clear_value fail
  split
  · exact hf _
  · split
    · exact hf _
    · exact State.stepDone_sound _ (State.holdHome_sound _ _ (State.storeHome_sound _ _ hs))

@[simp] theorem State.signalArrives_sound {s : State} (r : Request) (hs : s.Sound)  :
    (State.signalArrives s r).Sound := by
  unfold State.signalArrives
  repeat' split
  all_goals simp_all

@[simp] theorem State.takeArm_sound {s : State} (d e : Nat) (hs : s.Sound) : (s.takeArm d e).Sound := by
  unfold State.takeArm
  split
  · exact hs
  · split
    · exact hs
    · split
      · exact State.dueNew_sound _ hs
      · exact State.armGraph_sound _ _ (State.storeHome_sound _ _ (State.across_sound _ _ _ _ hs))

@[simp] theorem State.fire_sound {s : State} (d : Nat) (g : GraphRun) (i : Nat) (q : QueueDesc) (n : Nat) (hs : s.Sound)  :
    (State.fire s d g i q n).Sound := by
  unfold State.fire
  (try dsimp only)
  repeat' first
    | assumption
    | with_reducible apply State.modDie_sound
    | with_reducible apply State.seqWrite_sound
    | with_reducible apply State.modRun_sound
    | with_reducible apply State.kick_sound
    | intro _
    | with_reducible split
    | (simp only [sound_mk]; constructor)
    | with_reducible apply State.Sound.mem_wf
    | with_reducible apply State.Sound.cores_ok
  all_goals simp_all

@[simp] theorem State.onQueue_sound {s : State} (d entry node : Nat) (due : QueueDesc → Bool) {f : GraphRun → QueueDesc → State → State}
    (hs : s.Sound) (hf : ∀ g q t, t.Sound → (f g q t).Sound) : (s.onQueue d entry node due f).Sound := by
  unfold State.onQueue
  split
  · exact hs
  · extract_lets s1
    have h1 : s1.Sound := State.seqTouch_sound _ _ _ _ _ _ hs
    clear_value s1
    split
    · exact State.dueNew_sound _ h1
    · split
      · exact hf _ _ _ h1
      · exact State.failGraph_sound _ _ _ _ h1

@[simp] theorem State.fireBatch_sound {s : State} (d : Nat) (entry : Nat) (node : Nat) (hs_s : s.Sound)  :
    (State.fireBatch s d entry node).Sound := by
  unfold State.fireBatch
  (try dsimp only)
  repeat' first
    | assumption
    | with_reducible apply State.onQueue_sound
    | with_reducible apply State.fire_sound
    | with_reducible apply State.dueNew_sound
    | intro _
    | with_reducible split
    | (simp only [sound_mk]; constructor)
    | with_reducible apply State.Sound.mem_wf
    | with_reducible apply State.Sound.cores_ok
  all_goals simp_all

@[simp] theorem State.flush_sound {s : State} (d : Nat) (entry : Nat) (node : Nat) (hs_s : s.Sound)  :
    (State.flush s d entry node).Sound := by
  unfold State.flush
  (try dsimp only)
  repeat' first
    | assumption
    | with_reducible apply State.onQueue_sound
    | with_reducible apply State.fire_sound
    | with_reducible apply State.seqStore_sound
    | with_reducible apply State.modRun_sound
    | with_reducible apply State.runGraph_sound
    | with_reducible apply State.dueNew_sound
    | intro _
    | with_reducible split
    | (simp only [sound_mk]; constructor)
    | with_reducible apply State.Sound.mem_wf
    | with_reducible apply State.Sound.cores_ok
  all_goals simp_all

@[simp] theorem State.beginRestore_sound {s : State} (d : Nat) (r : ReadyGang) (c : Nat) (harts : List Nat) (off : Nat) (hs : s.Sound)  :
    (State.beginRestore s d r c harts off).Sound := by
  unfold State.beginRestore
  repeat' split
  all_goals simp_all

@[simp] theorem State.placeNext_sound {s : State} (d : Nat) (hs : s.Sound)  :
    (State.placeNext s d).Sound := by
  unfold State.placeNext
  dsimp only
  repeat' split
  all_goals simp_all [State.foldl_sound, State.modCore_sound]

@[simp] theorem State.csEvent_sound {s : State} (d : Nat) (event : Nat) (fsub : Nat) (graph : Word) (node : Nat) (gang : Nat) (fault : Word) (hs : s.Sound)  :
    (State.csEvent s d event fsub graph node gang fault).Sound := by
  unfold State.csEvent
  (try dsimp only)
  repeat' first
    | assumption
    | with_reducible apply State.modDie_sound
    | with_reducible apply State.notice_sound
    | with_reducible apply State.logEvent_sound
    | intro _
    | with_reducible split
    | (simp only [sound_mk]; constructor)
    | with_reducible apply State.Sound.mem_wf
    | with_reducible apply State.Sound.cores_ok
  all_goals simp_all

@[simp] theorem State.without_sound {s : State} (d : Nat) (p : PlacedGang) (hs : s.Sound)  :
    (State.without s d p).Sound := by
  unfold State.without
  (try dsimp only)
  repeat' first
    | assumption
    | with_reducible apply State.modHart_sound
    | with_reducible apply State.modDie_sound
    | with_reducible apply State.release_sound
    | with_reducible apply State.foldl_sound
    | intro _
    | with_reducible split
    | (simp only [sound_mk]; constructor)
    | with_reducible apply State.Sound.mem_wf
    | with_reducible apply State.Sound.cores_ok
  all_goals simp_all

@[simp] theorem State.modReady_sound {s : State} (d : Nat) (r : ReadyGang) (f : ReadyGang → ReadyGang) (hs : s.Sound)  :
    (State.modReady s d r f).Sound := hs

@[simp] theorem State.raise_sound {s : State} (d : Nat) (r : ReadyGang) (v : PlacedGang) (hs : s.Sound)  :
    (State.raise s d r v).Sound := by
  unfold State.raise
  (try dsimp only)
  repeat' first
    | assumption
    | with_reducible apply State.modHart_sound
    | with_reducible apply State.modDie_sound
    | with_reducible apply State.due_sound
    | with_reducible apply State.hold_sound
    | with_reducible apply State.modGang_sound
    | with_reducible apply State.foldl_sound
    | intro _
    | with_reducible split
    | (simp only [sound_mk]; constructor)
    | with_reducible apply State.Sound.mem_wf
    | with_reducible apply State.Sound.cores_ok
  all_goals simp_all

@[simp] theorem State.chooseVictim_sound {s : State} (d : Nat) (hs : s.Sound)  :
    (State.chooseVictim s d).Sound := by
  unfold State.chooseVictim
  (try dsimp only)
  repeat' first
    | assumption
    | with_reducible apply State.csEvent_sound
    | with_reducible apply State.modReady_sound
    | with_reducible apply State.dueNew_sound
    | with_reducible apply State.raise_sound
    | intro _
    | with_reducible split
    | (simp only [sound_mk]; constructor)
    | with_reducible apply State.Sound.mem_wf
    | with_reducible apply State.Sound.cores_ok
  all_goals simp_all

@[simp] theorem State.expire_sound {s : State} (d : Nat) (key : Nat) (hs : s.Sound)  :
    (State.expire s d key).Sound := by
  unfold State.expire
  (try dsimp only)
  repeat' first
    | assumption
    | with_reducible apply State.stopAt_sound
    | with_reducible apply State.dueNew_sound
    | with_reducible apply State.foldl_sound
    | intro _
    | with_reducible split
    | (simp only [sound_mk]; constructor)
    | with_reducible apply State.Sound.mem_wf
    | with_reducible apply State.Sound.cores_ok
  all_goals simp_all

@[simp] theorem State.beginSave_sound {s : State} (d : Nat) (p : PlacedGang) (slot : Nat) (hs : s.Sound)  :
    (State.beginSave s d p slot).Sound := by
  unfold State.beginSave
  (try dsimp only)
  repeat' first
    | assumption
    | with_reducible apply State.modDie_sound
    | with_reducible apply State.modCore_sound
    | with_reducible apply State.hold_sound
    | with_reducible apply State.dropRacks_sound
    | intro _
    | with_reducible split
    | (simp only [sound_mk]; constructor)
    | with_reducible apply State.Sound.mem_wf
    | with_reducible apply State.Sound.cores_ok
  all_goals simp_all

@[simp] theorem State.touchArea_sound {s : State} (d : Nat) (sv : SaveRecord) (hk : Nat) (reads : Bool) (run : AreaRun) (hs_s : s.Sound)  :
    (State.touchArea s d sv hk reads run).Sound := by
  unfold State.touchArea
  (try dsimp only)
  repeat' first
    | assumption
    | with_reducible apply State.holdWalk_sound
    | with_reducible apply State.holdHome_sound
    | with_reducible apply State.across_sound
    | with_reducible apply State.bring_sound
    | with_reducible apply State.foldl_sound
    | intro _
    | with_reducible split
    | (simp only [sound_mk]; constructor)
    | with_reducible apply State.Sound.mem_wf
    | with_reducible apply State.Sound.cores_ok
  all_goals simp_all

@[simp] theorem State.freezeOp_sound {s : State} (d : Nat) (key : Nat) (save : Bool) (sv : SaveRecord) (base : Nat) (va : Nat) (fsub : Nat) (code : Option Nat) (read : List (Nat × Nat × BitVec 8)) (hs : s.Sound)  :
    (State.freezeOp s d key save sv base va fsub code read).Sound := by
  unfold State.freezeOp
  (try dsimp only)
  repeat' first
    | assumption
    | with_reducible apply State.modDie_sound
    | with_reducible apply State.logRefusal_sound
    | with_reducible apply State.csEvent_sound
    | intro _
    | with_reducible split
    | (simp only [sound_mk]; constructor)
    | with_reducible apply State.Sound.mem_wf
    | with_reducible apply State.Sound.cores_ok
  all_goals simp_all

@[simp] theorem State.addPoison_sound {s : State} (keys : List Nat) (fresh : Bool) (hs_s : s.Sound)  :
    (State.addPoison s keys fresh).Sound := by
  unfold State.addPoison
  (try dsimp only)
  repeat' first
    | assumption
    | with_reducible apply State.foldl_sound
    | intro _
    | with_reducible split
    | (simp only [sound_mk]; constructor)
    | with_reducible apply State.Sound.mem_wf
    | with_reducible apply State.Sound.cores_ok
  all_goals simp_all

@[simp] theorem State.finishSave_sound {s : State} (d : Nat) (sv : SaveRecord) (p : PlacedGang) (hs : s.Sound)  :
    (State.finishSave s d sv p).Sound := by
  unfold State.finishSave
  (try dsimp only)
  repeat' first
    | assumption
    | with_reducible apply State.modHart_sound
    | with_reducible apply State.modDie_sound
    | with_reducible apply State.modCore_sound
    | with_reducible apply State.release_sound
    | with_reducible apply State.kick_sound
    | with_reducible apply State.runEngine_sound
    | with_reducible apply State.foldl_sound
    | intro _
    | with_reducible split
    | (simp only [sound_mk]; constructor)
    | with_reducible apply State.Sound.mem_wf
    | with_reducible apply State.Sound.cores_ok
  all_goals simp_all

@[simp] theorem State.writeSlot_sound {s : State} (d : Nat) (sv : SaveRecord) (p : PlacedGang) (hs : s.Sound) :
    (s.writeSlot d sv p).Sound := by
  unfold State.writeSlot
  extract_lets base from_ bytes run s1 ranges lost cells wr put s2
  have h1 : s1.Sound := State.touchArea_sound _ _ _ _ _ hs
  clear_value s1
  have h2 : s2.Sound := State.addPoison_sound _ _ (State.addPoison_sound _ _
    (State.foldl_sound _ h1 fun _ _ h => State.storeEach_sound _ _ h))
  clear_value s2
  split
  · exact State.freezeOp_sound _ _ _ _ _ _ _ _ _ h2
  · exact State.finishSave_sound _ _ _ h2

@[simp] theorem State.saveStep_sound {s : State} (d : Nat) (hs : s.Sound) : (s.saveStep d).Sound := by
  unfold State.saveStep
  split
  · exact hs
  · split
    · exact State.runEngine_sound _ hs
    · split
      · exact State.writeSlot_sound _ _ _ hs
      · split
        · exact State.dueNew_sound _ hs
        · split
          · exact State.dueNew_sound _ hs
          · extract_lets s1
            have h1 : s1.Sound := State.beginSave_sound _ _ _ hs
            clear_value s1
            split
            · exact State.writeSlot_sound _ _ _ h1
            · exact h1

@[simp] theorem State.giveRack_sound {s : State} (c : Nat) (k : Nat) (f : RackChannel → RackChannel) (hs : s.Sound)  :
    (State.giveRack s c k f).Sound := by
  unfold State.giveRack
  (try dsimp only)
  repeat' first
    | assumption
    | with_reducible apply State.modCore_sound
    | intro _
    | with_reducible split
    | (simp only [sound_mk]; constructor)
    | with_reducible apply State.Sound.mem_wf
    | with_reducible apply State.Sound.cores_ok
  all_goals simp_all

@[simp] theorem State.resumeHart_sound {s : State} (g : GraphRun) (sv : SaveRecord) (r : SlotRead) (base c rank h : Nat) (hs : s.Sound) :
    (s.resumeHart g sv r base c rank h).Sound := by
  unfold State.resumeHart
  extract_lets rd k early live s1 s2 s3 mine s4 ids place part
  have h3 : s3.Sound :=
    State.modCore_sound _ (State.modHart_sound _ _ (State.acquireFrom_sound _ _ _ (State.setHart_sound _ _ hs))) fun _ h => h
  clear_value s3
  have h4 : s4.Sound := State.foldl_sound _ h3 fun t q ht => by
    extract_lets off m
    split
    · exact ht
    · exact State.rackGo_sound _ _ _ (State.giveRack_sound _ _ _ ht)
  exact h4

@[simp] theorem State.resumeSpad_sound {s : State} (sv : SaveRecord) (r : SlotRead) (c key : Nat) (hs : s.Sound) :
    (s.resumeSpad sv r c key).Sound := by
  unfold State.resumeSpad
  exact State.pinLines_sound _ _ (State.modCore_sound _ hs fun _ h =>
    Memory.wf_writeCells _ (Memory.wf_writeCells _ (Memory.wf_filter _ h)))

@[simp] theorem State.finishRestore_sound {s : State} (d : Nat) (g : GraphRun) (sv : SaveRecord) (r : SlotRead) (p : PlacedGang)
    (base : Nat) (ranks : List Nat) (hs : s.Sound) : (State.finishRestore s d g sv r p base ranks).Sound := by
  unfold State.finishRestore
  extract_lets t g' s1 s2 hartOf s3 s4
  have h1 : s1.Sound := State.resumeSpad_sound _ _ _ _ hs
  clear_value s1
  have h2 : s2.Sound := State.foldl_sound _ h1 fun _ _ h => State.resumeHart_sound _ _ _ _ _ _ _ h
  clear_value s2
  have h3 : s3.Sound := State.foldl_sound _ h2 fun _ _ h => State.giveRack_sound _ _ _ h
  clear_value s3
  exact State.runEngine_sound _ (State.kick_sound _ (State.settleMarks_sound _ (State.modDie_sound _ _ h3)))

@[simp] theorem State.readSlot_sound {s : State} (d : Nat) (g : GraphRun) (sv : SaveRecord) (p : PlacedGang) (hs : s.Sound) :
    (State.readSlot s d g sv p).Sound := by
  unfold State.readSlot
  extract_lets base ranks kept heads ahead rd rest image offs run all s1
  have h1 : s1.Sound := State.touchArea_sound _ _ _ _ _ hs
  clear_value s1
  split
  · exact State.freezeOp_sound _ _ _ _ _ _ _ _ _ h1
  · exact State.finishRestore_sound _ _ _ _ _ _ _ h1

@[simp] theorem State.restoreStep_sound {s : State} (d : Nat) (hs : s.Sound)  :
    (State.restoreStep s d).Sound := by
  unfold State.restoreStep
  repeat' split
  all_goals simp_all

@[simp] theorem State.countShrunk_sound {s : State} (d : Nat) (hs : s.Sound)  :
    (State.countShrunk s d).Sound := hs

@[simp] theorem State.resetCore_sound {s : State} (c : Nat) (hs : s.Sound) : (s.resetCore c).Sound := by
  unfold State.resetCore
  extract_lets d mine s1 back s2 drop pod s3 s4
  have h1 : s1.Sound := State.foldl_sound _ hs fun t g h => State.failGraph_sound _ _ _ _ h
  clear_value s1
  have h3 : s3.Sound := h1
  clear_value s3
  have h4 : s4.Sound := State.modCore_sound _ h3 fun _ _ => rfl
  clear_value s4
  exact State.kick_sound _ (State.runEngine_sound _ (State.dueNew_sound _ h4))

@[simp] theorem State.logCore_sound {s : State} (c : Nat) (kind : Nat) (detail : Word) (hs : s.Sound)  :
    (State.logCore s c kind detail).Sound := by
  unfold State.logCore
  repeat' split
  all_goals simp_all

@[simp] theorem State.failCore_sound {s : State} (c : Nat) (hs : s.Sound) : (s.failCore c).Sound := by
  unfold State.failCore
  extract_lets d s1 n own s2 kk s3 s4
  have h1 : s1.Sound := State.resetCore_sound _ (State.logCore_sound _ _ _ hs)
  clear_value s1
  split
  · exact State.modCore_sound _ h1 fun _ h => h
  · have h3 : s3.Sound := State.modCore_sound _ (State.modDie_sound _ _ h1) fun _ _ => rfl
    exact State.logCore_sound _ _ _ (State.countShrunk_sound _ h3)

@[simp] theorem State.forgetStores_sound {s : State} (c : Nat) (keys : List Nat) (hs : s.Sound)  :
    (State.forgetStores s c keys).Sound := hs

@[simp] theorem State.undoSpad_sound {s : State} (c : Nat) (bytes : List Host.Cell) (lost : List GranPoison) (hs : s.Sound)  :
    (State.undoSpad s c bytes lost).Sound := by
  unfold State.undoSpad
  (try dsimp only)
  repeat' first
    | assumption
    | with_reducible apply State.modCore_sound
    | with_reducible apply State.forgetStores_sound
    | intro _
    | with_reducible split
    | (simp only [sound_mk]; constructor)
    | with_reducible apply State.Sound.mem_wf
    | with_reducible apply State.Sound.cores_ok
  all_goals simp_all

@[simp] theorem State.withdrawEntry_sound (c : Nat) {s : State} (e : CellarEntry) (hs : s.Sound)  :
    (State.withdrawEntry c s e).Sound := by
  unfold State.withdrawEntry
  repeat' split
  all_goals simp_all

@[simp] theorem State.restorePoint_sound {s : State} (c : Nat) (p : CorePoint) (hs : s.Sound) : (s.restorePoint c p).Sound := by
  unfold State.restorePoint
  exact State.modCore_sound _ hs fun k h => foldl_keeps (P := fun k : Core => k.spad.wf = true) _ h fun _ _ h => h

@[simp] theorem State.resumeStops_sound {s : State} (c : Nat) (hs : s.Sound)  :
    (State.resumeStops s c).Sound := by
  unfold State.resumeStops
  (try dsimp only)
  repeat' first
    | assumption
    | with_reducible apply State.modDie_sound
    | with_reducible apply State.dueNew_sound
    | with_reducible apply State.runEngine_sound
    | intro _
    | with_reducible split
    | (simp only [sound_mk]; constructor)
    | with_reducible apply State.Sound.mem_wf
    | with_reducible apply State.Sound.cores_ok
  all_goals simp_all

@[simp] theorem State.rollback_sound {s : State} (c cause : Nat) (hs : s.Sound) : (s.rollback c cause).Sound := by
  unfold State.rollback
  extract_lets k from_ harts point racks arrived restored s1 late s2 s3 s4 gone s5 finish times s6 s7 s8
  split
  · exact hs
  · have h1 : s1.Sound := State.foldl_sound _ hs fun t p h => State.setHart_sound _ _ h
    clear_value s1
    have h2 : s2.Sound := State.foldl_sound _ h1 fun t e h => State.withdrawEntry_sound _ _ h
    clear_value s2
    have h3 : s3.Sound := State.modCore_sound _ h2 fun _ h => h
    clear_value s3
    have h4 : s4.Sound := by
      unfold s4
      clear_value point
      split
      · exact State.restorePoint_sound _ _ h3
      · exact h3
    clear_value s4
    have h5 : s5.Sound := h4
    clear_value s5
    have h6 : s6.Sound := State.modCore_sound _ h5 fun _ h => h
    clear_value s6
    have h7 : s7.Sound := State.settleMarks_sound _
      (State.foldl_sound _ (State.resumeStops_sound _ h6) fun t n h => State.rackGo_sound _ _ _ h)
    clear_value s7
    have h8 : s8.Sound := State.logCore_sound _ _ _ h7
    clear_value s8
    split
    · exact State.failCore_sound _ h8
    · exact h8

@[simp] theorem State.retireGroup_sound {s : State} (c : Nat) (g : Fin 5) (hs : s.Sound) : (s.retireGroup c g).Sound := by
  unfold State.retireGroup
  extract_lets s1 s2 s3
  have h3 : s3.Sound := State.logCore_sound _ _ _ (State.countShrunk_sound _ (State.modCore_sound _ hs fun _ h => h))
  clear_value s3
  split
  · exact State.failCore_sound _ h3
  · split
    · exact State.dueNew_sound _ h3
    · exact h3

@[simp] theorem State.mismatch_sound {s : State} (c : Nat) (g : Fin 5) (hs : s.Sound) : (s.mismatch c g).Sound := by
  unfold State.mismatch
  extract_lets k seen s1
  split
  · exact hs
  · have h1 : s1.Sound := State.rollback_sound _ _ (State.modCore_sound _ hs fun _ h => h)
    clear_value s1
    split
    · exact h1
    · split
      · exact State.failCore_sound _ h1
      · split
        · exact State.retireGroup_sound _ _ h1
        · exact h1

@[simp] theorem State.drained_sound {s : State} (c : Nat) (hs : s.Sound)  :
    (State.drained s c).Sound := by
  unfold State.drained
  dsimp only
  repeat' split
  all_goals simp_all [State.foldl_sound, State.modCore_sound]

@[simp] theorem State.retireWay_sound {s : State} (d : Nat) (w : Nat) (hs : s.Sound)  :
    (State.retireWay s d w).Sound := by
  unfold State.retireWay
  (try dsimp only)
  repeat' first
    | assumption
    | with_reducible apply State.modDie_sound
    | with_reducible apply State.writeBack_sound
    | with_reducible apply State.takeWay_sound
    | with_reducible apply State.foldl_sound
    | intro _
    | with_reducible split
    | (simp only [sound_mk]; constructor)
    | with_reducible apply State.Sound.mem_wf
    | with_reducible apply State.Sound.cores_ok
  all_goals simp_all

@[simp] theorem State.spare_sound {s : State} (d : Nat) (cls : Nat) (unit : Nat) (row : Nat) (addr : Word) (hs : s.Sound)  :
    (State.spare s d cls unit row addr).Sound := by
  unfold State.spare
  repeat' split
  all_goals simp_all

@[simp] theorem State.corrected_sound {s : State} (d : Nat) (cls : Nat) (unit : Nat) (row : Nat) (addr : Word) (hs : s.Sound)  :
    (State.corrected s d cls unit row addr).Sound := by
  unfold State.corrected
  dsimp only
  repeat' split
  all_goals simp_all [State.foldl_sound, State.modCore_sound]

@[simp] theorem State.insertRows_sound {s : State} (c : Nat) (hs : s.Sound)  :
    (State.insertRows s c).Sound := by
  unfold State.insertRows
  (try dsimp only)
  repeat' first
    | assumption
    | with_reducible apply State.modDie_sound
    | with_reducible apply State.dueNew_sound
    | with_reducible apply State.logEvent_sound
    | with_reducible apply State.foldl_sound
    | intro _
    | with_reducible split
    | (simp only [sound_mk]; constructor)
    | with_reducible apply State.Sound.mem_wf
    | with_reducible apply State.Sound.cores_ok
  all_goals simp_all

@[simp] theorem State.loseMem_sound {s : State} (key : Nat) (hs : s.Sound)  :
    (State.loseMem s key).Sound := by
  unfold State.loseMem
  repeat' split
  all_goals simp_all

@[simp] theorem State.loseSpad_sound {s : State} (c : Nat) (off : Nat) (hs : s.Sound)  :
    (State.loseSpad s c off).Sound := by
  unfold State.loseSpad
  dsimp only
  repeat' split
  all_goals simp_all [State.foldl_sound, State.modCore_sound]

@[simp] theorem State.loseReg_sound {s : State} (h : Nat) (r : RegId) (hs : s.Sound)  :
    (State.loseReg s h r).Sound := by
  unfold State.loseReg
  repeat' split
  all_goals simp_all

@[simp] theorem State.dropCopy_sound {s : State} (h : Nat) (key : Nat) (again : Bool) (hs : s.Sound)  :
    (State.dropCopy s h key again).Sound := by
  unfold State.dropCopy
  (try dsimp only)
  repeat' first
    | assumption
    | with_reducible apply State.modHart_sound
    | with_reducible apply State.modDie_sound
    | with_reducible apply State.logEvent_sound
    | with_reducible apply State.loseMem_sound
    | intro _
    | with_reducible split
    | (simp only [sound_mk]; constructor)
    | with_reducible apply State.Sound.mem_wf
    | with_reducible apply State.Sound.cores_ok
  all_goals simp_all

@[simp] theorem State.poisonRuns_sound {s : State} (runs : List (Nat × Nat)) (hs_s : s.Sound)  :
    (State.poisonRuns s runs).Sound := by
  unfold State.poisonRuns
  (try dsimp only)
  repeat' first
    | assumption
    | with_reducible apply State.loseSpad_sound
    | with_reducible apply State.addPoison_sound
    | with_reducible apply State.foldl_sound
    | intro _
    | with_reducible split
    | (simp only [sound_mk]; constructor)
    | with_reducible apply State.Sound.mem_wf
    | with_reducible apply State.Sound.cores_ok
  all_goals simp_all

@[simp] theorem State.loseRequest_sound {s : State} (r : Request) (hs : s.Sound)  :
    (State.loseRequest s r).Sound := by
  unfold State.loseRequest
  repeat' split
  all_goals simp_all

@[simp] theorem State.loseEntry_sound {s : State} (c : Nat) (seq : Nat) (hs : s.Sound)  :
    (State.loseEntry s c seq).Sound := by
  unfold State.loseEntry
  (try dsimp only)
  repeat' first
    | assumption
    | with_reducible apply State.rollback_sound
    | with_reducible apply State.dropEntry_sound
    | with_reducible apply State.poisonRuns_sound
    | with_reducible apply State.logEvent_sound
    | with_reducible apply State.store_sound
    | with_reducible apply State.settleFor_sound
    | with_reducible apply State.loseRequest_sound
    | intro _
    | with_reducible split
    | (simp only [sound_mk]; constructor)
    | with_reducible apply State.Sound.mem_wf
    | with_reducible apply State.Sound.cores_ok
  all_goals simp_all

@[simp] theorem State.doneWhole_sound {s : State} (r : Request) (hs : s.Sound)  :
    (State.doneWhole s r).Sound := by
  unfold State.doneWhole
  repeat' split
  all_goals simp_all

@[simp] theorem State.doubtful_sound {s : State} (r : Request) (lost : List ReqElem) (hs : s.Sound) : (s.doubtful r lost).Sound := by
  unfold State.doubtful
  extract_lets ghost keep s0 ps
  have hk : ∀ t : State, t.Sound → (keep t).Sound := fun t h => h
  clear_value keep
  have h0 : s0.Sound := hs
  clear_value s0
  split
  · split
    · exact hs
    · exact hk _ (State.doneWhole_sound _ h0)
  · split
    · exact hs
    · exact hs
    · exact hk _ (State.foldl_sound _ h0 fun t p h => by
        split
        · exact h
        · exact State.performElem_sound _ _ h)

@[simp] theorem State.resolveRequest_sound {s : State} (a : Nat) (b : Nat) (r : Request) (hs : s.Sound)  :
    (State.resolveRequest s a b r).Sound := by
  unfold State.resolveRequest
  (try dsimp only)
  repeat' first
    | assumption
    | with_reducible apply State.doubtful_sound
    | with_reducible apply State.modRequest_sound
    | with_reducible apply State.closeRequest_sound
    | with_reducible apply State.endRequest_sound
    | with_reducible apply State.foldl_sound
    | intro _
    | with_reducible split
    | (simp only [sound_mk]; constructor)
    | with_reducible apply State.Sound.mem_wf
    | with_reducible apply State.Sound.cores_ok
  all_goals simp_all

@[simp] theorem State.resolveLink_sound {s : State} (a : Nat) (b : Nat) (hs : s.Sound)  :
    (State.resolveLink s a b).Sound := by
  unfold State.resolveLink
  (try dsimp only)
  repeat' first
    | assumption
    | with_reducible apply State.resolveRequest_sound
    | with_reducible apply State.foldl_sound
    | intro _
    | with_reducible split
    | (simp only [sound_mk]; constructor)
    | with_reducible apply State.Sound.mem_wf
    | with_reducible apply State.Sound.cores_ok
  all_goals simp_all

@[simp] theorem State.report_sound {s : State} (d : Nat) (event : Nat) (peer : Nat) (lane : Option Nat) (hs : s.Sound)  :
    (State.report s d event peer lane).Sound := by
  unfold State.report
  repeat' split
  all_goals simp_all

@[simp] theorem State.linkDown_sound {s : State} (d : Nat) (peer : Nat) (hs : s.Sound)  :
    (State.linkDown s d peer).Sound := by
  unfold State.linkDown
  (try dsimp only)
  repeat' first
    | assumption
    | with_reducible apply State.modLink_sound
    | with_reducible apply State.resolveLink_sound
    | with_reducible apply State.report_sound
    | intro _
    | with_reducible split
    | (simp only [sound_mk]; constructor)
    | with_reducible apply State.Sound.mem_wf
    | with_reducible apply State.Sound.cores_ok
  all_goals simp_all

@[simp] theorem State.linkCheck_sound {s : State} (d : Nat) (peer : Nat) (hs : s.Sound)  :
    (State.linkCheck s d peer).Sound := by
  unfold State.linkCheck
  (try dsimp only)
  repeat' first
    | assumption
    | with_reducible apply State.raise_sound
    | with_reducible apply State.modLink_sound
    | with_reducible apply State.report_sound
    | with_reducible apply State.pumpEvery_sound
    | intro _
    | with_reducible split
    | (simp only [sound_mk]; constructor)
    | with_reducible apply State.Sound.mem_wf
    | with_reducible apply State.Sound.cores_ok
  all_goals simp_all

@[simp] theorem State.applyHeld_sound {s : State} (d : Nat) (peer : Nat) (hs : s.Sound)  :
    (State.applyHeld s d peer).Sound := by
  unfold State.applyHeld
  (try dsimp only)
  repeat' first
    | assumption
    | with_reducible apply State.modLink_sound
    | with_reducible apply State.writeReq_sound
    | with_reducible apply State.writeLps_sound
    | intro _
    | with_reducible split
    | (simp only [sound_mk]; constructor)
    | with_reducible apply State.Sound.mem_wf
    | with_reducible apply State.Sound.cores_ok
  all_goals simp_all

@[simp] theorem State.darken_sound {s : State} (d : Nat) (peer : Nat) (hs : s.Sound)  :
    (State.darken s d peer).Sound := hs

@[simp] theorem State.light_sound {s : State} (d : Nat) (peer : Nat) (hs : s.Sound)  :
    (State.light s d peer).Sound := hs

@[simp] theorem State.marker_sound {s : State} (d : Nat) (peer : Nat) (hs : s.Sound)  :
    (State.marker s d peer).Sound := by
  unfold State.marker
  repeat' split
  all_goals simp_all

@[simp] theorem State.dropEnds_sound {s : State} (d : Nat) (peer : Nat) (hs_s : s.Sound)  :
    (State.dropEnds s d peer).Sound := by
  unfold State.dropEnds
  (try dsimp only)
  repeat' first
    | assumption
    | with_reducible apply State.modLink_sound
    | with_reducible apply State.dueNew_sound
    | intro _
    | with_reducible split
    | (simp only [sound_mk]; constructor)
    | with_reducible apply State.Sound.mem_wf
    | with_reducible apply State.Sound.cores_ok
  all_goals simp_all

@[simp] theorem State.completeTransition_sound {s : State} (d : Nat) (peer : Nat) (hs_s : s.Sound)  :
    (State.completeTransition s d peer).Sound := by
  unfold State.completeTransition
  (try dsimp only)
  repeat' first
    | assumption
    | with_reducible apply State.modLink_sound
    | with_reducible apply State.darken_sound
    | with_reducible apply State.linkDown_sound
    | with_reducible apply State.linkCheck_sound
    | with_reducible apply State.dropEnds_sound
    | with_reducible apply State.applyHeld_sound
    | intro _
    | with_reducible split
    | (simp only [sound_mk]; constructor)
    | with_reducible apply State.Sound.mem_wf
    | with_reducible apply State.Sound.cores_ok
  all_goals simp_all

@[simp] theorem State.relocked_sound {s : State} (d : Nat) (peer : Nat) (hs : s.Sound)  :
    (State.relocked s d peer).Sound := by
  unfold State.relocked
  (try dsimp only)
  repeat' first
    | assumption
    | with_reducible apply State.modLink_sound
    | with_reducible apply State.light_sound
    | with_reducible apply State.linkCheck_sound
    | with_reducible apply State.applyHeld_sound
    | intro _
    | with_reducible split
    | (simp only [sound_mk]; constructor)
    | with_reducible apply State.Sound.mem_wf
    | with_reducible apply State.Sound.cores_ok
  all_goals simp_all

@[simp] theorem State.narrow_sound {s : State} (d : Nat) (peer : Nat) (lane : Nat) (hs : s.Sound)  :
    (State.narrow s d peer lane).Sound := by
  unfold State.narrow
  (try dsimp only)
  repeat' first
    | assumption
    | with_reducible apply State.report_sound
    | with_reducible apply State.modLink_sound
    | with_reducible apply State.linkDown_sound
    | with_reducible apply State.applyHeld_sound
    | with_reducible apply State.beginTransition_sound
    | intro _
    | with_reducible split
    | (simp only [sound_mk]; constructor)
    | with_reducible apply State.Sound.mem_wf
    | with_reducible apply State.Sound.cores_ok
  all_goals simp_all

@[simp] theorem State.bothEnds_sound {s : State} (d : Nat) (peer : Nat) (n : Nat) (f : Lane → Lane) (hs : s.Sound)  :
    (State.bothEnds s d peer n f).Sound := hs

@[simp] theorem State.dropLane_sound {s : State} (d : Nat) (peer : Nat) (n : Nat) (hs : s.Sound)  :
    (State.dropLane s d peer n).Sound := by
  unfold State.dropLane
  (try dsimp only)
  repeat' first
    | assumption
    | with_reducible apply State.due_sound
    | with_reducible apply State.bothEnds_sound
    | with_reducible apply State.report_sound
    | intro _
    | with_reducible split
    | (simp only [sound_mk]; constructor)
    | with_reducible apply State.Sound.mem_wf
    | with_reducible apply State.Sound.cores_ok
  all_goals simp_all

@[simp] theorem State.rejoin_sound {s : State} (d : Nat) (peer : Nat) (n : Nat) (hs : s.Sound)  :
    (State.rejoin s d peer n).Sound := by
  unfold State.rejoin
  (try dsimp only)
  repeat' first
    | assumption
    | with_reducible apply State.bothEnds_sound
    | with_reducible apply State.writeReq_sound
    | with_reducible apply State.linkCheck_sound
    | intro _
    | with_reducible split
    | (simp only [sound_mk]; constructor)
    | with_reducible apply State.Sound.mem_wf
    | with_reducible apply State.Sound.cores_ok
  all_goals simp_all

@[simp] theorem State.refreshLane_sound {s : State} (d : Nat) (peer : Nat) (n : Nat) (m : LaneSample) (hs : s.Sound)  :
    (State.refreshLane s d peer n m).Sound := by
  unfold State.refreshLane
  (try dsimp only)
  repeat' first
    | assumption
    | with_reducible apply State.due_sound
    | with_reducible apply State.modLink_sound
    | with_reducible apply State.dropLane_sound
    | with_reducible apply State.rejoin_sound
    | intro _
    | with_reducible split
    | (simp only [sound_mk]; constructor)
    | with_reducible apply State.Sound.mem_wf
    | with_reducible apply State.Sound.cores_ok
  all_goals simp_all

@[simp] theorem State.refreshLanes_sound (d peer : Nat) (l : List (Nat × LaneSample)) : ∀ {s : State}, s.Sound →
    (s.refreshLanes d peer l).Sound := by
  induction l with
  | nil => intro s hs; exact hs
  | cons p l ih => intro s hs; exact ih (State.refreshLane_sound _ _ _ _ hs)

@[simp] theorem State.retrain_sound {s : State} (d : Nat) (peer : Nat) (n : Nat) (good : Bool) (hs : s.Sound)  :
    (State.retrain s d peer n good).Sound := by
  unfold State.retrain
  dsimp only
  repeat' split
  all_goals simp_all [State.foldl_sound, State.modCore_sound]

@[simp] theorem State.flits_sound {s : State} (d : Nat) (peer : Nat) (good : Bool) (hs : s.Sound)  :
    (State.flits s d peer good).Sound := by
  unfold State.flits
  (try dsimp only)
  repeat' first
    | assumption
    | with_reducible apply State.dueNew_sound
    | with_reducible apply State.modLink_sound
    | with_reducible apply State.light_sound
    | intro _
    | with_reducible split
    | (simp only [sound_mk]; constructor)
    | with_reducible apply State.Sound.mem_wf
    | with_reducible apply State.Sound.cores_ok
  all_goals simp_all

@[simp] theorem State.granted_sound {s : State} (chip : Nat) (mw : BitVec 20) (hs : s.Sound)  :
    (State.granted s chip mw).Sound := by
  unfold State.granted
  (try dsimp only)
  repeat' first
    | assumption
    | with_reducible apply State.modDie_sound
    | with_reducible apply State.modPkg_sound
    | with_reducible apply State.dueNew_sound
    | with_reducible apply State.report_sound
    | with_reducible apply State.foldl_sound
    | intro _
    | with_reducible split
    | (simp only [sound_mk]; constructor)
    | with_reducible apply State.Sound.mem_wf
    | with_reducible apply State.Sound.cores_ok
  all_goals simp_all

@[simp] theorem State.switchOff_sound {s : State} (p : Nat × Nat) (hs : s.Sound)  :
    (State.switchOff s p).Sound := by
  unfold State.switchOff
  (try dsimp only)
  repeat' first
    | assumption
    | with_reducible apply State.modLink_sound
    | with_reducible apply State.darken_sound
    | with_reducible apply State.report_sound
    | with_reducible apply State.linkDown_sound
    | with_reducible apply State.applyHeld_sound
    | intro _
    | with_reducible split
    | (simp only [sound_mk]; constructor)
    | with_reducible apply State.Sound.mem_wf
    | with_reducible apply State.Sound.cores_ok
  all_goals simp_all

@[simp] theorem State.shed_sound {s : State} (chip : Nat) (hs : s.Sound)  :
    (State.shed s chip).Sound := by
  unfold State.shed
  (try dsimp only)
  repeat' first
    | assumption
    | with_reducible apply State.modPkg_sound
    | with_reducible apply State.modLink_sound
    | with_reducible apply State.switchOff_sound
    | with_reducible apply State.foldl_sound
    | intro _
    | with_reducible split
    | (simp only [sound_mk]; constructor)
    | with_reducible apply State.Sound.mem_wf
    | with_reducible apply State.Sound.cores_ok
  all_goals simp_all

@[simp] theorem State.gateEntry_sound {s : State} (d : Nat) (i : Nat) (hs : s.Sound)  :
    (State.gateEntry s d i).Sound := by
  unfold State.gateEntry
  repeat' split
  all_goals simp_all

@[simp] theorem State.ungate_sound {s : State} (d : Nat) (i : Nat) (hs : s.Sound)  :
    (State.ungate s d i).Sound := by
  unfold State.ungate
  repeat' split
  all_goals simp_all

@[simp] theorem State.regate_sound {s : State} (d : Nat) (i : Nat) (hs : s.Sound)  :
    (State.regate s d i).Sound := by
  unfold State.regate
  repeat' split
  all_goals simp_all

@[simp] theorem State.capAdjust_sound {s : State} (chip : Nat) (down : Bool) (hs : s.Sound) : (s.capAdjust chip down).Sound :=
  State.foldl_sound _ hs fun _ q h => State.foldl_sound _ h fun _ i h => State.modIsland_sound _ _ _ h

@[simp] theorem State.hostWritePiece_sound {s : State} (chip : Nat) (va : Nat) (bs : List Byte) (hs : s.Sound)  :
    (State.hostWritePiece s chip va bs).Sound := by
  unfold State.hostWritePiece
  (try dsimp only)
  repeat' first
    | assumption
    | with_reducible apply State.sendTo_sound
    | with_reducible apply State.logRefusal_sound
    | with_reducible apply State.storeHome_sound
    | with_reducible apply State.holdHome_sound
    | intro _
    | with_reducible split
    | (simp only [sound_mk]; constructor)
    | with_reducible apply State.Sound.mem_wf
    | with_reducible apply State.Sound.cores_ok
  all_goals simp_all

@[simp] theorem State.hostWrite_sound {s : State} (chip : Nat) (off : Nat) (bs : List Byte) (hs : s.Sound)  :
    (State.hostWrite s chip off bs).Sound := by
  unfold State.hostWrite
  dsimp only
  repeat' split
  all_goals simp_all [State.foldl_sound, State.modCore_sound]

@[simp] theorem State.hostReadPiece_sound {s : State} (chip : Nat) (va : Nat) (n : Nat) (hs_s : s.Sound)  :
    (State.hostReadPiece s chip va n).2.Sound := by
  unfold State.hostReadPiece
  (try dsimp only)
  repeat' first
    | assumption
    | with_reducible apply State.carry_sound
    | with_reducible apply State.logRefusal_sound
    | with_reducible apply State.holdHome_sound
    | intro _
    | with_reducible split
    | (simp only [sound_mk]; constructor)
    | with_reducible apply State.Sound.mem_wf
    | with_reducible apply State.Sound.cores_ok
  all_goals simp_all

@[simp] theorem State.hostRead_sound {s : State} (chip off n : Nat) (hs : s.Sound) : (s.hostRead chip off n).Sound := by
  unfold State.hostRead
  split
  · exact hs
  · exact State.modPkg_sound _ _ (foldl_keeps (P := fun p : Option (List Byte) × State => p.2.Sound) _ hs
      fun p e h => State.hostReadPiece_sound _ _ _ h)

@[simp] theorem State.barWrite_sound {s : State} (chip : Nat) (off : Nat) (v : Word) (hs : s.Sound)  :
    (State.barWrite s chip off v).Sound := by
  unfold State.barWrite
  repeat' split
  all_goals simp_all

@[simp] theorem State.barRead_sound {s : State} (chip : Nat) (off : Nat) (hs : s.Sound)  :
    (State.barRead s chip off).Sound := hs

@[simp] theorem State.linksDown_sound {s : State} (chip : Nat) (hs : s.Sound)  :
    (State.linksDown s chip).Sound := by
  unfold State.linksDown
  (try dsimp only)
  repeat' first
    | assumption
    | with_reducible apply State.linkDown_sound
    | with_reducible apply State.modLink_sound
    | with_reducible apply State.decide_sound
    | with_reducible apply State.dropLane_sound
    | with_reducible apply State.foldl_sound
    | intro _
    | with_reducible split
    | (simp only [sound_mk]; constructor)
    | with_reducible apply State.Sound.mem_wf
    | with_reducible apply State.Sound.cores_ok
  all_goals simp_all

@[simp] theorem State.clearPackage_sound {s : State} (chip : Nat) (hs : s.Sound) : (s.clearPackage chip).Sound := by
  unfold State.clearPackage
  exact ⟨Memory.wf_writeCells _ hs.1, CoresOk.map hs.2 fun p hp => by
    split
    · rfl
    · exact hp⟩

@[simp] theorem State.bootLinks_sound {s : State} (chip : Nat) (hs : s.Sound)  :
    (State.bootLinks s chip).Sound := by
  unfold State.bootLinks
  (try dsimp only)
  repeat' first
    | assumption
    | with_reducible apply State.modLink_sound
    | with_reducible apply State.linkCheck_sound
    | with_reducible apply State.foldl_sound
    | intro _
    | with_reducible split
    | (simp only [sound_mk]; constructor)
    | with_reducible apply State.Sound.mem_wf
    | with_reducible apply State.Sound.cores_ok
  all_goals simp_all

@[simp] theorem State.darkLinks_sound {s : State} (chip : Nat) (hs : s.Sound)  :
    (State.darkLinks s chip).Sound := by
  unfold State.darkLinks
  dsimp only
  repeat' split
  all_goals simp_all [State.foldl_sound, State.modCore_sound]

@[simp] theorem State.coldReset_sound {s : State} (chip : Nat) (ok : Bool) (hs : s.Sound)  :
    (State.coldReset s chip ok).Sound := by
  unfold State.coldReset
  (try dsimp only)
  repeat' first
    | assumption
    | with_reducible apply State.setPkg_sound
    | with_reducible apply State.linksDown_sound
    | with_reducible apply State.clearPackage_sound
    | with_reducible apply State.bootLinks_sound
    | with_reducible apply State.darkLinks_sound
    | intro _
    | with_reducible split
    | (simp only [sound_mk]; constructor)
    | with_reducible apply State.Sound.mem_wf
    | with_reducible apply State.Sound.cores_ok
  all_goals simp_all

@[simp] theorem State.freezePackage_sound {s : State} (chip : Nat) (cause : Word) (hs : s.Sound)  :
    (State.freezePackage s chip cause).Sound := by
  unfold State.freezePackage
  (try dsimp only)
  repeat' first
    | assumption
    | with_reducible apply State.modPkg_sound
    | with_reducible apply State.logEvent_sound
    | with_reducible apply State.linksDown_sound
    | with_reducible apply State.foldl_sound
    | intro _
    | with_reducible split
    | (simp only [sound_mk]; constructor)
    | with_reducible apply State.Sound.mem_wf
    | with_reducible apply State.Sound.cores_ok
  all_goals simp_all

@[simp] theorem State.suffer_sound {s : State} (u : Upset) (hs : s.Sound)  :
    (State.suffer s u).Sound := by
  unfold State.suffer
  repeat' split
  all_goals simp_all

@[simp] theorem State.started_sound {s : State} {t : State} (i : Instr) (hs_s : s.Sound) (hs_t : t.Sound)  :
    (State.started s t i).Sound := by
  unfold State.started
  (try dsimp only)
  repeat' first
    | assumption
    | with_reducible apply State.modHart_sound
    | intro _
    | with_reducible split
    | (simp only [sound_mk]; constructor)
    | with_reducible apply State.Sound.mem_wf
    | with_reducible apply State.Sound.cores_ok
  all_goals simp_all

@[simp] theorem State.keep_sound {s0 : State} {s : State} (hs_s0 : s0.Sound) (hs_s : s.Sound)  :
    (State.keep s0 s).Sound := by
  unfold State.keep
  (try dsimp only)
  repeat' first
    | assumption
    | with_reducible apply State.modCore_sound
    | intro _
    | with_reducible split
    | (simp only [sound_mk]; constructor)
    | with_reducible apply State.Sound.mem_wf
    | with_reducible apply State.Sound.cores_ok
  all_goals simp_all

@[simp] theorem State.leaves_sound {s0 : State} {s : State} (hs_s0 : s0.Sound) (hs_s : s.Sound)  :
    (State.leaves s0 s).Sound := by
  unfold State.leaves
  (try dsimp only)
  repeat' first
    | assumption
    | with_reducible apply State.modCore_sound
    | with_reducible apply State.keep_sound
    | intro _
    | with_reducible split
    | (simp only [sound_mk]; constructor)
    | with_reducible apply State.Sound.mem_wf
    | with_reducible apply State.Sound.cores_ok
  all_goals simp_all

@[simp] theorem State.retireConvoy_sound {s : State} {s0 : State} (pc : Word) (words : List IWord) (hs_s : s.Sound) (hs_s0 : s0.Sound)  :
    (State.retireConvoy s s0 pc words).Sound := by
  unfold State.retireConvoy
  (try dsimp only)
  repeat' first
    | assumption
    | with_reducible apply State.upd_sound
    | with_reducible apply State.stopAt_sound
    | with_reducible apply State.leaves_sound
    | intro _
    | with_reducible split
    | (simp only [sound_mk]; constructor)
    | with_reducible apply State.Sound.mem_wf
    | with_reducible apply State.Sound.cores_ok
  all_goals simp_all

@[simp] theorem State.shielded_sound {s : State} {t : State} (first : Nat) (i : Instr) (hs_s : s.Sound) (hs_t : t.Sound)  :
    (State.shielded s t first i).Sound := by
  unfold State.shielded
  (try dsimp only)
  repeat' first
    | assumption
    | with_reducible apply State.upd_sound
    | intro _
    | with_reducible split
    | (simp only [sound_mk]; constructor)
    | with_reducible apply State.Sound.mem_wf
    | with_reducible apply State.Sound.cores_ok
  all_goals simp_all

@[simp] theorem State.keepTlb_sound {s : State} {t : State} (hs_s : s.Sound) (hs_t : t.Sound)  :
    (State.keepTlb s t).Sound := by
  unfold State.keepTlb
  (try dsimp only)
  repeat' first
    | assumption
    | with_reducible apply State.modCore_sound
    | intro _
    | with_reducible split
    | (simp only [sound_mk]; constructor)
    | with_reducible apply State.Sound.mem_wf
    | with_reducible apply State.Sound.cores_ok
  all_goals simp_all

@[simp] theorem State.undone_sound {s : State} (t : Tail) (u : Undo) (hs_s : s.Sound)  :
    (State.undone s t u).Sound := by
  unfold State.undone
  (try dsimp only)
  repeat' first
    | assumption
    | with_reducible apply State.upd_sound
    | with_reducible apply State.decide_sound
    | with_reducible apply State.foldl_sound
    | intro _
    | with_reducible split
    | (simp only [sound_mk]; constructor)
    | with_reducible apply State.Sound.mem_wf
    | with_reducible apply State.Sound.cores_ok
  all_goals simp_all

@[simp] theorem State.countChecked_sound {s : State} (q : QConvoy) (hs : s.Sound)  :
    (State.countChecked s q).Sound := by
  unfold State.countChecked
  dsimp only
  repeat' split
  all_goals simp_all [State.foldl_sound, State.modCore_sound]

end Sys2Proof.Machine
end

