-- ==== Sys2Proof/Tests/Slice0.lean ====
section
/-! SUPPORT. Tests of the model on values worked out from the spec, and for each statement a state and operands that
meet its hypotheses. -/
namespace Sys2Proof.Tests
set_option Elab.async false
open Sys2Proof Sys2Proof.Machine

/-! ### Words and states for tests -/

/-- A word of plain fields. -/
def wd (f : Fmt) (d a b : Operand) : Wd := ⟨f, .always, d, a, b, 0, false, false, false, false⟩
/-- A register of the main file. -/
def r (n : BitVec 6) : Operand := .main n .plain
/-- A constant. -/
def k (n : BitVec 10) : Operand := .const n
/-- An unused field. -/
def u0 : Operand := .zero
def xm : Xm := ⟨0, 0, .hart, .normal, false⟩
def xmPod : Xm := ⟨0, 0, .pod, .normal, false⟩
def xmCore : Xm := ⟨0, 0, .core, .normal, false⟩
def xx : Xx := ⟨0, 0, .none, .e8m0, 0, 0, .rne⟩

/-! ### Decoding: words written out from the fields of 06 R141 and the codes of 06 R162 -/


/-- `mul x4, x2, x3` -/
theorem test_decode_mul : decodeTableWord 96 0x0400001000800C0000000000 = some (.mul (wd .raw (r 4) (r 2) (r 3))) := by decide

/-- `scmp.ltu x4, x2, x3` -/
theorem test_decode_scmp_ltu : decodeTableWord 96 0x0840001000800C0000000000 = some (.scmp .ltu (wd .raw (r 4) (r 2) (r 3))) := by decide

/-- `lil x4, -2` -/
theorem test_decode_lil : decodeTableWord 96 0x0C000010000000001FFFFFC0 = some (.lil (wd .raw (r 4) u0 u0) (-2)) := by decide

/-- `pandn p1, p2, p3` -/
theorem test_decode_pandn : decodeTableWord 96 0x1030000400800C0000000000 = some (.pandn (wd .raw (r 1) (r 2) (r 3))) := by decide

/-- `lea x4, 16(x2, x3)` -/
theorem test_decode_lea : decodeTableWord 96 0x1400001000800C0000000200 = some (.lea (wd .raw (r 4) (r 2) (r 3)) 16) := by decide

/-- `brc.ge x2, x3, -9` -/
theorem test_decode_brc_ge : decodeTableWord 96 0x20B0000000800C001FFFFEE0 = some (.brc .ge (wd .raw u0 (r 2) (r 3)) (-9)) := by decide

/-- `setvlg.fp32 x4, x2` -/
theorem test_decode_setvlg_fp32 : decodeTableWord 96 0x241600100080000000000000 = some (.setvlg (wd .fp32 (r 4) (r 2) u0)) := by decide

/-- `nbaw.acq.chip x4, nb33` -/
theorem test_decode_nbaw_acq_chip : decodeTableWord 96 0x299000100840000000000100 = some (.nbaw .acq (wd .raw (r 4) (r 33) u0) ⟨0, 0, .chip, .normal, false⟩) := by decide

/-- `mfs x4, frsel` -/
theorem test_decode_mfs : decodeTableWord 96 0x2C0000100000000006020000 = some (.mfs (wd .raw (r 4) u0 u0) 0x301) := by decide

/-- `vlog2.fp16.rup v4, v2` -/
theorem test_decode_vlog2_fp16_rup : decodeTableWord 96 0x44580010008000000C000000 = some (.vlog2 (wd .fp16 (r 4) (r 2) u0) .rup) := by decide

/-- `vcmp.un p2, |v3|, 0` -/
theorem test_decode_vcmp_un : decodeTableWord 96 0x4860000800D6000000000000 = some (.vcmp .un (wd .raw (r 2) (.main 3 .absolute) (k 0))) := by decide

/-- `vqnt.e4m3 v4, v2, 1, scales v40, block 16, e5m2` -/
theorem test_decode_vqnt_e4m3 : decodeTableWord 96 0x4C1900100086008014011000 = some (.vqnt (wd .e4m3 (r 4) (r 2) (k 1)) ⟨40, 0, .b16, .e5m2, 0, 0, .rne⟩) := by decide

/-- `vscan.max v4, v2` -/
theorem test_decode_vscan_max : decodeTableWord 96 0x50A000100080000000000000 = some (.vscan .max (wd .raw (r 4) (r 2) u0) .rne) := by decide

/-- `vunzip v4, v2, v3` -/
theorem test_decode_vunzip : decodeTableWord 96 0x5480001000800C0000000000 = some (.vunzip (wd .raw (r 4) (r 2) (r 3))) := by decide

/-- `drain v4, x2, 3, path 9, w5` -/
theorem test_decode_drain : decodeTableWord 96 0x5C1000100086018000009A00 = some (.drain (wd .raw (r 4) (r 2) (k 3)) ⟨9, 5, .hart, .normal, false⟩) := by decide

/-- `ld.i16 x4, -8(x2)` -/
theorem test_decode_ld_i16 : decodeTableWord 96 0x80030010008000001FFF8000 = some (.ld (wd .i16 (r 4) (r 2) u0) ⟨-8, 0, .hart, .normal, false⟩) := by decide

/-- `vlds v4, x2, x3, hint 3` -/
theorem test_decode_vlds : decodeTableWord 96 0x8420001000800C0000000030 = some (.vlds (wd .raw (r 4) (r 2) (r 3)) ⟨0, 0, .hart, .stream, false⟩) := by decide

/-- `coll.ar.max.pod.fp32.nb x21, x4, 1, w3` -/
theorem test_decode_coll_ar_max_pod_fp32_nb : decodeTableWord 96 0x942600540106008080000740 = some (.collAr .max { wd .fp32 (r 21) (r 4) (k 1) with nb := true } ⟨0, 3, .pod, .normal, false⟩) := by decide

/-- `rkpop x4, 5` -/
theorem test_decode_rkpop : decodeTableWord 96 0x9C1000106028000000000000 = some (.rkpop (wd .raw (r 4) (k 5) u0) ⟨0, 0, .hart, .normal, false⟩) := by decide

/-- `zerol x2, x3` -/
theorem test_decode_zerol : decodeTableWord 96 0xA030000000800C0000000000 = some (.zerol (wd .raw u0 (r 2) (r 3)) ⟨0, 0, .hart, .normal, false⟩) := by decide

/-- `zdrain.bf16 v4, z2, 9` -/
theorem test_decode_zdrain_bf16 : decodeTableWord 96 0xC84700100086048000000000 = some (.zdrain (wd .bf16 (r 4) (r 2) (k 9)) ⟨0, 0, .none, .e8m0, 0, 0, .rne⟩) := by decide

/-- `vadd !p3, STC 6 (R208)` -/
theorem test_decode_vadd : decodeTableWord 96 0x400098100140183000000000 = some (.vadd ⟨.raw, ⟨true, 3⟩, r 4, r 5, r 6, 6, false, false, false, false⟩ .rne) := by decide

/-- `vldx.o.fp32.nb` -/
theorem test_decode_vldx_o_fp32_nb : decodeTableWord 96 0x8806001C00C0240080010408 = some (.vldxo { wd .fp32 (r 7) (r 3) (r 9) with nb := true } ⟨16, 2, .hart, .normal, true⟩) := by decide

/-- `mmas.i8` -/
theorem test_decode_mmas_i8 : decodeTableWord 96 0xC01100000080400000120408 = some (.mmas (wd .i8 (r 0) (r 2) (r 16)) ⟨0, 9, .none, .e8m0, 16, 1, .rne⟩) := by decide

/-- `tmma` -/
theorem test_decode_tmma : decodeTableWord 96 0xC40000000000200000000008 = some (.tmma (wd .raw (r 0) (r 0) (r 8)) ⟨0, 0, .none, .e8m0, 0, 1, .rne⟩) := by decide

/-- `vunion.dz.fp32` -/
theorem test_decode_vunion_dz_fp32 : decodeTableWord 96 0x583600280080100000000000 = some (.vunionDz (wd .fp32 (r 10) (r 2) (r 4))) := by decide

/-- `vamo.add.pod.i32.nb` -/
theorem test_decode_vamo_add_pod_i32_nb : decodeTableWord 96 0x8E0406000000180080000340 = some (.vamo .add .none { wd .i32 (k 0) (r 0) (r 6) with nb := true } ⟨0, 1, .pod, .normal, false⟩) := by decide

/-- `kbnd` -/
theorem test_decode_kbnd : decodeTableWord 96 0x981000180006010000000000 = some (.kbnd (wd .raw (r 6) (r 0) (k 2)) ⟨0, 0, .hart, .normal, false⟩) := by decide


/-- A word whose MIN is unassigned, one with an undefined MAJ, and a reserved tier index (06 R143, R164). -/
theorem test_decode_unassigned :
    decodeTableWord 96 0x015000000000000000000000 = some (.undefinedOpcode 0x015000000000000000000000#96)
    ∧ decodeTableWord 96 0x180000000000000000000000 = some (.undefinedOpcode 0x180000000000000000000000#96)
    ∧ (∀ i, decodeWord 0x000001000000000000000000#96 ≠ .ok i) := by
  refine ⟨by decide, by decide, fun i h => ?_⟩
  have : (decodeWord 0x000001000000000000000000#96).toOption.isSome = false := by decide
  rw [h] at this
  exact Bool.noConfusion this

/-- Bytes are stored lowest first: the word of the spec's example (14, coll.ar.max). -/
theorem test_bytes : bytesOfWord 0x942600540106008080000740#96
    = [0x40, 0x07, 0x00, 0x80, 0x80, 0x00, 0x06, 0x01, 0x54, 0x00, 0x26, 0x94] := by decide

/-! ### Ill-formed words: one for each check, with the SUB that reports it (15 R326) -/

theorem test_wellFormed : (Instr.add (wd .raw (r 4) (r 2) (k 1))).wellFormed = true := by decide
theorem test_ill_fmt : (Instr.add (wd .i32 (r 4) (r 2) (r 3))).reservedSubs = [1] := by decide
theorem test_ill_fmt_vcvt : (Instr.vcvt (wd .mask8 (r 4) (r 2) (k 0)) .rne).reservedSubs = [1] := by decide
theorem test_ill_guard : (Instr.add { wd .raw (r 4) (r 2) (r 3) with grd := ⟨true, 0⟩ }).reservedSubs = [2] := by decide
theorem test_ill_guard_always : (Instr.vins { wd .i32 (r 4) (r 2) (r 3) with grd := ⟨false, 1⟩ }).reservedSubs = [2] := by
  decide
theorem test_ill_guard_named : (Instr.vcst (wd .i32 (r 4) (r 2) (r 3)) xm).reservedSubs = [2] := by decide
theorem test_ill_dest : (Instr.add (wd .raw (.oper 1 .plain) (r 2) (r 3))).reservedSubs = [3] := by decide
theorem test_ill_dest_last : (Instr.vadd (wd .raw (.last 1 .plain) (r 2) (r 3)) .rne).reservedSubs = [3] := by decide
theorem test_ill_source : (Instr.add (wd .raw (r 4) (.main 2 .negate) (r 3))).reservedSubs = [4] := by decide
theorem test_ill_pred : (Instr.pand (wd .raw (r 1) (r 16) (r 3))).reservedSubs = [4] := by decide
theorem test_ill_counter : (Instr.wait (wd .raw u0 (r 8) (k 0))).reservedSubs = [4] := by decide
theorem test_ill_second : (Instr.mov (wd .raw (r 4) (r 2) (r 3))).reservedSubs = [5] := by decide
theorem test_ill_group : (Instr.vunionKz (wd .i32 (r 4) (r 2) (r 5))).reservedSubs = [5] := by decide
theorem test_ill_konst : (Instr.tlbi (wd .raw u0 (r 2) (k 5))).reservedSubs = [5] := by decide
theorem test_ill_part : (Instr.zdrain (wd .fp32 (r 4) (r 1) (k 11)) xx).reservedSubs = [5] := by decide
theorem test_ill_xt : (Instr.loop (wd .raw u0 (r 8) u0) 2 0).reservedSubs = [6] := by decide
theorem test_ill_offset : (Instr.rput (wd .raw (r 4) (r 2) (r 3)) { xm with off := 1 }).reservedSubs = [6] := by decide
theorem test_ill_ordered : (Instr.vld (wd .raw (r 4) (r 2) u0) { xm with ordered := true }).reservedSubs = [6] := by decide
theorem test_ill_scope : (Instr.nbarr false (wd .raw (r 4) (r 2) u0) xm).reservedSubs = [6] := by decide
theorem test_ill_count : (Instr.mmas (wd .i8 (r 0) (r 2) (r 16)) { xx with cnt := 33 }).reservedSubs = [6] := by decide
theorem test_ill_nb : (Instr.add { wd .raw (r 4) (r 2) (r 3) with nb := true }).reservedSubs = [8] := by decide
theorem test_ill_bs : (Instr.vld { wd .raw (r 4) (r 2) u0 with bs := true } xm).reservedSubs = [8] := by decide
theorem test_ill_sys : (Instr.mfs (wd .raw (r 4) u0 u0) 0x00B).reservedSubs = [10] := by decide
theorem test_ill_sign : (Instr.vadd (wd .tern (r 4) (.main 2 .negate) (r 3)) .rne).reservedSubs = [4] := by decide
theorem test_ill_many : (Instr.add { wd .i8 (.oper 1 .plain) (r 2) (r 3) with nb := true }).reservedSubs = [1, 3, 8] := by
  decide


/-! ### A state for tests -/

/-- A hart in supervisor mode with a handler, a reservation of 4 KiB, and registers of several formats: x1 is the
scratchpad's base, x2 is 3, x3 is 5. -/
def hart0 : Hart :=
  { Hart.reset with
    run := .running, pc := 0x100, sup := true, svec := 0x1000, vl := 2, resSize := 0x1000
    x := ((Hart.reset.x.set 1 0x7E00000000000000).set 2 3).set 3 5
    v := (((Hart.reset.v.set 1 ⟨.fp32, 0⟩).set 6 ⟨.i8, 0⟩).set 7 ⟨.tern, 0⟩).set 9 ⟨.fp32, 0⟩ }

/-- A state whose hart 0 is a change of it. -/
def on (f : Hart → Hart) : State := State.reset.setMy (f hart0)
def base : State := on id

/-- The state that an instruction leaves; the state itself where there is none. -/
def after (i : Instr) (s : State) : State :=
  match exec i s with
  | .next t => t
  | _ => s

/-- Elements of a width, from element 0 on. -/
def els (w : Nat) (l : List Nat) : BitVec 8192 := setElems 0 w ((List.range l.length).zip l)

def withV (n : Fin 64) (f : Fmt) (w : Nat) (l : List Nat) (h : Hart) : Hart := { h with v := h.v.set n ⟨f, els w l⟩ }
def withX (n : Fin 64) (v : Word) (h : Hart) : Hart := { h with x := h.x.set n v }

/-- Elements 0 to n - 1 of a v register. -/
def outs (s : State) (n : BitVec 6) (w count : Nat) : List Nat := (List.range count).map (getElem (s.my.vr n).bits w)

/-! ### Scalar words -/

theorem test_add_wraps : (after (.add (wd .raw (r 4) (k (-1)) (r 2))) base).my.xr 4 = 2 := by decide +kernel
theorem test_add_latest : (after (.add (wd .raw (r 4) (r 2) (r 3))) base).my.xSrc (.last 0 .plain) = 8 := by decide +kernel
theorem test_sub : (after (.sub (wd .raw (r 4) (r 2) (r 3))) base).my.xr 4 = -2 := by decide +kernel
theorem test_andn : (after (.andn (wd .raw (r 4) (k 0xC) (k 0xA))) base).my.xr 4 = 4 := by decide +kernel
theorem test_shra : (after (.shra (wd .raw (r 4) (k (-8)) (k 65))) base).my.xr 4 = -4 := by decide +kernel
theorem test_rot : (after (.rot (wd .raw (r 4) (k 1) (k 1))) base).my.xr 4 = 0x8000000000000000 := by decide +kernel
theorem test_min_signed : (after (.min (wd .raw (r 4) (k (-1)) (k 1))) base).my.xr 4 = -1 := by decide +kernel
theorem test_minn_unsigned : (after (.minn (wd .raw (r 4) (k (-1)) (k 1))) base).my.xr 4 = 1 := by decide +kernel
theorem test_sel_zero : (after (.sel (wd .raw (r 4) (r 2) (r 3)) (k 0) .rne) base).my.xr 4 = 5 := by decide +kernel
theorem test_clz_zero : (after (.clz (wd .raw (r 4) (k 0) u0)) base).my.xr 4 = 64 := by decide +kernel
theorem test_ctz : (after (.ctz (wd .raw (r 4) (k 8) u0)) base).my.xr 4 = 3 := by decide +kernel
theorem test_popc : (after (.popc (wd .raw (r 4) (k (-1)) u0)) base).my.xr 4 = 64 := by decide +kernel
theorem test_sext : (after (.sext (wd .raw (r 4) (k 0x80) (k 8))) base).my.xr 4 = 0xFFFFFFFFFFFFFF80 := by decide +kernel
theorem test_zext_none : (after (.zext (wd .raw (r 4) (k (-1)) (k 0))) base).my.xr 4 = -1 := by decide +kernel
theorem test_mulh : (after (.mulh (wd .raw (r 4) (k (-1)) (k 2))) base).my.xr 4 = -1 := by decide +kernel
theorem test_mulhn : (after (.mulhn (wd .raw (r 4) (k (-1)) (k 2))) base).my.xr 4 = 1 := by decide +kernel
theorem test_div_toward_zero : (after (.div (wd .raw (r 4) (k (-7)) (k 2))) base).my.xr 4 = -3 := by decide +kernel
theorem test_div_by_zero : (after (.div (wd .raw (r 4) (k 7) (k 0))) base).my.xr 4 = -1 := by decide +kernel
theorem test_rem_overflow :
    (after (.rem (wd .raw (r 4) (r 5) (k (-1)))) (on (withX 5 0x8000000000000000))).my.xr 4 = 0 := by decide +kernel
theorem test_scmp_ltu : (after (.scmp .ltu (wd .raw (r 4) (k (-1)) (k 1))) base).my.xr 4 = 0 := by decide +kernel
theorem test_pcmp : (after (.pcmp .lt (wd .raw (r 4) (k (-1)) (k 1))) base).my.pr 4 = BitVec.allOnes 1024 := by
  decide +kernel
theorem test_lil : (after (.lil (wd .raw (r 4) u0 u0) (-2)) base).my.xr 4 = -2 := by decide +kernel
theorem test_lih : (after (.lih (wd .raw (r 2) u0 u0) 0x123456) base).my.xr 2 = 0x0000123456000003 := by decide +kernel
theorem test_lit : (after (.lit (wd .raw (r 2) u0 u0) 0x7E00) base).my.xr 2 = 0x7E00000000000003 := by decide +kernel
theorem test_lea : (after (.lea (wd .raw (r 4) (r 2) (r 3)) (-16)) base).my.xr 4 = -8 := by decide +kernel
theorem test_pfirst_none : (after (.pfirst (wd .raw (r 4) (r 1) u0)) base).my.xr 4 = -1 := by decide +kernel
theorem test_psetn : (after (.psetn (wd .raw (r 4) (r 2) u0)) base).my.pr 4 = 7 := by decide +kernel
theorem test_pnot : (after (.pnot (wd .raw (r 4) (r 1) u0)) base).my.pr 4 = BitVec.allOnes 1024 := by decide +kernel
theorem test_guard_off : let t := after (.add { wd .raw (r 4) (r 2) (r 3) with grd := ⟨false, 1⟩ }) base
    t.my.xr 4 = 0 ∧ t.my.pc = 0x10C := by decide +kernel

/-! ### Control, synchronisation and system words -/

theorem test_bra : (after (.bra (wd .raw u0 u0 u0) (-9)) base).my.pc = 0xDC := by decide +kernel
theorem test_call : let t := after (.call (wd .raw (r 4) u0 u0) 6) base
    t.my.pc = 0x118 ∧ t.my.xr 4 = 0x10C := by decide +kernel
theorem test_brc_falls : (after (.brc .lt (wd .raw u0 (r 3) (r 2)) 6) base).my.pc = 0x10C := by decide +kernel
theorem test_setvl : let t := after (.setvl (wd .fp32 (r 4) (k 300) u0)) base
    t.my.xr 4 = 256 ∧ t.my.vl = 256 := by decide +kernel
theorem test_setvl_tern : (after (.setvl (wd .tern (r 4) (r 5) u0)) (on (withX 5 9999))).my.vl = 5120 := by decide +kernel
theorem test_setvlg_second : (after (.setvlg (wd .fp32 (r 4) (k 300) u0)) (on fun h => { h with gsz := 1, rank := 1 })).my.vl
    = 44 := by decide +kernel
theorem test_loop : let t := after (.loop (wd .raw u0 (k (-1)) u0) 6 1) base
    t.my.lc[1].count = 0xFFFFFFFF ∧ t.my.lc[1].start = 0x10C ∧ t.my.lc[1].stop = 0x118 := by decide +kernel
theorem test_waita_waits : (after (.waita (wd .raw u0 u0 (k 1))) (on fun h => { h with w := h.w.set 0 1 })).disp = .blocked := by
  decide +kernel
theorem test_nbarr_completes :
    let s := after (.nbinit (wd .raw u0 (r 4) (k 1)) xm) base
    let t := after (.nbarr false (wd .raw (r 4) (r 4) u0) xmCore) s
    t.my.xr 4 = 1 ∧ (t.myCore.barrier 4).p = 1 ∧ (t.myCore.barrier 4).a = 0 := by decide +kernel
theorem test_ecall : let t := after (.ecall (wd .raw u0 u0 u0) 7) base
    t.my.epc = 0x10C ∧ t.my.pc = 0x1000 ∧ t.my.ecause = 0x0000070000000015 ∧ t.my.exl = true := by decide +kernel
theorem test_eret : let t := after (.eret (wd .raw u0 u0 u0)) (on fun h => { h with epc := 0x200, exl := true })
    t.my.pc = 0x200 ∧ t.my.sup = false ∧ t.my.exl = false := by decide +kernel
theorem test_eret_user : (after (.eret (wd .raw u0 u0 u0)) (on fun h => { h with sup := false })).my.ecause = 8 := by
  decide +kernel
theorem test_mts_fflags : (after (.mts (wd .raw u0 (k (-1)) u0) 0x003) base).my.fflags = 0x7F := by decide +kernel
theorem test_mfs_user : (after (.mfs (wd .raw (r 2) u0 u0) 0x300) (on fun h => { h with sup := false, frhdr := 9 })).my.xr 2 = 0 := by
  decide +kernel
theorem test_undefined : (after (.undefinedOpcode 0x180000000000000000000000) base).my.ecause = 3 := by decide +kernel

/-! ### Vector words -/

def two (f : Fmt) (w : Nat) (a b : List Nat) : State := on fun h => withV 20 f w a (withV 21 f w b h)
def vab (f : Fmt) : Wd := wd f (r 4) (r 20) (r 21)
def va (f : Fmt) : Wd := wd f (r 4) (r 20) u0

theorem test_vadd_fp32 : let t := after (.vadd (vab .raw) .rne) (two .fp32 32 [0x3F800000, 0] [0x40000000, 0x80000000])
    outs t 4 32 2 = [0x40400000, 0] ∧ (t.my.vr 4).tag = .fp32 ∧ t.my.fflags = 0 := by decide +kernel
theorem test_vadd_i8 : outs (after (.vadd (vab .i8) .rne) (two .i8 8 [127, 1] [1, 255])) 4 8 3 = [128, 0, 0] := by decide +kernel
theorem test_vsubs : let t := after (.vsubs (vab .i8) .rne) (two .i8 8 [1, 128] [1, 1])
    outs t 4 8 2 = [0, 128] ∧ t.my.fflags = 0x20 ∧ t.my.fxi.sat = 1 := by decide +kernel
theorem test_vmin_zeros : outs (after (.vmin (vab .fp32) .rne) (two .fp32 32 [0, 0x80000000] [0x80000000, 0])) 4 32 2
    = [0x80000000, 0x80000000] := by decide +kernel
theorem test_vfma : outs (after (.vfma (vab .fp32) (r 20) .rne) (two .fp32 32 [0x40000000] [0x40400000])) 4 32 1
    = [0x41000000] := by decide +kernel
theorem test_vdiv_i32_zero : let t := after (.vdiv (vab .i32) .rne) (two .i32 32 [7, 7] [2, 0])
    outs t 4 32 2 = [3, 0xFFFFFFFF] ∧ t.my.fflags = 8 ∧ t.my.fxi.dz = 1 := by decide +kernel
theorem test_vsqrt : let t := after (.vsqrt (va .fp32) .rne) (two .fp32 32 [0x40800000, 0x80000000] [])
    outs t 4 32 2 = [0x40000000, 0x80000000] ∧ t.my.fflags = 0 := by decide +kernel
theorem test_vrcp_zero : let t := after (.vrcp (va .fp32) .rne) (two .fp32 32 [0x80000000, 0x40000000] [])
    outs t 4 32 2 = [0xFF800000, 0x3F000000] ∧ t.my.fflags = 8 := by decide +kernel
theorem test_vexp2 : outs (after (.vexp2 (va .fp32) .rne) (two .fp32 32 [0x40400000, 0] [])) 4 32 2 = [0x41000000, 0x3F800000] := by
  decide +kernel
theorem test_vlog2 : outs (after (.vlog2 (va .fp32) .rne) (two .fp32 32 [0x41000000, 0x3F800000] [])) 4 32 2 = [0x40400000, 0] := by
  decide +kernel
theorem test_vclass : let t := after (.vclass (va .fp16) .rne) (two .fp16 16 [0xFC00, 0x7E00] [])
    outs t 4 16 2 = [1, 512] ∧ (t.my.vr 4).tag = .i16 := by decide +kernel
theorem test_vround : let t := after (.vround (va .fp32) .rne) (two .fp32 32 [0x40200000, 0xBF000000] [])
    outs t 4 32 2 = [0x40000000, 0x80000000] := by decide +kernel
theorem test_vcmp : (after (.vcmp .le (vab .i8)) (two .i8 8 [255, 1] [0, 0])).my.pr 4 = 1 := by decide +kernel
theorem test_vcvt_range : let t := after (.vcvt (wd .i8 (r 4) (r 20) (k 0)) .rne) (two .fp32 32 [0x43960000, 0x40200000] [])
    outs t 4 8 2 = [127, 2] ∧ t.my.fflags = 0x11 ∧ t.my.fxi.iv = 0 ∧ t.my.fxi.nx = 1 := by decide +kernel
theorem test_vcvt_bf16_tie : outs (after (.vcvt (wd .bf16 (r 4) (r 20) (k 0)) .rne) (two .fp32 32 [0x3F808000, 0x3F818000] [])) 4 16 2
    = [0x3F80, 0x3F82] := by decide +kernel
/-- m is 12, so e is 3 - 2 and the scale byte 0x80; 12 and 1 over 2 are 6.0 and 0.5 (08 R218). -/
theorem test_vqnt :
    let t := after (.vqnt (wd .e2m1 (r 0) (r 20) (k 0)) { xx with sa := 30, blen := .b8 })
      (two .fp32 32 [0x41400000, 0x3F800000] [])
    outs t 0 4 2 = [7, 1] ∧ outs t 30 8 1 = [0x80] ∧ (t.my.vr 30).tag = .e8m0 := by decide +kernel
theorem test_vscl : outs (after (.vscl (wd .fp32 (r 4) (r 0) (k 0)) { xx with sa := 21, blen := .b8 })
      (on fun h => withV 0 .e2m1 4 [7, 9] (withV 21 .e8m0 8 [0x80] h))) 4 32 2 = [0x41400000, 0xBF800000] := by decide +kernel
/-- Trits -1, 0, 1, 1, -1 have code 75 (03 R77). -/
theorem test_trnpk : outs (after (.trnpk (wd .raw (r 4) (r 20) (k 0))) (on fun h =>
    { withV 20 .i8 8 [255, 0, 1, 1, 255] h with vl := 5 })) 4 8 1 = [75] := by decide +kernel
theorem test_trnup_illegal : (after (.trnup (wd .raw (r 4) (r 20) (k 0))) (two .tern 8 [243] [])).my.ecause = 9 := by
  decide +kernel
theorem test_vred : outs (after (.vred .max (va .i32) .rne) (two .i32 32 [0xFFFFFFFF, 5, 9] [])) 4 32 2 = [5, 0] := by
  decide +kernel
theorem test_vscan : outs (after (.vscan .add (va .i32) .rne) (on fun h => { withV 20 .i32 32 [4, 2, 3, 1] h with vl := 4 })) 4 32 4
    = [4, 6, 9, 10] := by decide +kernel
theorem test_vperm : outs (after (.vperm (vab .i32)) (two .i32 32 [5, 6, 7] [2, 0])) 4 32 2 = [7, 5] := by decide +kernel
theorem test_vsldu : outs (after (.vsldu (wd .i32 (r 20) (r 20) (k 1))) (two .i32 32 [5, 6, 7] [])) 20 32 3 = [5, 5, 7] := by
  decide +kernel
theorem test_vsldd : outs (after (.vsldd (wd .i32 (r 4) (r 20) (k 255))) (two .i32 32 [5, 6] [])) 4 32 2 = [0, 0] := by
  decide +kernel
theorem test_vext_signed : (after (.vext (wd .i8 (r 4) (r 20) (k 1))) (two .i8 8 [1, 0x80] [])).my.xr 4 = -128 := by decide +kernel
theorem test_vins : outs (after (.vins (wd .i16 (r 20) (k (-1)) (k 1))) (two .i16 16 [1, 2, 3] [])) 20 16 3 = [1, 0xFFFF, 3] := by
  decide +kernel
theorem test_viota : outs (after (.viota (wd .i8 (r 4) (k (-1)) u0)) base) 4 8 3 = [255, 0, 0] := by decide +kernel
theorem test_vzip : outs (after (.vzip (vab .i32)) (two .i32 32 [1, 2] [3, 4])) 4 32 2 = [1, 3] := by decide +kernel
theorem test_vunzip : outs (after (.vunzip (vab .i32)) (two .i32 32 [1, 2] [3, 4])) 4 32 2 = [1, 3] := by decide +kernel
theorem test_vrev : outs (after (.vrev (va .i32)) (two .i32 32 [1, 2, 3] [])) 4 32 3 = [2, 1, 0] := by decide +kernel
theorem test_vcomp : outs (after (.vcomp { va .i32 with grd := ⟨false, 1⟩ })
    (on fun h => { withV 20 .i32 32 [7, 8, 9] h with vl := 3, p := h.p.set 1 6 })) 4 32 3 = [8, 9, 0] := by decide +kernel
theorem test_vexpnd : outs (after (.vexpnd { va .i32 with grd := ⟨false, 1⟩ })
    (on fun h => { withV 20 .i32 32 [7, 8, 9] h with vl := 3, p := h.p.set 1 6 })) 4 32 3 = [0, 7, 8] := by decide +kernel

/-- Row 0 of the sparse addition (12): 1:2.0, 4:1.5, 7:-3.0 and 0:5.0, 4:0.5, 7:3.0, 9:1.0. -/
def rows : State := on fun h =>
  withV 20 .i32 32 [1, 4, 7, 0xFFFFFFFF] (withV 21 .fp32 32 [0x40000000, 0x3FC00000, 0xC0400000]
    (withV 22 .i32 32 [0, 4, 7, 9, 0xFFFFFFFF] (withV 23 .fp32 32 [0x40A00000, 0x3F000000, 0x40400000, 0x3F800000] { h with vl := 6 })))

/-- 12 R305: the row under .dz, with l0 its length. -/
theorem test_vunion_dz : let t := after (.vunionDz (wd .fp32 (r 4) (r 20) (r 22))) rows
    outs t 4 32 6 = [0, 1, 4, 9, 0xFFFFFFFF, 0xFFFFFFFF] ∧ outs t 5 32 6 = [0x40A00000, 0x40000000, 0x40000000, 0x3F800000, 0, 0]
      ∧ t.my.xSrc (.last 0 .plain) = 4 := by decide +kernel
/-- 12 R305: under .kz the row keeps 7:+0. -/
theorem test_vunion_kz : let t := after (.vunionKz (wd .fp32 (r 4) (r 20) (r 22))) rows
    outs t 4 32 6 = [0, 1, 4, 7, 9, 0xFFFFFFFF] ∧ outs t 5 32 5 = [0x40A00000, 0x40000000, 0x40000000, 0, 0x3F800000] := by
  decide +kernel

/-- 08 R230's example: the group 3, -7, 7, 0, -2, 5, -3, 1. -/
theorem test_vprn48 :
    let t := after (.vprn48 (wd .i8 (r 4) (r 20) u0))
      (on fun h => { withV 20 .i8 8 [3, 249, 7, 0, 254, 5, 253, 1] h with vl := 8 })
    outs t 4 8 4 = [3, 249, 7, 5] ∧ outs t 5 8 1 = [0x27] ∧ (t.my.vr 5).tag = .mask8 := by decide +kernel

/-- The six blocks of the FP4 dot product (12), with e5m2 scales 1024 (0x64), 1 (0x3C) and 4 (0x44) and tensor scale
0.5. -/
def dots (last : Nat) : State := on fun h =>
  let z := List.replicate 7 0
  withX 15 0x3F00 (withV 0 .e2m1 4 ([0, 1, 2, 3, 4, 5, 6, 7, 8, 9, 10, 11, 12, 13, 14, 15] ++ 1 :: z ++ 2 :: z ++ 4 :: z)
    (withV 16 .e5m2 8 [0x64, 0x3C, 0x44, 0x3C, 0x3C, 0x3C] (withV 17 .e5m2 8 [0x64, 0x3C, 0x3C, 0x3C, 0x3C, last]
      { h with
        vl := 48
        o := h.o.set 0 ⟨.e2m1, els 4 (List.replicate 8 2 ++ List.replicate 8 1 ++ 1 :: z ++ 2 :: z ++ 1 :: z)⟩ })))

/-- 12 R307: launch d1. -/
theorem test_vdotb : let t := after (.vdotb (wd .e2m1 (r 3) (r 0) (.oper 0 .plain)) ⟨16, 17, .b8, .e5m2, 15, 0, .rne⟩) (dots 0x3C)
    outs t 3 32 1 = [0x4B0FFFFC] ∧ t.my.fflags = 1 ∧ t.my.fxi.nx = 8 := by decide +kernel
/-- 12 R307: launch d2, where the last block's B scale is a NaN. -/
theorem test_vdotb_nan : let t := after (.vdotb (wd .e2m1 (r 3) (r 0) (.oper 0 .plain)) ⟨16, 17, .b8, .e5m2, 15, 0, .rne⟩) (dots 0x7E)
    outs t 3 32 1 = [0x7FC00000] ∧ t.my.fflags = 1 := by decide +kernel

/-! ### Memory, atomic and matrix words -/

theorem test_st_ld :
    let t := after (.ld (wd .i16 (r 4) (r 1) u0) { xm with off := 8 })
      (after (.st (wd .i32 (r 5) (r 1) u0) { xm with off := 7 }) (on (withX 5 0x11FF8033)))
    t.my.xr 4 = 0xFFFFFFFFFFFFFF80 ∧ t.spadByte 0 7 = 0x33 ∧ t.my.w[0] = 2 := by decide +kernel
theorem test_ld_outside : let t := after (.ld (wd .i8 (r 4) (r 1) u0) { xm with off := 0x1000 }) base
    t.my.ecause = 0x000000000007000E ∧ t.my.eaddr = 0x7E00000000001000 ∧ t.my.pc = 0x1000 := by decide +kernel
theorem test_vst_masked :
    let t := after (.vst { wd .i8 (r 20) (r 1) u0 with grd := ⟨false, 1⟩ } xm)
      (on fun h => { withV 20 .i8 8 [7, 8, 9] h with vl := 3, p := h.p.set 1 5 })
    (List.range 4).map (t.spadByte 0) = [7, 0, 9, 0] := by decide +kernel
theorem test_vcst :
    let t := after (.vcst { wd .i8 (r 20) (r 1) (k 1) with grd := ⟨false, 1⟩ } xm)
      (on fun h => { withV 20 .i8 8 [7, 8, 9] h with vl := 3, p := h.p.set 1 6 })
    (List.range 2).map (t.spadByte 0) = [8, 0] ∧ t.my.pr 1 = 4 ∧ t.my.xSrc (.last 0 .plain) = 1 := by decide +kernel
theorem test_amo_add :
    let t := after (.amo .add .none (wd .i32 (r 4) (r 1) (k (-1))) xm)
      (after (.st (wd .i32 (r 3) (r 1) u0) xm) base)
    t.my.xr 4 = 5 ∧ t.spadByte 0 0 = 4 := by decide +kernel
theorem test_amo_misaligned : (after (.amo .add .none (wd .i32 (r 4) (r 1) (r 3)) { xm with off := 2 }) base).my.ecause
    = 0x000000020002000E := by decide +kernel
theorem test_defer_overflow : (after (.defer (wd .raw u0 u0 (k 0)) xm) base).my.ecause = 0x0C := by decide +kernel
theorem test_zadd_saturates :
    let t := after (.zadd (wd .i32 (r 1) (r 2) (r 2)))
      (on fun h => { h with z := h.z.set 2 ⟨.i32, setElems 0 32 [(0, 0x7FFFFFFF), (1, 3)]⟩ })
    getElem (t.my.zr 1).bits 32 0 = 0x7FFFFFFF ∧ getElem (t.my.zr 1).bits 32 1 = 6 ∧ t.my.fflags = 0x20 := by decide +kernel

/-- Launch 1 of the pruned multiply (20): live columns 0 and 2, kept values 5, -3, 3, -8 under mask 0x35 and 0, 0, 0, 2
under 0x87. -/
def pruned (mask : Nat) : State := on fun h =>
  let image := setElems (els 8 [5, 253, 3, 248]) 8 [(131, 2)]
  let metas := setElems 0 8 (((List.range 64).map fun n => (n, 0x0F)) ++ [(0, mask), (32, 0x87)])
  let acts := setElems (els 8 [1, 1, 1, 1, 1, 1, 1, 4]) 8 [(261, 254)]
  { withX 9 5 h with v := ((h.v.set 16 ⟨.i8, image⟩).set 20 ⟨.mask8, metas⟩).set 2 ⟨.i8, acts⟩ }

/-- 20 R411: the sums of rows 0 and 1. -/
theorem test_mmas : let t := after (.mmas (wd .i8 (r 0) (r 2) (r 16)) ⟨0, 9, .none, .e8m0, 2, 1, .rne⟩) (pruned 0x35)
    getElem (t.my.zr 0).bits 32 0 = 0xFFFFFFFD ∧ getElem (t.my.zr 0).bits 32 2 = 8 ∧ getElem (t.my.zr 0).bits 32 160 = 16
      ∧ getElem (t.my.zr 0).bits 32 162 = 0 := by decide +kernel
/-- A metadata byte with five bits set traps, and eaddr names it (16 R337). -/
theorem test_mmas_metadata :
    (after (.mmas (wd .i8 (r 0) (r 2) (r 16)) ⟨0, 9, .none, .e8m0, 2, 1, .rne⟩) (pruned 0x3D)).my.ecause = 0x0B := by decide +kernel

/-! ### Steps of the device -/

theorem test_counterFall :
    let s := after (.ld (wd .i8 (r 4) (r 1) u0) xm) base
    let t := after (.counterFall 0 0) s
    s.my.w[0] = 1 ∧ t.my.w[0] = 0 ∧ t.my.ops = [] := by decide +kernel
theorem test_cellarSeal :
    let s := after (.st (wd .i8 (r 4) (r 1) u0) xm) base
    let t := after (.cellarSeal 0) s
    (s.core 0).cellar.length = 1 ∧ (t.core 0).cellar = [] ∧ (t.core 0).clock = 321 := by decide +kernel
theorem test_freq_refused : ((after (.islandFreqWrite 0 3 2050 true) base).island 0 3).freq = 2000 := by decide +kernel


/-! ### Tools for witnesses -/

/-- The checks, the interlocks and the guard let a word act. -/
def clear (s : State) (i : Instr) : Bool :=
  (s.precheck i).isNone && !Instr.waitsOn i s.my && !s.awaitsNew i && Instr.guardOk i (s.readView i) && (s.poisonTrap i).isNone

theorem Clear.of {s : State} {i : Instr} (h : clear s i = true) : s.Clear i := by
  simp only [clear, Bool.and_eq_true, Option.isNone_iff_eq_none, Bool.not_eq_true'] at h
  exact ⟨h.1.1.1.1, h.1.1.1.2, h.1.1.2, h.1.2, h.2⟩

/-- Where the elements of an access lie. -/
def placedAt (s : State) (acc : Acc) (es : List Elem) : List Placed := (s.placeAll s.me acc es).toOption.getD []

/-- A memory word reaches its places. -/
def reaches (s : State) (i : Instr) (acc : Acc) (es : List Elem) (need : List Placed → Nat) : Bool :=
  let b := s.holdElems s.me es
  !s.gated && (s.placeAll s.me acc es).toOption.isSome && !b.myCore.stallsAny es && !b.ordersAfter acc (placedAt s acc es)
    && !(Instr.memClass i && !b.myCore.cellarFits (need (placedAt s acc es)))

theorem placedAt_eq {s : State} {acc : Acc} {es : List Elem} (h : (s.placeAll s.me acc es).toOption.isSome = true) :
    s.placeAll s.me acc es = .ok (placedAt s acc es) := by
  unfold placedAt
  cases he : s.placeAll s.me acc es with
  | ok ps => rfl
  | error t => rw [he] at h; exact Bool.noConfusion h

theorem Reaches.of {s : State} {i : Instr} {acc : Acc} {es : List Elem} {need : List Placed → Nat}
    (h : reaches s i acc es need = true) : s.Reaches i acc es need (placedAt s acc es) := by
  simp only [reaches, Bool.and_eq_true, Bool.not_eq_true'] at h
  exact ⟨h.1.1.1.1, placedAt_eq h.1.1.1.2, h.1.1.2, h.1.2, h.2⟩

/-- A choice of one is that one. -/
theorem pickFrom_one {α : Type} (s : State) (site : Site) (a d : α) : s.pickFrom site [a] d = a := by
  unfold State.pickFrom
  rcases s.pick site (([] : List α).length + 1) with _ | n <;> rfl

/-- A core that holds no translation walks its tables. -/
theorem lookup_cold {s : State} {c : Nat} (h : (s.core c).tlb = []) (root : Word) (va : Nat) :
    s.lookup c root va = s.walk (dieOfCore c) root va := by
  unfold State.lookup
  rw [h]
  exact pickFrom_one s _ (s.walk (dieOfCore c) root va) _

/-- A byte that nothing has replaced is fetched as it stands. -/
theorem fetchByte_cold {s : State} (h : s.history = []) (hk key : Nat) : s.fetchByte hk key = s.coreByte (coreOf hk) key := by
  unfold State.fetchByte State.changes State.reached
  simp only [h, List.length_nil, Nat.zero_le, if_true, List.filter_nil, List.map_nil]
  exact pickFrom_one ..

/-! ### Every word issues and completes somewhere -/

def scalarWords : List Instr :=
  let t := wd .raw (r 4) (r 2) (r 3)
  let d := wd .raw (r 4) (r 2) u0
  let c := wd .raw (r 4) u0 u0
  [.add t, .sub t, .and t, .or t, .xor t, .andn t, .shl t, .shr t, .shra t, .rot t, .min t, .max t, .minn t, .maxn t,
   .sel t (r 2) .rne, .mov d, .clz d, .ctz d, .popc d, .sext t, .zext t, .mul t, .mulh t, .mulhn t, .div t, .divn t,
   .rem t, .remn t, .scmp .lt t, .pcmp .lt t, .lil c 7, .lih c 7, .lit c 7, .pand t, .por t, .pxor t, .pandn t, .pnot d,
   .pmov d, .ppop d, .pfirst d, .plast d, .psetn d, .lea t 7]

def controlWords : List Instr :=
  let n := wd .raw u0 u0 u0
  let a := wd .raw u0 (r 2) u0
  let c := wd .raw (r 4) u0 u0
  let d := wd .raw (r 4) (r 2) u0
  let ab := wd .raw u0 (r 2) (r 3)
  [.bra n 3, .call c 3, .ret a, .jmp d, .brc .lt ab 3, .setvl d, .setvlg d, .loopvl d 3, .loop a 6 1, .lcrd d,
   .lcwr (wd .raw (r 1) (r 2) u0), .wait ab, .waita (wd .raw u0 u0 (r 3)), .gbar n, .nbinit ab xm, .nbarr true d xmCore,
   .nbwait true ab xmCore, .nbaw .ar d xmCore, .yield n, .yieldp n, .seal n, .fenceLd n xm, .fenceSt n xm,
   .fenceAll n xmCore, .mfs c 1, .mts a 1, .teambaseInstall a, .csctlRetry a, .lightRequest a, .ecall n 7, .eret n,
   .exit n, .nop n, .brk n 7, .tlbi (wd .raw u0 (r 2) (k 4)), .grun d]

def vectorWords : List Instr :=
  let t := wd .fp32 (r 4) (r 1) (r 9)
  let d := wd .fp32 (r 4) (r 1) u0
  let n := wd .i32 (r 4) (r 2) (r 3)
  let m := wd .i32 (r 4) (r 2) u0
  let u := wd .fp32 (r 4) (r 10) (r 12)
  [.vadd t .rne, .vsub t .rne, .vmul t .rne, .vmulh n .rne, .vfma t (r 9) .rne, .vmin t .rne, .vmax t .rne, .vabs d .rne,
   .vneg d .rne, .vand n .rne, .vor n .rne, .vxor n .rne, .vandn n .rne, .vshl n .rne, .vshr n .rne, .vshra n .rne,
   .vadds n .rne, .vsubs n .rne, .vdiv t .rne, .vsqrt d .rne, .vrcp d .rne, .vrsq d .rne, .vexp2 d .rne, .vlog2 d .rne,
   .vclass d .rne, .vround d .rne, .vcmp .lt t, .vsel n, .vcvt (wd .bf16 (r 4) (r 1) (k 0)) .rne,
   .vqnt (wd .i8 (r 4) (r 1) (k 0)) { xx with sa := 8, blen := .b8 }, .vscl (wd .fp32 (r 4) (r 6) (k 0)) xx,
   .trnpk (wd .raw (r 4) (r 6) (k 0)), .trnup (wd .raw (r 4) (r 7) (k 0)), .vred .add d .rne, .vscan .add d .rne,
   .vdotb (wd .i8 (r 4) (r 6) (r 6)) xx, .vperm n, .vsldu n, .vsldd n, .vbcast n, .viota (wd .raw (r 4) (r 2) u0), .vext n,
   .vins n, .vzip n, .vunzip n, .vrev m, .vcomp m, .vexpnd m, .vunionKz u, .vunionDz u, .vprn48 d]

def memoryWords : List Instr :=
  let l := wd .i32 (r 4) (r 1) u0
  let s := wd .i32 (r 4) (r 1) (r 3)
  let ix := wd .i32 (r 4) (r 1) (r 2)
  let o := { xm with ordered := true }
  let g : Guard := ⟨false, 1⟩
  let n := wd .raw u0 u0 u0
  let c := wd .raw (r 4) (r 1) (r 3)
  let ab := wd .raw u0 (r 1) (r 3)
  let f := wd .fp32 (r 4) (r 1) (r 3)
  [.defer (wd .raw u0 (r 4) (k 2)) xm, .drain (wd .raw (r 4) (r 5) (k 2)) xm, .qapp (wd .raw (r 4) (r 1) (r 2)) xm,
   .qpop (wd .raw (r 4) (r 1) (r 5)) xm, .qlen (wd .raw (r 4) (r 1) u0) xm, .ld l xm, .st l xm, .pref (wd .raw u0 (r 1) u0) xm,
   .vld l xm, .vst l xm, .vlds s xm, .vsts s xm, .vldw l xm, .vstw { l with fmt := .raw } xm, .vldx ix xm, .vstx ix xm,
   .vldxo ix o, .vstxo ix o, .vldg { ix with grd := g } xm, .vcst { s with grd := g } xm, .amo .add .none s xm,
   .vamo .add .none ix xm, .rput c xm, .rget c xm, .rfence n xm, .rsig false ab xm, .collAr .add f xm, .collRs .add f xm,
   .collAg f xm, .collBc f xm, .kapp (wd .raw u0 (r 1) (r 9)) xm, .kbnd c xm, .khrv (wd .raw (r 4) (r 2) (k 1)) xm,
   .rkpush (wd .raw u0 (r 1) u0) xm, .rkpop (wd .raw (r 4) (k 1) u0) xm, .rkwm (wd .raw (r 4) (k 1) u0) xm,
   .rkwait (wd .raw u0 (k 1) (r 3)) xm, .clean ab xm, .inval ab xm, .invro n xm, .zerol ab xm,
   .mma (wd .i8 (r 1) (r 6) (r 32)) xx, .mmas (wd .i8 (r 1) (r 6) (r 32)) xx, .tmma (wd .tern (r 1) (r 6) (r 32)) xx,
   .zclr (wd .fp32 (r 1) u0 u0), .zadd (wd .fp32 (r 1) (r 2) (r 3)), .zld (wd .fp32 (r 1) (r 1) u0) xm,
   .zst (wd .fp32 (r 1) (r 1) u0) xm, .zdrain (wd .fp32 (r 4) (r 1) (k 0)) xx]

/-- The hypothesis of every word's statement: on one state every word of the machine is clear. -/
theorem witness_words : ∀ i ∈ scalarWords ++ controlWords ++ vectorWords ++ memoryWords, base.Clear i := by
  have h : ((scalarWords ++ controlWords ++ vectorWords ++ memoryWords).all (clear base)) = true := by decide +kernel
  exact fun i hi => Clear.of (List.all_eq_true.mp h i hi)

/-! ### Reset, decoding and steps -/

/-- The machine with `add x3, x4, -1` where it fetches next. -/
def prog : State := State.reset.withFetchWord 96 0x0000000C0107FF8000000000
def progVector : State := State.reset.withFetchWord 96 0x583600280080100000000000
/-- The machine with `vstw v4, 0(x1)` where it fetches next, and no room in the cellar. -/
def progStore : State := (State.reset.withFetchWord 96 0x845000100040000000000000).modCore 0 fun c =>
  { c with cellar := [⟨95, 0, false, 5, false, 98304, 0, .rfence 7⟩] }
def addWord : Instr := .add (wd .raw (r 3) (r 4) (k 0x3FF))
def unionWord : Instr := .vunionDz (wd .fp32 (r 10) (r 2) (r 4))

theorem sound_of {s : State} (h : (s.mem.wf && s.cores.all fun p => p.2.spad.wf) = true) : s.Sound := by
  simp only [Bool.and_eq_true, List.all_eq_true] at h
  exact h

theorem witness_StepKeepsSound : State.reset.Sound ∧ prog.Sound ∧ ∃ t, step State.reset = .next t :=
  ⟨sound_of (by decide), sound_of (by decide +kernel), _, rfl⟩

theorem witness_DecodeInvertsEncode : ∀ i ∈ [addWord, unionWord], i.wellFormed = true := by decide

theorem chosen_one {s : State} {t : Turn} (h : s.begun.turns = [t]) : s.chosen = some t := by
  unfold State.chosen
  rw [h]
  exact congrArg some (pickFrom_one ..)

def frozenPod : State := { State.reset with pkgs := [(0, { Package.reset with frozen := true })] }

theorem witness_StepTakesATurn :
    ({ State.reset with agenda := [.cellarSeal 0] } : State).chosen = some (.event (.cellarSeal 0) [])
    ∧ prog.chosen = some (.hart 0)
    ∧ ({ State.reset with upsets := [.lostMem 0] } : State).chosen = some (.upset (.lostMem 0) [])
    ∧ State.reset.chosen = none ∧ (State.reset.pkg (chipOf State.reset.me)).frozen = false
    ∧ frozenPod.chosen = none ∧ (frozenPod.pkg (chipOf frozenPod.me)).frozen = true :=
  ⟨chosen_one rfl, chosen_one (by rfl), chosen_one rfl, rfl, rfl, rfl, rfl⟩

/-- Where a leaf puts a fetch. -/
def leafPlace (s : State) (hk va : Nat) (e : Word) (size : Nat) : Except (Nat × Nat) Nat :=
  if entryMt e = 3 then .error (1, 5)
  else if spaceOf (leafAddr e size va % 2 ^ 48) ≠ 0 then .error (1, 6)
  else if !leafAllows e .fetch (!(s.hart hk).sup) then .error (2, 3)
  else
    let key := physKey (chipOf hk) (leafAddr e size va % 2 ^ 48)
    if s.reaches (dieOf hk) (homeDie key) then .ok key else .error (0x10, homeDie key)

/-- The word that a hart fetches through a leaf, with no translation held and nothing stored over. -/
theorem fetchWord_of {s : State} {hk va size key : Nat} {e : Word} (h1 : (s.core (coreOf hk)).tlb = [])
    (h2 : s.history = [] ∧ s.poison = []) (h3 : va < 2 ^ 16 - 12) (h4 : va % 4 = 0)
    (h5 : s.walk (dieOfCore (coreOf hk)) (s.hart hk).ptbase va = .leaf e size)
    (h6 : (leafPlace s hk va e size).toOption = some key) :
    s.fetchWord hk va = .ok (wordOfBytes ((List.range 12).map fun i => s.coreByte (coreOf hk) (key + i))) := by
  have h7 : s.fetchPlace hk va = .ok key := by
    unfold State.fetchPlace
    simp only [lookup_cold h1, h5]
    rw [if_neg (by omega), if_neg (by omega)]
    show leafPlace s hk va e size = .ok key
    cases h9 : leafPlace s hk va e size with
    | ok q => rw [h9] at h6; exact congrArg Except.ok (Option.some.inj h6)
    | error q => rw [h9] at h6; exact nomatch h6
  have h8 : min 12 (2 ^ 16 - va % 2 ^ 16) = 12 := by omega
  have h9 (keys : List Nat) : s.fetchKeys hk keys = .ok (wordOfBytes (keys.map (s.coreByte (coreOf hk)))) := by
    unfold State.fetchKeys State.fetchLost
    rw [h2.2]
    exact congrArg (fun f : Nat → Byte => Except.ok (wordOfBytes (keys.map f))) (funext (fetchByte_cold h2.1 hk))
  unfold State.fetchWord
  simp only [h4, h7, h8, h9, ne_eq, not_true_eq_false, if_false, if_true, List.map_map, Function.comp_def]

/-- A word without CH is a convoy of its own. -/
theorem fetchConvoy_of {s : State} {hk va : Nat} {w : IWord} (h : s.fetchWord hk va = .ok w) (hc : chainBit w = false) :
    s.fetchConvoy hk 4 va = .ok [w] := by
  simp only [State.fetchConvoy, h, hc, Bool.false_eq_true, if_false]

theorem prog_fetch : prog.fetchWord 0 0 = .ok 0x0000000C0107FF8000000000#96 := by
  rw [fetchWord_of (e := 0x3D) (size := 35) (key := 0) rfl ⟨rfl, rfl⟩ (by decide) rfl (by decide +kernel) (by decide +kernel)]
  exact congrArg Except.ok (by decide +kernel)


/-- A result that is what its option holds. -/
theorem ok_of {ε α : Type} {e : Except ε α} {a : α} (h : e.toOption = some a) : e = .ok a := by
  cases e with
  | ok b => exact congrArg Except.ok (Option.some.inj h)
  | error b => exact nomatch h

/-- The focus of a turn of hart 0. -/
def turn0 (s : State) : State := { s.begun with me := 0 }
def queued (s : State) (w : IWord) : State := ((turn0 s).holdFetch 0 0 1).upd fun h => { h with queue := [⟨h.pc, [w]⟩] }

/-- The hart that the arbiter of core 0 binds, and how the bound word ends. -/
def bindEnds (s : State) (w : IWord) : Option (Nat × Disposition) := match s.arbitrate 0 with
  | none => none
  | some (n, t) =>
    let bound := t.countChecked ⟨s.my.pc, [w]⟩
    if bound.disagrees.isSome then none
    else match (bound.upd fun h => { h with queue := [] }).runConvoy [w] with
      | .next u => some (n, u.disp)
      | _ => none

theorem turn0_fetch (s : State) (w : IWord) (h1 : ((turn0 s).core 0).tlb = []) (h2 : s.history = [] ∧ s.poison = [])
    (h3 : (turn0 s).walk (dieOfCore 0) ((turn0 s).hart 0).ptbase 0 = .leaf 0x3D 35)
    (h4 : (leafPlace (turn0 s) 0 0 0x3D 35).toOption = some 0)
    (h5 : wordOfBytes ((List.range 12).map fun i => (turn0 s).coreByte 0 (0 + i)) = w) : (turn0 s).fetchWord 0 0 = .ok w := by
  rw [fetchWord_of (s := turn0 s) (hk := 0) (va := 0) (e := 0x3D) (size := 35) (key := 0) h1 h2 (by decide) rfl h3 h4]
  exact congrArg Except.ok h5

/-- The word that stands at the pc of hart 0 when it has its turn. -/
def FetchedFirst (s : State) (w : IWord) : Prop :=
  s.chosen = some (.hart 0) ∧ (turn0 s).my.queue = [] ∧ (turn0 s).my.tail = none
    ∧ (turn0 s).fetchWord 0 (turn0 s).my.pc.toNat = .ok w ∧ chainBit w = false

theorem prog_first : FetchedFirst prog 0x0000000C0107FF8000000000 :=
  ⟨chosen_one (by rfl), by decide +kernel, by decide +kernel, turn0_fetch prog 0x0000000C0107FF8000000000 (by decide +kernel)
    ⟨rfl, rfl⟩ (by decide +kernel) (by decide +kernel) (by decide +kernel), by decide⟩
theorem progVector_first : FetchedFirst progVector 0x583600280080100000000000 :=
  ⟨chosen_one (by rfl), by decide +kernel, by decide +kernel, turn0_fetch progVector 0x583600280080100000000000
    (by decide +kernel) ⟨rfl, rfl⟩ (by decide +kernel) (by decide +kernel) (by decide +kernel), by decide⟩
theorem progStore_first : FetchedFirst progStore 0x845000100040000000000000 :=
  ⟨chosen_one (by rfl), by decide +kernel, by decide +kernel, turn0_fetch progStore 0x845000100040000000000000
    (by decide +kernel) ⟨rfl, rfl⟩ (by decide +kernel) (by decide +kernel) (by decide +kernel), by decide⟩

def queuedVector : State := queued progVector 0x583600280080100000000000
def queuedStore : State := queued progStore 0x845000100040000000000000

theorem witness_StepRunsTheDecodedWord :
    (decodeWord 0x0000000C0107FF8000000000).toOption = some addWord ∧ Instr.inVectorQueue addWord = false
    ∧ (decodeWord 0x583600280080100000000000).toOption = some unionWord ∧ Instr.inVectorQueue unionWord = true
    ∧ (queuedVector.core (coreOf 0)).bound = none ∧ (queuedVector.arbitrate (coreOf 0)).map (fun x => x.1) = some (0 % 8)
      ∧ bindEnds queuedVector 0x583600280080100000000000 = some (0, .retired)
    ∧ (queuedStore.core (coreOf 0)).bound = none ∧ queuedStore.readyHarts (coreOf 0) = [0 % 8]
      ∧ bindEnds queuedStore 0x845000100040000000000000 = some (0, .blocked) := by decide +kernel

theorem witness_OneWordConvoyRunsItsInstruction :
    decodeWord 0x0000000C0107FF8000000000 = .ok addWord
      ∧ base.checkConvoy [0x0000000C0107FF8000000000] [decodeFull 0x0000000C0107FF8000000000] = none
      ∧ decodeWord 0x2C3000000000000000000000 = .ok (.eret (wd .raw u0 u0 u0))
      ∧ (on fun h => { h with sup := false }).checkConvoy [0x2C3000000000000000000000] [decodeFull 0x2C3000000000000000000000]
        = some ({ code := 8 }, 0) :=
  ⟨rfl, by decide +kernel, ok_of (by decide +kernel), by decide +kernel⟩

/-- The pc, x3 and how the step ended. -/
def ended : Host.Outcome State Fault Refusal → Option (Word × Word × Disposition)
  | .next t => some (t.my.pc, t.my.xr 3, t.disp)
  | _ => none

theorem test_runConvoy_add :
    ended (prog.runConvoy [0x0000000C0107FF8000000000]) = some (12, 0xFFFFFFFFFFFFFFFF, .retired) := by decide +kernel

/-! ### Checks and traps -/

def busy4 : State := on fun h => { h with ops := [⟨0, none, [.x 4], false, false, Flags.none, true, none, [], [], 0, 0, none⟩] }
def poisoned2 : State := on fun h => { h with poison := [⟨.x 2, some 0x40⟩] }
def user : State := on fun h => { h with sup := false }
def short : State := base.setCore 0 { Core.reset with groups := 3 }
def addT : Instr := .add (wd .raw (r 4) (r 2) (r 3))
theorem clear_all' {i : Instr} {l : List State} (h : l.all (fun s => clear s i) = true) : ∀ s ∈ l, s.Clear i :=
  fun s hs => Clear.of (List.all_eq_true.mp h s hs)
def addOff : Instr := .add { wd .raw (r 4) (r 2) (r 3) with grd := ⟨false, 1⟩ }

theorem witness_QuietHartIssuesItsWord : ∀ i ∈ [addT, .eret (wd .raw u0 u0 u0), .vld (wd .i32 (r 4) (r 1) u0) xm],
    base.my.quiet = true ∧ i.reservedSubs = [] ∧ (∃ o, Instr.resolve i base.my = .ok o)
      ∧ Instr.undefinedHere i base.myCore.vlmax = false ∧ (Instr.privileged i = true → base.my.sup = true)
      ∧ (∀ c, i.counter = some c → base.my.w[c.toNat]'c.isLt ≠ 0xFFFF) ∧ Instr.guardOk i base.my = true := by
  have h : ([addT, .eret (wd .raw u0 u0 u0), .vld (wd .i32 (r 4) (r 1) u0) xm].all fun i =>
      base.my.quiet && i.reservedSubs.isEmpty && (Instr.resolve i base.my).toOption.isSome
        && !Instr.undefinedHere i base.myCore.vlmax && (!Instr.privileged i || base.my.sup)
        && (match i.counter with
          | some c => base.my.w[c.toNat]'c.isLt != 0xFFFF
          | none => true) && Instr.guardOk i base.my) = true := by decide +kernel
  intro i hi
  have h := List.all_eq_true.mp h i hi
  simp only [Bool.and_eq_true, List.isEmpty_iff, Bool.not_eq_true', Bool.or_eq_true] at h
  refine ⟨h.1.1.1.1.1.1, h.1.1.1.1.1.2, ?_, h.1.1.1.2, fun hp => ?_, fun c hc => ?_, h.2⟩
  · cases hr : Instr.resolve i base.my with
    | ok o => exact ⟨o, rfl⟩
    | error e => rw [hr] at h; exact nomatch h.1.1.1.1.2
  · exact h.1.1.2.resolve_left (by simp [hp])
  · have h := h.1.2
    rw [hc] at h
    exact bne_iff_ne.mp h

theorem witness_EveryWordMeetsItsChecks :
    Instr.isWord addT = true ∧ Instr.isWord (.eret (wd .raw u0 u0 u0)) = true
    ∧ user.precheck (.eret (wd .raw u0 u0 u0)) = some { code := 8 }
    ∧ (busy4.precheck addT = none ∧ (Instr.waitsOn addT busy4.my || busy4.awaitsNew addT) = true)
    ∧ (base.precheck addOff = none ∧ (Instr.waitsOn addOff base.my || base.awaitsNew addOff) = false
      ∧ Instr.guardOk addOff (base.readView addOff) = false)
    ∧ (poisoned2.precheck addT = none ∧ (Instr.waitsOn addT poisoned2.my || poisoned2.awaitsNew addT) = false
      ∧ Instr.guardOk addT (poisoned2.readView addT) = true
      ∧ poisoned2.poisonTrap addT = some { code := 0x11, sub := 4, eaddr := 0x40 })
    ∧ base.precheck addT = none ∧ (Instr.waitsOn addT base.my || base.awaitsNew addT) = false
      ∧ Instr.guardOk addT (base.readView addT) = true ∧ base.poisonTrap addT = none := by decide +kernel

theorem witness_ChecksBeforeIssue :
    (Instr.isWord (.mma (wd .i8 (r 1) (r 6) (r 32)) xx) = true
      ∧ Instr.undefinedHere (.mma (wd .i8 (r 1) (r 6) (r 32)) xx) short.myCore.vlmax = true)
    ∧ (Instr.isWord (.add (wd .i8 (r 4) (r 2) (r 3))) = true
      ∧ Instr.undefinedHere (.add (wd .i8 (r 4) (r 2) (r 3))) base.myCore.vlmax = false
      ∧ (Instr.add (wd .i8 (r 4) (r 2) (r 3))).reservedSubs ≠ [])
    ∧ ∀ i ∈ [Instr.eret (wd .raw u0 u0 u0), .tlbi (wd .raw u0 (r 2) (k 4)), .inval (wd .raw u0 (r 1) (r 3)) xm],
        Instr.privileged i = true ∧ i.reservedSubs = [] ∧ user.my.sup = false ∧ user.my.early = [] := by decide +kernel

def nested : State := on fun h => { h with exl := true }
def handlerless : State := on fun h => { h with svec := 0 }
def inGang : Option GangRef := some ⟨0x40, 1, 0⟩

/-- A trap for a status held on a counter, of a state that holds it; and an access that no page maps. -/
theorem witness_TrapEntry :
    let st : CtrStatus := ⟨3, 0x12, 1, 0x40, 0, 0⟩
    let s := on fun h => { h with stats := [st] }
    base.my.exl = false ∧ base.my.svec ≠ 0 ∧ (s.my.stats = [] ++ st :: [] ∧ s.my.exl = false ∧ s.my.svec ≠ 0)
    ∧ (base.placeAll base.me .read [⟨0, 0x1000, 4, false⟩]).toOption = none := by decide +kernel

theorem witness_TrapWithoutHandler :
    nested.my.exl = true ∧ nested.my.gang = none ∧ handlerless.my.exl = false ∧ handlerless.my.svec = 0
    ∧ (on fun h => { h with exl := true, gang := inGang }).my.exl = true
    ∧ (on fun h => { h with exl := true, gang := inGang }).my.gang = inGang
    ∧ (on fun h => { h with svec := 0, gang := inGang }).my.svec = 0
    ∧ (let e : CellarEntry := ⟨95, 0, false, 5, true, 0, 0, .failure 0x40 1 0x10⟩
      ((base.modCore 0 fun c => { c with cellar := [e] }).core (coreOf 0)).cellar.filter (fun e => e.hart == 0 && !e.isUndo) = [e]) := by
  decide +kernel

theorem clear_all {s : State} {l : List Instr} (h : l.all (clear s) = true) : ∀ i ∈ l, s.Clear i :=
  fun i hi => Clear.of (List.all_eq_true.mp h i hi)

theorem witness_CallsBreakpointsAndReturns :
    (∀ i ∈ [Instr.ecall (wd .raw u0 u0 u0) 7, .brk (wd .raw u0 u0 u0) 7, .eret (wd .raw u0 u0 u0)], base.Clear i)
    ∧ base.my.exl = false ∧ base.my.svec ≠ 0 := ⟨clear_all (by decide +kernel), by decide +kernel, by decide +kernel⟩


/-! ### Scalar, control and system words -/

theorem witness_DivideBorderlineCases :
    let w := wd .raw (r 4) (r 5) (r 6)
    let zero := on (withX 5 7)
    let least := on fun h => withX 5 0x8000000000000000 (withX 6 (-1) h)
    (∀ i ∈ [Instr.div w, .divn w, .rem w, .remn w], zero.Clear i) ∧ zero.my.xSrc w.b = 0
    ∧ (∀ i ∈ [Instr.div w, .rem w], least.Clear i) ∧ least.my.xSrc w.a = 0x8000000000000000
    ∧ least.my.xSrc w.b = 0xFFFFFFFFFFFFFFFF :=
  ⟨clear_all (by decide +kernel), by decide +kernel, clear_all (by decide +kernel), by decide +kernel, by decide +kernel⟩

theorem witness_Branches :
    let lt := wd .raw u0 (r 2) (r 3)
    let ge := wd .raw u0 (r 3) (r 2)
    (∀ i ∈ [Instr.brc .lt lt (-9), .brc .lt ge (-9)], base.Clear i)
    ∧ (base.my.xSrc lt.a).toInt < (base.my.xSrc lt.b).toInt ∧ ¬ (base.my.xSrc ge.a).toInt < (base.my.xSrc ge.b).toInt :=
  ⟨clear_all (by decide +kernel), by decide +kernel, by decide +kernel⟩

theorem witness_VectorLengthGrants :
    let w := wd .raw (r 4) (r 2) u0
    let more := on (withX 4 9)
    (∀ i ∈ [Instr.setvl w, .setvlg w, .loopvl w 6], base.Clear i)
    ∧ (base.my.xSrc w.d - base.my.xSrc w.a).toInt ≤ 0
    ∧ more.Clear (.loopvl w 6) ∧ 0 < (more.my.xSrc w.d - more.my.xSrc w.a).toInt
    ∧ (on (withX 4 3)).Clear (.loopvl w 6) ∧ ((on (withX 4 3)).my.xSrc w.d - (on (withX 4 3)).my.xSrc w.a).toInt = 0 :=
  ⟨clear_all (by decide +kernel), by decide +kernel, Clear.of (by decide +kernel), by decide +kernel, Clear.of (by decide +kernel),
    by decide +kernel⟩

theorem prog_after : prog.fetchWord 0 12 = .ok 0 := by
  rw [fetchWord_of (s := prog) (hk := 0) (va := 12) (e := 0x3D) (size := 35) (key := 12) rfl ⟨rfl, rfl⟩ (by decide) rfl (by decide +kernel)
    (by decide +kernel)]
  exact congrArg Except.ok (by decide +kernel)

theorem base_unmapped : base.fetchConvoy base.me 4 (base.my.pc + Word.ofNat (4 * 3)).toNat = .error (fetchTrap 2 1 0x10C) := by
  have h1 : base.walk (coreOf 0 / 512) (base.hart 0).ptbase 0x10C = .fault 1 := by decide +kernel
  have h2 : base.fetchPlace 0 0x10C = .error (2, 1) := by
    unfold State.fetchPlace
    simp only [lookup_cold (s := base) (c := coreOf 0) rfl, h1]
    rfl
  show base.fetchConvoy 0 4 0x10C = _
  unfold State.fetchConvoy State.fetchWord
  simp only [h2]
  rfl

theorem witness_HardwareLoops :
    let w := wd .raw u0 (r 2) u0
    let z := wd .raw u0 (k 0) u0
    base.Clear (.loop w 3 1) ∧ min (base.my.xSrc w.a).toNat (2 ^ 32 - 1) ≠ 0
    ∧ prog.Clear (.loop z 3 1) ∧ min (prog.my.xSrc z.a).toNat (2 ^ 32 - 1) = 0
    ∧ prog.fetchConvoy prog.me 4 (prog.my.pc + Word.ofNat (4 * 3)).toNat = .ok [0]
    ∧ base.Clear (.loop z 3 1) ∧ base.fetchConvoy base.me 4 (base.my.pc + Word.ofNat (4 * 3)).toNat = .error (fetchTrap 2 1 0x10C)
    ∧ base.Clear (.lcrd (wd .raw (r 4) (r 3) u0)) ∧ base.Clear (.lcwr (wd .raw (r 3) (r 2) u0)) :=
  ⟨Clear.of (by decide +kernel), by decide +kernel, Clear.of (by decide +kernel), by decide +kernel, fetchConvoy_of prog_after (by decide),
    Clear.of (by decide +kernel), base_unmapped, Clear.of (by decide +kernel), Clear.of (by decide +kernel)⟩

def failed : CtrStatus := ⟨3, 0x12, 7, 0x40, 0, 0⟩
def counted (n : BitVec 16) : State := on fun h => { h with w := h.w.set 3 n }
def status : State := on fun h => { h with stats := [failed] }

theorem witness_WaitsOnCounters :
    let w := wd .raw u0 (r 3) (k 2)
    let m := wd .raw u0 u0 (k 8)
    (∀ s ∈ [counted 2, counted 3, status], s.Clear (.wait w) ∧ s.Clear (.waita m))
    ∧ (counted 2).my.stats = [] ∧ ((counted 2).my.w[3]).toNat ≤ ((counted 2).my.xSrc w.b).toNat
    ∧ ((counted 3).my.xSrc w.b).toNat < ((counted 3).my.w[3]).toNat
    ∧ (status.my.stats.find? fun st => st.ctr == ctrOf w.a) = some failed
    ∧ (∀ n : BitVec 3, ((counted 3).my.xSrc m.b).getLsbD n.toNat = true → ((counted 3).my.stats.find? fun st => st.ctr == n) = none)
    ∧ (∀ n : BitVec 3, (base.my.xSrc m.b).getLsbD n.toNat = true → base.my.w[n.toNat]'n.isLt = 0)
    ∧ (∃ n : BitVec 3, ((counted 3).my.xSrc m.b).getLsbD n.toNat = true ∧ (counted 3).my.w[n.toNat]'n.isLt ≠ 0)
    ∧ ((status.my.xSrc m.b).getLsbD 3 = true ∧ (status.my.stats.find? fun st => st.ctr == (3 : BitVec 3)) = some failed) := by
  have h : ([counted 2, counted 3, status].all fun s =>
      [Instr.wait (wd .raw u0 (r 3) (k 2)), .waita (wd .raw u0 u0 (k 8))].all (clear s)) = true := by decide +kernel
  refine ⟨fun s hs => ?_, by decide +kernel⟩
  have c := clear_all (List.all_eq_true.mp h s hs)
  exact ⟨c _ (by simp), c _ (by simp)⟩

/-- A store of the hart waits in the cellar. -/
def stored : State := after (.st (wd .i8 (r 4) (r 1) u0) { xm with scope := .core }) base
/-- A request of hart 0 on its way. -/
def inNet (id op : Nat) (kind : ReqKind) (es : List ReqElem) : Request := { base.request id op kind es .nowhere with sent := true }
def sentRequest : Request := inNet 90 7 .put [⟨0, 0, .global 0x8000000000000000, 8, 0, 0, none, 0x8000000000000000⟩]
def remote : State := { base with net := [sentRequest] }
/-- A request that a barrier's release at core scope waits for: a load of package memory on its way. -/
def gremote : State := { base with net := [inNet 90 7 .load [⟨0, 0, .mem 0x40 0, 8, 0, 0, none, 0x40⟩]] }

theorem witness_BarrierForms :
    let n := wd .raw u0 u0 u0
    let d := wd .raw (r 4) (r 33) u0
    let b := wd .raw u0 (r 33) (r 2)
    let arrival : Arrival := ⟨33, 1, r 4, none⟩
    let waiting := on fun h => { h with inNbaw := some arrival }
    let first (s : State) (releases : Bool) : Bool := (releases && s.owes .all .core) || s.signalsFirst s.me 33
    (gremote.Clear (.gbar n) ∧ gremote.my.inGbar = false ∧ gremote.owes .all .gang = true)
    ∧ (base.Clear (.gbar n) ∧ base.owes .all .gang = false)
    ∧ base.Clear (.nbinit b xm)
    ∧ (gremote.Clear (.nbarr true d xmCore) ∧ first gremote true = true)
    ∧ (base.Clear (.nbarr false d xmCore) ∧ first base false = false)
    ∧ base.Clear (.nbwait true b xmCore)
    ∧ (gremote.Clear (.nbaw .ar d xmCore) ∧ gremote.my.inNbaw = none ∧ first gremote (MemOrd.releases .ar) = true)
    ∧ (base.Clear (.nbaw .ar d xmCore) ∧ base.my.inNbaw = none ∧ first base (MemOrd.releases .ar) = false)
    ∧ waiting.Clear (.nbaw .ar d xmCore) ∧ waiting.my.inNbaw = some arrival := by
  refine ⟨⟨Clear.of ?_, ?_⟩, ⟨Clear.of ?_, ?_⟩, Clear.of ?_, ⟨Clear.of ?_, ?_⟩, ⟨Clear.of ?_, ?_⟩, Clear.of ?_, ⟨Clear.of ?_, ?_⟩,
    ⟨Clear.of ?_, ?_⟩, Clear.of ?_, ?_⟩ <;> decide +kernel

theorem witness_YieldsSealsAndFences : ∀ i ∈ [Instr.yield (wd .raw u0 u0 u0), .yieldp (wd .raw u0 u0 u0),
    .seal (wd .raw u0 u0 u0), .fenceLd (wd .raw u0 u0 u0) xm, .fenceSt (wd .raw u0 u0 u0) xm, .fenceAll (wd .raw u0 u0 u0) xmCore],
    base.Clear i := clear_all (by decide +kernel)

theorem witness_MfsReadsItsRegister : base.Clear (.mfs (wd .raw (r 4) u0 u0) 0x302) ∧ user.my.sup = false ∧ base.my.sup = true :=
  ⟨Clear.of (by decide +kernel), by decide +kernel, by decide +kernel⟩

theorem witness_MtsWritesItsRegister :
    let w := wd .raw u0 (r 2) u0
    (∀ i ∈ [Instr.mts w 0x003, .mts w 0x000, .mts w 0x001, .mts w 0x02B, .mts w 0x021, .mts w 0x02D, .mts w 0x332, .mts w 0x301,
      .lightRequest w, .csctlRetry w], base.Clear i)
    ∧ (∀ i ∈ [Instr.mts w 0x002, .mts w 0x302, .mts w 0x331], base.Clear i)
    ∧ user.Clear (.mts w 0x02B) ∧ user.my.sup = false ∧ 0x02B ∉ [0x000, 0x001, 0x003, 0x100, 0x102] ∧ base.my.sup = true :=
  ⟨clear_all (by decide +kernel), clear_all (by decide +kernel), Clear.of (by decide +kernel), by decide +kernel, by decide, by decide +kernel⟩


/-- The failure of a result. -/
def errorOf {ε α : Type} : Except ε α → Option ε
  | .error e => some e
  | .ok _ => none

theorem error_of {ε α : Type} {e : Except ε α} {x : ε} (h : errorOf e = some x) : e = .error x := by
  cases e with
  | error y => exact congrArg Except.error (Option.some.inj h)
  | ok b => exact nomatch h

theorem error_some {ε α : Type} {e : Except ε α} (h : e.toOption.isNone = true) : ∃ x, e = .error x := by
  cases e with
  | error y => exact ⟨y, rfl⟩
  | ok b => exact nomatch h

theorem some_ok {ε α : Type} {e : Except ε α} (h : e.toOption.isSome = true) : ∃ a, e = .ok a := by
  cases e with
  | error y => exact nomatch h
  | ok b => exact ⟨b, rfl⟩

/-! ### Team tables -/

/-- A table of two members, harts 0 and 8, at the scratchpad's base. -/
def tableHead (nmem size : Nat) : List Byte :=
  bytesOfNat 4 nmem ++ bytesOfNat 4 0 ++ bytesOfNat 8 77 ++ bytesOfNat 4 size ++ bytesOfNat 4 1 ++ bytesOfNat 40 0
def tableEntries : List Byte :=
  bytesOfNat 8 0 ++ bytesOfNat 8 0x8000000000000000 ++ bytesOfNat 8 0x10000 ++ bytesOfNat 8 0x8000000000000100
def tabled (nmem size : Nat) : State :=
  base.modCore 0 fun c => { c with spad := Memory.writeCells [] (cellsAt 0 (tableHead nmem size ++ tableEntries)) }
/-- The same table, whose entries lie past the reservation's end. -/
def cutTable : State :=
  (on (withX 1 0x7E00000000000FC0)).modCore 0 fun c => { c with spad := Memory.writeCells [] (cellsAt 0xFC0 (tableHead 2 256)) }
def twoMembers : TeamTable := ⟨77, 256, 1, [⟨0, 0x8000000000000000⟩, ⟨8, 0x8000000000000100⟩]⟩

/-- A range that a word reads at its place, with what it reads. -/
def loadsOf (s : State) (i : Instr) (va n : Nat) : Option (List Byte) × State :=
  let es := rangeElems va n
  (s.holdElems s.me es).loadParts ((placedAt s .read es).flatMap fun p => p.parts.flatMap eightParts)

def loads (s : State) (i : Instr) (va n : Nat) : Bool :=
  let es := rangeElems va n
  reaches s i .read es (fun _ => 0) && ((s.holdElems s.me es).lostTrap (placedAt s .read es)).isNone

theorem Loads.of {s : State} {i : Instr} {va n : Nat} (h : loads s i va n = true) : s.Loads i va n (loadsOf s i va n) := by
  simp only [loads, Bool.and_eq_true, Option.isNone_iff_eq_none] at h
  exact ⟨_, Reaches.of h.1, h.2, rfl⟩

/-- What a range's reading gives, and the state after it. -/
theorem Loads.eq {s : State} {i : Instr} {va n : Nat} {v : Option (List Byte)} (h : loads s i va n = true)
    (hv : (loadsOf s i va n).1 = v) : s.Loads i va n (v, (loadsOf s i va n).2) := hv ▸ Loads.of h

theorem LoadTraps.of {s : State} {i : Instr} {va n : Nat} (hg : s.gated = false)
    (h : (s.placeAll s.me .read (rangeElems va n)).toOption.isNone = true) : ∃ t, s.LoadTraps i va n t := by
  cases he : s.placeAll s.me .read (rangeElems va n) with
  | error t => exact ⟨t, .inl ⟨hg, he⟩⟩
  | ok ps => rw [he] at h; exact nomatch h

theorem witness_TeamInstall :
    let i : Instr := .teambaseInstall (wd .raw u0 (r 1) u0)
    let spad := 0x7E00000000000000
    let next (s : State) : State := (loadsOf s i spad 64).2
    (∀ s ∈ [tabled 2 256, tabled 1 256, tabled 2 1, cutTable, on (withX 1 0x7E00000000001000), on (withX 1 0x8000000000000000)], s.Clear i)
    ∧ (∃ t, (on (withX 1 0x7E00000000001000)).LoadTraps i 0x7E00000000001000 64 t)
    ∧ (∃ q, (on (withX 1 0x8000000000000000)).Loads i 0x8000000000000000 64 (none, q))
    ∧ ((tabled 1 256).Loads i spad 64 (some (tableHead 1 256), next (tabled 1 256)) ∧ natOfBytes ((tableHead 1 256).take 4) = 1)
    ∧ ((tabled 2 256).Loads i spad 64 (some (tableHead 2 256), next (tabled 2 256)) ∧ natOfBytes ((tableHead 2 256).take 4) = 2
      ∧ (∃ q, (next (tabled 2 256)).Loads i (spad + 64) 32 (some tableEntries, q))
      ∧ teamOf (tableHead 2 256) tableEntries = some twoMembers ∧ (twoMembers.members.findIdx? fun m => m.hart == base.me) = some 0)
    ∧ ((tabled 2 1).Loads i spad 64 (some (tableHead 2 1), next (tabled 2 1))
      ∧ (∃ q, (next (tabled 2 1)).Loads i (spad + 64) 32 (some tableEntries, q)) ∧ teamOf (tableHead 2 1) tableEntries = none)
    ∧ (∃ q, cutTable.Loads i (spad + 0xFC0) 64 (some (tableHead 2 256), q) ∧ ∃ t, q.LoadTraps i (spad + 0x1000) 32 t) := by
  have far : loads (on (withX 1 0x8000000000000000)) (.teambaseInstall (wd .raw u0 (r 1) u0)) 0x8000000000000000 64 = true := by
    decide +kernel
  refine ⟨clear_all' (by decide +kernel), LoadTraps.of (by decide +kernel) (by decide +kernel),
    ⟨_, Loads.eq far (by decide +kernel)⟩, ⟨Loads.eq (by decide +kernel) (by decide +kernel), by decide⟩,
    ⟨Loads.eq (by decide +kernel) (by decide +kernel), by decide, ⟨_, Loads.eq (by decide +kernel) (by decide +kernel)⟩, by decide +kernel, by decide +kernel⟩,
    ⟨Loads.eq (by decide +kernel) (by decide +kernel), ⟨_, Loads.eq (by decide +kernel) (by decide +kernel)⟩, by decide +kernel⟩,
    ⟨_, Loads.eq (by decide +kernel) (by decide +kernel), LoadTraps.of (by decide +kernel) (by decide +kernel)⟩⟩

def exited (i : Instr) : State := after i base

theorem witness_ExitNopTlbiAndGrun :
    let n := wd .raw u0 u0 u0
    let drop (c : BitVec 10) : Wd := wd .raw u0 (r 2) (k c)
    base.Clear (.nop n)
    ∧ (base.Clear (.exit n) ∧ base.my.stats = [] ∧ base.my.ops = [] ∧ base.unsealed = false)
    ∧ (stored.Clear (.exit n) ∧ stored.my.stats = [] ∧ stored.my.ops ≠ [] ∧ stored.unsealed = true)
    ∧ (status.Clear (.exit n) ∧ status.my.heldStatus (fun _ => true) = some failed)
    ∧ ((after (.st (wd .i8 (r 4) (r 1) u0) { xm with scope := .pod }) base).Clear (.tlbi (drop 0))
      ∧ (after (.st (wd .i8 (r 4) (r 1) u0) { xm with scope := .pod }) base).owesStores = true)
    ∧ (∀ c ∈ [(0 : BitVec 10), 1, 2, 3, 4], base.Clear (.tlbi (drop c))) ∧ base.owesStores = false
    ∧ (remote.Clear (.grun (wd .raw (r 4) (r 2) u0)) ∧ remote.owes .all .pod = true)
    ∧ base.Clear (.grun (wd .raw (r 4) (r 2) u0)) ∧ base.owes .all .pod = false := by
  have h : ([(0 : BitVec 10), 1, 2, 3, 4].all fun c => clear base (.tlbi (wd .raw u0 (r 2) (k c)))) = true := by decide +kernel
  refine ⟨Clear.of ?_, ⟨Clear.of ?_, ?_⟩, ⟨Clear.of ?_, ?_⟩, ⟨Clear.of ?_, ?_⟩, ⟨Clear.of ?_, ?_⟩,
    fun c hc => Clear.of (List.all_eq_true.mp h c hc), ?_, ⟨Clear.of ?_, ?_⟩, Clear.of ?_, ?_⟩ <;> decide +kernel

/-! ### Vector words -/

theorem witness_VectorResultsLand :
    0 < 32 ∧ (∀ p ∈ [(0, 5), (255, 7)], 32 * (p.1 + 1) ≤ 8192) ∧ ([(0, 5), (255, 7)].map Prod.fst).Nodup
    ∧ (∀ c, r 4 ≠ .const c) := ⟨by decide, by decide, by decide, fun c h => nomatch h⟩

theorem witness_VectorIntegerElements :
    (Fmt.i8.isInt = true ∧ 0x80 < 2 ^ Fmt.i8.bits ∧ 0xFF < 2 ^ Fmt.i8.bits) ∧ Fmt.i64.isInt = true ∧ 0 < 2 ^ Fmt.i64.bits := by
  decide

/-- A state with a quiet NaN, a signalling NaN and zeros of both signs. -/
def specials : State := two .fp16 16 [0x7E01, 0x8000] [0x7C01, 0]
def specials' : State := two .fp16 16 [0, 0x8000] [0x8000, 0]

theorem witness_VectorMinMaxSpecialValues :
    (∀ s ∈ [specials, specials'], ∀ i ∈ [Instr.vmin (vab .fp16) .rne, .vmax (vab .fp16) .rne, .vabs (va .fp16) .rne, .vneg (va .fp16) .rne],
      Instr.format i s.my = .fp16)
    ∧ (∀ i ∈ [Instr.vmin (vab .fp16) .rne, .vmax (vab .fp16) .rne], specials.Clear i ∧ specials'.Clear i)
    ∧ (∀ i ∈ [Instr.vabs (va .fp16) .rne, .vneg (va .fp16) .rne], specials.Clear i)
    ∧ (∀ e ∈ [0, 1], Fmt.fp16.bits * (e + 1) ≤ 8192 ∧ e < min specials.my.vl.toNat (elemsPer .fp16 specials.myCore.vlmax)
      ∧ specials.my.selects .always .fp16 e = true ∧ specials.my.srcElem (r 20) .fp16 e < 2 ^ 16
      ∧ specials.my.srcElem (r 21) .fp16 e < 2 ^ 16)
    ∧ (specials.my.srcElem (r 20) .fp16 0 = 0x7E01 ∧ specials.my.srcElem (r 21) .fp16 0 = 0x7C01
      ∧ specials.my.srcElem (r 20) .fp16 1 = 0x8000 ∧ specials.my.srcElem (r 21) .fp16 1 = 0)
    ∧ specials'.my.srcElem (r 20) .fp16 0 = 0 ∧ specials'.my.srcElem (r 21) .fp16 0 = 0x8000 := by
  have h : ([Instr.vmin (vab .fp16) .rne, .vmax (vab .fp16) .rne].all fun i => clear specials i && clear specials' i) = true := by
    decide +kernel
  refine ⟨by decide +kernel, fun i hi => ?_, clear_all (by decide +kernel), by decide +kernel, by decide +kernel, by decide +kernel⟩
  have h := List.all_eq_true.mp h i hi
  rw [Bool.and_eq_true] at h
  exact ⟨Clear.of h.1, Clear.of h.2⟩

/-- Every class of an fp16 value, one after another. -/
def classes : State := on fun h => { withV 20 .fp16 16 [0xFC00, 0x8400, 0x8001, 0x8000, 0, 1, 0x0400, 0x7C00, 0x7C01, 0x7E00] h with vl := 10 }

theorem witness_VclassSetsOneBit :
    classes.Clear (.vclass (va .fp16) .rne) ∧ Instr.format (.vclass (va .fp16) .rne) classes.my = .fp16
    ∧ (∀ e < 10, e < min classes.my.vl.toNat (elemsPer .fp16 classes.myCore.vlmax) ∧ classes.my.selects .always .fp16 e = true
      ∧ Fmt.fp16.bits * (e + 1) ≤ 8192 ∧ classes.my.srcElem (r 20) .fp16 e < 2 ^ 16)
    ∧ outs (after (.vclass (va .fp16) .rne) classes) 4 16 10 = [1, 2, 4, 8, 16, 32, 64, 128, 256, 512] :=
  ⟨Clear.of (by decide +kernel), by decide +kernel, by decide +kernel, by decide +kernel⟩

theorem witness_BitwiseSelectAndCompare :
    ∀ i ∈ [Instr.vand (vab .raw) .rne, .vor (vab .raw) .rne, .vxor (vab .raw) .rne, .vandn (vab .raw) .rne, .vsel (vab .raw),
      .vcmp .un (vab .raw)], (two .fp16 16 [0x7E00] [0]).Clear i := clear_all (by decide +kernel)

/-- The trits of three good bytes, and of one that is illegal. -/
def trits (last : Nat) : State := two .tern 8 [0, last] []

theorem witness_ConversionWords :
    let w := wd .i8 (r 4) (r 20) (k 0)
    let u := wd .raw (r 4) (r 20) (k 0)
    (∀ s ∈ [(trits 242), (on fun h => { withV 20 .tern 8 [243] h with vl := 5 })], s.Clear (.vcvt w .rne) ∧ s.Clear (.trnup u))
    ∧ illegalTern ((trits 242).my.vecReg w.a).bits 0 [0, 1] = none
    ∧ illegalTern ((on fun h => { withV 20 .tern 8 [243] h with vl := 5 }).my.vecReg w.a).bits 0 [0, 1, 2, 3, 4] = some (ternTrap 0 0)
    ∧ base.Clear (.vscl (wd .fp32 (r 4) (r 6) (k 0)) xx) ∧ base.Clear (.trnpk (wd .raw (r 4) (r 6) (k 0)))
    ∧ base.Clear (.vqnt (wd .i8 (r 4) (r 1) (k 0)) { xx with sa := 8, blen := .b8 }) := by
  have h : ([(trits 242), (on fun h => { withV 20 .tern 8 [243] h with vl := 5 })].all fun s =>
      [Instr.vcvt (wd .i8 (r 4) (r 20) (k 0)) .rne, .trnup (wd .raw (r 4) (r 20) (k 0))].all (clear s)) = true := by decide +kernel
  refine ⟨fun s hs => ?_, by decide +kernel, by decide +kernel, Clear.of (by decide +kernel), Clear.of (by decide +kernel),
    Clear.of (by decide +kernel)⟩
  have c := clear_all (List.all_eq_true.mp h s hs)
  exact ⟨c _ (by simp), c _ (by simp)⟩

theorem witness_UnionMergesOneEntry :
    (addElem .rne .fp32 0x40400000 0xC0400000).1 = 0 ∧ (elemVal .fp32 (addElem .rne .fp32 0x40400000 0xC0400000).1).isZero = true
    ∧ (addElem .rne .fp32 0x3F800000 0x3F800000).1 = 0x40000000 ∧ (elemVal .fp32 0x40000000).isZero = false
    ∧ (addElem .rne .i8 255 1).1 = 0 ∧ Fmt.i8.isInt = true := by decide +kernel


/-! ### Memory words -/

/-- A clear load reaches places that its core reads at once, whole. -/
def loadOk (s : State) (i : Instr) (es : List Elem) : Bool :=
  let b := s.holdElems s.me es
  let ps := placedAt s .read es
  clear s i && reaches s i .read es loadNeed && (b.freshTrap ps).isNone && ps.all (b.atOnce s.me)
    && (b.elemsPoison ps).isNone

theorem loadOk_of {s : State} {i : Instr} {es : List Elem} (h : loadOk s i es = true) :
    s.Clear i ∧ ∃ ps, s.Reaches i .read es loadNeed ps ∧ (s.holdElems s.me es).freshTrap ps = none
      ∧ ps.all ((s.holdElems s.me es).atOnce s.me) = true ∧ (s.holdElems s.me es).elemsPoison ps = none := by
  simp only [loadOk, Bool.and_eq_true, Option.isNone_iff_eq_none] at h
  exact ⟨Clear.of h.1.1.1.1, _, Reaches.of h.1.1.1.2, h.1.1.2, h.1.2, h.2⟩

/-- The elements of each load, with r as its hart. -/
def loadElems (s : State) (i : Instr) : List Elem :=
  let r := s.readView i
  match i with
  | .ld w x => [⟨0, r.effAddr w x 1, scalarBytes w.fmt, false⟩]
  | .vld w x => (s.accessed r w).map (stridedElem (r.effAddr w x (offUnit w.fmt)) (Word.ofNat (elemBytes w.fmt)) (elemBytes w.fmt))
  | .vlds w x => (s.accessed r w).map (stridedElem (r.effAddr w x (offUnit w.fmt)) (r.xSrc w.b) (elemBytes w.fmt))
  | .vldw w x => (List.range (movesPer w.fmt s.myCore.vlmax)).map
      (stridedElem (r.effAddr w x (offUnit w.fmt)) (Word.ofNat (elemBytes w.fmt)) (elemBytes w.fmt))
  | .vldx w x | .vldxo w x => s.indexedElems r w x (elemBytes w.fmt) false
  | .zld w x => (List.range 640).map (stridedElem (r.effAddr w x 4) 4 4)
  | .vldg w x =>
    let live := r.activeUnits w.grd (min (movesOf w.fmt (s.count r w.fmt)) s.myCore.vlmax)
    let idx (e : Nat) : Int := indexAt .i32 (r.vr (idxOf w.b)).bits e
    (live.filter fun e => 0 ≤ idx e && idx e < 4 * (s.capacity w.fmt)).map fun e =>
      ⟨e, (r.effAddr w x (offUnit w.fmt) + (idx e).toNat * elemBytes w.fmt) % 2 ^ 64, elemBytes w.fmt, false⟩
  | _ => []

def loadWords : List Instr :=
  let l := wd .i32 (r 4) (r 1) u0
  let ix := wd .i32 (r 4) (r 1) (r 2)
  [.ld l xm, .vld l xm, .vlds (wd .i32 (r 4) (r 1) (r 3)) xm, .vldw l xm, .vldx ix xm, .vldxo ix { xm with ordered := true },
   .vldg { ix with grd := ⟨false, 1⟩ } xm, .zld (wd .fp32 (r 1) (r 1) u0) xm]

/-- The same from the global window, whose elements the core does not read at once. -/
def faraway : State := on (withX 1 0x8000000000000000)

/-- A copy of the scratchpad's first granule is lost, and nothing has used it. -/
def lostCopy : State := base.modCore 0 fun c => { c with poison := [⟨0, false, true, []⟩] }

theorem witness_Loads :
    (∀ i ∈ loadWords, base.Clear i ∧ ∃ ps, base.Reaches i .read (loadElems base i) loadNeed ps
      ∧ (base.holdElems base.me (loadElems base i)).freshTrap ps = none
      ∧ ps.all ((base.holdElems base.me (loadElems base i)).atOnce base.me) = true
      ∧ (base.holdElems base.me (loadElems base i)).elemsPoison ps = none) ∧ base.history = []
    ∧ (∃ ps, faraway.Reaches (.vld (wd .i32 (r 4) (r 1) u0) xm) .read (loadElems faraway (.vld (wd .i32 (r 4) (r 1) u0) xm)) loadNeed ps
      ∧ ps.length = 2 ∧ ps.all (faraway.atOnce 0) = false)
    ∧ (∃ ps, lostCopy.Reaches (.vld (wd .i32 (r 4) (r 1) u0) xm) .read (loadElems lostCopy (.vld (wd .i32 (r 4) (r 1) u0) xm)) loadNeed ps
      ∧ (lostCopy.freshTrap (ps.filter (lostCopy.atOnce 0))).isSome = true)
    ∧ base.Clear (.pref (wd .raw u0 (r 1) u0) xm) := by
  have h : (loadWords.all fun i => loadOk base i (loadElems base i)) = true := by decide +kernel
  refine ⟨fun i hi => loadOk_of (List.all_eq_true.mp h i hi), by rfl, ⟨_, Reaches.of ?_, ?_⟩, ⟨_, Reaches.of ?_, ?_⟩, Clear.of ?_⟩ <;>
    decide +kernel

def storeWords : List Instr :=
  let l := wd .i32 (r 4) (r 1) u0
  let ix := wd .i32 (r 4) (r 1) (r 2)
  [.st l xm, .vst l xm, .vsts (wd .i32 (r 4) (r 1) (r 3)) xm, .vstw { l with fmt := .raw } xm, .vstx ix xm,
   .vstxo ix { xm with ordered := true }, .zst (wd .fp32 (r 1) (r 1) u0) xm, .vcst { wd .i32 (r 4) (r 1) (k 1) with grd := ⟨false, 1⟩ } xm]

def stCore : Instr := .st (wd .i32 (r 3) (r 1) u0) xm
/-- A state whose x1 names package memory that a leaf of 32 GiB maps. -/
def stMem : State := prog.setMy { hart0 with ptbase := 0x10000, x := hart0.x.set 1 0x40 }
def zeroLines : Instr := .zerol (wd .raw u0 (r 1) (k 256)) xm

theorem witness_Stores :
    (∀ i ∈ storeWords, base.Clear i ∧ ∃ ps, base.Reaches i .write (base.storedElems (base.readView i) i) storeNeed ps)
    ∧ base.Clear zeroLines ∧ (base.my.xSrc (r 1)).toNat % 128 = 0 ∧ (base.my.xSrc (k 256)).toNat % 128 = 0
    ∧ (∃ rs, base.Reaches zeroLines .write (rangeElems 0x7E00000000000000 256) (fun _ => 0) rs)
    ∧ (∃ ps, (base.holdElems base.me (rangeElems 0x7E00000000000000 256)).placeAll base.me .write (zeroElems 0x7E00000000000000 256) = .ok ps)
    ∧ placedAt base .write (base.storedElems (base.readView stCore) stCore)
      = [⟨⟨0, 0x7E00000000000000, 4, false⟩, [(.spad (coreOf base.me) 0, 4)]⟩]
    ∧ stMem.Clear stCore ∧ stMem.net = []
    ∧ ∃ p, placedAt stMem .write (stMem.storedElems (stMem.readView stCore) stCore) = [p] ∧ p.parts = [(.mem 0x40 0, p.elem.bytes)]
      ∧ stMem.Reaches stCore .write (stMem.storedElems (stMem.readView stCore) stCore) storeNeed [p] := by
  have h : (storeWords.all fun i => clear base i && reaches base i .write (base.storedElems (base.readView i) i) storeNeed) = true := by
    decide +kernel
  have hm : placedAt stMem .write (stMem.storedElems (stMem.readView stCore) stCore) = [⟨⟨0, 0x40, 4, false⟩, [(.mem 0x40 0, 4)]⟩] := by
    decide +kernel
  refine ⟨fun i hi => ?_, Clear.of ?_, ?_, ?_, ⟨_, Reaches.of ?_⟩, ⟨_, placedAt_eq ?_⟩, ?_, Clear.of ?_, ?_,
    _, hm, rfl, hm ▸ Reaches.of ?_⟩
  · have h := List.all_eq_true.mp h i hi
    rw [Bool.and_eq_true] at h
    exact ⟨Clear.of h.1, _, Reaches.of h.2⟩
  all_goals decide +kernel

theorem witness_DeferralQueue :
    let i : Instr := .defer (wd .raw u0 (r 4) (k 2)) xm
    let room := on fun h => { h with dfsz := 32 }
    base.Clear i ∧ room.Clear i
    ∧ (base.my.activeUnits .always (min base.my.vl.toNat base.myCore.vlmax)).length = 2 ∧ base.my.dfsz < 32 ∧ room.my.dfsz = 32
    ∧ base.deferQueue = [] ∧ (on fun h => { h with vl := 0 }).Clear i ∧ base.Clear (.drain (wd .raw (r 4) (r 5) (k 2)) xm) := by
  refine ⟨Clear.of ?_, Clear.of ?_, ?_, ?_, ?_, ?_, Clear.of ?_, Clear.of ?_⟩ <;> decide +kernel

def flight (kind : ReqKind) (e : ReqElem) : State := { base with net := [inNet 90 7 kind [e]] }
/-- One with an earlier request before it, to the same bytes. -/
def behind (kind : ReqKind) (e : ReqElem) : State := { base with net := [inNet 80 6 kind [e], inNet 90 7 kind [e]] }
def frozenBy (s : State) : State := { s with pkgs := [(0, { Package.reset with frozen := true })] }
def lane0 : ReqElem := ⟨0, 0, .mem 0x40 0, 64, 0, 0x40, none, 0x40⟩

def queueWords : List (Instr × Acc) :=
  [(.qlen (wd .raw (r 4) (r 1) u0) xm, .read), (.qpop (wd .raw (r 4) (r 1) (r 5)) xm, .write), (.qapp (wd .raw (r 4) (r 1) (r 2)) xm, .write)]

/-- A request of hart 0 on its way to a descriptor at the scratchpad's base: CAP 256, BATCH 2, with a tail and a head. -/
def queued0 (kind : ReqKind) (data : List Nat) (tail head : Nat) : State :=
  { base.modCore 0 fun c => { c with spad := Memory.writeCells [] (cellsAt 0 (bytesOfNat 8 0x7E00000000000100 ++ bytesOfNat 8 256
      ++ bytesOfNat 8 tail ++ bytesOfNat 8 head ++ bytesOfNat 8 2)) } with
    net := [inNet 90 7 kind (⟨0, 0, .spad 0 0, 64, 0, 0x7E00000000000000, none, 0x7E00000000000000⟩ ::
      data.map fun v => ⟨0, 0, .window 0, 0, v, 0, none, 0x7E00000000000000⟩)] }

/-- That request is due, and its descriptor is a good one. -/
def queueReady (s : State) (d : QueueDesc) : Bool := match s.request? 90 with
  | none => false
  | some q =>
    let va := (q.elems.head?.map fun e => e.cmp).getD 0
    !s.asleep q && !q.elems.any (s.flying q) && !s.queueWaits q && (s.spaceNat q va 64).toOption.isSome && (s.spacePoison q va 64).isNone
      && readDesc (fun off n => (s.spaceNat q (va + off) n).toOption) == some d && d.capOk

/-- What a request writes or reads of its queue can be reached. -/
def queueCells (s : State) (d : QueueDesc) : Bool := match s.request? 90 with
  | none => false
  | some q => match q.kind with
    | .queuePop most => (s.readEntries q d (min d.count most)).toOption.isSome
        && (s.spaceCells q (0x7E00000000000000 + 0x18) 8 (d.head + min d.count most)).toOption.isSome
    | _ =>
      let data := q.elems.tail.map fun e => e.data
      ((((List.range data.length).zip data).mapM fun p => s.spaceCells q (entryAt d (d.tail + p.1)) 4 p.2) : Except _ _).toOption.isSome
        && (s.spaceCells q (0x7E00000000000000 + 0x10) 8 (d.tail + data.length)).toOption.isSome

def desc0 (tail head : Nat) : QueueDesc := ⟨0x7E00000000000100, 256, tail, head, 2, 0, 0⟩

theorem witness_WorkQueueRequests :
    let desc : List Elem := [⟨0, 0x7E00000000000000, 64, false⟩]
    let b := base.holdElems base.me desc
    (∀ q ∈ queueWords, base.Clear q.1 ∧ (∃ ps, base.Reaches q.1 q.2 desc (fun _ => 32) ps ∧ ps.flatMap Placed.parts = [(.spad 0 0, 64)])
      ∧ b.Reaches q.1 q.2 [] (fun _ => 32) []
      ∧ ∃ qs, b.Reaches q.1 q.2 (b.entryElems (.spad 0 0) (base.my.activeUnits .always 2)) (fun _ => 32) qs)
    ∧ (base.my.xSrc (r 1)).toNat % 64 = 0
    ∧ (∀ i ∈ [Instr.qlen (wd .raw (r 4) (r 2) u0) xm, .qpop (wd .raw (r 4) (r 2) (r 5)) xm, .qapp (wd .raw (r 4) (r 2) (r 2)) xm], base.Clear i)
    ∧ (base.my.xSrc (r 2)).toNat % 64 ≠ 0
    ∧ (queueReady (queued0 .queueLen [] 5 2) (desc0 5 2) = true
      ∧ queueReady (queued0 .queueAppend [7, 8] 256 1) (desc0 256 1) = true ∧ (desc0 256 1).cap < (desc0 256 1).count + 2
      ∧ queueReady (queued0 .queueAppend [7, 8] 5 2) (desc0 5 2) = true ∧ (desc0 5 2).count + 2 ≤ (desc0 5 2).cap
      ∧ queueCells (queued0 .queueAppend [7, 8] 5 2) (desc0 5 2) = true
      ∧ queueReady (queued0 (.queuePop 2) [] 5 2) (desc0 5 2) = true ∧ queueCells (queued0 (.queuePop 2) [] 5 2) (desc0 5 2) = true)
    ∧ (∃ q, (behind .queueLen lane0).request? 90 = some q ∧ (behind .queueLen lane0).asleep q = false
      ∧ (behind .queueLen lane0).queueWaits q = true)
    ∧ ∃ q, (frozenBy (flight .queueLen lane0)).request? 90 = some q ∧ (frozenBy (flight .queueLen lane0)).asleep q = true := by
  have h : (queueWords.all fun q =>
      let desc : List Elem := [⟨0, 0x7E00000000000000, 64, false⟩]
      let b := base.holdElems base.me desc
      clear base q.1 && reaches base q.1 q.2 desc (fun _ => 32)
        && decide ((placedAt base q.2 desc).flatMap Placed.parts = [(.spad 0 0, 64)]) && reaches b q.1 q.2 [] (fun _ => 32)
        && reaches b q.1 q.2 (b.entryElems (.spad 0 0) (base.my.activeUnits .always 2)) (fun _ => 32)) = true := by decide +kernel
  refine ⟨fun q hq => ?_, by decide +kernel, clear_all (by decide +kernel), by decide +kernel, by decide +kernel,
    ⟨_, rfl, by decide +kernel, by decide +kernel⟩, _, rfl, by decide +kernel⟩
  have h := List.all_eq_true.mp h q hq
  simp only [Bool.and_eq_true, decide_eq_true_eq] at h
  exact ⟨Clear.of h.1.1.1.1, ⟨_, Reaches.of h.1.1.1.2, h.1.1.2⟩, Reaches.of h.1.2, _, Reaches.of h.2⟩

theorem witness_Atomics :
    let w := wd .i32 (r 4) (r 1) (r 3)
    let i : Instr := .amo .add .ar w xm
    let es (s : State) : List Elem := [⟨0, s.my.effAddr w xm 1, 4, true⟩]
    let v : Instr := .vamo .add .none (wd .i32 (r 4) (r 1) (r 10)) xm
    (base.Clear i ∧ base.releaseWaits (MemOrd.releases .ar) xm.scope = false
      ∧ (∃ p, base.Reaches i .atomic (es base) atomicNeed [p] ∧ p.parts = [(.spad 0 0, 4)] ∧ p.elem.bytes = 4)
      ∧ base.placePoison 0 (.spad 0 0) = none ∧ base.Sound)
    ∧ (faraway.Clear i ∧ ∃ p, faraway.Reaches i .atomic (es faraway) atomicNeed [p]
      ∧ p.parts = [(.global 0x8000000000000000, 4)] ∧ p.elem.bytes = 4)
    ∧ (base.Clear v ∧ ∃ ps, base.Reaches v .atomic (base.indexedElems base.my (wd .i32 (r 4) (r 1) (r 10)) xm 4 true) atomicNeed ps)
    ∧ (remote.Clear (.amo .add .ar w xmPod) ∧ remote.Clear (.vamo .add .rel (wd .i32 (r 4) (r 1) (r 10)) xmPod)
      ∧ remote.releaseWaits (MemOrd.releases .ar) xmPod.scope = true)
    ∧ Fmt.i32.isInt = true ∧ 5 < 2 ^ Fmt.i32.bits := by
  have one (s : State) (q : Placed) (h : placedAt s .atomic [⟨0, s.my.effAddr (wd .i32 (r 4) (r 1) (r 3)) xm 1, 4, true⟩] = [q])
      (hr : reaches s (.amo .add .ar (wd .i32 (r 4) (r 1) (r 3)) xm) .atomic [⟨0, s.my.effAddr (wd .i32 (r 4) (r 1) (r 3)) xm 1, 4, true⟩]
        atomicNeed = true) :
      s.Reaches (.amo .add .ar (wd .i32 (r 4) (r 1) (r 3)) xm) .atomic [⟨0, s.my.effAddr (wd .i32 (r 4) (r 1) (r 3)) xm 1, 4, true⟩]
        atomicNeed [q] := h ▸ Reaches.of hr
  refine ⟨⟨Clear.of ?_, ?_, ⟨⟨⟨0, 0x7E00000000000000, 4, true⟩, [(.spad 0 0, 4)]⟩, one base _ ?_ ?_, rfl, rfl⟩, ?_, sound_of ?_⟩,
    ⟨Clear.of ?_, ⟨⟨0, 0x8000000000000000, 4, true⟩, [(.global 0x8000000000000000, 4)]⟩, one faraway _ ?_ ?_, rfl, rfl⟩,
    ⟨Clear.of ?_, _, Reaches.of ?_⟩, ⟨Clear.of ?_, Clear.of ?_, ?_⟩, ?_, ?_⟩ <;> decide +kernel


/-- A state with an earlier remote request of the hart, and one with an acquire of the hart on its way. -/
def sentBefore : State := { remote with opSeq := 91 }
def gatedHart : State := { base with net := [{ inNet 90 7 .load [lane0] with acquire := some .pod }] }

theorem witness_RemoteCopiesAndSignals :
    let w := wd .raw (r 4) (r 1) (r 3)
    let g := wd .raw (r 1) (r 4) (r 3)
    let far (n : Word) := on fun h => withX 4 0x8000000000000000 (withX 3 n h)
    let put : Instr := .rput w xm
    let get : Instr := .rget g xm
    let sig : Instr := .rsig true (wd .raw u0 (r 5) (r 3)) xmCore
    (∀ n ∈ [(5 : Word), 0, 0x1000001], (far n).Clear put ∧ (far n).Clear get ∧ (far n).Clear sig)
    ∧ ((far 5).copyTrap true 0x8000000000000000 0x7E00000000000000 5 = none
      ∧ (far 5).copyTrap false 0x8000000000000000 0x7E00000000000000 5 = none
      ∧ (far 5).copyTrap true 0x7E00000000000000 0x7E00000000000000 5 ≠ none)
    ∧ ((far 5).holdElems 0 [⟨0, 0x7E00000000000000, 5, false⟩]).myCore.stallsAny [⟨0, 0x7E00000000000000, 5, false⟩] = false
    ∧ ((copyCuts 0x8000000000000000 0x7E00000000000000 5).map fun c => (⟨0, 0x7E00000000000000 + c.1, c.2, false⟩ : Elem))
      = [⟨0, 0x7E00000000000000, 5, false⟩]
    ∧ (base.Clear (.rfence (wd .raw u0 u0 u0) xm) ∧ base.owesRemote base.me base.opSeq = false
      ∧ sentBefore.Clear (.rfence (wd .raw u0 u0 u0) xm) ∧ sentBefore.owesRemote sentBefore.me sentBefore.opSeq = true)
    ∧ ((far 5).signalFault 0 = none ∧ (far 5).gated = false ∧ (far 5).releaseWaits true xmCore.scope = false)
    ∧ ((far 5).signalFault 0x8000000000000001 ≠ none)
    ∧ (gatedHart.Clear put ∧ gatedHart.gated = true ∧ 0 < (gatedHart.my.xSrc w.b).toNat ∧ (gatedHart.my.xSrc w.b).toNat ≤ 2 ^ 16) := by
  have h : ([(5 : Word), 0, 0x1000001].all fun n =>
      let s := on fun h => withX 4 0x8000000000000000 (withX 3 n h)
      clear s (.rput (wd .raw (r 4) (r 1) (r 3)) xm) && clear s (.rget (wd .raw (r 1) (r 4) (r 3)) xm)
        && clear s (.rsig true (wd .raw u0 (r 5) (r 3)) xmCore)) = true := by decide +kernel
  refine ⟨fun n hn => ?_, by decide +kernel, by decide +kernel, by decide +kernel, ⟨Clear.of ?_, ?_, Clear.of ?_, ?_⟩, by decide +kernel,
    by decide +kernel, Clear.of ?_, by decide +kernel⟩
  · have h := List.all_eq_true.mp h n hn
    simp only [Bool.and_eq_true] at h
    exact ⟨Clear.of h.1.1, Clear.of h.1.2, Clear.of h.2⟩
  all_goals decide +kernel

/-- Hart 0 has installed the team of two. -/
def member (count : Word) : State := on fun h =>
  { withX 3 count (withX 4 0x7E00000000000800 h) with teamValid := true, team := some twoMembers, teamNmem := 2 }

theorem witness_Collectives :
    let w := wd .fp32 (r 4) (r 1) (r 3)
    let cs : List Instr := [.collAr .add w xm, .collRs .add w xm, .collAg w xm, .collBc w { xm with off := 1 }]
    (∀ i ∈ cs, base.Clear i ∧ (member 5).Clear i ∧ (member 0x100000000).Clear i) ∧ base.my.teamValid = false
    ∧ ((member 5).Clear (.collBc w { xm with off := 2 }) ∧ twoMembers.members.length ≤ 2)
    ∧ (member 5).my.teamValid = true ∧ (member 5).my.team = some twoMembers ∧ 1 < twoMembers.members.length ∧ (member 5).gated = false
    ∧ (∀ kind ∈ [CollKind.allReduce, .reduceScatter, .allGather, .broadcast],
      let h : CollHead := ⟨twoMembers, kind, .add, .fp32, 5, if kind = .broadcast then 1 else 0⟩
      let both := rangeElems 0x7E00000000000000 (h.srcCount * h.width) ++ rangeElems 0x7E00000000000800 (h.dstCount * h.width)
      (member 5).collTrap twoMembers 0x7E00000000000000 0x7E00000000000800 (h.srcCount * h.width) (h.dstCount * h.width) = none
      ∧ ((member 5).holdElems 0 both).myCore.stallsAny both = false)
    ∧ ((member 5).collTrap twoMembers 0x7E00000000000000 0x7E00000000001000 20 20).isSome = true
    ∧ (member 5).my.teamSelf.toNat < twoMembers.members.length := by
  have h : ([Instr.collAr .add (wd .fp32 (r 4) (r 1) (r 3)) xm, .collRs .add (wd .fp32 (r 4) (r 1) (r 3)) xm, .collAg (wd .fp32 (r 4) (r 1) (r 3)) xm,
      .collBc (wd .fp32 (r 4) (r 1) (r 3)) { xm with off := 1 }].all fun i =>
        clear base i && clear (member 5) i && clear (member 0x100000000) i) = true := by decide +kernel
  have g : ([CollKind.allReduce, .reduceScatter, .allGather, .broadcast].all fun kind =>
      let h : CollHead := ⟨twoMembers, kind, .add, .fp32, 5, if kind = .broadcast then 1 else 0⟩
      let both := rangeElems 0x7E00000000000000 (h.srcCount * h.width) ++ rangeElems 0x7E00000000000800 (h.dstCount * h.width)
      ((member 5).collTrap twoMembers 0x7E00000000000000 0x7E00000000000800 (h.srcCount * h.width) (h.dstCount * h.width)).isNone
        && !((member 5).holdElems 0 both).myCore.stallsAny both) = true := by decide +kernel
  refine ⟨fun i hi => ?_, by decide +kernel, ⟨Clear.of (by decide +kernel), by decide⟩, by decide +kernel, by decide +kernel, by decide,
    by decide +kernel, fun kind hk => ?_, by decide +kernel, by decide +kernel⟩
  · have h := List.all_eq_true.mp h i hi
    simp only [Bool.and_eq_true] at h
    exact ⟨Clear.of h.1.1, Clear.of h.1.2, Clear.of h.2⟩
  · have g := List.all_eq_true.mp g kind hk
    simp only [Bool.and_eq_true, Bool.not_eq_true', Option.isNone_iff_eq_none] at g
    exact g

/-- A hart with a key-page array of one page and its list, on the scratchpad. -/
def pages (dc : BitVec 2) (list : Word) (n : BitVec 16) : State := on fun h =>
  { h with kpDc := dc, kpbase := 0x7E00000000000000, kplist := list, kpPages := n, resSize := 0x10000 }

/-- The append that is due, with the page's header on the scratchpad: its COUNT and its channel code. -/
def appending (count dc : Nat) : State :=
  { (on fun h => { h with resSize := 0x10000 }).modCore 0 fun c => { c with spad := Memory.writeCells [] (cellsAt 8 (bytesOfNat 2 count ++ [BitVec.ofNat 8 dc])) } with
    net := [inNet 90 7 (.keyAppend .fp32) [⟨0, 0, .spad 0 0, 64, 0, 0x7E00000000000000, none, 0x7E00000000000000⟩]] }

/-- The header of that page as its home reads it: the channel code and the COUNT. -/
def pageHead (s : State) : Option (Nat × Nat) := match s.request? 90 with
  | none => none
  | some q =>
    let hd := s.pagePlaces q 0x7E00000000000000 64
    let n := s.placesNat (hd.toOption.getD [])
    if hd.toOption.isSome && !s.asleep q && !q.elems.any (s.flying q) && !s.heldBack q
      && !s.placesPoison 0 (hd.toOption.getD []) then some (n / 2 ^ 80 % 256, n / 2 ^ 64 % 2 ^ 16) else none

/-- The parts of a page that an append writes can be reached, and none is lost. -/
def pageParts (s : State) (dc count : Nat) : Bool := match s.request? 90 with
  | none => false
  | some q =>
    let d := channels dc
    [(0x40, 2 * d), (0x40 + 2 * d, 2 * d), (0x40 + 4 * d + 2 * d * count, 2 * d)].all fun p =>
      match s.pagePlaces q (0x7E00000000000000 + p.1) p.2 with
      | .ok ps => !s.placesPoison 0 ps
      | .error _ => false

/-- The reading of a page that is due, its page bounded already. -/
def bounding : State :=
  { base with net := [{ inNet 90 7 (.bound [] .fp32 0 true 1 0) [] with dest := .bounds (r 4) [(0, 0x3F800000)] }] }

theorem witness_KeyPages :
    let app : Instr := .kapp (wd .raw u0 (r 1) (r 9)) xm
    let bnd : Instr := .kbnd (wd .raw (r 4) (r 9) (r 3)) xm
    let good := pages 0 0x7E00000000008000 1
    let all := rangeElems 0x7E00000000000000 (1 * pageStride 0)
    ((on (withX 1 0x80)).Clear app ∧ ((on (withX 1 0x80)).my.xSrc (r 1)).toNat % 256 ≠ 0)
    ∧ (base.Clear app ∧ (base.my.xSrc (r 1)).toNat % 256 = 0 ∧ ∃ ps, base.Reaches app .write [⟨0, 0x7E00000000000000, 64, false⟩] (fun _ => 32) ps
      ∧ ps.flatMap Placed.parts = [(.spad 0 0, 64)])
    ∧ (pageHead (appending 0 3) = some (3, 0) ∧ pageHead (appending 64 2) = some (2, 64)
      ∧ (pageHead (appending 63 2) = some (2, 63) ∧ pageParts (appending 63 2) 2 63 = true)
      ∧ pageHead (appending 0 0) = some (0, 0) ∧ pageParts (appending 0 0) 0 0 = true)
    ∧ (∃ q, (behind (.keyAppend .fp32) lane0).request? 90 = some q ∧ (behind (.keyAppend .fp32) lane0).heldBack q = true
      ∧ (behind (.keyAppend .fp32) lane0).asleep q = false)
    ∧ (∃ q, (frozenBy (flight (.keyAppend .fp32) lane0)).request? 90 = some q ∧ (frozenBy (flight (.keyAppend .fp32) lane0)).asleep q = true)
    ∧ (∀ s ∈ [pages 3 0 1, pages 0 0x7DFFFFFFFFFFFFFF 1, pages 0 0x7E00000000010000 1, pages 0 0x7E0000000000FFFC 2, good], s.Clear bnd)
    ∧ ((pages 0 0x7E00000000010000 1).my.reserves 0x10000 = false ∧ (pages 0 0x7E0000000000FFFC 2).my.reserves 0xFFFC = true)
    ∧ ({ good with net := remote.net } : State).owes .all .core = true
    ∧ (good.my.reserves 0x8000 = true ∧ good.owes .all .core = false
      ∧ (∃ ps, good.Reaches bnd .read all (fun _ => 0) ps)
      ∧ ((good.holdElems good.me all).placeAll good.me .read ((List.range 1).flatMap fun n =>
        rangeElems (0x7E00000000000000 + n * pageStride 0) (boundBytes 0))).toOption.bind (good.holdElems good.me all).lostTrap = none)
    ∧ ∃ q, bounding.request? 90 = some q ∧ bounding.asleep q = false ∧ q.elems = [] ∧ q.kind = .bound [] .fp32 0 true 1 0
      ∧ q.dest = .bounds (r 4) [(0, 0x3F800000)] ∧ q.acquire = none := by
  have h : ([pages 3 0 1, pages 0 0x7DFFFFFFFFFFFFFF 1, pages 0 0x7E00000000010000 1, pages 0 0x7E0000000000FFFC 2,
      pages 0 0x7E00000000008000 1].all fun s => clear s (.kbnd (wd .raw (r 4) (r 9) (r 3)) xm)) = true := by decide +kernel
  refine ⟨⟨Clear.of ?_, ?_⟩, ⟨Clear.of ?_, ?_, _, Reaches.of ?_, ?_⟩, by decide +kernel, ⟨_, rfl, ?_⟩, ⟨_, rfl, ?_⟩,
    fun s hs => Clear.of (List.all_eq_true.mp h s hs), ?_, ?_, ⟨?_, ?_, ⟨_, Reaches.of ?_⟩, ?_⟩, ⟨_, rfl, ?_⟩⟩ <;> decide +kernel

/-! ### The racking engine and the caches -/

/-- A command of two copies of 8 bytes, from the scratchpad's base to 0x100 above it, and its channel's command slots. -/
def command : RackCmd :=
  { RackCmd.idle with
    op := 7, sup := true
    words := [0x000F000800004001, 0x7E00000000000000, 0x7E00000000000100, 2, 0, 0, 8, 0, 0, 8, 0, 0, 0x7E00000000000100, 16, 0, 0] }
def racked (cmds : List RackCmd) (fifo : List RackStatus) : State :=
  base.modCore 0 fun c => { c with racks := c.racks.set 1 ⟨cmds, fifo, 0⟩ }
def racked2 (cmds : List RackCmd) : State := base.modCore 0 fun c => { c with racks := c.racks.set 2 ⟨cmds, [], 0⟩ }
def answer : RackStatus := ⟨0, 3, 9, []⟩

theorem witness_RackingWords :
    let push : Instr := .rkpush (wd .raw u0 (r 1) u0) xm
    let harv : Instr := .khrv (wd .raw (r 4) (k 2) (k 2)) xm
    let full := base.modCore 0 fun c => { c with racks := c.racks.set 0 ⟨List.replicate 4 command, [], 0⟩ }
    let list (dc : BitVec 2) := on fun h => { h with kpDc := dc, kplist := 0x7E00000000000000, kpbase := 0x7E00000000000400 }
    let astray := on (withX 1 0x7E00000000001000)
    let b (s : State) : State := (loadsOf s push 0x7E00000000000000 128).2
    (base.Clear push ∧ base.owes .all .core = false ∧ remote.Clear push ∧ remote.owes .all .core = true
      ∧ base.Loads push 0x7E00000000000000 128 (some (List.replicate 128 0), b base)
      ∧ ((b base).myCore.rack 0).full = false ∧ (b base).my.busyRegs [] = false)
    ∧ (astray.Clear push ∧ astray.owes .all .core = false ∧ ∃ t, astray.LoadTraps push 0x7E00000000001000 128 t)
    ∧ (full.Clear push ∧ full.owes .all .core = false ∧ full.Loads push 0x7E00000000000000 128 (some (List.replicate 128 0), b full)
      ∧ ((b full).myCore.rack 0).full = true)
    ∧ ((list 3).Clear harv ∧ (list 0).Clear harv ∧ (racked2 (List.replicate 4 command)).Clear harv
      ∧ ((racked2 (List.replicate 4 command)).myCore.rack 2).full = true ∧ ((list 0).myCore.rack 2).full = false
      ∧ (list 0).owes .all .core = false)
    ∧ (base.Clear (.rkpop (wd .raw (r 4) (k 1) u0) xm) ∧ (base.myCore.rack 1).fifo = [])
    ∧ ((racked [] [answer]).Clear (.rkpop (wd .raw (r 4) (k 1) u0) xm) ∧ ((racked [] [answer]).myCore.rack 1).fifo = [answer])
    ∧ base.Clear (.rkwm (wd .raw (r 4) (k 1) u0) xm)
    ∧ (base.Clear (.rkwait (wd .raw u0 (k 1) (r 3)) xm) ∧ (base.myCore.rack 1).cmds = [])
    ∧ ((racked [command] []).Clear (.rkwait (wd .raw u0 (k 1) (r 3)) xm) ∧ ((racked [command] []).myCore.rack 1).cmds ≠ []
      ∧ ((racked [command] []).my.xSrc (r 3)).toNat < ((racked [command] []).myCore.rack 1).mark.toNat)
    ∧ (racked [command] []).Clear (.rkwait (wd .raw u0 (k 1) (k (-1))) xm)
      ∧ ¬ ((racked [command] []).my.xSrc (k (-1))).toNat < ((racked [command] []).myCore.rack 1).mark.toNat := by
  refine ⟨⟨Clear.of ?_, ?_, Clear.of ?_, ?_, Loads.eq ?_ ?_, ?_⟩, ⟨Clear.of ?_, ?_, LoadTraps.of ?_ ?_⟩, ⟨Clear.of ?_, ?_, Loads.eq ?_ ?_, ?_⟩,
    ⟨Clear.of ?_, Clear.of ?_, Clear.of ?_, ?_⟩,
    ⟨Clear.of ?_, ?_⟩, ⟨Clear.of ?_, ?_⟩, Clear.of ?_, ⟨Clear.of ?_, ?_⟩, ⟨Clear.of ?_, ?_⟩, Clear.of ?_, ?_⟩ <;> decide +kernel

theorem witness_CacheWordsAndRackingCopies :
    let w := wd .raw u0 (r 1) (r 3)
    (∀ i ∈ [Instr.clean w xm, .inval w xm],
      (base.Clear i ∧ (∃ rs, base.Reaches i .read (rangeElems 0x7E00000000000000 5) (fun _ => 0) rs)
        ∧ base.placeAll 0 .read (rangeElems (lineLo 0x7E00000000000000) (lineLen 0x7E00000000000000 5))
          = .ok (placedAt base .read (rangeElems (lineLo 0x7E00000000000000) (lineLen 0x7E00000000000000 5)))
        ∧ lineElems (placedAt base .read (rangeElems (lineLo 0x7E00000000000000) (lineLen 0x7E00000000000000 5))) = [])
      ∧ faraway.Clear i ∧ (∃ rs, faraway.Reaches i .read (rangeElems 0x8000000000000000 5) (fun _ => 0) rs)
        ∧ faraway.placeAll 0 .read (rangeElems (lineLo 0x8000000000000000) (lineLen 0x8000000000000000 5))
          = .ok (placedAt faraway .read (rangeElems (lineLo 0x8000000000000000) (lineLen 0x8000000000000000 5)))
        ∧ lineElems (placedAt faraway .read (rangeElems (lineLo 0x8000000000000000) (lineLen 0x8000000000000000 5))) ≠ [])
    ∧ (base.Clear (.invro (wd .raw u0 u0 u0) xm) ∧ base.gated = false ∧ base.filling (dieOf base.me) = false)
    ∧ (gatedHart.Clear (.invro (wd .raw u0 u0 u0) xm) ∧ gatedHart.gated = true)
    ∧ (frozenPod.pkg (0 / 512)).frozen = true
    ∧ (base.pkg (0 / 512)).frozen = false ∧ ((base.core 0).rack 1).cmds = []
    ∧ ((racked [command] []).pkg (0 / 512)).frozen = false ∧ (((racked [command] []).core 0).rack 1).cmds = [command] ∧ command.stopped = false
      ∧ command.bad ((racked [command] []).hart 0) ((racked [command] []).core 0).vlmax = false ∧ 1 ∈ command.missing := by
  have h : ([Instr.clean (wd .raw u0 (r 1) (r 3)) xm, .inval (wd .raw u0 (r 1) (r 3)) xm].all fun i =>
      (clear base i && reaches base i .read (rangeElems 0x7E00000000000000 5) (fun _ => 0))
        && (clear faraway i && reaches faraway i .read (rangeElems 0x8000000000000000 5) (fun _ => 0))) = true := by decide +kernel
  refine ⟨fun i hi => ?_, ⟨Clear.of (by decide +kernel), by decide +kernel⟩, ⟨Clear.of (by decide +kernel), by decide +kernel⟩, by decide +kernel⟩
  have h := List.all_eq_true.mp h i hi
  simp only [Bool.and_eq_true] at h
  exact ⟨⟨Clear.of h.1.1, ⟨_, Reaches.of h.1.2⟩, placedAt_eq (by decide +kernel), by decide +kernel⟩, Clear.of h.2.1, ⟨_, Reaches.of h.2.2⟩,
    placedAt_eq (by decide +kernel), by decide +kernel⟩

/-! ### Matrix words -/

/-- An i8 A operand in v6 and a tern tile from v32 on, all of its bytes 0 but the last. -/
def tile (last : Nat) : State := on fun h =>
  { h with v := ((Vector.replicate 64 ⟨.tern, 0⟩).set 6 ⟨.i8, 0⟩).set 39 ⟨.tern, setElems 0 8 [(1023, last)]⟩ }

theorem witness_MatrixWords :
    let s := wd .i8 (r 0) (r 2) (r 16)
    let x (n : BitVec 6) : Xx := ⟨0, 9, .none, .e8m0, n, 1, .rne⟩
    let live := (List.range 32).filter fun c => (((pruned 0x35).my.xr 9).toNat % 2 ^ 32).testBit c
    let t := wd .tern (r 1) (r 6) (r 32)
    base.Clear (.mma (wd .i8 (r 1) (r 6) (r 32)) xx)
    ∧ live.length = 2
    ∧ (pruned 0x35).Clear (.mmas s (x 3)) ∧ (3 : BitVec 6).toNat ≠ 2
    ∧ ((pruned 0x3D).Clear (.mmas s (x 2)) ∧ (pruned 0x3D).my.badMeta s .i8 2 = some 0)
    ∧ ((pruned 0x35).Clear (.mmas s (x 2)) ∧ (pruned 0x35).my.badMeta s .i8 2 = none)
    ∧ ((tile 243).Clear (.tmma t xx) ∧ (tile 243).my.tileByte t 8191 = 243)
    ∧ ((tile 0).Clear (.tmma t xx) ∧ ∀ n < 8192, (tile 0).my.tileByte t n < 243)
    ∧ ∀ i ∈ [Instr.zclr (wd .fp32 (r 1) u0 u0), .zadd (wd .fp32 (r 1) (r 2) (r 3)), .zdrain (wd .fp32 (r 4) (r 1) (k 0)) xx], base.Clear i := by
  refine ⟨Clear.of ?_, ?_, Clear.of ?_, ?_, ⟨Clear.of ?_, ?_⟩, ⟨Clear.of ?_, ?_⟩, ⟨Clear.of ?_, ?_⟩, ⟨Clear.of ?_, fun n hn => ?_⟩,
    clear_all ?_⟩
  case refine_12 =>
    have h : ∀ i : BitVec 6, ((tile 0).my.vr i).bits = 0 := by decide +kernel
    unfold Hart.tileByte Hart.tileReg
    simp [h, Machine.getElem]
  all_goals decide +kernel


/-! ### Steps of the device: operations, the cellar and requests -/

/-- A home that maps the global window onto package memory: its directory, and tables with one leaf of 32 GiB. -/
def homed : State :=
  (({ base with mem := Memory.writeCells [] (cellsAt 0x10000 (bytesOfNat 8 0x20003) ++ cellsAt 0x20000 (bytesOfNat 8 0x3D)
      ++ cellsAt 0x30000 (bytesOfNat 8 0x10001)) } : State).modDie 0 fun d => { d with wdbase := 0x30000 })

/-- A home's address through a walk. -/
def coldAddr (s : State) (job : BitVec 12) (acc : Acc) (va : Nat) : Except Nat Nat :=
  match s.homeFresh job va with
  | .refused code => .error code
  | .walked (.fault _) => .error 2
  | .walked (.cut _) => .error 4
  | .walked (.leaf e size) =>
    let pa := leafAddr e size (va % 2 ^ 51) % 2 ^ 48
    if !leafAllows e acc true then .error 2
    else if 2 ≤ entryMt e then .error 3
    else if spaceOf pa != 0 || pa / 2 ^ 38 % 4 != globalDie va % 4 || pa / 2 ^ 34 % 16 != globalChan va then .error 3
    else .ok (physKey (chipOfDie (globalDie va)) pa)

theorem homeAddr_cold {s : State} {va : Nat} (h : (s.die (globalDie va)).homeTlb = []) (job : BitVec 12) (acc : Acc) :
    s.homeAddr job acc va = coldAddr s job acc va := by
  have hd (f : HomeFound) : dedup [f] = [f] := rfl
  have hc : s.homeChoices job va = [s.homeFresh job va] := by
    unfold State.homeChoices
    rw [h]
    rfl
  unfold State.homeAddr State.homeLeaf coldAddr
  simp only [hc, hd, pickFrom_one]
  cases s.homeFresh job va with
  | refused code => rfl
  | walked w => cases w with
    | fault n => rfl
    | cut d => rfl
    | leaf e size =>
      dsimp only
      split
      · rfl
      · split
        · rfl
        · split <;> rfl

def queuedUnion : State := on fun h => { h with queue := [⟨0x100, [0x583600280080100000000000]⟩] }
/-- An operation of hart 0, landed. -/
def landed7 (ctr : Option (BitVec 3)) (matrix : Bool) : Op :=
  ⟨7, ctr, [.x 4], false, matrix, Flags.none, true, some ⟨2, 0x12, 1, 0, 0, 0⟩, [], [], 0, 0, none⟩
def landedOp (ctr : Option (BitVec 3)) (matrix : Bool) : State := on fun h =>
  { h with w := h.w.set 2 1, ops := [landed7 ctr matrix] }
/-- Two matrix operations on one accumulator. -/
def twoMatrixOps : State := on fun h =>
  { h with ops := [{ landed7 none true with id := 5, regs := [.z 1] }, { landed7 none true with regs := [.z 1] }] }
/-- An entry of core 0's cellar. -/
def holding (isSealed : Bool) (kind : CellarKind) : State :=
  base.modCore 0 fun c => { c with cellar := [⟨95, 0, false, 5, isSealed, 64, 0, kind⟩] }
/-- A signal of hart 0 to barrier 4 of core 0, or to a counter of the global window. -/
def signalOf (a : Nat) : ReqElem := ⟨0, 0, if 2 ^ 63 ≤ a then .global a else .window 0, if 2 ^ 63 ≤ a then 8 else 0, 1, a, none, a⟩
def signalled : State := flight .signal (signalOf 4)
def counted8 : State := { homed with net := [inNet 90 7 .signal [signalOf 0x8000000000000300]] }

/-- What may leave a hart's cellar next. -/
def leavers (s : State) (h : Nat) : List CellarEntry :=
  let mine := (s.core (coreOf h)).cellar.filter fun e => e.hart == h && !e.isUndo
  ([s.nextLeaver false (mine.filter fun e => !e.engine), (mine.filter fun e => e.engine).head?].filterMap id).filter fun e => e.sealed

/-- A sealed entry of each kind, with what lets it leave. -/
def leaving : List (State × CellarKind) :=
  let held (k : CellarKind) : State × CellarKind := (holding true k, k)
  [held (.sysWrite 0x030 5), held (.rfence 7), held (.arm 0x40000 (r 4) 7), held (.failure 0x40000 0 3), held (.contribution 0 0),
    ({ holding true (.request 90) with net := [{ sentRequest with sent := false }] }, .request 90),
    held (.devWrite 0 0x380000000000 8 5 none 0 0x40),
    (base.modCore 0 fun c => { c with cellar := [⟨95, 0, true, 5, true, 64, 0, .store [(0x40, 5)] none none⟩] }, .store [(0x40, 5)] none none)]
/-- Such an entry behind an older store of its core to the same byte. -/
def storeBehind : State :=
  { base.modCore 0 fun c => { c with cellar := [⟨95, 0, true, 5, true, 64, 0, .store [(0x40, 5)] none none⟩] } with
    net := [inNet 90 7 .store [lane0]] }

/-- Such an entry is the one that leaves, and nothing holds it back. -/
def leavesNow (s : State) (k : CellarKind) : Bool :=
  (leavers s 0).map (fun e => e.kind) == [k] && !(s.pkg (chipOf 0)).frozen && match k with
    | .request id => (s.request? id).isSome
    | .rfence _ => !s.owesRemote 0 95
    | .arm g _ _ => !s.armsFirst 0 95 g
    | .contribution i m => !s.sourceWaits 0 95 i m
    | .devWrite _ _ _ _ _ _ _ => !s.olderTouches 0 95 (fun _ => true) [(deviceLoc, 1)]
    | .store cells _ _ => !s.olderStores 0 95 (cells.map fun x => (x.1, 1)) && cells.all (fun x => s.reaches 0 (homeDie x.1))
      && s.mem.wf && s.cores.all (fun p => p.2.spad.wf) && s.dies.all fun q => q.2.gtbase == 0
    | _ => true

theorem witness_CompletionsAndSeal :
    (frozenPod.pkg (0 / 512)).frozen = true ∧ (base.pkg (0 / 512)).frozen = false
    ∧ ((queuedUnion.core 0).bound = none ∧ (queuedUnion.core 0).underReset = false ∧ (queuedUnion.core 0).gone = false
      ∧ ∃ q, queuedUnion.arbitrate 0 = some q)
    ∧ (((base.core 0).bound = none ∧ base.arbitrate 0 = none) ∧ ((base.modCore 0 fun c => { c with bound := some 1 }).core 0).bound ≠ none)
    ∧ (∀ q ∈ [(some (2 : BitVec 3), false), (none, false), (some 2, true), (none, true)],
      ((landedOp q.1 q.2).hart 0).ops.find? (fun p => p.id == 7) = some (landed7 q.1 q.2) ∧ ((landedOp q.1 q.2).hart 0).matrixFirst 7 = false)
    ∧ (((landedOp none false).modHart 0 fun h => { h with tail := some ⟨⟨0, []⟩, 1, 0, 7, none⟩ }).hart 0).tail.isSome = true
    ∧ (twoMatrixOps.hart 0).matrixFirst 7 = true
    ∧ (∃ e, ((holding false (.rfence 7)).core 0).cellar.find? (fun e => !e.sealed) = some e)
    ∧ (leavers (holding false (.rfence 7)) 0 = [] ∧ ∀ e ∈ ((holding false (.rfence 7)).core 0).cellar, e.sealed = false)
    ∧ (leavers { holding true (.rfence 7) with net := [sentRequest] } 0 = [] ∧ ∃ e ∈ ((holding true (.rfence 7)).core 0).cellar, e.sealed = true)
    ∧ (∀ q ∈ leaving, leavesNow q.1 q.2 = true)
    ∧ ((leavers storeBehind 0).length = 1 ∧ storeBehind.olderStores 0 95 [(0x40, 1)] = true)
    ∧ base.request? 90 = none
    ∧ (∃ q, (frozenBy (flight .load lane0)).request? 90 = some q ∧ (frozenBy (flight .load lane0)).asleep q = true)
    ∧ (∃ q, (behind .store lane0).request? 90 = some q ∧ (behind .store lane0).asleep q = false ∧ q.elems ≠ []
      ∧ (behind .store lane0).eligible q = [])
    ∧ (∃ q, (flight .store lane0).request? 90 = some q ∧ (flight .store lane0).asleep q = false ∧ (flight .store lane0).eligible q = [lane0]
      ∧ q.kind.copies = false)
    ∧ (∃ q, (flight .clean lane0).request? 90 = some q ∧ (flight .clean lane0).asleep q = false ∧ (flight .clean lane0).eligible q = [lane0]
      ∧ q.kind.copies = false
      ∧ ((((flight .clean lane0).modRequest 90 fun q => { q with elems := q.elems.erase lane0 }).performElem q lane0).request? 90).isSome = true)
    ∧ (∃ q, (flight .put lane0).request? 90 = some q ∧ (flight .put lane0).asleep q = false ∧ (flight .put lane0).eligible q = [lane0]
      ∧ q.kind.copies = true ∧ lane0.mayCut 8 = true)
    ∧ (∃ q, (flight (.atomic .add .i32) { lane0 with bytes := 4 }).request? 90 = some q
      ∧ (flight (.atomic .add .i32) { lane0 with bytes := 4 }).asleep q = false
      ∧ (flight (.atomic .add .i32) { lane0 with bytes := 4 }).eligible q = [{ lane0 with bytes := 4 }] ∧ q.kind.copies = false)
    ∧ (∃ q, ({ base with net := [inNet 90 7 .load []] } : State).request? 90 = some q ∧ q.elems = [] ∧ q.id = 90
      ∧ ({ base with net := [inNet 90 7 .load []] } : State).boundFull q = false)
    ∧ ((∃ q e, (behind .signal (signalOf 4)).request? 90 = some q ∧ (behind .signal (signalOf 4)).asleep q = false ∧ q.elems = [e]
        ∧ (behind .signal (signalOf 4)).olderSignal q e.cmp = true)
      ∧ (∃ q e, signalled.request? 90 = some q ∧ signalled.asleep q = false ∧ q.elems = [e]
        ∧ (signalled.flying q e || signalled.heldBack q || signalled.olderSignal q e.cmp) = false
        ∧ signalled.pod.chips.contains (chipOfDie (signalDie e.cmp)) = true ∧ e.cmp < 2 ^ 63
        ∧ targetMalformed e.cmp = false ∧ (signalled.core 0).underReset = false ∧ (signalled.core 0).gone = false
        ∧ 128 * signalDie e.cmp + targetCore e.cmp = 0 ∧ ((signalled.core 0).barrier (targetBarrier e.cmp)).e = 0
        ∧ ((signalled.modCore 0 fun c => { c with underReset := true }).core 0).underReset = true)
      ∧ ∃ q e, counted8.request? 90 = some q ∧ counted8.asleep q = false ∧ q.elems = [e]
        ∧ (counted8.flying q e || counted8.heldBack q || counted8.olderSignal q e.cmp) = false
        ∧ counted8.pod.chips.contains (chipOfDie (signalDie e.cmp)) = true ∧ 2 ^ 63 ≤ e.cmp
        ∧ counted8.homeAddr q.job .atomic e.cmp = .ok 0x300 ∧ counted8.keyPoison 0x300 8 = none) := by
  have hk : counted8.homeAddr 0 .atomic 0x8000000000000300 = .ok 0x300 := by
    rw [homeAddr_cold (by decide +kernel)]
    exact ok_of (by decide +kernel)
  refine ⟨by decide +kernel, by decide +kernel, ⟨by decide +kernel, by decide +kernel, by decide +kernel, ?_⟩, ⟨⟨by decide +kernel, ?_⟩, by decide +kernel⟩,
    by decide +kernel, by decide +kernel, by decide +kernel, ⟨_, rfl⟩, by decide +kernel, by decide +kernel, by decide +kernel,
    by decide +kernel, rfl, ⟨_, rfl, by decide +kernel⟩,
    ⟨_, rfl, by decide +kernel, by decide, by decide +kernel⟩, ⟨_, rfl, by decide +kernel⟩, ⟨_, rfl, by decide +kernel⟩,
    ⟨_, rfl, by decide +kernel⟩, ⟨_, rfl, by decide +kernel⟩, ⟨_, rfl, rfl, rfl, rfl⟩,
    ⟨_, _, rfl, by decide +kernel, rfl, by decide +kernel⟩, ⟨_, _, rfl, by decide +kernel, rfl, by decide +kernel⟩,
    _, _, rfl, by decide +kernel, rfl, by decide +kernel, by decide +kernel, by decide, hk, by decide +kernel⟩
  · exact Option.isSome_iff_exists.mp (by decide +kernel)
  · exact Option.isNone_iff_eq_none.mp (by decide +kernel)

/-! ### Collectives -/

theorem homeRead_of {s : State} {job : BitVec 12} {rd : List Nat → Nat × List (Nat × Nat)} {va n key : Nat}
    (h1 : (s.die (globalDie va)).homeTlb = []) (h2 : (coldAddr s job .read va).toOption = some key) (h3 : min n (2 ^ 16 - va % 2 ^ 16) = n) :
    s.homeRead job rd s.keysPoison va n
      = ⟨.ok (rd ((List.range n).map fun i => key + i)).1, s.keysPoison ((List.range n).map fun i => key + i),
          (rd ((List.range n).map fun i => key + i)).2⟩ := by
  unfold State.homeRead State.homeKeys
  simp only [homeAddr_cold h1, ok_of h2, h3, if_true]

/-- A member's part of an instance: member m runs on hart 8 m. -/
def partAt (m : Nat) (stage : MemberStage) : MemberPart :=
  { stage := stage, hart := 8 * m, op := 7, job := 0, head := ⟨twoMembers, .allReduce, .add, .i32, 1, 0⟩, dstAddr := 0x7E00000000000000, srcAddr := 0x7E00000000000000
    dst := [(.spad m 0, 4)], src := [(.spad m 0, 4)], source := some [3], got := [], sent := [], saved := false
    marks := ⟨Vector.replicate 6 0, []⟩, born := 0 }
/-- An instance whose members are at two stages, with member 1's piece in member 0's slot. -/
def instAt (a b : MemberStage) : CollInst :=
  ⟨77, 1, [partAt 0 a, partAt 1 b], [⟨⟨1, 0, 0, 0⟩, 0x8000000000000000, 4⟩], none, 0, false⟩
def withColl (c : CollInst) : State := { homed with pod := ⟨[0], [], [], [], [c]⟩ }

theorem flow_zero : (withColl (instAt .issued .issued)).flow (partAt 1 .issued) 1 0 = .ok (0, 0) := by
  have h (a : Nat) (k : Nat) (ha : (coldAddr (withColl (instAt .issued .issued)) 0 .read a).toOption = some k)
      (hb : ((withColl (instAt .issued .issued)).die (globalDie a)).homeTlb = []) (hc : min 8 (2 ^ 16 - a % 2 ^ 16) = 8) :=
    homeRead_of (rd := (withColl (instAt .issued .issued)).standing) hb ha hc
  have h1 := h 0x8000000000000300 0x300 (by decide +kernel) (by decide +kernel) (by decide)
  have h2 := h 0x8000000000000308 0x308 (by decide +kernel) (by decide +kernel) (by decide)
  unfold State.flow
  rw [show (partAt 1 .issued).head.flowAddr 1 0 = 0x8000000000000300 by decide, show (partAt 1 .issued).job = 0 from rfl]
  simp only [Nat.reduceAdd, h1, h2]
  exact ok_of (by decide +kernel)

theorem flow_cells : (withColl (instAt .issued .issued)).flowCells (partAt 1 .issued) 1 0 0 1
    = .ok (cellsAt 0x300 (bytesOfNat 8 0 ++ bytesOfNat 8 1)) := by
  have h : (withColl (instAt .issued .issued)).homeAddr 0 .write 0x8000000000000300 = .ok 0x300 := by
    rw [homeAddr_cold (by decide +kernel)]
    exact ok_of (by decide +kernel)
  unfold State.flowCells State.areaCells
  rw [show (partAt 1 .issued).head.flowAddr 1 0 = 0x8000000000000300 by decide, show (partAt 1 .issued).job = 0 from rfl,
    show rangeElems 0x8000000000000300 (bytesOfNat 8 0 ++ bytesOfNat 8 1).length = [⟨0, 0x8000000000000300, 16, false⟩] by decide]
  simp only [List.mapM_cons, List.mapM_nil, h]
  exact ok_of (by decide +kernel)


/-- The same member on a hart of another die, whose link to die 0 is down. -/
def away (p : MemberPart) : MemberPart := { p with hart := 1024 }
def farMembers : TeamTable := { twoMembers with members := [⟨0, 0⟩, ⟨1024, 0⟩] }
def cut (s : State) : State := s.modDie 1 fun d => { d with links := [(0, Link.absent)] }

theorem witness_CollectiveSteps :
    let c := instAt .issued .issued
    let s := withColl c
    let b := s.modColl 0 fun c => { c with flying := c.flying.erase ⟨⟨1, 0, 0, 0⟩, 0x8000000000000000, 4⟩ }
    base.coll? 0 = none ∧ s.coll? 0 = some c
    ∧ (∃ f, c.flying.find? (fun f => f.piece.sender == 1 && f.piece.dest == 0) = some f ∧ c.decided = none ∧ (c.part 0).stage ≠ .absent
      ∧ s.inFlight (dieOf (c.part 1).hart) (globalDie f.slot) = false
      ∧ b.homeRead (c.part 0).job b.standing b.keysPoison f.slot f.bytes = ⟨.ok 0, none, []⟩)
    ∧ ({ c with decided := some (0x0A, 1) } : CollInst).decided.isSome = true
    ∧ ((instAt .absent .issued).part 0).stage = .absent
    ∧ (s.flow (c.part 1) 1 0 = .ok (0, 0) ∧ s.flowCells (c.part 1) 1 0 0 0 = .ok (cellsAt 0x300 (bytesOfNat 8 0 ++ bytesOfNat 8 0))
      ∧ s.inFlight (dieOf (c.part 0).hart) (dieOf (c.part 1).hart) = false)
    ∧ (((instAt .combined .issued).part 0).stage = .combined ∧ ((instAt (.dropped false) .issued).part 0).stage = .dropped false
      ∧ (!(withColl (instAt .combined .issued)).reaches (dieOf 0) ((withColl (instAt .combined .issued)).coordinator (instAt .combined .issued))
        || (withColl (instAt .combined .issued)).inFlight (dieOf 0) ((withColl (instAt .combined .issued)).coordinator (instAt .combined .issued))
        || (withColl (instAt .combined .issued)).owesBefore 0 7) = false
      ∧ (cut s).reaches (dieOf (away (partAt 0 .combined)).hart) ((cut s).coordinator c) = false)
    ∧ (((instAt .combined .ready).part 0).stage = .combined ∧ (instAt .combined .ready).decided = none
      ∧ ∀ q < 2, q ≠ 0 → ((instAt .combined .ready).part q).stage.isReady = true)
    ∧ (((instAt .ready .ready).part 0).stage = .ready
      ∧ ((partAt 0 .ready).saved || (withColl (instAt .ready .ready)).destBusy (partAt 0 .ready)
        || !(withColl (instAt .ready .ready)).reaches ((withColl (instAt .ready .ready)).coordinator (instAt .ready .ready)) (dieOf 0)
        || (withColl (instAt .ready .ready)).inFlight ((withColl (instAt .ready .ready)).coordinator (instAt .ready .ready)) (dieOf 0)) = false
      ∧ ({ partAt 0 .ready with saved := true } : MemberPart).saved = true)
    ∧ (MemberStage.open .committed = false ∧ MemberStage.open .ready = true ∧ MemberStage.open .issued = true
      ∧ s.reaches (s.coordinator c) (dieOf (c.part 0).hart) = true ∧ s.reaches (dieOf (c.part 0).hart) (s.coordinator c) = true)
    ∧ ((∀ q < 2, ((instAt .ready .ready).part q).stage.isReady = true) ∧ ((instAt .ready .issued).part 1).stage.isReady = false
      ∧ (∀ l < 1, ((instAt .ready .issued).part l).stage.isReady = true) ∧ (instAt .ready .issued).decided = none
      ∧ (instAt .ready .issued).commitSent = false)
    ∧ ((s.pkg (s.memberChip 0 0)).frozen = false ∧ ((frozenBy s).pkg ((frozenBy s).memberChip 0 0)).frozen = true
      ∧ s.earlierArrival 0 0 1 c.team = false)
    ∧ (let t := withColl (instAt .ready .ready)
      t.awaitsRelease 0 0 = false ∧ ({ t with agenda := [.releaseNotice 0 1 0] } : State).awaitsRelease 0 0 = true
      ∧ t.isolated twoMembers 0 = false ∧ (cut t).isolated farMembers 1 = true)
    ∧ base.pod.lost.contains 3 = false ∧ ({ base with pod := { base.pod with lost := [3] } } : State).pod.lost.contains 3 = true := by
  have h0 : (withColl (instAt .issued .issued)).homeAddr 0 .write 0x8000000000000300 = .ok 0x300 := by
    rw [homeAddr_cold (by decide +kernel)]
    exact ok_of (by decide +kernel)
  refine ⟨rfl, rfl, ⟨_, rfl, rfl, by decide, by decide +kernel, ?_⟩, rfl, rfl, ⟨flow_zero, ?_, by decide +kernel⟩, by decide +kernel, by decide,
    by decide +kernel, by decide +kernel, by decide, by decide +kernel, by decide +kernel, by decide⟩
  · rw [homeRead_of (key := 0) (by decide +kernel) (by decide +kernel) (by decide)]
    exact congr (congr (congrArg Got.mk (congrArg Except.ok (by decide +kernel))) (by decide +kernel)) (by decide +kernel)
  · unfold State.flowCells State.areaCells
    rw [show ((instAt .issued .issued).part 1).head.flowAddr 1 0 = 0x8000000000000300 by decide,
      show ((instAt .issued .issued).part 1).job = 0 from rfl,
      show rangeElems 0x8000000000000300 (bytesOfNat 8 0 ++ bytesOfNat 8 0).length = [⟨0, 0x8000000000000300, 16, false⟩] by decide]
    simp only [List.mapM_cons, List.mapM_nil, h0]
    exact ok_of (by decide +kernel)

/-! ### Graphs -/

/-- A QUEUE node on the descriptor at 0x1000, for one gang of one hart on any core. -/
def queueNode : GNode := ⟨4, 0, 0, 3, [], 0x1000, 0x100, 1, 0, 1, 2 ^ 96 - 1, 0, 0x1000, 0, 0, 0, 0, 0⟩
def nodeRun (live : Nat) : NodeRun := ⟨.active, live, 0, false, false⟩
def graphRun (live : Nat) : GraphRun := ⟨2, 0x40000, 0, 0x10000, 0x1000, true, false, false, [queueNode], [nodeRun live], [], []⟩

/-- The descriptor: CAP 256, BATCH 2, and the given TAIL, HEAD, OWNER and FLUSH. -/
def descriptor (tail head owner flush : Nat) : List Host.Cell :=
  cellsAt 0x1000 (bytesOfNat 8 0x2000 ++ bytesOfNat 8 256 ++ bytesOfNat 8 tail ++ bytesOfNat 8 head ++ bytesOfNat 8 2 ++ bytesOfNat 8 owner
    ++ bytesOfNat 8 flush)
/-- A die that runs the graph, its ARM word at 0x5000. -/
def graphed (live : Nat) (cells : List Host.Cell) : State :=
  ({ homed with mem := homed.mem.writeCells cells } : State).modDie 0 fun d => { d with graphs := [graphRun live], registered := [(2, 0x5000)] }

def described (q : Nat × Nat × Nat × Nat) : State := graphed 1 (descriptor q.1 q.2.1 q.2.2.1 q.2.2.2)
/-- The sequencer has read the descriptor. -/
def descRead (s : State) : State := s.seqTouch 0 0x10000 0 .read 0x1000 64

def readyGang (graph : Word) (saved : Option Nat) : ReadyGang := ⟨0, graph, 2, 0, 0, 3, 0, 0, 0, saved, []⟩
def savedGang : SaveRecord :=
  { firing := 0, graph := 0x40000, entry := 2, node := 0, gang := 0, slot := 0, gsize := 1, exited := [], core := 0, barriers := 0, stats := [], ops := []
    fifos := [], racks := [], resOff := 0x2000, resSize := 0x1000, dfsz := 0, vlmax := 256, prio := 3, time := 0, x5 := 0, x6 := 0, job := 0
    ptbase := 0x10000, poison := [], defq := [], defBytes := [], teams := [], views := [], bars := [] }
def placedGang (preempt : Option Nat) (saving : Bool) : PlacedGang :=
  { key := 5, firing := 0, graph := 0x40000, entry := 2, node := 0, gang := 0, prio := 3, time := 0, placedAt := 0, core := 0, harts := [0], exited := []
    resOff := 0, resSize := 0x1000, dfsz := 0, x5 := 0, x6 := 0, preempt := preempt, saving := saving, nbUsed := 0
    stopSeq := 0, bars := [] }
def readied (saved : Option Nat) (records : List SaveRecord) : State :=
  (graphed 1 []).modDie 0 fun d => { d with ready := [readyGang 0x40000 saved], records := records }

/-- The one choice for placement: the gang with its core, its harts and its place on the scratchpad. -/
def placeChoice (s : State) : Option (ReadyGang × Nat × List Nat × Nat) :=
  let u := s.resumeRuns 0
  (sortReady (u.die 0).ready).findSome? fun r => (u.fit 0 r).map fun f => (r, f)

/-- A gang of priority 5 waits for core 0, whose scratchpad one of priority 3 holds; the slots are of a size and a count. -/
def crowded (size count : Nat) (records : List SaveRecord) : State :=
  let n := { queueNode with pmask := 1 }
  ((graphed 1 (cellsAt 0x40018 (bytesOfNat 8 0x80000 ++ bytesOfNat 4 size ++ bytesOfNat 4 count))).modDie 0 fun d => { d with
    graphs := [{ graphRun 1 with data := [n] }], records := records
    ready := [{ readyGang 0x40000 none with firing := 1, prio := 5 }], placed := [{ placedGang none false with resSize := 0x400000 }] })
def victimChoice (s : State) : Option (ReadyGang × PlacedGang) :=
  ((sortReady (s.die 0).ready).filter fun r => !(s.die 0).hasVictim r && (s.fit 0 r).isNone).findSome?
    fun r => (pickVictim (s.victims 0 r)).map fun v => (r, v)
/-- What decides on a victim: the slot is too small, a slot, and the records are full. -/
def victimChecks (s : State) : Bool × Option Nat × Bool :=
  let area := s.saveArea 0 (graphRun 1)
  (area.2.1 < slotBytes 1 0x400000, (s.die 0).freeSlot 0x40000 area.2.2, Config.saveRecords ≤ (s.die 0).recordsTaken)

theorem witness_GraphSequencerSteps :
    (frozenPod.pkg (chipOfDie 0)).frozen = true ∧ ((graphed 1 []).pkg (chipOfDie 0)).frozen = false
    ∧ (((graphed 1 []).die 0).registered.find? (fun r => r.1 == 9) = none
      ∧ ((graphed 1 []).die 0).registered.find? (fun r => r.1 == 2) = some (2, 0x5000)
      ∧ (graphed 1 []).homeNat 0x5000 8 = 0 ∧ (graphed 1 [(0x5003, 1)]).homeNat 0x5000 8 ≠ 0
      ∧ (graphed 1 [(0x5003, 1)]).reaches 0 (homeDie 0x5000) = true
      ∧ (graphed 1 [(2 ^ 38 + 0x5003, 1)]).homeNat (2 ^ 38 + 0x5000) 8 ≠ 0
      ∧ ((graphed 1 [(2 ^ 38 + 0x5003, 1)]).modDie 0 fun d => { d with links := [(1, Link.absent)] }).reaches 0 (homeDie (2 ^ 38 + 0x5000)) = false)
    ∧ ((graphed 1 []).activeQueue 0 9 0 = none ∧ (graphed 1 []).activeQueue 0 2 0 = some (graphRun 1))
    ∧ (∀ q ∈ [(2, 0, 0, 0), (1, 0, 0, 0), (1, 0, 2 ^ 63, 0), (2, 0, 0, 1), (1, 0, 0, 1), (0, 0, 0, 1), (0, 2 ^ 64 - 1, 0, 0)],
      (described q).activeQueue 0 2 0 = some (graphRun 1)
      ∧ (descRead (described q)).rawDesc 0 (graphRun 1) 0 = some ⟨0x2000, 256, q.1, q.2.1, 2, q.2.2.1, q.2.2.2⟩
      ∧ (((descRead (described q)).nodeDesc 0 (graphRun 1) 0).isNone
        || ((descRead (described q)).seqKey 0 0x10000 0 .write 0x1018).isNone) = false)
    ∧ (∀ q ∈ [(2, 0, 7, 0), (0, 0, 7, 1)],
      (descRead (described q)).rawDesc 0 (graphRun 1) 0 = some ⟨0x2000, 256, q.1, q.2.1, 2, q.2.2.1, q.2.2.2⟩
      ∧ ((descRead (described q)).nodeDesc 0 (graphRun 1) 0).isNone = true)
    ∧ ((⟨0x2000, 256, 2, 0, 2, 0, 0⟩ : QueueDesc).fires = true ∧ (⟨0x2000, 256, 1, 0, 2, 0, 1⟩ : QueueDesc).fires = false
      ∧ (⟨0x2000, 256, 2, 0, 2, 2 ^ 63, 0⟩ : QueueDesc).fires = false)
    ∧ (∀ live ∈ [0, 1], ((((descRead ((graphed live (descriptor 0 0 0 1)).modDie 0 fun d => { d with l2gone := BitVec.allOnes 24 })).seqStore 0 0x10000 0 0x1030 8 0).modRun 0 0x40000 fun g =>
      g.setNode 0 fun r => { r with flushed := true }).run? 0 0x40000).map (fun g => (g.node 0).live) = some live)
    ∧ (placeChoice (readied none []) = some (readyGang 0x40000 none, 0, [1], 0)
      ∧ ((readied none []).resumeRuns 0).run? 0 0x40000 = some (graphRun 1))
    ∧ placeChoice (readied (some 0) [savedGang]) = some (readyGang 0x40000 (some 0), 0, [1], 0x2000)
    ∧ (∀ r ∈ sortReady (((readied (some 0) []).resumeRuns 0).die 0).ready, ((readied (some 0) []).resumeRuns 0).fit 0 r = none)
    ∧ (victimChoice (readied none []) = none
      ∧ (victimChoice (crowded 0x800000 2 [])).map (fun q => (q.1.firing, q.2.key)) = some (1, 5)
      ∧ victimChecks (crowded 0x10000 2 []) = (true, some 0, false) ∧ victimChecks (crowded 0x800000 0 []) = (false, none, false)
      ∧ victimChecks (crowded 0x800000 2 (List.replicate 4096 savedGang)) = (false, some 1, true)
      ∧ victimChecks (crowded 0x800000 2 []) = (false, some 0, false))
    ∧ ((base.die 0).placed.find? (fun g => g.key == 5) = none
      ∧ ∀ p ∈ [(none, false), (some 9, true), (some 9, false)], ((base.modDie 0 fun d => { d with placed := [placedGang p.1 p.2] }).die 0).placed.find?
        (fun g => g.key == 5) = some (placedGang p.1 p.2))
    ∧ (((placedGang (some 9) false).live.filter fun h => (base.hart h).run = .running) = [0] ∧ (base.hart 0).tail = none
      ∧ ((on fun h => { h with tail := some ⟨⟨0x100, []⟩, 0, 0, 7, none⟩ }).hart 0).tail ≠ none) := by
  refine ⟨?_, ?_, ?_, ?_, ?_, ?_, ?_, ?_, ?_, ?_, ?_, ?_, ?_, ?_⟩ <;> decide +kernel

/-! ### Saves, strikes and resets -/

/-- A die whose engine is to save gang 5, placed, with some records. -/
def saving (records : List SaveRecord) (area : List Host.Cell) (ops : List Op) : State :=
  ((graphed 1 area).modDie 0 fun d => { d with saveQueue := [5], placed := [placedGang (some 9) true], records := records }).modHart 0
    fun h => { h with ops := ops }
/-- A save area of two slots at 0x80000. -/
def saveCells : List Host.Cell := cellsAt 0x40018 (bytesOfNat 8 0x80000 ++ bytesOfNat 4 0x100000 ++ bytesOfNat 4 2)

/-- A slot's addresses below 32 GiB lie where the leaf of that size maps them. -/
theorem area_flat {s : State} {sv : SaveRecord} (h : (s.core 0).tlb = []) (hp : sv.ptbase = 0x10000)
    (h1 : s.tableWord 0 0x10000 = 0x20003) (h2 : s.tableWord 0 0x20000 = 0x3D)
    {va : Nat} (hv : va < 2 ^ 35) : ∃ k, s.areaKey 0 0 sv va = .ok k := by
  have hw : s.lookup 0 0x10000 va = .leaf 0x3D 35 := by
    rw [lookup_cold h]
    have e1 : va / 2 ^ 46 % 2 ^ 11 = 0 := by omega
    have e2 : va / 2 ^ 35 % 2 ^ 11 = 0 := by omega
    have w1 : s.walkEntry (dieOfCore 0) 0x10000 = .ok 0x20003 := h1 ▸ rfl
    have w2 : s.walkEntry (dieOfCore 0) 0x20000 = .ok 0x3D := h2 ▸ rfl
    unfold State.walk
    simp only [walkLevels, walkFrom, e1, e2, Nat.mul_zero, Nat.add_zero]
    rw [show (0x10000 : Word).toNat = 0x10000 from rfl, w1]
    simp only [show entryV 0x20003 = true from rfl, show entryT 0x20003 = true from rfl, show entryAddr 0x20003 = 0x20000 from rfl, w2,
      show entryV 0x3D = true from rfl, show entryT 0x3D = false from rfl, show leafMalformed 2 0x3D = false from rfl]
    rfl
  refine ⟨(va, 0), ?_⟩
  have hl : leafAddr 0x3D 35 va = va := by
    unfold leafAddr
    rw [show entryAddr 0x3D = 0 from rfl]
    omega
  have hr : s.reaches 0 (homeDie va) = true := by
    rw [show homeDie va = 0 by unfold homeDie; omega]
    rfl
  have hs : spaceOf va = 0 := by unfold spaceOf; omega
  unfold State.areaKey
  rw [if_neg (by omega), if_neg (by omega), hp, hw]
  simp only [hl, show leafAllows 0x3D .write false = true from rfl, Nat.mod_eq_of_lt (show va < 2 ^ 48 by omega), show entryMt 0x3D = 0 from rfl, hs, physKey, chipOfDie, Nat.zero_div,
    Nat.zero_mul, Nat.zero_add, hr]
  rfl

/-- Gang 5 is to be saved in slot 0, or restored from it. -/
def saveReady : State := saving [savedGang] saveCells []
def restoreReady : State :=
  (graphed 1 saveCells).modDie 0 fun d => { d with saveQueue := [5], handed := [placedGang none true], records := [savedGang] }

theorem witness_SavesStrikesAndResets :
    (base.die 0).saveQueue = []
    ∧ ((saveReady.die 0).saveQueue = [5] ∧ (saveReady.die 0).placed.find? (fun g => g.key == 5 && g.saving) = some (placedGang (some 9) true)
      ∧ (saveReady.die 0).record? 0 0 = some savedGang
      ∧ ∀ b ∈ saveReady.saveImage savedGang (placedGang (some 9) true), ∀ j < b.2.length,
        ∃ k, saveReady.areaKey 0 0 savedGang (saveReady.slotBase 0 savedGang + (b.1 + j)) = .ok k)
    ∧ (((saving [] [] []).die 0).record? 0 0 = none ∧ (saving [] [] [landed7 none false]).saveWaits (placedGang (some 9) true) = true)
    ∧ (let s := saving [] saveCells []
      s.saveWaits (placedGang (some 9) true) = false ∧ s.run? 0 0x40000 = some (graphRun 1)
      ∧ (s.die 0).freeSlot 0x40000 (s.saveArea 0 (graphRun 1)).2.2 = some 0
      ∧ (((s.beginSave 0 (placedGang (some 9) true) 0).die 0).record? 0 0).isSome = true)
    ∧ ((restoreReady.die 0).saveQueue = [5] ∧ (restoreReady.die 0).handed.find? (fun g => g.key == 5 && g.saving) = some (placedGang none true)
      ∧ restoreReady.run? 0 0x40000 = some (graphRun 1) ∧ (restoreReady.die 0).record? 0 0 = some savedGang
      ∧ ∀ o < imageOffset 1 + 0x1000 + 0, ∃ k, restoreReady.areaKey 0 0 savedGang (restoreReady.slotBase 0 savedGang + o) = .ok k)
    ∧ ((base.core 0).gone = false ∧ ((base.modCore 0 fun c => { c with gone := true }).core 0).gone = true ∧ (base.core 0).drain = false)
    ∧ (let s := base.modCore 0 fun c => { c with drain := true }
      (s.core 0).drain = true ∧ (((s.die 0).placed.any fun p => p.core == 0) || (s.die 0).handed.any fun p => p.core == 0) = false
        ∧ (((s.modDie 0 fun d => { d with placed := [placedGang none false] }).die 0).placed.any fun p => p.core == 0) = true)
    ∧ (((base.die (dieOfCore 0)).spareRows.filter fun r => r.1 == 0 % 128) = []
      ∧ (((base.modDie 0 fun d => { d with spareRows := [(0, 5), (1, 5)] }).die (dieOfCore 0)).spareRows.filter fun r => r.1 == 0 % 128) = [(0, 5)])
    ∧ (((base.modCore 0 fun c => { c with underReset := true }).core 0).underReset = true ∧ (base.core 0).underReset = false
      ∧ (base.core 0).gone = false ∧ ((base.core 0).rbCycles.filter fun t => (base.core 0).clock < t + 2 ^ 21).length < 15) := by
  have hb : saveReady.slotBase 0 savedGang = 0x80000 ∧ restoreReady.slotBase 0 savedGang = 0x80000 := by decide +kernel
  have hc : ((saveReady.saveImage savedGang (placedGang (some 9) true)).all fun b => decide (b.1 + b.2.length ≤ 2 ^ 20)) = true := by
    decide +kernel
  refine ⟨by decide +kernel, ⟨by decide +kernel, by decide +kernel, by decide +kernel, fun b h j hj => ?_⟩, by decide +kernel,
    by decide +kernel, ⟨by decide +kernel, by decide +kernel, by decide +kernel, by decide +kernel, fun o ho => ?_⟩, by decide +kernel,
    by decide +kernel, by decide +kernel, by decide +kernel⟩
  · have := of_decide_eq_true (List.all_eq_true.mp hc b h)
    exact area_flat (by decide +kernel) rfl (by decide +kernel) (by decide +kernel) (by omega)
  · have : imageOffset 1 = 0x1B000 := rfl
    exact area_flat (by decide +kernel) rfl (by decide +kernel) (by decide +kernel) (by omega)

/-! ### Links, power and the host -/

/-- Die 0's link to die 1, changed. -/
def linked (f : Link → Link) : State := base.modLink 0 1 f
def goodSample : LaneSample := ⟨200, 0, 0, false, true, 0, 0⟩
/-- Die 0's link to die 1 in a transition that takes it to L1 over lanes 0 and 1. -/
def changing : State := linked fun k => { k with busy := true, next := 3, nextLps := some 1 }

theorem witness_LinksLanesAndLight :
    (frozenPod.pkg (chipOfDie 0)).frozen = true ∧ (base.pkg (chipOfDie 0)).frozen = false
    ∧ base.lightUse (chipOfDie 0) ≤ (base.pkg (chipOfDie 0)).grant.toNat
    ∧ (State.Lane.fails (State.Lane.refresh (laneAt (base.link 0 1) 3) { goodSample with lock := false }) { goodSample with lock := false } = true
      ∧ State.Lane.fails (State.Lane.refresh (laneAt (base.link 0 1) 3) { goodSample with unc := 63 }) { goodSample with unc := 63 } = false)
    ∧ (((linked fun k => { k with act := 5 }).report 0 1 1 (some 1)).link 0 1).act &&& (planes fun i => i != 1) = 5
    ∧ (((linked fun k => { k with act := 2 }).report 0 1 1 (some 1)).link 0 1).act &&& (planes fun i => i != 1) = 0
    ∧ (changing.link 0 1).busy = true ∧ (base.link 0 1).busy = false
    ∧ (planes (fun i => (0 : BitVec 4).getLsbD i && (laneAt (base.link 0 1) i).lock && (laneAt (base.link 0 1) i).lst != 2) = 0
      ∧ planes (fun i => (3 : BitVec 4).getLsbD i && (laneAt (base.link 0 1) i).lock && (laneAt (base.link 0 1) i).lst != 2) ≠ 0)
    ∧ ((base.link 0 1).lps = 0 ∧ ((base.modLink 0 1 fun k => { k with lpsReq := 1 }).refusesLps 0 1 1) = true
      ∧ ((linked fun k => { k with lpsReq := 2 }).refusesLps 0 1 2) = false
      ∧ ((linked fun k => { k with lps := 3 }).link 0 1).lps = 3 ∧ ((linked fun k => { k with lps := 3, lpsReq := 0 }).refusesLps 0 1 0) = false)
    ∧ ((changing.link 0 1).relock = false ∧ (changing.link 0 1).up = true ∧ (changing.link 0 1).heldReq = none
      ∧ (changing.link 0 1).heldLps = none ∧ (changing.link 0 1).nextLps ≠ some 3 ∧ Instr.markerFlit 0 1 ∉ changing.agenda)
    ∧ ((base.link 1 0).unacked = 0 ∧ ((base.modLink 1 0 fun k => { k with unacked := 2 }).link 1 0).unacked ≠ 0)
    ∧ ((laneAt (base.link 0 1) 3).lst ≠ 2 ∧ (laneAt ((linked fun k => k.setLane 3 { Lane.reset with lst := 2 }).link 0 1) 3).lst = 2
      ∧ (laneAt ((linked fun k => k.setLane 3 { Lane.reset with lst := 2 }).link 0 1) 3).good = 0)
    ∧ ((linked fun k => { k with relock := true, busy := true }).link 0 1).relock = true
      ∧ ((linked fun k => { k with relock := true, busy := true }).link 0 1).up = true
      ∧ ((linked fun k => { k with relock := true, busy := true }).link 0 1).heldReq = none
      ∧ ((linked fun k => { k with relock := true, busy := true }).link 0 1).heldLps = none
    ∧ ((linked fun k => { k with dropping := true }).link 0 1).dropping = true ∧ (changing.link 0 1).dropping = false
      ∧ ∀ n, Instr.dropNotice 0 1 n ∉ changing.agenda := by
  refine ⟨?_, ?_, ?_, ?_, ?_, ?_, ?_, ?_, ?_, ⟨?_, ?_, ?_, ?_⟩, ?_, ?_, ?_, ?_, ?_, ?_, ?_, ?_, ?_, fun n => List.not_mem_nil⟩ <;> decide +kernel

theorem witness_PowerHostAndReset :
    (frozenPod.pkg 0).frozen = true ∧ (base.pkg (chipOfDie 0)).frozen = false
    ∧ ((2000 : BitVec 12).toNat % 100 = 0 ∧ 100 ≤ (2000 : BitVec 12).toNat ∧ (100 : BitVec 12).toNat % 100 = 0)
    ∧ ((base.island 0 95).gate = false ∧ ((base.modIsland 0 95 fun k => { k with gate := true, woken := true }).island 0 95).woken = true
      ∧ base.islandBusy 0 95 = false
      ∧ (base.modDie 0 fun d => { d with placed := [placedGang none false] }).islandBusy 0 0 = true)
    ∧ (base.bridgeOn 0 = true ∧ (base.pkg 0).held = false)
    ∧ ({ base with pod := { base.pod with chips := [0, 1], bridges := [] } } : State).bridgeOn 1 = false
    ∧ ([5] : List Byte) ≠ [] ∧ 0xFFFFFFFFF + ([5] : List Byte).length ≤ 2 ^ 36 := by decide +kernel

/-! ### Frames -/

/-- A word of each class that the frame tells apart. -/
def frameWords : List Instr :=
  let n := wd .i32 (r 4) (r 2) (r 3)
  [addT, .pand (wd .raw (r 4) (r 2) (r 3)), .vadd (wd .fp32 (r 4) (r 1) (r 9)) .rne, .vcmp .lt (wd .fp32 (r 4) (r 1) (r 9)), .vext n,
   .mul (wd .raw (r 4) (r 2) (r 3)), .vred .add (wd .fp32 (r 4) (r 1) u0) .rne, .mts (wd .raw u0 (r 2) u0) 1,
   .bra (wd .raw u0 u0 u0) 3]

/-- How a word of hart 0 ends. -/
def howEnds (s : State) (i : Instr) : Option Disposition := match exec i s with
  | .next t => some t.disp
  | _ => none

theorem howEnds_of {s : State} {i : Instr} {d : Disposition} (h : howEnds s i = some d) : ∃ t, exec i s = .next t ∧ t.disp = d := by
  unfold howEnds at h
  split at h
  · exact ⟨_, ‹_›, Option.some.inj h⟩
  · exact nomatch h

theorem witness_RegisterWordsFrame :
    (∀ i ∈ frameWords, base.Clear i ∧ i.wd.isSome = true ∧ ∃ t, exec i base = .next t ∧ (t.disp = .retired ∨ t.disp = .jumped))
    ∧ frameWords.map (fun i => [Instr.scalarOnly i, Instr.predOnly i, Instr.vectorOnly i, Instr.slowScalar i, Instr.slowVector i, Instr.writesSys i,
        Instr.transfers i])
      = [[true, false, false, false, false, false, false], [false, true, false, false, false, false, false],
        [false, false, true, false, false, false, false], [false, false, false, false, false, false, false],
        [false, false, false, false, false, false, false], [false, false, false, true, false, false, false],
        [false, false, false, false, true, false, false], [false, false, false, false, false, true, false],
        [false, false, false, false, false, false, true]] := by
  have h : (frameWords.all fun i => clear base i && i.wd.isSome
      && (howEnds base i == some .retired || howEnds base i == some .jumped)) = true := by decide +kernel
  refine ⟨fun i hi => ?_, by decide⟩
  have hc := List.all_eq_true.mp h i hi
  simp only [Bool.and_eq_true, Bool.or_eq_true, beq_iff_eq] at hc
  refine ⟨Clear.of hc.1.1, hc.1.2, ?_⟩
  rcases hc.2 with h | h <;> obtain ⟨t, h1, h2⟩ := howEnds_of h
  · exact ⟨t, h1, .inl h2⟩
  · exact ⟨t, h1, .inr h2⟩

/-- No request of a state without requests is later than its next operation. -/
theorem fresh_of {s : State} (h : s.net = []) (hc : (s.cores.all fun p => p.2.cellar.isEmpty) = true) :
    (∀ r ∈ s.net, r.id < s.opSeq) ∧ ∀ c, ∀ e ∈ (s.core c).cellar, ∀ id, e.kind = .request id → id < s.opSeq := by
  have he (t : Tab Core) (ht : (t.all fun p => p.2.cellar.isEmpty) = true) (c : Nat) : (t.get Core.reset c).cellar = [] := by
    unfold Tab.get
    induction t with
    | nil => rfl
    | cons p t ih =>
      obtain ⟨k, v⟩ := p
      simp only [List.all_cons, Bool.and_eq_true] at ht
      simp only [Tab.find]
      split
      · exact List.isEmpty_iff.mp ht.1
      · exact ih ht.2
  exact ⟨fun r hr => absurd (h ▸ hr) List.not_mem_nil, fun c e h => absurd (he s.cores hc c ▸ h) List.not_mem_nil⟩

/-- A request of hart 0 that acts at a home, and no ring of events on any die. -/
def homeRequest (kind : ReqKind) : State := flight kind lane0

theorem witness_MemoryWordsFrame :
    let fresh (s : State) : Prop := (∀ r ∈ s.net, r.id < s.opSeq) ∧ ∀ c, ∀ e ∈ (s.core c).cellar, ∀ id, e.kind = .request id → id < s.opSeq
    let ld : Instr := .ld (wd .i32 (r 4) (r 1) u0) xm
    let vamo : Instr := .vamo .add .none (wd .i32 (r 4) (r 1) (r 2)) xm
    (base.Sound ∧ fresh base ∧ ∀ i ∈ [stCore, ld, vamo], base.Clear i ∧ ∃ t, exec i base = .next t ∧ t.disp = .retired)
    ∧ Instr.stores stCore = true ∧ Instr.loads ld = true ∧ Instr.requests vamo = true
    ∧ (∃ ps, (base.storeView (base.readView stCore) stCore).placeAll base.me .write (base.storedElems (base.readView stCore) stCore) = .ok ps)
    ∧ (∃ ps, base.placeAll base.me .atomic (base.atomicElems (base.readView vamo) vamo) = .ok ps)
    ∧ (∃ p, base.Reaches stCore .write [⟨0, 0x7E00000000000000, 4, false⟩] storeNeed [p] ∧ (∀ q ∈ p.parts, q.1.isDev = false)
        ∧ p.accesses 5 = [⟨0, 0, .spad 0 0, 4, 5, 0, none, 0x7E00000000000000⟩])
    ∧ ∀ k ∈ [ReqKind.store, .queueLen, .keyAppend .bf16], (homeRequest k).Sound ∧ (∃ r, (homeRequest k).request? 90 = some r ∧ r.kind = k
        ∧ (∀ e ∈ r.elems, e.at_.addr % 2 ^ 16 + e.bytes ≤ 2 ^ 16) ∧ (homeRequest k).requestRuns r = [(0x40, 64)])
      ∧ ¬ (homeRequest k).RingByte 0x100 ∧ ∃ t, exec (.globalWindowAccessAtHome 90) (homeRequest k) = .next t := by
  have hp : placedAt base .write [⟨0, 0x7E00000000000000, 4, false⟩] = [⟨⟨0, 0x7E00000000000000, 4, false⟩, [(.spad 0 0, 4)]⟩] := by
    decide +kernel
  have hr : base.Reaches stCore .write [⟨0, 0x7E00000000000000, 4, false⟩] storeNeed
      [⟨⟨0, 0x7E00000000000000, 4, false⟩, [(.spad 0 0, 4)]⟩] := hp ▸ Reaches.of (by decide +kernel)
  have h : ([stCore, .ld (wd .i32 (r 4) (r 1) u0) xm, .vamo .add .none (wd .i32 (r 4) (r 1) (r 2)) xm].all fun i => clear base i
      && howEnds base i == some .retired) = true := by decide +kernel
  refine ⟨⟨sound_of (by decide +kernel), fresh_of rfl (by decide +kernel), fun i hi => ?_⟩, rfl, rfl, rfl, ⟨_, placedAt_eq (by decide +kernel)⟩,
    ⟨_, placedAt_eq (by decide +kernel)⟩, ⟨_, hr, by decide +kernel, by decide +kernel⟩, fun k hk => ?_⟩
  · have hc := List.all_eq_true.mp h i hi
    simp only [Bool.and_eq_true, beq_iff_eq] at hc
    exact ⟨Clear.of hc.1, howEnds_of hc.2⟩
  · have hg (d : Nat) : ((homeRequest k).die d).evbase = 0 := by
      rfl
    refine ⟨?_, ?_, fun ⟨d, n, h⟩ => h.1 (by rw [hg d]; rfl), ?_⟩
    all_goals simp only [List.mem_cons, List.not_mem_nil, or_false] at hk
    · rcases hk with rfl | rfl | rfl <;> exact sound_of (by decide +kernel)
    · rcases hk with rfl | rfl | rfl <;> exact ⟨_, rfl, by decide +kernel⟩
    · rcases hk with rfl | rfl | rfl <;> exact ⟨_, rfl⟩


end Sys2Proof.Tests
end

section
/-! SUPPORT. What one step does, by the turn that the device chooses. -/
namespace Sys2Proof.Machine

/-- The effect of a turn on a state that has begun its step (02 R29, 19 R407). -/
def State.takes (s : State) : Turn → Host.Outcome State Fault Refusal
  | .event i rest => exec i { s with agenda := rest }
  | .upset u rest => .next (({ s with upsets := rest } : State).suffer u)
  | .hart h => ({ s with me := h } : State).stepHart

/-- With turns to take, the device chooses one of them (log 8). -/
theorem step_of_turns_cons {s : State} {t : Turn} {ts : List Turn} (h : s.begun.turns = t :: ts) :
    step s = s.begun.takes (s.begun.pickFrom .hart (t :: ts) t) := by
  unfold step State.turn
  rw [show ({ s with fresh := s.fresh + 1, time := s.time + 1 } : State) = s.begun from rfl]
  simp only [h]
  cases s.begun.pickFrom .hart (t :: ts) t with
  | event i rest => rfl
  | upset u rest => rfl
  | hart n => rfl

/-- With no turn to take, only a frozen package stops the machine (19 R407). -/
theorem step_of_turns_nil {s : State} (h : s.begun.turns = []) :
    step s = if (s.pkg (chipOf s.me)).frozen then .fault .frozen else .next s.begun := by
  unfold step State.turn
  rw [show ({ s with fresh := s.fresh + 1, time := s.time + 1 } : State) = s.begun from rfl]
  simp only [h]
  rfl

/-- The choice of the device decides the step (00 R10). -/
theorem step_of_chosen {s : State} {t : Turn} (h : s.chosen = some t) : step s = s.begun.takes t := by
  unfold State.chosen at h
  split at h
  next => exact nomatch h
  next hturns => rw [step_of_turns_cons hturns, Option.some.inj h]

theorem step_of_chosen_none {s : State} (h : s.chosen = none) :
    step s = if (s.pkg (chipOf s.me)).frozen then .fault .frozen else .next s.begun := by
  unfold State.chosen at h
  split at h
  next hturns => exact step_of_turns_nil hturns
  next => exact nomatch h

/-- Settles O6: the three kinds of turn are the cases of `State.takes`, and a step with no turn depends on the freeze. -/
theorem stepTakesATurn : Obligations.StepTakesATurn := by
  intro s
  refine ⟨fun _ _ h => step_of_chosen h, fun _ h => step_of_chosen h, fun _ _ h => step_of_chosen h,
    fun h hfrozen => ?_, fun h hfrozen => ?_⟩
  all_goals rw [step_of_chosen_none h, hfrozen]; rfl

end Sys2Proof.Machine
end

section
/-! SUPPORT. A status held on a counter: which one a covering word raises, and that its trap takes it from the hart (15
R321, R322, R330). -/
namespace Sys2Proof.Machine

/-- The wait counters, the lowest first. -/
def counters : List (BitVec 3) := [0, 1, 2, 3, 4, 5, 6, 7]

theorem mem_counters (n : BitVec 3) : n ∈ counters := by revert n; decide

/-- The counters below one, that one, and those above it. -/
theorem counters_split (n : BitVec 3) : counters = counters.take n.toNat ++ n :: counters.drop (n.toNat + 1) := by
  revert n; decide

theorem toNat_lt_of_mem_take_counters (n : BitVec 3) : ∀ m ∈ counters.take n.toNat, m.toNat < n.toNat := by
  revert n; decide

/-- The oldest status that a counter holds (15 R330). -/
def Hart.oldestStatus (h : Hart) (n : BitVec 3) : Option CtrStatus := h.stats.find? fun st => st.ctr == n

theorem Hart.ctr_of_oldestStatus {h : Hart} {n : BitVec 3} {st : CtrStatus} (hst : h.oldestStatus n = some st) :
    st.ctr = n := by
  simpa using List.find?_some hst

theorem Hart.heldStatus_eq_findSome? (h : Hart) (covers : BitVec 3 → Bool) :
    h.heldStatus covers = counters.findSome? fun c => if covers c then h.oldestStatus c else none :=
  List.head?_filterMap

/-- Nothing is raised when no covered counter holds a status. -/
theorem Hart.heldStatus_eq_none {h : Hart} {covers : BitVec 3 → Bool}
    (hnone : ∀ n, covers n = true → h.oldestStatus n = none) : h.heldStatus covers = none := by
  rw [h.heldStatus_eq_findSome?, List.findSome?_eq_none_iff]
  intro n _
  split
  next hn => exact hnone n hn
  next => rfl

/-- The lowest covered counter that holds a status gives its oldest. -/
theorem Hart.heldStatus_eq_some {h : Hart} {covers : BitVec 3 → Bool} {n : BitVec 3} {st : CtrStatus}
    (hn : covers n = true) (hst : h.oldestStatus n = some st)
    (hlow : ∀ m : BitVec 3, m.toNat < n.toNat → covers m = true → h.oldestStatus m = none) :
    h.heldStatus covers = some st := by
  rw [h.heldStatus_eq_findSome?, List.findSome?_eq_some_iff]
  refine ⟨_, n, _, counters_split n, by simp [hn, hst], fun m hm => ?_⟩
  split
  next hcov => exact hlow m (toNat_lt_of_mem_take_counters n m hm) hcov
  next => rfl

/-- A word that covers one counter raises what that counter holds. -/
theorem Hart.heldStatus_single (h : Hart) (c : BitVec 3) : h.heldStatus (· == c) = h.oldestStatus c := by
  have eq_c {n : BitVec 3} (hn : (n == c) = true) : n = c := by simpa using hn
  cases hst : h.oldestStatus c with
  | none => exact heldStatus_eq_none fun n hn => eq_c hn ▸ hst
  | some st =>
    refine heldStatus_eq_some (by simp) hst fun m hlt hm => ?_
    rw [eq_c hm] at hlt
    exact absurd hlt (Nat.lt_irrefl _)

namespace State

/-- An entry of the cellar leaves every hart as it is. -/
theorem enterAt_my (s : State) (h : Nat) (engine : Bool) (cycle size born : Nat) (k : CellarKind) :
    (s.enterAt h engine cycle size born k).my = s.my := by
  unfold enterAt
  dsimp only
  split <;> rfl

theorem hold_my (s : State) (size : Nat) (k : CellarKind) : (s.hold size k).my = s.my := enterAt_my ..

/-- A trap, with a handler or without, leaves the statuses that its record leaves (15 R321, R322, R330). -/
theorem takeTrap_stats (s : State) (t : Trap) : (s.takeTrap t).my.stats = (t.record 0 s.my).stats := by
  unfold takeTrap takeTrapAs
  dsimp only
  split
  · cases s.my.gang <;> simp [hold_my]
  · split
    · cases s.my.gang <;> simp [hold_my, Trap.enter]
    · simp [Trap.enter]

end State

/-- The record of a status's trap removes the oldest status of its counter. -/
theorem CtrStatus.trap_record_stats (st : CtrStatus) (member : Nat) (h : Hart) :
    (st.trap.record member h).stats = h.stats.eraseP fun q => q.ctr == st.ctr := by
  unfold Trap.record CtrStatus.trap
  dsimp only
  by_cases hcode : st.code = ecallCode
  · rw [if_pos hcode]
  · rw [if_neg hcode]

/-- The trap of the oldest status of a counter takes that status from the hart, and no other. -/
theorem State.takeTrap_removes_oldest {s : State} {n : BitVec 3} {st : CtrStatus} (hst : s.my.oldestStatus n = some st) :
    ∃ before later, s.my.stats = before ++ st :: later ∧ (∀ q ∈ before, q.ctr ≠ st.ctr)
      ∧ (s.takeTrap st.trap).my.stats = before ++ later := by
  obtain rfl := Hart.ctr_of_oldestStatus hst
  obtain ⟨-, before, later, hstats, hbefore⟩ := List.find?_eq_some_iff_append.mp hst
  have hne : ∀ q ∈ before, q.ctr ≠ st.ctr := fun q hq => by simpa using hbefore q hq
  refine ⟨before, later, hstats, hne, ?_⟩
  rw [s.takeTrap_stats, st.trap_record_stats, hstats, List.eraseP_append_right _ (by simpa using hne),
    List.eraseP_cons_of_pos (by simp)]

end Sys2Proof.Machine
end

section
/-! SUPPORT. Waits on counters (05 R135, 07 R194, R195, 15 R330). -/
namespace Sys2Proof.Machine

namespace State

/-- A wait that a counter's status ends raises it. -/
theorem waitOn_of_status {s : State} {covers : BitVec 3 → Bool} {st : CtrStatus} (h : s.my.heldStatus covers = some st)
    (met : Bool) (drained : List (BitVec 3)) : s.waitOn covers met drained = s.takeTrap st.trap := by
  simp only [waitOn, h]

/-- A wait without a status that is met retires, with the hart's later loads behind what its drained counters counted. -/
theorem waitOn_of_met {s : State} {covers : BitVec 3 → Bool} {met : Bool} (h : s.my.heldStatus covers = none)
    (hmet : met = true) (drained : List (BitVec 3)) : s.waitOn covers met drained
      = (s.upd fun h => drained.foldl (fun h n => h.after (h.waitMarks[n.toNat]'n.isLt)) h).retire := by
  simp only [waitOn, h, hmet, if_true]

/-- A wait without a status that is not met waits. -/
theorem waitOn_of_not_met {s : State} {covers : BitVec 3 → Bool} {met : Bool} (h : s.my.heldStatus covers = none)
    (hmet : met = false) (drained : List (BitVec 3)) : s.waitOn covers met drained = s.block := by
  simp only [waitOn, h, hmet, Bool.false_eq_true, if_false]

end State

/-- Every counter of a mask reads 0. -/
def Hart.maskedZero (h : Hart) (m : Word) : Bool := counters.all fun n => !maskHas m n || (h.w[n.toNat]'n.isLt) == 0

theorem Hart.maskedZero_iff (h : Hart) (m : Word) :
    h.maskedZero m = true ↔ ∀ n : BitVec 3, maskHas m n = true → h.w[n.toNat]'n.isLt = 0 := by
  unfold maskedZero
  rw [List.all_eq_true]
  refine ⟨fun h n hn => ?_, fun h n _ => ?_⟩
  · have hzero := h n (mem_counters n)
    rw [hn, Bool.not_true, Bool.false_or] at hzero
    exact eq_of_beq hzero
  · cases hn : maskHas m n with
    | false => rfl
    | true => rw [h n hn, Bool.not_true, Bool.false_or, beq_self_eq_true]

/-- WAIT is a wait on its one counter. -/
theorem exec_wait_of_clear {s : State} {w : Wd} (c : s.Clear (.wait w)) : exec (.wait w) s
    = .next (s.waitOn (· == ctrOf w.a) (decide ((s.my.w[(ctrOf w.a).toNat]'(ctrOf w.a).isLt).toNat ≤ (s.my.xSrc w.b).toNat))
        (if s.my.xSrc w.b = 0 then [ctrOf w.a] else [])) :=
  c.issued_scalar rfl _

/-- WAITA is a wait on the counters of its mask until all of them read 0. -/
theorem exec_waita_of_clear {s : State} {w : Wd} (c : s.Clear (.waita w)) : exec (.waita w) s
    = .next (s.waitOn (maskHas (s.my.xSrc w.b)) (s.my.maskedZero (s.my.xSrc w.b))
        (counters.filter (maskHas (s.my.xSrc w.b)))) :=
  c.issued_scalar rfl _

/-- Settles O24: both words are `State.waitOn`, whose three outcomes are a raised status, retirement and waiting. -/
theorem waitsOnCounters : Obligations.WaitsOnCounters := by
  intro s w
  have single (c : BitVec 3) := s.my.heldStatus_single c
  have masked (hnone : ∀ n : BitVec 3, maskHas (s.my.xSrc w.b) n = true → s.my.oldestStatus n = none) :
      s.my.heldStatus (maskHas (s.my.xSrc w.b)) = none := Hart.heldStatus_eq_none hnone
  refine ⟨fun hc hnone hle => ?_, fun hc hnone hlt => ?_, fun hc st hst => ?_,
    fun hc hnone => ⟨fun hzero => ?_, fun ⟨n, hn, hcount⟩ => ?_⟩, fun hc n st hn hst hlow => ?_⟩
  · rw [exec_wait_of_clear hc, State.waitOn_of_met ((single _).trans hnone) (decide_eq_true hle)]
  · rw [exec_wait_of_clear hc, State.waitOn_of_not_met ((single _).trans hnone) (decide_eq_false (Nat.not_le.mpr hlt))]
  · obtain ⟨before, later, hrest⟩ := State.takeTrap_removes_oldest hst
    refine ⟨_, before, later, ?_, rfl, hrest⟩
    rw [exec_wait_of_clear hc, State.waitOn_of_status ((single _).trans hst)]
    rfl
  · rw [exec_waita_of_clear hc, State.waitOn_of_met (masked hnone) ((s.my.maskedZero_iff _).mpr hzero)]
    rfl
  · have hmet : s.my.maskedZero (s.my.xSrc w.b) = false :=
      Bool.eq_false_iff.mpr fun h => hcount ((s.my.maskedZero_iff _).mp h n hn)
    rw [exec_waita_of_clear hc, State.waitOn_of_not_met (masked hnone) hmet]
  · have hheld : s.my.heldStatus (maskHas (s.my.xSrc w.b)) = some st := Hart.heldStatus_eq_some hn hst hlow
    obtain ⟨before, later, hrest⟩ := State.takeTrap_removes_oldest hst
    refine ⟨_, before, later, ?_, rfl, hrest⟩
    rw [exec_waita_of_clear hc, State.waitOn_of_status hheld]
    rfl

end Sys2Proof.Machine
end

section
/-! SUPPORT. Gang barriers and named barriers (05 R128 to R131, 07 R196 to R198). -/
namespace Sys2Proof.Machine

/-! ### A named barrier -/

@[simp] theorem Core.barrier_setBarrier (c : Core) (n : BitVec 6) (b : NamedBarrier) :
    (c.setBarrier n b).barrier n = b := by
  simp [Core.barrier, Core.setBarrier]

/-- An arrival by its three cases: E = 0, the E-th of the phase, and any other (05 R129, 07 R197). -/
theorem NamedBarrier.arrive_eq (rels : List Release) (b : NamedBarrier) : b.arrive rels =
    let kept := ((rels.map fun r => (b.p + 1, r)).filter fun r => !b.rels.contains r) ++ b.rels
    if b.e = 0 then b
    else if b.a.toNat + 1 = b.e.toNat then ⟨b.e, 0, b.p + 1, b.job, kept⟩ else ⟨b.e, b.a + 1, b.p, b.job, kept⟩ := rfl

theorem NamedBarrier.if_passed {α : Type} (b : NamedBarrier) (phase : BitVec 32) (x y : α) :
    (if b.passed phase then x else y) = if (b.p - phase).toNat < 2 ^ 31 then x else y := by
  simp [passed]

namespace State

/-! ### Arrivals -/

/-- An arrival names the phase after P and changes its barrier, which the hart has then used. -/
theorem arriveAt_eq (s : State) (n : BitVec 6) (rel : Bool) (sc : Scope) :
    let b := s.myCore.barrier n
    s.arriveAt n rel sc = (b.p + 1, (s.setMyCore (s.myCore.setBarrier n
      (b.arrive (if rel then s.carried s.me true sc else [])))).upd fun h => h.useBarrier n) := rfl

/-- An arrival waits for what it releases, or for an earlier signal of its hart to the barrier (05 R128, R139). -/
def arrivalWaits (s : State) (n : BitVec 6) (rel : Bool) (sc : Scope) : Bool :=
  s.releaseWaits rel sc || s.signalsFirst s.me n

/-- An arrival at a GBAR leaves the hart in focus. -/
@[simp] theorem arriveGbar_me (s : State) : s.arriveGbar.me = s.me := by
  unfold arriveGbar
  dsimp only
  split <;> rfl

/-- An arrival at a GBAR counts once. -/
theorem arriveGbar_my (s : State) : s.arriveGbar.my = { s.my with gbars := s.my.gbars + 1, inGbar := true } := by
  have h := s.my_upd fun h => { h with gbars := s.my.gbars + 1, inGbar := true }
  unfold arriveGbar
  dsimp only
  split <;> exact h

/-- What a GBAR does once it has arrived: it passes, or waits (05 R131, 07 R196). -/
def awaitGang (s : State) : State :=
  if s.gbarDone s.me then ((s.passGbar s.me).upd fun h => { h with inGbar := false }).retire else s.block

/-- What an NBAW does once it has arrived: it passes, or waits (07 R198). -/
def awaitPhase (s : State) (n : BitVec 6) (r : Arrival) : State :=
  if (s.myCore.barrier n).passed r.phase then (s.passNbaw s.me r).retire else s.block

end State

/-! ### The words, where nothing else stands in their way -/

section
variable {s : State} {w : Wd} {x : Xm} {rel acq : Bool} {ord : MemOrd}

/-- A GBAR that has not arrived waits for its release (05 R131). -/
theorem exec_gbar_waits (c : s.Clear (.gbar w)) (hin : s.my.inGbar = false) (howes : s.owes .all .gang = true) :
    exec (.gbar w) s = .next s.block := by
  refine (c.issued_scalar rfl _).trans ?_
  simp [hin, howes]

/-- A GBAR whose release is done, now or before, has arrived. -/
theorem exec_gbar_arrives (c : s.Clear (.gbar w)) (h : s.my.inGbar = true ∨ s.owes .all .gang = false) :
    exec (.gbar w) s = .next (if s.my.inGbar then s else s.arriveGbar).awaitGang := by
  have hgo : (!s.my.inGbar && s.owes .all .gang) = false := by
    rcases h with h | h <;> simp [h]
  refine (c.issued_scalar rfl _).trans ?_
  simp only [hgo, Bool.false_eq_true, if_false, State.awaitGang]

theorem exec_nbarr_waits (c : s.Clear (.nbarr rel w x)) (h : s.arrivalWaits (idxOf w.a) rel x.scope = true) :
    exec (.nbarr rel w x) s = .next s.block :=
  (c.issued_scalar rfl _).trans (congrArg _ (if_pos h))

theorem exec_nbarr_arrives (c : s.Clear (.nbarr rel w x)) (h : s.arrivalWaits (idxOf w.a) rel x.scope = false) :
    exec (.nbarr rel w x) s = .next ((s.arriveAt (idxOf w.a) rel x.scope).2.scalarResult w.d
      ((s.arriveAt (idxOf w.a) rel x.scope).1.setWidth 64)) :=
  (c.issued_scalar rfl _).trans (congrArg _ (if_neg (Bool.eq_false_iff.mp h)))

/-- NBWAIT waits for its phase, and then acquires from the phase's releases if it is an acquire (07 R198). -/
theorem exec_nbwait_of_clear (c : s.Clear (.nbwait acq w x)) :
    let u := s.upd fun h => h.useBarrier (idxOf w.a)
    let b := s.myCore.barrier (idxOf w.a)
    let phase := (s.my.xSrc w.b).setWidth 32
    exec (.nbwait acq w x) s = .next (if b.passed phase
      then (if acq then u.acquireFrom s.me x.scope (b.releases phase) else u).retire else u.block) :=
  c.issued_scalar rfl _

theorem exec_nbaw_waits (c : s.Clear (.nbaw ord w x)) (hin : s.my.inNbaw = none)
    (h : s.arrivalWaits (idxOf w.a) (MemOrd.releases ord) x.scope = true) : exec (.nbaw ord w x) s = .next s.block := by
  refine (c.issued_scalar rfl _).trans (congrArg _ (if_pos ?_))
  rw [hin]
  exact h

/-- An NBAW that arrives keeps its arrival, and waits for the phase after P. -/
theorem exec_nbaw_arrives (c : s.Clear (.nbaw ord w x)) (hin : s.my.inNbaw = none)
    (h : s.arrivalWaits (idxOf w.a) (MemOrd.releases ord) x.scope = false) :
    let a := s.arriveAt (idxOf w.a) (MemOrd.releases ord) x.scope
    let r : Arrival := ⟨idxOf w.a, a.1, w.d, if MemOrd.acquires ord then some x.scope else none⟩
    exec (.nbaw ord w x) s = .next ((a.2.upd fun h => { h with inNbaw := some r }).awaitPhase (idxOf w.a) r) := by
  refine (c.issued_scalar rfl _).trans (congrArg _ ((if_neg ?_).trans ?_))
  · rw [hin]
    exact Bool.eq_false_iff.mp h
  · simp only [hin]
    rfl

/-- An NBAW that has arrived before waits for the phase of that arrival. -/
theorem exec_nbaw_again (c : s.Clear (.nbaw ord w x)) {r : Arrival} (hin : s.my.inNbaw = some r) :
    exec (.nbaw ord w x) s = .next (s.awaitPhase (idxOf w.a) r) := by
  refine (c.issued_scalar rfl _).trans ?_
  simp only [hin]
  rfl

end

/-- Settles O25: each word waits for what comes before its arrival, arrives, and then waits for its gang or phase. -/
theorem barrierForms : Obligations.BarrierForms := by
  intro s w x rel acq ord n bar use phase kept after arrived told g first mine counted pass
  have harrive (releases : Bool) : s.arriveAt n releases x.scope = (phase, arrived releases) := by
    rw [s.arriveAt_eq, NamedBarrier.arrive_eq]
    rfl
  have hme : g.me = s.me := by
    show (if s.my.inGbar then s else s.arriveGbar).me = s.me
    rw [apply_ite State.me, s.arriveGbar_me, ite_self]
  have hcounted : counted.myCore.barrier n = after (MemOrd.releases ord) := by
    simp [counted, arrived, use]
  refine ⟨exec_gbar_waits, fun hc hgo => ?_, ?_, fun hc => hc.issued_scalar rfl _, exec_nbarr_waits, fun hc hfirst => ?_,
    fun hc => ?_, exec_nbaw_waits, fun hc hin hfirst => ?_, fun hc r hin => ?_⟩
  · rw [exec_gbar_arrives hc hgo, ← hme]
    rfl
  · rw [s.arriveGbar_my]
  · rw [exec_nbarr_arrives hc hfirst, harrive]
  · rw [exec_nbwait_of_clear hc, NamedBarrier.if_passed]
    rfl
  · rw [exec_nbaw_arrives hc hin hfirst, harrive, ← hcounted, ← NamedBarrier.if_passed]
    rfl
  · rw [exec_nbaw_again hc hin, ← NamedBarrier.if_passed]
    rfl

end Sys2Proof.Machine
end

section
/-! SUPPORT. The fields of an instruction word, and the decoder on the encoder's words (06 R141 to R144, R157, R162, R163). -/
namespace Sys2Proof

/-! ### Codes of the fields -/

@[simp] theorem fmtOf_code (f : Fmt) : fmtOf f.code.toNat = some f := by cases f <;> rfl

@[simp] theorem modifierOf_code (m : Modifier) : modifierOf m.code.toNat = some m := by cases m <;> rfl

@[simp] theorem rmOf_code (m : Rm) : rmOf m.code.toNat = some m := by cases m <;> rfl

@[simp] theorem scopeOf_code (c : Scope) : scopeOf c.code.toNat = some c := by cases c <;> rfl

@[simp] theorem hintOf_code (h : Hint) : hintOf h.code.toNat = h := by cases h <;> rfl

@[simp] theorem blockLenOf_code (b : BlockLen) : blockLenOf b.code.toNat = b := by cases b <;> rfl

@[simp] theorem scaleFmtOf_code (f : ScaleFmt) : scaleFmtOf f.code.toNat = some f := by cases f <;> rfl

/-- A flag of one bit. -/
@[simp] theorem oneBit_beq (b : Bool) : ((if b then 1#1 else 0#1) == 1#1) = b := by cases b <;> rfl

/-! ### Operand fields -/

/-- A field whose high bits are 0 has the number of its low bits. -/
theorem toNat_extractLsb'_of_high_zero {n : Nat} {x : BitVec n} {s a b : Nat} (h : x.extractLsb' (s + a) b = 0) :
    (x.extractLsb' s (b + a)).toNat = (x.extractLsb' s a).toNat := by
  have hsplit := congrArg BitVec.toNat
    (BitVec.extractLsb'_append_extractLsb'_eq_extractLsb' (x := x) (start₁ := s) (len₁ := a) (len₂ := b) rfl)
  rw [h] at hsplit
  simpa using hsplit.symm

/-- The fields of a concatenation of three. -/
theorem extractLsb'_append_append {u v w : Nat} (x : BitVec u) (y : BitVec v) (z : BitVec w) :
    (x ++ y ++ z).extractLsb' (w + v) u = x ∧ (x ++ y ++ z).extractLsb' w v = y ∧ (x ++ y ++ z).extractLsb' 0 w = z := by
  refine ⟨?_, ?_, BitVec.extractLsb'_append_eq_right⟩
  · rw [BitVec.extractLsb'_append_eq_of_le (Nat.le_add_right w v), Nat.add_sub_cancel_left,
      BitVec.extractLsb'_append_eq_left]
  · rw [BitVec.extractLsb'_append_eq_of_le (Nat.le_refl w), Nat.sub_self, BitVec.extractLsb'_append_eq_right]

/-- The parts of the field of a register: its tier, zeros, its index and its modifier (06 R143). -/
theorem extractLsb'_registerField {k n : Nat} (t : BitVec 2) (i : BitVec n) (m : BitVec 3) :
    let f := t ++ (0 : BitVec k) ++ i ++ m
    f.extractLsb' (3 + n + k) 2 = t ∧ f.extractLsb' (3 + n) k = 0 ∧ f.extractLsb' 3 n = i ∧ f.extractLsb' 0 3 = m := by
  intro f
  obtain ⟨high, idx, mod⟩ := extractLsb'_append_append (t ++ (0 : BitVec k)) i m
  have within (s l : Nat) : f.extractLsb' (3 + n + s) l = (t ++ (0 : BitVec k)).extractLsb' s l := by
    rw [BitVec.extractLsb'_append_eq_of_le (by omega), BitVec.extractLsb'_append_eq_of_le (by omega)]
    congr 1
    omega
  exact ⟨(within k 2).trans BitVec.extractLsb'_append_eq_left,
    (within 0 k).trans BitVec.extractLsb'_append_eq_right, idx, mod⟩

/-- The operand field of every operand gives it back (06 R143, R144). -/
@[simp] theorem operandOf_field (o : Operand) : operandOf o.field = some o := by
  cases o with
  | main i m =>
    let f := (Operand.main i m).field
    obtain ⟨tier, pad, idx, mod⟩ : f.extractLsb' 10 2 = 0 ∧ f.extractLsb' 9 1 = 0 ∧ f.extractLsb' 3 6 = i
      ∧ f.extractLsb' 0 3 = m.code := extractLsb'_registerField 0 i m.code
    have hidx := toNat_extractLsb'_of_high_zero (a := 6) pad
    simp [operandOf, f, tier, hidx, idx, mod, i.isLt]
  | oper i m =>
    let f := (Operand.oper i m).field
    obtain ⟨tier, pad, idx, mod⟩ : f.extractLsb' 10 2 = 1 ∧ f.extractLsb' 6 4 = 0 ∧ f.extractLsb' 3 3 = i
      ∧ f.extractLsb' 0 3 = m.code := extractLsb'_registerField 1 i m.code
    have hidx := toNat_extractLsb'_of_high_zero (a := 3) pad
    simp [operandOf, f, tier, hidx, idx, mod, i.isLt]
  | last i m =>
    let f := (Operand.last i m).field
    obtain ⟨tier, pad, idx, mod⟩ : f.extractLsb' 10 2 = 2 ∧ f.extractLsb' 5 5 = 0 ∧ f.extractLsb' 3 2 = i
      ∧ f.extractLsb' 0 3 = m.code := extractLsb'_registerField 2 i m.code
    have hidx := toNat_extractLsb'_of_high_zero (a := 2) pad
    simp [operandOf, f, tier, hidx, idx, mod, i.isLt]
  | const k =>
    have tier : (Operand.const k).field.extractLsb' 10 2 = 3 := BitVec.extractLsb'_append_eq_left
    have imm : (Operand.const k).field.extractLsb' 0 10 = k := BitVec.extractLsb'_append_eq_right
    simp [operandOf, tier, imm]

@[simp] theorem bareOperand_field (o : Operand) : bareOperand o.field = some o := by simp [bareOperand]

/-! ### The common fields (06 R141) -/

theorem extractLsb'_packWord (op : BitVec 6 × BitVec 6) (w : Wd) (xt : BitVec 29) : let b := packWord op w xt
    b.extractLsb' 90 6 = op.1 ∧ b.extractLsb' 84 6 = op.2 ∧ b.extractLsb' 80 4 = w.fmt.code
    ∧ b.extractLsb' 79 1 = (if w.grd.inv then 1 else 0) ∧ b.extractLsb' 75 4 = w.grd.p
    ∧ b.extractLsb' 63 12 = w.d.field ∧ b.extractLsb' 51 12 = w.a.field ∧ b.extractLsb' 39 12 = w.b.field
    ∧ b.extractLsb' 35 4 = w.stc ∧ b.extractLsb' 34 1 = (if w.ch then 1 else 0)
    ∧ b.extractLsb' 33 1 = (if w.yh then 1 else 0) ∧ b.extractLsb' 32 1 = (if w.bs then 1 else 0)
    ∧ b.extractLsb' 31 1 = (if w.nb then 1 else 0) ∧ b.extractLsb' 29 2 = 0 ∧ b.extractLsb' 0 29 = xt := by
  refine ⟨?_, ?_, ?_, ?_, ?_, ?_, ?_, ?_, ?_, ?_, ?_, ?_, ?_, ?_, BitVec.extractLsb'_append_eq_right⟩
  all_goals
    refine (BitVec.extractLsb'_append_eq_of_le (by decide)).trans ?_
    simp (disch := decide) only [BitVec.extractLsb'_append_eq_of_le, BitVec.extractLsb'_append_eq_of_add_le,
      Nat.reduceSub, BitVec.extractLsb'_eq_self]

theorem wdOf_packWord (op : BitVec 6 × BitVec 6) (w : Wd) (xt : BitVec 29) : wdOf (packWord op w xt) = w := by
  obtain ⟨-, -, fmt, inv, p, d, a, b, stc, ch, yh, bs, nb, -, -⟩ := extractLsb'_packWord op w xt
  simp [wdOf, fmt, inv, p, d, a, b, stc, ch, yh, bs, nb]

theorem rawSubs_packWord (op : BitVec 6 × BitVec 6) (w : Wd) (xt : BitVec 29) : rawSubs (packWord op w xt) = [] := by
  obtain ⟨-, -, fmt, -, -, d, a, b, -, -, -, -, -, zero, -⟩ := extractLsb'_packWord op w xt
  simp [rawSubs, fmt, d, a, b, zero]

/-! ### The extension XT (06 R157) -/

theorem extractLsb'_encXr (rm : Rm) : (encXr rm).extractLsb' 26 3 = rm.code ∧ (encXr rm).extractLsb' 0 26 = 0 :=
  ⟨BitVec.extractLsb'_append_eq_left, BitVec.extractLsb'_append_eq_right⟩

@[simp] theorem xtRm_encXr (rm : Rm) : xtRm (encXr rm) = rm := by
  simp [xtRm, (extractLsb'_encXr rm).1]

@[simp] theorem xrSubs_encXr (rm : Rm) : xrSubs (encXr rm) = [] := by
  simp [xrSubs, xtSubs, extractLsb'_encXr]

theorem extractLsb'_encXf (c : Operand) (rm : Rm) : (encXf c rm).extractLsb' 17 12 = c.field
    ∧ (encXf c rm).extractLsb' 14 3 = rm.code ∧ (encXf c rm).extractLsb' 0 14 = 0 :=
  extractLsb'_append_append c.field rm.code 0

@[simp] theorem xtC_encXf (c : Operand) (rm : Rm) : xtC (encXf c rm) = c := by
  simp [xtC, (extractLsb'_encXf c rm).1]

@[simp] theorem xtFRm_encXf (c : Operand) (rm : Rm) : xtFRm (encXf c rm) = rm := by
  simp [xtFRm, extractLsb'_encXf]

@[simp] theorem xfSubs_encXf (c : Operand) (rm : Rm) : xfSubs (encXf c rm) = [] := by
  simp [xfSubs, xtSubs, extractLsb'_encXf]

@[simp] theorem xtImm_encXi (imm : BitVec 24) : xtImm (encXi imm) = imm := BitVec.extractLsb'_append_eq_left

@[simp] theorem xiSubs_encXi (imm : BitVec 24) : xiSubs (encXi imm) = [] := by
  have h : (encXi imm).extractLsb' 0 5 = 0 := BitVec.extractLsb'_append_eq_right
  simp [xiSubs, xtSubs, h]

theorem extractLsb'_encXl (e : BitVec 20) (l : BitVec 2) : (encXl e l).extractLsb' 9 20 = e
    ∧ (encXl e l).extractLsb' 7 2 = l ∧ (encXl e l).extractLsb' 0 7 = 0 :=
  extractLsb'_append_append e l 0

@[simp] theorem xtEnd_encXl (e : BitVec 20) (l : BitVec 2) : xtEnd (encXl e l) = e := (extractLsb'_encXl e l).1

@[simp] theorem xtLvl_encXl (e : BitVec 20) (l : BitVec 2) : xtLvl (encXl e l) = l := (extractLsb'_encXl e l).2.1

@[simp] theorem xlSubs_encXl (e : BitVec 20) (l : BitVec 2) : xlSubs (encXl e l) = [] := by
  simp [xlSubs, xtSubs, extractLsb'_encXl]

theorem extractLsb'_encXm (x : Xm) : let b := encXm x
    b.extractLsb' 12 17 = x.off ∧ b.extractLsb' 9 3 = x.ctr ∧ b.extractLsb' 6 3 = x.scope.code
    ∧ b.extractLsb' 4 2 = x.hint.code ∧ b.extractLsb' 3 1 = (if x.ordered then 1 else 0) ∧ b.extractLsb' 0 3 = 0 := by
  refine ⟨?_, ?_, ?_, ?_, ?_, BitVec.extractLsb'_append_eq_right⟩
  all_goals
    refine (BitVec.extractLsb'_append_eq_of_le (by decide)).trans ?_
    simp (disch := decide) only [BitVec.extractLsb'_append_eq_of_le, BitVec.extractLsb'_append_eq_of_add_le,
      Nat.reduceSub, BitVec.extractLsb'_eq_self]

@[simp] theorem xtXm_encXm (x : Xm) : xtXm (encXm x) = x := by
  simp [xtXm, extractLsb'_encXm]

@[simp] theorem xmSubs_encXm (x : Xm) : xmSubs (encXm x) = [] := by
  simp [xmSubs, xtSubs, extractLsb'_encXm]

theorem extractLsb'_encXx (x : Xx) : let b := encXx x
    b.extractLsb' 23 6 = x.sa ∧ b.extractLsb' 17 6 = x.sb ∧ b.extractLsb' 15 2 = x.blen.code
    ∧ b.extractLsb' 12 3 = x.sfmt.code ∧ b.extractLsb' 6 6 = x.cnt ∧ b.extractLsb' 3 3 = x.ctr
    ∧ b.extractLsb' 0 3 = x.rm.code := by
  refine ⟨?_, ?_, ?_, ?_, ?_, ?_, BitVec.extractLsb'_append_eq_right⟩
  all_goals
    refine (BitVec.extractLsb'_append_eq_of_le (by decide)).trans ?_
    simp (disch := decide) only [BitVec.extractLsb'_append_eq_of_le, BitVec.extractLsb'_append_eq_of_add_le,
      Nat.reduceSub, BitVec.extractLsb'_eq_self]

@[simp] theorem xtXx_encXx (x : Xx) : xtXx (encXx x) = x := by
  simp [xtXx, extractLsb'_encXx]

@[simp] theorem xxSubs_encXx (x : Xx) : xxSubs (encXx x) = [] := by
  simp [xxSubs, xtSubs, extractLsb'_encXx]

@[simp] theorem xtSys_encXs (n : BitVec 12) : xtSys (encXs n) = n := BitVec.extractLsb'_append_eq_left

@[simp] theorem xsSubs_encXs (n : BitVec 12) : xsSubs (encXs n) = [] := by
  have h : (encXs n).extractLsb' 0 17 = 0 := BitVec.extractLsb'_append_eq_right
  simp [xsSubs, xtSubs, h]

/-! ### The bytes of a word (06 R142) -/

/-- A bit of the word of some bytes is that of its byte. -/
theorem getLsbD_wordOfBytes (bs : List Byte) (j : Nat) (hj : j < 96) :
    (wordOfBytes bs).getLsbD j = (bs.getD (j / 8) 0).getLsbD (j % 8) := by
  induction bs generalizing j with
  | nil => simp [wordOfBytes]
  | cons b bs ih =>
    have hcons : wordOfBytes (b :: bs) = (wordOfBytes bs <<< 8) ||| b.setWidth 96 := rfl
    rw [hcons, BitVec.getLsbD_or, BitVec.getLsbD_shiftLeft, BitVec.getLsbD_setWidth]
    by_cases h : j < 8
    · simp [h, hj, Nat.div_eq_of_lt h, Nat.mod_eq_of_lt h]
    · obtain ⟨k, rfl⟩ := Nat.exists_eq_add_of_le (Nat.le_of_not_lt h)
      have hdiv : (8 + k) / 8 = k / 8 + 1 := by omega
      rw [hdiv, List.getD_cons_succ, Nat.add_mod_left, ← ih k (by omega)]
      simp [hj]

theorem wordOfBytes_bytesOfWord (b : IWord) : wordOfBytes (bytesOfWord b) = b := by
  apply BitVec.eq_of_getLsbD_eq
  intro j hj
  have hbyte : (bytesOfWord b).getD (j / 8) 0 = b.extractLsb' (8 * (j / 8)) 8 := by
    have : j / 8 < 12 := by omega
    simp [bytesOfWord, this]
  rw [getLsbD_wordOfBytes _ _ hj, hbyte, BitVec.getLsbD_extractLsb', Nat.div_add_mod,
    decide_eq_true (Nat.mod_lt j (by decide)), Bool.true_and]

/-! ### The decoder on the encoder's opcodes (06 R162, R163) -/

/-- A word that breaks no limit keeps those of XT, and names a system register. -/
theorem Instr.xtOk_and_sysOk {i : Instr} {s : Shape} {w : Wd} (hs : i.shape = some s) (hw : i.wd = some w)
    (h : i.reservedSubs = []) : i.xtOk = true ∧ i.sysOk = true := by
  unfold Instr.reservedSubs at h
  rw [hs, hw] at h
  simp only [List.append_eq_nil_iff] at h
  obtain ⟨⟨⟨-, hxt⟩, -⟩, hsys⟩ := h.1
  exact ⟨by simpa using hxt, by simpa using hsys⟩

/-! Words whose MIN names a variant, with any XT. -/

theorem decode23_amo (op : AmoOp) (ord : MemOrd) (w : Wd) (xt : BitVec 29) :
    decode23 (8 * ord.code + op.code : BitVec 6).toNat w xt = some ⟨.amo op ord w (xtXm xt), xmSubs xt⟩ := by
  cases op <;> cases ord <;> rfl

theorem decode23_vamo (op : AmoOp) (ord : MemOrd) (w : Wd) (xt : BitVec 29) :
    decode23 (32 + 8 * ord.code + op.code : BitVec 6).toNat w xt = some ⟨.vamo op ord w (xtXm xt), xmSubs xt⟩ := by
  cases op <;> cases ord <;> rfl

theorem decode0A_nbaw (ord : MemOrd) (w : Wd) (xt : BitVec 29) :
    decode0A (0x18 + ord.code : BitVec 6).toNat w xt = some ⟨.nbaw ord w (xtXm xt), xmSubs xt⟩ := by
  cases ord <;> rfl

theorem decode0A_nbarr (rel : Bool) (w : Wd) (xt : BitVec 29) :
    decode0A (if rel then 0x12 else 0x10 : BitVec 6).toNat w xt = some ⟨.nbarr rel w (xtXm xt), xmSubs xt ++ []⟩ := by
  cases rel <;> rfl

theorem decode0A_nbwait (acq : Bool) (w : Wd) (xt : BitVec 29) :
    decode0A (if acq then 0x15 else 0x14 : BitVec 6).toNat w xt = some ⟨.nbwait acq w (xtXm xt), xmSubs xt ++ []⟩ := by
  cases acq <;> rfl

theorem decode24_rsig (rel : Bool) (w : Wd) (xt : BitVec 29) :
    decode24 (if rel then 0x0A else 0x08 : BitVec 6).toNat w xt = some ⟨.rsig rel w (xtXm xt), xmSubs xt ++ []⟩ := by
  cases rel <;> rfl

/-- The decoder reads each word's own opcode and XT as that word, and finds no limit broken. The last case is the words
without XT, and the steps that are no word. -/
theorem decodeOp_opcode {i : Instr} {w : Wd} (hw : i.wd = some w) (hr : i.reservedSubs = []) :
    decodeOp i.opcode.1.toNat i.opcode.2.toNat w i.xtBits = some ⟨i, []⟩ := by
  cases i with
  | vadd _ rm | vsub _ rm | vmul _ rm | vmulh _ rm | vmin _ rm | vmax _ rm | vabs _ rm | vneg _ rm | vand _ rm
  | vor _ rm | vxor _ rm | vandn _ rm | vshl _ rm | vshr _ rm | vshra _ rm | vadds _ rm | vsubs _ rm | vdiv _ rm
  | vsqrt _ rm | vrcp _ rm | vrsq _ rm | vexp2 _ rm | vlog2 _ rm | vclass _ rm | vround _ rm | vcvt _ rm =>
    cases hw
    change decodeOp _ _ _ (encXr rm) = _
    exact (rfl : _ = some (Decoded.mk _ _)).trans (by simp)
  | sel _ c rm | vfma _ c rm =>
    cases hw
    change decodeOp _ _ _ (encXf c rm) = _
    exact (rfl : _ = some (Decoded.mk _ _)).trans (by simp)
  | lil _ imm | lih _ imm | lit _ imm | lea _ imm | bra _ imm | call _ imm | loopvl _ imm | ecall _ imm | brk _ imm =>
    cases hw
    change decodeOp _ _ _ (encXi imm) = _
    exact (rfl : _ = some (Decoded.mk _ _)).trans (by simp)
  | loop _ e l =>
    cases hw
    change decodeOp _ _ _ (encXl e l) = _
    exact (rfl : _ = some (Decoded.mk _ _)).trans (by simp)
  | nbinit _ x | fenceLd _ x | fenceSt _ x | fenceAll _ x | defer _ x | drain _ x | qapp _ x | qpop _ x | qlen _ x
  | ld _ x | st _ x | pref _ x | vld _ x | vst _ x | vlds _ x | vsts _ x | vldw _ x | vstw _ x | vldg _ x
  | vcst _ x | rput _ x | rget _ x | rfence _ x | kapp _ x | kbnd _ x | khrv _ x | rkpush _ x | rkpop _ x
  | rkwm _ x | rkwait _ x | clean _ x | inval _ x | invro _ x | zerol _ x | zld _ x | zst _ x | collAg _ x
  | collBc _ x =>
    cases hw
    change decodeOp _ _ _ (encXm x) = _
    exact (rfl : _ = some (Decoded.mk _ _)).trans (by simp)
  | vqnt _ x | vscl _ x | vdotb _ x | mma _ x | mmas _ x | tmma _ x | zdrain _ x =>
    cases hw
    change decodeOp _ _ _ (encXx x) = _
    exact (rfl : _ = some (Decoded.mk _ _)).trans (by simp)
  | scmp c _ | pcmp c _ | vcmp c _ =>
    cases hw
    cases c <;> rfl
  | brc c _ imm =>
    cases hw
    change decodeOp _ _ _ (encXi imm) = _
    cases c <;> exact (rfl : _ = some (Decoded.mk _ _)).trans (by simp)
  | vred op _ rm | vscan op _ rm =>
    cases hw
    change decodeOp _ _ _ (encXr rm) = _
    cases op <;> exact (rfl : _ = some (Decoded.mk _ _)).trans (by simp)
  | collAr op _ x | collRs op _ x =>
    cases hw
    change decodeOp _ _ _ (encXm x) = _
    cases op <;> exact (rfl : _ = some (Decoded.mk _ _)).trans (by simp)
  | amo op ord _ x =>
    cases hw
    exact (decode23_amo op ord w (encXm x)).trans (by simp)
  | vamo op ord _ x =>
    cases hw
    exact (decode23_vamo op ord w (encXm x)).trans (by simp)
  | nbaw ord _ x =>
    cases hw
    exact (decode0A_nbaw ord w (encXm x)).trans (by simp)
  | nbarr rel _ x =>
    cases hw
    exact (decode0A_nbarr rel w (encXm x)).trans (by simp)
  | nbwait acq _ x =>
    cases hw
    exact (decode0A_nbwait acq w (encXm x)).trans (by simp)
  | rsig rel _ x =>
    cases hw
    exact (decode24_rsig rel w (encXm x)).trans (by simp)
  | vldx _ x | vstx _ x =>
    cases hw
    have hx : (!x.ordered) = true := (Instr.xtOk_and_sysOk rfl rfl hr).1
    change decodeOp _ _ _ (encXm x) = _
    exact (rfl : _ = some (Decoded.mk _ _)).trans (by simpa using hx)
  | vldxo _ x | vstxo _ x =>
    cases hw
    have hx : x.ordered = true := (Instr.xtOk_and_sysOk rfl rfl hr).1
    change decodeOp _ _ _ (encXm x) = _
    exact (rfl : _ = some (Decoded.mk _ _)).trans (by simp [hx])
  | mfs _ n =>
    cases hw
    change decodeOp _ _ _ (encXs n) = _
    exact (rfl : _ = some (Decoded.mk _ _)).trans (by simp)
  | mts _ n =>
    cases hw
    have hn : ((sysAssigned n.toNat = true ∧ n ≠ 0x100#12) ∧ n ≠ 0x314#12) ∧ n ≠ 0x200#12 := by
      simpa [Instr.sysOk] using (Instr.xtOk_and_sysOk rfl rfl hr).2
    change decodeOp _ _ _ (encXs n) = _
    exact (rfl : _ = some (Decoded.mk _ _)).trans (by simp [mtsOf, hn])
  | teambaseInstall _ =>
    cases hw
    change decodeOp _ _ _ (encXs 0x100) = _
    exact (rfl : _ = some (Decoded.mk _ _)).trans (by simp [mtsOf])
  | csctlRetry _ =>
    cases hw
    change decodeOp _ _ _ (encXs 0x314) = _
    exact (rfl : _ = some (Decoded.mk _ _)).trans (by simp [mtsOf])
  | lightRequest _ =>
    cases hw
    change decodeOp _ _ _ (encXs 0x200) = _
    exact (rfl : _ = some (Decoded.mk _ _)).trans (by simp [mtsOf])
  | _ => cases hw <;> rfl

theorem encode_of_wd {i : Instr} {w : Wd} (hw : i.wd = some w) : encode i = some (packWord i.opcode w i.xtBits) := by
  unfold encode
  split
  · cases hw
  · rw [hw, Option.map_some]

/-- The decoder reads the packed word of a good instruction as that instruction (06 R141, R162). -/
theorem decodeFull_packWord {i : Instr} {w : Wd} (hw : i.wd = some w) (hr : i.reservedSubs = []) :
    decodeFull (packWord i.opcode w i.xtBits) = ⟨i, []⟩ := by
  obtain ⟨maj, min, -, -, -, -, -, -, -, -, -, -, -, -, xt⟩ := extractLsb'_packWord i.opcode w i.xtBits
  simp only [decodeFull, maj, min, xt, wdOf_packWord, decodeOp_opcode hw hr, rawSubs_packWord, hr, List.append_nil]

/-- Settles O4: each field of the packed word reads back, and the opcode with XT names the instruction. -/
theorem decodeInvertsEncode : Obligations.DecodeInvertsEncode := by
  intro i hi
  obtain ⟨hword, hsubs⟩ := Bool.and_eq_true_iff.mp hi
  obtain ⟨w, hw⟩ := Option.isSome_iff_exists.mp hword
  have hr : i.reservedSubs = [] := List.isEmpty_iff.mp hsubs
  refine ⟨_, encode_of_wd hw, ?_, wordOfBytes_bytesOfWord _⟩
  rw [decodeWord, decodeFull_packWord hw hr]
  rfl

/-- Settles O5: the decoder evaluated on each of the words. -/
theorem decodeWords : Obligations.DecodeWords :=
  ⟨rfl, rfl, rfl, rfl, rfl, rfl, rfl⟩

end Sys2Proof
end

section
/-! SUPPORT. What stands between a word and its effect: the checks before issue, the interlocks, the guard and poisoned
registers (06 R146 to R150, R161, 15 R319, 16 R338 to R341, 19 R400). -/
namespace Sys2Proof.Machine

/-! ### Every word is issued -/

/-- A word that the encoder gives is issued: its checks come before an effect of its own (06 R161). -/
theorem exec_of_wd {i : Instr} {w : Wd} (hw : i.wd = some w) (s : State) : ∃ k, exec i s = issued i s k := by
  cases i <;> cases hw <;> exact ⟨_, rfl⟩

theorem exec_of_isWord {i : Instr} (hi : i.isWord = true) (s : State) : ∃ k, exec i s = issued i s k := by
  obtain ⟨w, hw⟩ := Option.isSome_iff_exists.mp hi
  exact exec_of_wd hw s

/-! ### The ways at issue, in their order -/

theorem issued_eq_trap {s : State} {i : Instr} {t : Trap} (h : s.precheck i = some t) (k : Hart → State → State) :
    issued i s k = .next (s.takeTrap t) := by
  simp only [issued, State.issue, h]

section
variable {s : State} {i : Instr} (hpre : s.precheck i = none)
include hpre

theorem issued_eq_block (h : (Instr.waitsOn i s.my || s.awaitsNew i) = true) (k : Hart → State → State) :
    issued i s k = .next s.block := by
  simp only [issued, State.issue, hpre, h, if_true]

variable (hgo : (Instr.waitsOn i s.my || s.awaitsNew i) = false)
include hgo

theorem issued_eq_retire (h : Instr.guardOk i (s.readView i) = false) (k : Hart → State → State) :
    issued i s k = .next s.retire := by
  simp only [issued, State.issue, hpre, hgo, h, Bool.not_false, Bool.false_eq_true, if_false, if_true]

theorem issued_eq_lostFirst (hguard : Instr.guardOk i (s.readView i) = true) {t : Trap} (h : s.poisonTrap i = some t)
    (k : Hart → State → State) : issued i s k = .next (s.lostFirst (k (s.readView i) s) t) := by
  simp only [issued, State.issue, hpre, hgo, hguard, h, Bool.not_true, Bool.false_eq_true, if_false]

end

/-- A word that reads a poisoned register takes the poison's trap, or one of its own of a lower code (19 R400, log 30). -/
theorem State.lostFirst_eq (s u : State) (lost : Trap) : s.lostFirst u lost = s.takeTrap lost
    ∨ ∃ own, s.lostFirst u lost = u ∧ u.disp = .trapped own ∧ own.code < lost.code := by
  unfold State.lostFirst
  split
  next own hown =>
    split
    next hlt => exact .inr ⟨own, rfl, hown, hlt⟩
    next => exact .inl rfl
  next => exact .inl rfl

/-- Settles O10: the five ways are those of `State.issue`, in its order. -/
theorem everyWordMeetsItsChecks : Obligations.EveryWordMeetsItsChecks := by
  intro s i hi
  obtain ⟨k, hk⟩ := exec_of_isWord hi s
  rw [hk]
  refine ⟨fun t ht => issued_eq_trap ht k, fun hpre hwait => issued_eq_block hpre hwait k,
    fun hpre hgo hoff => issued_eq_retire hpre hgo hoff k, fun hpre hgo hon t ht => ?_, fun hpre hgo hon hwhole => ?_⟩
  · rw [issued_eq_lostFirst hpre hgo hon ht k]
    refine (s.lostFirst_eq (k (s.readView i) s) t).imp (congrArg _) fun ⟨own, hu, hown, hlt⟩ => ?_
    exact ⟨_, own, congrArg _ hu, hown, hlt⟩
  · obtain ⟨hfree, hsettled⟩ := Bool.or_eq_false_iff.mp hgo
    exact ⟨hpre, hfree, hsettled, hon, hwhole⟩

/-! ### The checks before issue (15 R319) -/

section
variable {s : State} {i : Instr}

theorem precheck_of_undefinedHere (h : Instr.undefinedHere i s.myCore.vlmax = true) :
    s.precheck i = some { code := 3 } := by
  simp only [State.precheck, h, if_true]

theorem precheck_of_reserved (hdef : Instr.undefinedHere i s.myCore.vlmax = false) (h : i.reservedSubs ≠ []) :
    s.precheck i = some { code := 5, sub := s.pickFrom .sub i.reservedSubs 0 } := by
  have hne : (!i.reservedSubs.isEmpty) = true := by simpa using h
  simp only [State.precheck, hdef, hne, Bool.false_eq_true, if_false, if_true]

/-- With its fields read and nothing to read early, a word is only stopped for want of a privilege. -/
theorem precheck_of_resolved (hdef : Instr.undefinedHere i s.myCore.vlmax = false) (hsubs : i.reservedSubs = [])
    (hfmt : ∃ o, Instr.resolve i s.my = .ok o) (hearly : s.my.early = []) :
    s.precheck i = if Instr.privileged i && !s.my.sup then some { code := 8 } else none := by
  obtain ⟨o, ho⟩ := hfmt
  have hreads : Instr.earlyReads i s.my = [] := by simp [Instr.earlyReads, hearly]
  simp [State.precheck, hdef, hsubs, ho, hreads]

end

/-- The device's choice among some entries is one of them. -/
theorem State.pickFrom_mem {α : Type} (s : State) (site : Site) {l : List α} (h : l ≠ []) (d : α) :
    s.pickFrom site l d ∈ l := by
  cases l with
  | nil => exact absurd rfl h
  | cons a rest =>
    unfold State.pickFrom
    dsimp only
    rw [List.getD_eq_getElem?_getD]
    cases hn : (a :: rest)[s.pick site (rest.length + 1)]? with
    | none => exact List.mem_cons_self
    | some b => exact List.mem_of_getElem? hn

/-- A privileged form is a word that is always defined, and reads no format. -/
theorem Instr.privileged_word {i : Instr} (h : Instr.privileged i = true) :
    i.isWord = true ∧ (∀ vm, Instr.undefinedHere i vm = false) ∧ ∀ r, ∃ o, Instr.resolve i r = .ok o := by
  cases i with
  | eret _ | tlbi _ | inval _ _ => exact ⟨rfl, fun _ => rfl, fun _ => ⟨_, rfl⟩⟩
  | _ => cases h

/-- Settles O11: each clause is one branch of `State.precheck`, whose trap the word takes. -/
theorem checksBeforeIssue : Obligations.ChecksBeforeIssue := by
  intro s i
  refine ⟨fun bits => issued_eq_trap (precheck_of_undefinedHere rfl) _, fun hi hundef => ?_, fun hi hdef hsubs => ?_,
    fun hpriv hsubs huser hearly => ?_⟩
  · obtain ⟨k, hk⟩ := exec_of_isWord hi s
    exact hk.trans (issued_eq_trap (precheck_of_undefinedHere hundef) k)
  · obtain ⟨k, hk⟩ := exec_of_isWord hi s
    exact ⟨_, s.pickFrom_mem .sub hsubs 0, hk.trans (issued_eq_trap (precheck_of_reserved hdef hsubs) k)⟩
  · obtain ⟨hi, hdef, hfmt⟩ := Instr.privileged_word hpriv
    obtain ⟨k, hk⟩ := exec_of_isWord hi s
    refine hk.trans (issued_eq_trap ?_ k)
    rw [precheck_of_resolved (hdef _) hsubs (hfmt _) hearly, hpriv, huser]
    rfl

/-! ### A hart with nothing under way -/

theorem Hart.quiet_iff (h : Hart) : h.quiet = true ↔ h.ops = [] ∧ h.early = [] ∧ h.poison = [] := by
  simp [Hart.quiet, and_assoc]

/-- With no operation under way, only a full counter holds a word back (06 R150). -/
theorem Instr.waitsOn_of_no_ops {i : Instr} {h : Hart} (hops : h.ops = [])
    (hctr : ∀ c, i.counter = some c → h.w[c.toNat]'c.isLt ≠ 0xFFFF) : Instr.waitsOn i h = false := by
  unfold Instr.waitsOn
  rw [hops, List.any_nil, Bool.false_or]
  split
  next c hc => exact beq_eq_false_iff_ne.mpr (hctr c hc)
  next => rfl

/-- Settles O9: with nothing under way no interlock, early read or poison is left, and the hypotheses pass the checks. -/
theorem quietHartIssuesItsWord : Obligations.QuietHartIssuesItsWord := by
  intro s i k hquiet hsubs hfmt hdef hpriv hctr hguard
  obtain ⟨hops, hearly, hpoison⟩ := s.my.quiet_iff.mp hquiet
  have hview : s.readView i = s.my := State.readView_quiet hearly
  have hclear : s.Clear i :=
    { checks := by
        rw [precheck_of_resolved hdef hsubs hfmt hearly]
        cases hp : Instr.privileged i with
        | false => rfl
        | true => rw [hpriv hp]; rfl
      free := Instr.waitsOn_of_no_ops hops hctr
      settled := by simp [State.awaitsNew, Instr.earlyReads, hearly]
      guard := hview.symm ▸ hguard
      whole := by simp [State.poisonTrap, hpoison] }
  exact ⟨hclear, hview, by rw [hclear.issued, hview]⟩

end Sys2Proof.Machine
end

section
/-! SUPPORT. The multiply and divide forms, and the branches (06 R150, R159, 07 R174, R176, R180). -/
namespace Sys2Proof.Machine

/-! ### Multiply and divide (07 R174) -/

/-- A clear interlocked word of the scalar pipe retires with its result, held until its completion. -/
theorem execSlow_of_clear {s : State} {i : Instr} (c : s.Clear i) (hi : Instr.inVectorQueue i = false) (w : Wd)
    (f : Word → Word → Word) : execSlow i w f s
      = .next ((s.upd fun h => h.putX w.d (f (s.my.xSrc w.a) (s.my.xSrc w.b))).retireOp i s.my Flags.none) :=
  c.issued_scalar hi _

theorem toInt_mulHigh (a b : Word) : (mulHigh a b).toInt = a.toInt * b.toInt / 2 ^ 64 := by
  have hhigh : a.toInt * b.toInt ≤ 2 ^ 126 := BitVec.toInt_mul_toInt_le
  have hlow : -2 ^ 126 ≤ a.toInt * b.toInt := BitVec.le_toInt_mul_toInt
  exact BitVec.toInt_ofInt_eq_self (by decide) (by omega) (by omega)

theorem toNat_mulHighN (a b : Word) : (mulHighN a b).toNat = a.toNat * b.toNat / 2 ^ 64 := by
  have hlt : a.toNat * b.toNat / 2 ^ 64 < 2 ^ 64 :=
    Nat.div_lt_of_lt_mul (Nat.mul_lt_mul'' a.isLt b.isLt)
  exact Nat.mod_eq_of_lt hlt

theorem divSigned_of_ne_zero (a : Word) {b : Word} (h : b ≠ 0) : divSigned a b = BitVec.ofInt 64 (a.toInt.tdiv b.toInt) :=
  if_neg h

theorem toNat_divUnsigned_of_ne_zero (a : Word) {b : Word} (h : b ≠ 0) : (divUnsigned a b).toNat = a.toNat / b.toNat := by
  rw [divUnsigned, if_neg h]
  exact Nat.mod_eq_of_lt (Nat.lt_of_le_of_lt (Nat.div_le_self ..) a.isLt)

theorem toInt_remSigned_of_ne_zero (a : Word) {b : Word} (h : b ≠ 0) : (remSigned a b).toInt = a.toInt.tmod b.toInt := by
  rw [remSigned, if_neg h, ← BitVec.toInt_srem, BitVec.ofInt_toInt]

theorem toNat_remUnsigned_of_ne_zero (a : Word) {b : Word} (h : b ≠ 0) : (remUnsigned a b).toNat = a.toNat % b.toNat := by
  rw [remUnsigned, if_neg h]
  exact Nat.mod_eq_of_lt (Nat.lt_of_le_of_lt (Nat.mod_le ..) a.isLt)

/-- Settles O17: each form is `execSlow` with its own function of a and b. -/
theorem multiplyAndDivide : Obligations.MultiplyAndDivide := by
  intro s w a b
  exact ⟨fun c => ⟨a * b, execSlow_of_clear c rfl w _, BitVec.toNat_mul a b⟩,
    fun c => ⟨_, execSlow_of_clear c rfl w _, toInt_mulHigh a b⟩,
    fun c => ⟨_, execSlow_of_clear c rfl w _, toNat_mulHighN a b⟩,
    fun c => ⟨_, execSlow_of_clear c rfl w _, divSigned_of_ne_zero a⟩,
    fun c => ⟨_, execSlow_of_clear c rfl w _, toNat_divUnsigned_of_ne_zero a⟩,
    fun c => ⟨_, execSlow_of_clear c rfl w _, toInt_remSigned_of_ne_zero a⟩,
    fun c => ⟨_, execSlow_of_clear c rfl w _, toNat_remUnsigned_of_ne_zero a⟩⟩

/-! ### Conditions and branches (07 R176, R180) -/

/-- The conditions, as they compare numbers. -/
theorem Cond.holds_iff (c : Cond) (a b : Word) : Cond.holds c a b = true ↔ match c with
    | .eq => a.toNat = b.toNat | .ne => a.toNat ≠ b.toNat | .lt => a.toInt < b.toInt | .ge => b.toInt ≤ a.toInt
    | .ltu => a.toNat < b.toNat | .geu => b.toNat ≤ a.toNat := by
  cases c <;> simp [Cond.holds, BitVec.toNat_inj, BitVec.slt_eq_decide, BitVec.ult_eq_decide]

/-- A branch offset counts words of 4 bytes. -/
theorem branchTarget_eq_ofInt (pc : Word) (off : BitVec 24) :
    branchTarget pc off = BitVec.ofInt 64 (pc.toInt + 4 * off.toInt) := by
  rw [branchTarget, BitVec.ofInt_add, BitVec.ofInt_toInt, BitVec.ofInt_mul, BitVec.shiftLeft_eq_mul_twoPow, BitVec.mul_comm]
  rfl

theorem toInt_branchTarget (pc : Word) (off : BitVec 24) :
    ((branchTarget pc off).toInt - (pc.toInt + 4 * off.toInt)) % 2 ^ 64 = 0 := by
  rw [branchTarget_eq_ofInt, BitVec.toInt_ofInt, ← Int.emod_eq_emod_iff_emod_sub_eq_zero]
  exact Int.bmod_emod

section
variable {s : State} {w : Wd} {off : BitVec 24} {c : Cond}

theorem exec_brc_taken (h : s.Clear (.brc c w off)) (hc : Cond.holds c (s.my.xSrc w.a) (s.my.xSrc w.b) = true) :
    exec (.brc c w off) s = .next (s.jumpTo (branchTarget s.my.pc off)) :=
  (h.issued_scalar rfl _).trans (congrArg _ (if_pos hc))

theorem exec_brc_not_taken (h : s.Clear (.brc c w off)) (hc : ¬ Cond.holds c (s.my.xSrc w.a) (s.my.xSrc w.b) = true) :
    exec (.brc c w off) s = .next s.retire :=
  (h.issued_scalar rfl _).trans (congrArg _ (if_neg hc))

end

/-- Settles O21: the target is the model's `branchTarget`, and every form acts on the hart as it is. -/
theorem branches : Obligations.Branches := by
  intro s w off c a b link holds
  have hholds : Cond.holds c a b = true ↔ holds := Cond.holds_iff c a b
  exact ⟨branchTarget s.my.pc off, toInt_branchTarget _ _, fun h => h.issued_scalar rfl _, fun h => h.issued_scalar rfl _,
    fun h => h.issued_scalar rfl _, fun h => h.issued_scalar rfl _, fun h hc => exec_brc_taken h (hholds.mpr hc),
    fun h hc => exec_brc_not_taken h (hc ∘ hholds.mp)⟩

end Sys2Proof.Machine
end

section
/-! SUPPORT. The scalar integer forms: what each computes of a and b, and the words' results (07 R173). -/
namespace Sys2Proof.Machine

/-! ### Sums, bits and shifts -/

theorem toNat_sub_add (a b : Word) : ((a - b).toNat + b.toNat) % 2 ^ 64 = a.toNat := by
  rw [← BitVec.toNat_add, BitVec.sub_add_cancel]

theorem getLsbD_and_not (a b : Word) (n : Nat) : (a &&& ~~~b).getLsbD n = (a.getLsbD n && !b.getLsbD n) := by
  rw [BitVec.getLsbD_and, BitVec.getLsbD_not]
  cases hn : decide (n < 64) with
  | true => rw [Bool.true_and]
  | false =>
    have ha : a.getLsbD n = false := BitVec.getLsbD_of_ge a n (Nat.not_lt.mp (of_decide_eq_false hn))
    rw [ha, Bool.false_and, Bool.false_and]

theorem toNat_shiftLeft_eq_mul (a : Word) (k : Nat) : (a <<< k).toNat = a.toNat * 2 ^ k % 2 ^ 64 := by
  rw [BitVec.toNat_shiftLeft, Nat.shiftLeft_eq]

theorem toNat_ushiftRight_eq_div (a : Word) (k : Nat) : (a >>> k).toNat = a.toNat / 2 ^ k := by
  rw [BitVec.toNat_ushiftRight, Nat.shiftRight_eq_div_pow]

theorem toInt_sshiftRight_eq_div (a : Word) (k : Nat) : (a.sshiftRight k).toInt = a.toInt / 2 ^ k := by
  rw [BitVec.toInt_sshiftRight, Int.shiftRight_eq_div_pow, Int.natCast_pow]
  rfl

/-- Bit n of a rotation to the right comes from k places above, past the top from the bottom. -/
theorem getLsbD_rotateRight_mod (a : Word) {k n : Nat} (hk : k < 64) (hn : n < 64) :
    (a.rotateRight k).getLsbD n = a.getLsbD ((n + k) % 64) := by
  rw [BitVec.getLsbD_rotateRight, Nat.mod_eq_of_lt hk]
  by_cases h : n < 64 - k
  · rw [decide_eq_true h, cond_true, Nat.add_comm, Nat.mod_eq_of_lt (by omega)]
  · rw [decide_eq_false h, cond_false, decide_eq_true hn, Bool.true_and]
    congr 1
    omega

/-! ### Minimum and maximum -/

theorem toInt_ite_slt_min (a b : Word) : (if a.slt b then a else b).toInt = min a.toInt b.toInt := by
  simp only [apply_ite BitVec.toInt, BitVec.slt_iff_toInt_lt]
  split <;> omega

theorem toInt_ite_slt_max (a b : Word) : (if a.slt b then b else a).toInt = max a.toInt b.toInt := by
  simp only [apply_ite BitVec.toInt, BitVec.slt_iff_toInt_lt]
  split <;> omega

theorem toNat_ite_ult_min (a b : Word) : (if a.ult b then a else b).toNat = min a.toNat b.toNat := by
  simp only [apply_ite BitVec.toNat, BitVec.ult_iff_lt, BitVec.lt_def]
  split <;> omega

theorem toNat_ite_ult_max (a b : Word) : (if a.ult b then b else a).toNat = max a.toNat b.toNat := by
  simp only [apply_ite BitVec.toNat, BitVec.ult_iff_lt, BitVec.lt_def]
  split <;> omega

/-- Settles O15: each form issues with its own function of a and b. -/
theorem scalarArithmetic : Obligations.ScalarArithmetic := by
  intro s w a b
  have hb : b.toNat % 64 < 64 := Nat.mod_lt _ (by decide)
  exact ⟨fun c => ⟨_, c.issued_scalar rfl _, BitVec.toNat_add a b⟩,
    fun c => ⟨_, c.issued_scalar rfl _, toNat_sub_add a b⟩,
    fun c => ⟨_, c.issued_scalar rfl _, fun _ => BitVec.getLsbD_and⟩,
    fun c => ⟨_, c.issued_scalar rfl _, fun _ => BitVec.getLsbD_or⟩,
    fun c => ⟨_, c.issued_scalar rfl _, fun _ => BitVec.getLsbD_xor⟩,
    fun c => ⟨_, c.issued_scalar rfl _, getLsbD_and_not a b⟩,
    fun c => ⟨_, c.issued_scalar rfl _, toNat_shiftLeft_eq_mul a _⟩,
    fun c => ⟨_, c.issued_scalar rfl _, toNat_ushiftRight_eq_div a _⟩,
    fun c => ⟨_, c.issued_scalar rfl _, toInt_sshiftRight_eq_div a _⟩,
    fun c => ⟨_, c.issued_scalar rfl _, fun _ hn => getLsbD_rotateRight_mod a hb hn⟩,
    fun c => ⟨_, c.issued_scalar rfl _, toInt_ite_slt_min a b⟩,
    fun c => ⟨_, c.issued_scalar rfl _, toInt_ite_slt_max a b⟩,
    fun c => ⟨_, c.issued_scalar rfl _, toNat_ite_ult_min a b⟩,
    fun c => ⟨_, c.issued_scalar rfl _, toNat_ite_ult_max a b⟩⟩

/-! ### Counts of zeros and of set bits -/

theorem lt_two_pow_bitLen (n : Nat) : n < 2 ^ bitLen n := by
  cases n with
  | zero => decide
  | succ n => exact Nat.lt_log2_self

theorem bitLen_le {n k : Nat} (h : n < 2 ^ k) : bitLen n ≤ k := by
  cases n with
  | zero => exact Nat.zero_le k
  | succ n => exact (Nat.log2_lt n.succ_ne_zero).mpr h

/-- The highest set bit is the last of the number's length. -/
theorem testBit_bitLen_pred {n : Nat} (h : bitLen n ≠ 0) : n.testBit (bitLen n - 1) = true := by
  cases n with
  | zero => exact absurd rfl h
  | succ n => exact Nat.testBit_log2 n.succ_ne_zero

theorem trailingZerosIn_le (n a : Nat) : trailingZerosIn n a ≤ n := by
  fun_induction trailingZerosIn n a with
  | case1 => exact Nat.le_refl 0
  | case2 => exact Nat.zero_le _
  | case3 n a _ ih => exact Nat.succ_le_succ ih

theorem mod_two_pow_trailingZerosIn (n a : Nat) : a % 2 ^ trailingZerosIn n a = 0 := by
  fun_induction trailingZerosIn n a with
  | case1 a => exact Nat.mod_one a
  | case2 _ a => exact Nat.mod_one a
  | case3 n a heven ih =>
    rw [Nat.pow_succ', Nat.mod_mul, ih, Nat.mul_zero, Nat.add_zero]
    exact Nat.mod_two_ne_one.mp heven

/-- The bit past the trailing zeros is set, where there is one. -/
theorem testBit_trailingZerosIn {n a : Nat} (h : trailingZerosIn n a < n) : a.testBit (trailingZerosIn n a) = true := by
  fun_induction trailingZerosIn n a with
  | case1 => exact absurd h (Nat.lt_irrefl 0)
  | case2 _ a hodd => exact (Nat.testBit_zero a).trans (decide_eq_true hodd)
  | case3 n a _ ih => exact (Nat.testBit_succ a _).trans (ih (Nat.lt_of_succ_lt_succ h))

theorem popIn_eq_countP (n a : Nat) : popIn n a = (List.range n).countP a.testBit := by
  fun_induction popIn n a with
  | case1 => rfl
  | case2 n a ih =>
    have hhigh : (List.range n).countP (a.testBit ∘ Nat.succ) = (List.range n).countP (a / 2).testBit :=
      List.countP_congr fun i _ => by rw [Function.comp_apply, Nat.testBit_succ]
    rw [ih, List.range_succ_eq_map, List.countP_cons, List.countP_map, hhigh, Nat.testBit_zero, Nat.add_comm]
    rcases Nat.mod_two_eq_zero_or_one a with h | h <;> rw [h] <;> rfl

theorem popIn_le (n a : Nat) : popIn n a ≤ n := by
  rw [popIn_eq_countP]
  exact Nat.le_trans List.countP_le_length (Nat.le_of_eq List.length_range)

theorem leadingZeros_le (a : Word) : leadingZeros a ≤ 64 := Nat.sub_le ..

/-- The leading zeros end at the highest set bit, where there is one. -/
theorem leadingZeros_spec (a : Word) : let z := leadingZeros a
    a.toNat / 2 ^ (64 - z) = 0 ∧ (z < 64 → a.getLsbD (63 - z) = true) := by
  intro z
  have hlen : bitLen a.toNat ≤ 64 := bitLen_le a.isLt
  have hz : z = 64 - bitLen a.toNat := rfl
  refine ⟨?_, fun h => ?_⟩
  · rw [show 64 - z = bitLen a.toNat by omega]
    exact Nat.div_eq_of_lt (lt_two_pow_bitLen a.toNat)
  · rw [show 63 - z = bitLen a.toNat - 1 by omega]
    exact testBit_bitLen_pred (by omega)

/-! ### Extensions -/

/-- Shifting to the top and back keeps the low bits, and repeats their highest. -/
theorem sshiftRight_shiftLeft (a : Word) {n : Nat} (h1 : 1 ≤ n) (h64 : n ≤ 64) :
    (a <<< (64 - n)).sshiftRight (64 - n) = (a.setWidth n).signExtend 64 := by
  refine BitVec.eq_of_getLsbD_eq fun i hi => ?_
  rw [BitVec.getLsbD_sshiftRight, BitVec.getLsbD_signExtend, decide_eq_true hi, decide_eq_false (Nat.not_le.mpr hi)]
  by_cases hlow : i < n
  · rw [if_pos (by omega), if_pos hlow, BitVec.getLsbD_shiftLeft, BitVec.getLsbD_setWidth, decide_eq_true hlow,
      decide_eq_true (by omega), decide_eq_false (by omega), Nat.add_sub_cancel_left]
    rfl
  · rw [if_neg (by omega), if_neg hlow, BitVec.msb_shiftLeft, BitVec.msb_setWidth, BitVec.getMsbD_eq_getLsbD,
      decide_eq_true (by omega), decide_eq_true (Nat.zero_lt_of_lt h1), show 64 - 1 - (64 - n) = n - 1 by omega]
    rfl

/-- Shifting to the top and back keeps the low bits. -/
theorem toNat_ushiftRight_shiftLeft (a : Word) {n : Nat} (h : n ≤ 64) :
    ((a <<< (64 - n)) >>> (64 - n)).toNat = a.toNat % 2 ^ n := by
  have hsplit : 2 ^ 64 = 2 ^ n * 2 ^ (64 - n) := by rw [← Nat.pow_add, Nat.add_sub_cancel' h]
  rw [BitVec.toNat_ushiftRight, BitVec.toNat_shiftLeft, Nat.shiftLeft_eq, Nat.shiftRight_eq_div_pow, hsplit,
    Nat.mul_mod_mul_right, Nat.mul_div_cancel _ (Nat.two_pow_pos _)]

section
variable {b : Word} (a : Word)

theorem sextFrom_of_width (h1 : 1 ≤ b.toNat % 128) (h63 : b.toNat % 128 ≤ 63) :
    sextFrom a b = (a.setWidth (b.toNat % 128)).signExtend 64 := by
  rw [← sshiftRight_shiftLeft a h1 (by omega), sextFrom, if_pos (by simp [h1, h63])]

theorem toNat_zextFrom_of_width (h1 : 1 ≤ b.toNat % 128) (h63 : b.toNat % 128 ≤ 63) :
    (zextFrom a b).toNat = a.toNat % 2 ^ (b.toNat % 128) := by
  rw [← toNat_ushiftRight_shiftLeft a (by omega), zextFrom, if_pos (by simp [h1, h63])]

theorem extension_of_no_width (h : b.toNat % 128 = 0 ∨ 64 ≤ b.toNat % 128) : sextFrom a b = a ∧ zextFrom a b = a := by
  have hnot : ¬ (decide (1 ≤ b.toNat % 128) && decide (b.toNat % 128 ≤ 63)) = true := by
    simp only [Bool.and_eq_true, decide_eq_true_eq]
    omega
  exact ⟨if_neg hnot, if_neg hnot⟩

end

/-- Settles O16: each form issues with its own function of its sources. -/
theorem scalarSelectAndCount : Obligations.ScalarSelectAndCount := by
  intro s w a b
  have count {n : Nat} (h : n ≤ 64) : (Word.ofNat n).toNat = n := Nat.mod_eq_of_lt (by omega)
  refine ⟨fun c rm h => ⟨_, h.issued_scalar rfl _, fun hc => if_pos hc, fun hc => if_neg (not_not_intro hc)⟩,
    fun h => ⟨_, h.issued_scalar rfl _, rfl⟩,
    fun h => ⟨_, h.issued_scalar rfl _, ?_⟩,
    fun h => ⟨_, h.issued_scalar rfl _, ?_⟩,
    fun h => ⟨_, h.issued_scalar rfl _, ?_⟩,
    fun h => ⟨_, h.issued_scalar rfl _, sextFrom_of_width a, fun hn => (extension_of_no_width a hn).1⟩,
    fun h => ⟨_, h.issued_scalar rfl _, toNat_zextFrom_of_width a, fun hn => (extension_of_no_width a hn).2⟩⟩
  · rw [count (leadingZeros_le a)]
    exact ⟨leadingZeros_le a, leadingZeros_spec a⟩
  · rw [count (trailingZerosIn_le ..)]
    exact ⟨trailingZerosIn_le .., mod_two_pow_trailingZerosIn .., testBit_trailingZerosIn⟩
  · rw [count (popIn_le ..)]
    exact popIn_eq_countP ..

end Sys2Proof.Machine
end

section
/-! SUPPORT. The borderline cases of division, the compares, the constant forms and LEA (07 R175 to R178). -/
namespace Sys2Proof.Machine

/-! ### Borderline divisions (07 R175) -/

theorem div_by_zero (a : Word) : divSigned a 0 = BitVec.allOnes 64 ∧ divUnsigned a 0 = BitVec.allOnes 64
    ∧ remSigned a 0 = a ∧ remUnsigned a 0 = a :=
  ⟨if_pos rfl, if_pos rfl, if_pos rfl, if_pos rfl⟩

/-- The quotient of −2^63 and −1 is 2^63, which wraps, and leaves no remainder. -/
theorem div_overflow : divSigned 0x8000000000000000 0xFFFFFFFFFFFFFFFF = 0x8000000000000000
    ∧ remSigned 0x8000000000000000 0xFFFFFFFFFFFFFFFF = 0 := by decide

/-- Settles O18: each form is `execSlow`, which neither traps nor raises a flag, with its own function of a and b. -/
theorem divideBorderlineCases : Obligations.DivideBorderlineCases := by
  intro s w a b
  obtain ⟨div0, divn0, rem0, remn0⟩ := div_by_zero a
  obtain ⟨divMin, remMin⟩ := div_overflow
  refine ⟨fun c v hv => ?_, fun c v ⟨hb, hv⟩ => ?_, fun c v hv => ?_, fun c v ⟨hb, hv⟩ => ?_⟩
  · have hval : divSigned a b = v := by
      rcases hv with ⟨hb, hv⟩ | ⟨ha, hb, hv⟩
      · rw [hb, hv]; exact div0
      · rw [ha, hb, hv, divMin]
    exact hval ▸ execSlow_of_clear c rfl w _
  · have hval : divUnsigned a b = v := by rw [hb, hv]; exact divn0
    exact hval ▸ execSlow_of_clear c rfl w _
  · have hval : remSigned a b = v := by
      rcases hv with ⟨hb, hv⟩ | ⟨ha, hb, hv⟩
      · rw [hb, hv, rem0]
      · rw [ha, hb, hv, remMin]
    exact hval ▸ execSlow_of_clear c rfl w _
  · have hval : remUnsigned a b = v := by rw [hb, hv, remn0]
    exact hval ▸ execSlow_of_clear c rfl w _

/-! ### Compares, constants and LEA (07 R176 to R178) -/

/-- A sum with a sign-extended constant, modulo 2^64. -/
theorem toInt_lea (a b : Word) (imm : BitVec 24) :
    ((a + b + imm.signExtend 64).toInt - (a.toInt + b.toInt + imm.toInt)) % 2 ^ 64 = 0 := by
  rw [← Int.emod_eq_emod_iff_emod_sub_eq_zero, BitVec.toInt_add, BitVec.toInt_add, BitVec.toInt_signExtend_of_le (by decide)]
  exact Int.bmod_emod.trans (Int.emod_add_cancel_right _ |>.mpr Int.bmod_emod)

/-- Settles O19: the compares decide `Cond.holds`, and the constant forms put their fields beside those they keep. -/
theorem comparesConstantsAndLea : Obligations.ComparesConstantsAndLea := by
  intro s w c imm a b x holds
  have hholds : Cond.holds c a b = true ↔ holds := Cond.holds_iff c a b
  obtain ⟨lihTop, lihMid, lihLow⟩ := extractLsb'_append_append (x.extractLsb' 48 16) imm (x.extractLsb' 0 24)
  exact ⟨fun h => ⟨_, h.issued_scalar rfl _, fun hc => if_pos (hholds.mpr hc), fun hc => if_neg (hc ∘ hholds.mp)⟩,
    fun h => ⟨_, h.issued_scalar rfl _, fun hc => if_pos (hholds.mpr hc), fun hc => if_neg (hc ∘ hholds.mp)⟩,
    fun h => ⟨_, h.issued_scalar rfl _, BitVec.toInt_signExtend_of_le (by decide)⟩,
    fun h => ⟨_, h.issued_scalar rfl _, lihMid, lihLow, lihTop⟩,
    fun h => ⟨_, h.issued_scalar rfl _, BitVec.extractLsb'_append_eq_left, BitVec.extractLsb'_append_eq_right⟩,
    fun h => ⟨_, h.issued_scalar rfl _, toInt_lea a b imm⟩⟩

end Sys2Proof.Machine
end

section
/-! SUPPORT. The hardware loops (07 R183, R186). -/
namespace Sys2Proof.Machine

/-! ### The number that a level is armed with -/

/-- The next armed number when one more level is taken into account: above that level's, if it is active. -/
def LoopLevel.armedAfter (m : Nat) (l : LoopLevel) : Nat := if l.active then max m (l.armed + 1) else m

theorem LoopLevel.le_armedAfter (m : Nat) (l : LoopLevel) : m ≤ armedAfter m l := by
  unfold armedAfter
  split
  · exact Nat.le_max_left ..
  · exact Nat.le_refl m

theorem LoopLevel.armed_lt_armedAfter (m : Nat) {l : LoopLevel} (h : l.active = true) : l.armed < armedAfter m l := by
  rw [armedAfter, if_pos h]
  exact Nat.le_max_right ..

theorem LoopLevel.le_foldl_armedAfter (ls : List LoopLevel) (m : Nat) : m ≤ ls.foldl armedAfter m := by
  induction ls generalizing m with
  | nil => exact Nat.le_refl m
  | cons l ls ih => exact Nat.le_trans (le_armedAfter m l) (ih _)

theorem LoopLevel.armed_lt_foldl_armedAfter {ls : List LoopLevel} {l : LoopLevel} (hl : l ∈ ls) (h : l.active = true)
    (m : Nat) : l.armed < ls.foldl armedAfter m := by
  induction hl generalizing m with
  | head ls => exact Nat.lt_of_lt_of_le (armed_lt_armedAfter m h) (le_foldl_armedAfter ls _)
  | tail _ _ ih => exact ih _

theorem Hart.nextArmed_eq_foldl (h : Hart) : h.nextArmed = h.lc.toList.foldl LoopLevel.armedAfter 1 := rfl

/-- The next number lies above that of every active level. -/
theorem Hart.armed_lt_nextArmed {h : Hart} {m : Nat} {l : LoopLevel} (hl : h.lc[m]? = some l) (hactive : l.active = true) :
    l.armed < h.nextArmed := by
  rw [h.nextArmed_eq_foldl]
  exact LoopLevel.armed_lt_foldl_armedAfter (Vector.mem_toList_iff.mpr (Vector.mem_of_getElem? hl)) hactive 1

/-! ### The words -/

/-- An end offset counts words of 4 bytes. -/
theorem shiftLeft_setWidth_endOff (off : BitVec 20) : off.setWidth 64 <<< 2 = Word.ofNat (4 * off.toNat) := by
  refine BitVec.eq_of_toNat_eq ?_
  rw [BitVec.toNat_shiftLeft, BitVec.toNat_setWidth, Word.ofNat, BitVec.toNat_ofNat]
  omega

section
variable {s : State} {w : Wd} {off : BitVec 20} {lvl : BitVec 2}

/-- A LOOP with a count arms its level. -/
theorem exec_loop_arms (c : s.Clear (.loop w off lvl)) (hn : min (s.my.xSrc w.a).toNat (2 ^ 32 - 1) ≠ 0) :
    exec (.loop w off lvl) s = .next (s.upd fun h => { h with
      lc := h.lc.set lvl.toNat ⟨Word.ofNat (min (s.my.xSrc w.a).toNat (2 ^ 32 - 1)), true, s.my.nextArmed, h.pc + 12,
        s.my.pc + Word.ofNat (4 * off.toNat)⟩ lvl.isLt }).retire := by
  rw [← shiftLeft_setWidth_endOff]
  exact (c.issued_scalar rfl _).trans (congrArg _ (if_neg hn))

variable (c : s.Clear (.loop w off lvl)) (hn : min (s.my.xSrc w.a).toNat (2 ^ 32 - 1) = 0)
include c hn

/-- A LOOP without a count goes past the convoy at its end address (07 R183). -/
theorem exec_loop_skips {ws : List IWord}
    (hws : s.fetchConvoy s.me 4 (s.my.pc + Word.ofNat (4 * off.toNat)).toNat = .ok ws) :
    exec (.loop w off lvl) s = .next { (s.upd fun h => { h with
      lc := h.lc.set lvl.toNat { h.lc[lvl.toNat]'lvl.isLt with count := 0, active := false } lvl.isLt }).jumpTo
        (s.my.pc + Word.ofNat (4 * off.toNat) + Word.ofNat (12 * ws.length)) with disp := .retired } := by
  refine (c.issued_scalar rfl _).trans (congrArg _ ((if_pos hn).trans ?_))
  simp only [shiftLeft_setWidth_endOff, hws]

/-- A LOOP without a count traps where that convoy cannot be fetched (15 R319). -/
theorem exec_loop_traps {t : Trap}
    (ht : s.fetchConvoy s.me 4 (s.my.pc + Word.ofNat (4 * off.toNat)).toNat = .error t) :
    exec (.loop w off lvl) s = .next (s.takeTrap t) := by
  refine (c.issued_scalar rfl _).trans (congrArg _ ((if_pos hn).trans ?_))
  simp only [shiftLeft_setWidth_endOff, ht]

end

/-- Settles O23: a LOOP arms, skips or traps, and LCRD and LCWR act on the hart as it is. -/
theorem hardwareLoops : Obligations.HardwareLoops := by
  intro s w off lvl n stop k
  exact ⟨fun c hn => ⟨s.my.nextArmed, fun _ _ _ hl hactive => Hart.armed_lt_nextArmed hl hactive, exec_loop_arms c hn⟩,
    fun c hn _ hws => exec_loop_skips c hn hws, fun c hn _ ht => exec_loop_traps c hn ht,
    fun c => c.issued_scalar rfl _, fun c => c.issued_scalar rfl _⟩

end Sys2Proof.Machine
end

section
/-! SUPPORT. What a vector result leaves: the elements of its register, its tag, and the flags (03 R61, R66, R69, R84). -/
namespace Sys2Proof.Machine

/-! ### The register that a destination names -/

section
variable {n : Nat} (h : Hart) (r : RegId) (f : BitVec n → BitVec n) (tag : Fmt)

/-- A rewriting of a register changes what is told of its earlier producers, and nothing else (06 R148, 19 R400). -/
theorem Hart.touched_eq : ∃ early poison, h.touched r f tag = { h with early := early, poison := poison } := by
  unfold touched
  split
  · exact ⟨_, _, rfl⟩
  · split <;> exact ⟨_, _, rfl⟩

@[simp] theorem Hart.touched_v : (h.touched r f tag).v = h.v := by
  obtain ⟨_, _, heq⟩ := h.touched_eq r f tag
  rw [heq]

@[simp] theorem Hart.touched_o : (h.touched r f tag).o = h.o := by
  obtain ⟨_, _, heq⟩ := h.touched_eq r f tag
  rw [heq]

@[simp] theorem Hart.touched_l : (h.touched r f tag).l = h.l := by
  obtain ⟨_, _, heq⟩ := h.touched_eq r f tag
  rw [heq]

@[simp] theorem Hart.touched_fflags : (h.touched r f tag).fflags = h.fflags := by
  obtain ⟨_, _, heq⟩ := h.touched_eq r f tag
  rw [heq]

@[simp] theorem Hart.touched_fxi : (h.touched r f tag).fxi = h.fxi := by
  obtain ⟨_, _, heq⟩ := h.touched_eq r f tag
  rw [heq]

end

section
variable (h : Hart) {d : Operand} (l : BitVec 2) (f : BitVec 8192 → BitVec 8192) (tag : Fmt)

/-- A destination that names a register gives it the new bits and the tag. -/
theorem Hart.vecReg_setVec_same (hd : ∀ k, d ≠ .const k) :
    (h.setVec d f tag).vecReg d = ⟨tag, f (h.vecReg d).bits⟩ := by
  cases d with
  | main i m => simp [setVec, vecReg, setV, vr]
  | oper i m => simp [setVec, vecReg, setO, or]
  | last i m => simp [setVec, vecReg, setL, lr]
  | const k => exact absurd rfl (hd k)

/-- A write of an L entry reaches no register but that entry. -/
theorem Hart.vecReg_setVec_last (o : Operand) :
    (h.setVec (.last l .plain) f tag).vecReg o = h.vecReg o
      ∨ (h.setVec (.last l .plain) f tag).vecReg o = ⟨tag, f (h.vecReg o).bits⟩ := by
  cases o with
  | main i m => exact .inl (by simp [setVec, vecReg, setL, vr])
  | oper i m => exact .inl (by simp [setVec, vecReg, setL, or])
  | last i m =>
    by_cases hi : l = i
    · exact .inr (by simp [setVec, vecReg, setL, lr, hi])
    · have hne : l.toNat ≠ i.toNat := fun h => hi (BitVec.eq_of_toNat_eq h)
      exact .inl (by simp [setVec, vecReg, setL, lr, hne])
  | const k => exact .inl rfl

/-- A vector result is written once, or twice where its destination is also its L entry (03 R61). -/
theorem Hart.vecReg_putVec (hd : ∀ k, d ≠ .const k) :
    (h.putVec d l f tag).vecReg d = ⟨tag, f (h.vecReg d).bits⟩
      ∨ (h.putVec d l f tag).vecReg d = ⟨tag, f (f (h.vecReg d).bits)⟩ := by
  have hset := h.vecReg_setVec_same f tag hd
  rcases (h.setVec d f tag).vecReg_setVec_last l f tag d with hl | hl
  · exact .inl (hl.trans hset)
  · exact .inr (hl.trans (by rw [hset]))

@[simp] theorem Hart.setVec_fflags (d : Operand) : (h.setVec d f tag).fflags = h.fflags := by
  cases d with
  | main i m => exact h.touched_fflags ..
  | oper i m => exact h.touched_fflags ..
  | last i m => exact h.touched_fflags ..
  | const k => rfl

@[simp] theorem Hart.setVec_fxi (d : Operand) : (h.setVec d f tag).fxi = h.fxi := by
  cases d with
  | main i m => exact h.touched_fxi ..
  | oper i m => exact h.touched_fxi ..
  | last i m => exact h.touched_fxi ..
  | const k => rfl

end

/-! ### The elements of a result -/

section
variable (h : Hart) {d : Operand} (hd : ∀ k, d ≠ .const k) (width : Nat) (ws : List (Nat × Nat)) (tag : Fmt) (fl : Flags)
include hd

theorem Hart.vecWrite_tag : ((h.vecWrite d width ws tag fl).vecReg d).tag = tag := by
  rcases h.vecReg_putVec 1 (fun b => setElems b width ws) tag hd with hr | hr <;> exact congrArg TReg.tag hr

/-- Each written element holds its value, within its width. -/
theorem Hart.getElem_vecWrite {p : Nat × Nat} (hdistinct : (ws.map Prod.fst).Nodup) (hp : p ∈ ws)
    (hfits : width * (p.1 + 1) ≤ 8192) :
    getElem ((h.vecWrite d width ws tag fl).vecReg d).bits width p.1 = p.2 % 2 ^ width := by
  have written (b : BitVec 8192) := getElem_setElems_mem width ws b p hdistinct hp hfits
  rcases h.vecReg_putVec 1 (fun b => setElems b width ws) tag hd with hr | hr
  · exact (congrArg (fun t : TReg 8192 => getElem t.bits width p.1) hr).trans (written _)
  · exact (congrArg (fun t : TReg 8192 => getElem t.bits width p.1) hr).trans (written _)

end

/-! ### The flags of a result -/

/-- Elements that raise nothing leave no flag. -/
theorem Flags.of_eq_none {l : List (Nat × Raised)} (hl : ∀ p ∈ l, p.2 = {}) : Flags.of l = Flags.none := by
  refine List.foldlRecOn l (motive := (· = Flags.none)) _ rfl fun f hf p hp => ?_
  rw [hf, hl p hp]
  rfl

/-- The lower of two indices is there where either is. -/
theorem isSome_lowIndex (a b : Option Nat) : (lowIndex a b).isSome = (a.isSome || b.isSome) := by
  cases a with
  | none => rfl
  | some x => cases b <;> rfl

/-- IV is among the flags of some elements where one of them raises it. -/
theorem Flags.isSome_iv_of (l : List (Nat × Raised)) : (Flags.of l).iv.isSome = l.any fun p => p.2.iv := by
  have step (f : Flags) : (l.foldl (fun f p => f.merge (Flags.at p.1 p.2)) f).iv.isSome
      = (f.iv.isSome || l.any fun p => p.2.iv) := by
    induction l generalizing f with
    | nil => simp
    | cons p l ih =>
      have hp : (Flags.at p.1 p.2).iv.isSome = p.2.iv := by
        show (if p.2.iv then some p.1 else Option.none).isSome = _
        cases p.2.iv <;> rfl
      rw [List.foldl_cons, ih, show (f.merge (Flags.at p.1 p.2)).iv = lowIndex f.iv (Flags.at p.1 p.2).iv from rfl,
        isSome_lowIndex, hp, List.any_cons, Bool.or_assoc]
  exact step Flags.none

/-- Bit k of the flag at bit n. -/
theorem getLsbD_flagBit (b : Bool) (n : Nat) {k : Nat} (hk : k < 7) :
    (if b then BitVec.ofNat 7 (2 ^ n) else 0).getLsbD k = (b && decide (n = k)) := by
  cases b with
  | false => exact BitVec.getLsbD_zero
  | true => rw [if_pos rfl, BitVec.getLsbD_ofNat, Nat.testBit_two_pow, decide_eq_true hk]

/-- Bit 4 of fflags is that of IV (03 R66). -/
theorem Flags.getLsbD_bits_iv (f : Flags) : f.bits.getLsbD 4 = f.iv.isSome := by
  simp only [Flags.bits, BitVec.getLsbD_or, getLsbD_flagBit _ _ (show 4 < 7 by decide)]
  simp

theorem Hart.mergeFlags_none (h : Hart) : h.mergeFlags Flags.none = h := by
  have hbits : h.fflags ||| Flags.none.bits = h.fflags := BitVec.or_zero
  simp only [mergeFlags, hbits]
  rfl

theorem Hart.getLsbD_vecWrite_fflags_iv (h : Hart) (d : Operand) (width : Nat) (ws : List (Nat × Nat)) (tag : Fmt)
    (fl : Flags) : (h.vecWrite d width ws tag fl).fflags.getLsbD 4 = (h.fflags.getLsbD 4 || fl.iv.isSome) := by
  have hold : (h.vecWrite d width ws tag fl).fflags = h.fflags ||| fl.bits := by simp [vecWrite, mergeFlags, putVec]
  rw [hold, BitVec.getLsbD_or, fl.getLsbD_bits_iv]

/-- A result without flags leaves fflags and the first-index registers. -/
theorem Hart.vecWrite_none (h : Hart) (d : Operand) (width : Nat) (ws : List (Nat × Nat)) (tag : Fmt) :
    (h.vecWrite d width ws tag Flags.none).fflags = h.fflags ∧ (h.vecWrite d width ws tag Flags.none).fxi = h.fxi := by
  simp [vecWrite, mergeFlags_none, putVec]

end Sys2Proof.Machine
end

section
/-! SUPPORT. Element-wise words (08 R203). -/
namespace Sys2Proof.Machine

/-- The active elements are the selected ones below the count. -/
theorem Hart.mem_actives {h : Hart} {g : Guard} {f : Fmt} {n e : Nat} :
    e ∈ h.actives g f n ↔ e < n ∧ h.selects g f e = true := by
  simp [actives]

theorem Hart.nodup_actives (h : Hart) (g : Guard) (f : Fmt) (n : Nat) : (h.actives g f n).Nodup :=
  List.nodup_range.filter _

namespace State

theorem vecReg_upd_retire (s : State) (f : Hart → Hart) (o : Operand) :
    (s.upd f).retire.my.vecReg o = (f s.my).vecReg o := by
  rw [my_retire, my_upd]
  cases o <;> rfl

theorem fflags_upd_retire (s : State) (f : Hart → Hart) : (s.upd f).retire.my.fflags = (f s.my).fflags := by
  rw [my_retire, my_upd]

theorem fxi_upd_retire (s : State) (f : Hart → Hart) : (s.upd f).retire.my.fxi = (f s.my).fxi := by
  rw [my_retire, my_upd]

/-- An element-wise word with the hart read as r: k gives each active element of a format, under a tag. -/
def lands (s : State) (w : Wd) (r : Hart) (f tag : Fmt) (k : Nat → Nat × Raised) : State :=
  let out := (r.actives w.grd f (s.count r f)).map fun e => (e, k e)
  (s.upd fun h => h.vecWrite w.d f.bits (out.map fun p => (p.1, p.2.1)) tag
    (Flags.of (out.map fun p => (p.1, p.2.2)))).retire

section
variable {s : State} {w : Wd} {r : Hart} {f tag : Fmt} {k : Nat → Nat × Raised}

/-- Elements that raise nothing leave the flags. -/
theorem lands_flags (hk : ∀ e, (k e).2 = {}) :
    (s.lands w r f tag k).my.fflags = s.my.fflags ∧ (s.lands w r f tag k).my.fxi = s.my.fxi := by
  have hnone : Flags.of (((r.actives w.grd f (s.count r f)).map fun e => (e, k e)).map fun p => (p.1, p.2.2)) = Flags.none :=
    Flags.of_eq_none (by simp [hk])
  rw [lands, fflags_upd_retire, fxi_upd_retire, hnone]
  exact s.my.vecWrite_none ..

theorem lands_tag (hd : ∀ k, w.d ≠ .const k) : ((s.lands w r f tag k).my.vecReg w.d).tag = tag := by
  rw [lands, vecReg_upd_retire]
  exact s.my.vecWrite_tag hd ..

section
variable {e : Nat} (hn : e < s.count r f) (hsel : r.selects w.grd f e = true)
include hn hsel

/-- IV stands after an active element raised it. -/
theorem lands_iv (hiv : (k e).2.iv = true) : (s.lands w r f tag k).my.fflags.getLsbD 4 = true := by
  have hraised : (Flags.of (((r.actives w.grd f (s.count r f)).map fun e => (e, k e)).map fun p => (p.1, p.2.2))).iv.isSome
      = true := by
    rw [Flags.isSome_iv_of, List.any_eq_true]
    exact ⟨_, List.mem_map_of_mem (List.mem_map_of_mem (Hart.mem_actives.mpr ⟨hn, hsel⟩)), hiv⟩
  rw [lands, fflags_upd_retire, Hart.getLsbD_vecWrite_fflags_iv, hraised, Bool.or_true]

/-- An active element takes what k gives, where its width holds that. -/
theorem getElem_lands (hd : ∀ k, w.d ≠ .const k) (hfits : f.bits * (e + 1) ≤ 8192) (hlt : (k e).1 < 2 ^ f.bits) :
    getElem ((s.lands w r f tag k).my.vecReg w.d).bits f.bits e = (k e).1 := by
  refine Eq.trans ?_ (Nat.mod_eq_of_lt hlt)
  rw [lands, vecReg_upd_retire]
  refine s.my.getElem_vecWrite (p := (e, (k e).1)) hd _ _ _ _ ?_
    (List.mem_map_of_mem (List.mem_map_of_mem (Hart.mem_actives.mpr ⟨hn, hsel⟩))) hfits
  simpa [Function.comp_def] using r.nodup_actives w.grd f (s.count r f)

end
end

end State

section
variable {s : State} {i : Instr} {f : Fmt} (c : s.Clear i) (hf : Instr.format i s.my = f) (w : Wd)
include c hf

theorem elementwise_of_clear (tag : Fmt → Fmt) (k : Hart → Fmt → Nat → Nat × Raised) :
    elementwise i w Fmt.bits tag k s = .next (s.lands w (s.readView i) f (tag f) (k (s.readView i) f)) := by
  rw [← hf]
  exact c.issued _

theorem vec2_of_clear (k : Fmt → Nat → Nat → Nat × Raised) : let r := s.readView i
    vec2 i w k s = .next (s.lands w r f f fun e => k f (r.srcElem w.a f e) (r.srcElem w.b f e)) :=
  elementwise_of_clear c hf w id fun r f e => k f (r.srcElem w.a f e) (r.srcElem w.b f e)

theorem vec1_of_clear (k : Fmt → Nat → Nat × Raised) : let r := s.readView i
    vec1 i w k s = .next (s.lands w r f f fun e => k f (r.srcElem w.a f e)) :=
  elementwise_of_clear c hf w id fun r f e => k f (r.srcElem w.a f e)

end

end Sys2Proof.Machine
end

section
/-! SUPPORT. The values of floating elements, and the words that treat NaNs, zeros and classes (03 R73, 08 R210, R213). -/
namespace Sys2Proof.Machine

/-! ### The formats of floating arithmetic (03 R70, R73) -/

theorem Fmt.isFloat_cases {f : Fmt} (h : f.isFloat = true) : f = .fp32 ∨ f = .bf16 ∨ f = .fp16 := by
  cases f with
  | fp32 | bf16 | fp16 => simp
  | _ => exact nomatch h

section
variable {f : Fmt} (h : f.isFloat = true)
include h

/-- A floating format of vector arithmetic has a sign bit, infinities and NaNs, and is no integer format. -/
theorem Fmt.isFloat_spec : f.isInt = false ∧ (fpFmt f).ieee = true ∧ (fpFmt f).topNan = false
    ∧ f.bits = (fpFmt f).eb + (fpFmt f).mb + 1 := by
  rcases Fmt.isFloat_cases h with rfl | rfl | rfl <;> exact ⟨rfl, rfl, rfl, rfl⟩

theorem elemVal_of_isFloat (x : Nat) : elemVal f x = decodeFp (fpFmt f) x := by
  rcases Fmt.isFloat_cases h with rfl | rfl | rfl <;> rfl

/-- The canonical NaN: the top exponent and the highest bit of the mantissa (03 R73). -/
theorem nanCode_of_isFloat : let p := fpFmt f
    p.nanCode = (2 ^ p.eb - 1) * 2 ^ p.mb + 2 ^ (p.mb - 1) ∧ p.nanCode < 2 ^ f.bits := by
  rcases Fmt.isFloat_cases h with rfl | rfl | rfl <;> decide

/-- The codes of the two zeros. -/
theorem elemVal_zeros : ∃ e, elemVal f 0 = .fin false 0 e
    ∧ elemVal f (2 ^ ((fpFmt f).eb + (fpFmt f).mb)) = .fin true 0 e := by
  rcases Fmt.isFloat_cases h with rfl | rfl | rfl <;> exact ⟨_, rfl, rfl⟩

end

/-! ### The value of a code by its sign, exponent and mantissa -/

theorem decodeFp_of_ieee {p : FpFmt} (hieee : p.ieee = true) (htop : p.topNan = false) (x : Nat) :
    let neg := x / 2 ^ (p.eb + p.mb) % 2 == 1
    let ex := x / 2 ^ p.mb % 2 ^ p.eb
    let man := x % 2 ^ p.mb
    decodeFp p x =
      if ex = 2 ^ p.eb - 1 then if man = 0 then .inf neg else .nan (decide (man < 2 ^ (p.mb - 1)))
      else if ex = 0 then .fin neg man (1 - p.bias - p.mb) else .fin neg (man + 2 ^ p.mb) ((ex : Int) - p.bias - p.mb) := by
  have hex : x % 2 ^ (p.eb + p.mb) / 2 ^ p.mb = x / 2 ^ p.mb % 2 ^ p.eb := by
    rw [Nat.add_comm, Nat.pow_add, Nat.mod_mul_right_div_self]
  have hman : x % 2 ^ (p.eb + p.mb) % 2 ^ p.mb = x % 2 ^ p.mb :=
    Nat.mod_mod_of_dvd x (Nat.pow_dvd_pow 2 (Nat.le_add_left ..))
  have hquiet (m : Nat) : (m / 2 ^ (p.mb - 1) == 0) = decide (m < 2 ^ (p.mb - 1)) := by
    rw [Bool.eq_iff_iff, beq_iff_eq, decide_eq_true_iff, Nat.div_eq_zero_iff_lt (Nat.two_pow_pos _)]
  simp [decodeFp, hieee, htop, hex, hman, hquiet]

section
variable {f : Fmt} (h : f.isFloat = true) (x : Nat)
include h

theorem elemVal_isNan_iff : let p := fpFmt f
    (elemVal f x).isNan = true ↔ x / 2 ^ p.mb % 2 ^ p.eb = 2 ^ p.eb - 1 ∧ x % 2 ^ p.mb ≠ 0 := by
  obtain ⟨-, hieee, htop, -⟩ := Fmt.isFloat_spec h
  simp only [elemVal_of_isFloat h, decodeFp_of_ieee hieee htop]
  by_cases hex : x / 2 ^ (fpFmt f).mb % 2 ^ (fpFmt f).eb = 2 ^ (fpFmt f).eb - 1
  · by_cases hman : x % 2 ^ (fpFmt f).mb = 0
    · rw [if_pos hex, if_pos hman]
      simp [Val.isNan, hman]
    · rw [if_pos hex, if_neg hman]
      simp [Val.isNan, hex, hman]
  · rw [if_neg hex]
    split <;> simp [Val.isNan, hex]

theorem elemVal_isSig_iff : let p := fpFmt f
    (elemVal f x).isSig = true ↔
      (x / 2 ^ p.mb % 2 ^ p.eb = 2 ^ p.eb - 1 ∧ x % 2 ^ p.mb ≠ 0) ∧ x % 2 ^ p.mb < 2 ^ (p.mb - 1) := by
  obtain ⟨-, hieee, htop, -⟩ := Fmt.isFloat_spec h
  simp only [elemVal_of_isFloat h, decodeFp_of_ieee hieee htop]
  by_cases hex : x / 2 ^ (fpFmt f).mb % 2 ^ (fpFmt f).eb = 2 ^ (fpFmt f).eb - 1
  · by_cases hman : x % 2 ^ (fpFmt f).mb = 0
    · rw [if_pos hex, if_pos hman]
      simp [Val.isSig, hman]
    · rw [if_pos hex, if_neg hman]
      simp [Val.isSig, hex, hman]
  · rw [if_neg hex]
    split <;> simp [Val.isSig, hex]

end

/-! ### Minimum and maximum (08 R210) -/

theorem Val.isNan_of_isSig {v : Val} (h : v.isSig = true) : v.isNan = true := by
  cases v with
  | nan sig => rfl
  | inf n => exact nomatch h
  | fin n m e => exact nomatch h

/-- In the order of minimum and maximum −0 lies below +0. -/
theorem belowVal_zeros (n n' : Bool) (e : Int) : belowVal (.fin n 0 e) (.fin n' 0 e) = (n && !n') := by
  have hzero (n : Bool) : scaledInt n 0 e e = 0 := by cases n <;> simp [scaledInt]
  have hcmp : cmpVal (.fin n 0 e) (.fin n' 0 e) = .eq := by simp [cmpVal, hzero]
  simp [belowVal, hcmp, Val.isZero, Val.isNeg]

/-- Of zeros of both signs the minimum is −0 and the maximum +0. -/
theorem minMaxVal_zeros (isMax n : Bool) (e : Int) :
    minMaxVal isMax (.fin n 0 e) (.fin (!n) 0 e) = (.fin (!isMax) 0 e, false) := by
  simp only [minMaxVal, belowVal_zeros]
  cases isMax <;> cases n <;> rfl

section
variable {f : Fmt} (h : f.isFloat = true) (isMax : Bool) {a b : Nat}
include h

/-- With a NaN the result is the canonical one, and IV says that one is signalling. -/
theorem minMaxElem_of_isNan (hnan : (elemVal f a).isNan = true ∨ (elemVal f b).isNan = true) :
    (minMaxElem isMax f a b).1 = (fpFmt f).nanCode
      ∧ (minMaxElem isMax f a b).2.iv = ((elemVal f a).isSig || (elemVal f b).isSig) := by
  obtain ⟨hint, hieee, -, -⟩ := Fmt.isFloat_spec h
  have hval : minMaxVal isMax (elemVal f a) (elemVal f b) = (.nan false, (elemVal f a).isSig || (elemVal f b).isSig) :=
    if_pos (Bool.or_eq_true_iff.mpr hnan)
  simp [minMaxElem, hint, hval, finishFp, roundVal, hieee]

/-- A signalling NaN raises IV. -/
theorem minMaxElem_iv_of_isSig (hsig : (elemVal f a).isSig = true ∨ (elemVal f b).isSig = true) :
    (minMaxElem isMax f a b).2.iv = true := by
  rw [(minMaxElem_of_isNan h isMax (hsig.imp Val.isNan_of_isSig Val.isNan_of_isSig)).2]
  exact Bool.or_eq_true_iff.mpr hsig

/-- Zeros of both signs give the zero of one sign. -/
theorem minMaxElem_of_zeros (hab : a = 2 ^ ((fpFmt f).eb + (fpFmt f).mb) ∧ b = 0
      ∨ a = 0 ∧ b = 2 ^ ((fpFmt f).eb + (fpFmt f).mb)) :
    (minMaxElem isMax f a b).1 = (fpFmt f).signed (!isMax) 0 := by
  obtain ⟨hint, -, -, -⟩ := Fmt.isFloat_spec h
  obtain ⟨e, hplus, hminus⟩ := elemVal_zeros h
  have hval : minMaxVal isMax (elemVal f a) (elemVal f b) = (.fin (!isMax) 0 e, false) := by
    rcases hab with ⟨rfl, rfl⟩ | ⟨rfl, rfl⟩ <;> rw [hplus, hminus] <;> exact minMaxVal_zeros ..
  simp [minMaxElem, hint, hval, finishFp, roundVal, roundMag]

/-- VABS and VNEG make every NaN the canonical one. -/
theorem absElem_of_isNan (hnan : (elemVal f a).isNan = true) : (absElem f a).1 = (fpFmt f).nanCode := by
  simp [absElem, (Fmt.isFloat_spec h).1, isNanElem, hnan]

theorem negElem_of_isNan (hnan : (elemVal f a).isNan = true) : (negElem f a).1 = (fpFmt f).nanCode := by
  simp [negElem, (Fmt.isFloat_spec h).1, isNanElem, hnan]

end

/-- The floating formats with the numbers of their exponent and mantissa bits. -/
theorem fpFmt_of_mem {f : Fmt} {eb mb : Nat} (h : (f, eb, mb) ∈ [(Fmt.fp32, 8, 23), (.bf16, 8, 7), (.fp16, 5, 10)]) :
    f.isFloat = true ∧ eb = (fpFmt f).eb ∧ mb = (fpFmt f).mb := by
  simp only [List.mem_cons, Prod.mk.injEq, List.not_mem_nil, or_false] at h
  rcases h with ⟨rfl, rfl, rfl⟩ | ⟨rfl, rfl, rfl⟩ | ⟨rfl, rfl, rfl⟩ <;> exact ⟨rfl, rfl, rfl⟩

/-- A signed zero has no more bits than its format. -/
theorem signed_zero_lt {f : Fmt} (h : f.isFloat = true) (neg : Bool) : (fpFmt f).signed neg 0 < 2 ^ f.bits := by
  rcases Fmt.isFloat_cases h with rfl | rfl | rfl <;> cases neg <;> decide

section
variable {s : State} {w : Wd} {r : Hart} {f : Fmt} {e : Nat} (hfl : f.isFloat = true) (hn : e < s.count r f)
  (hsel : r.selects w.grd f e = true) (hd : ∀ k, w.d ≠ .const k) (hfits : f.bits * (e + 1) ≤ 8192)
include hfl hn hsel hd hfits

/-- An active element for which a word gives the canonical NaN takes it. -/
theorem State.getElem_lands_nanCode {k : Nat → Nat × Raised} (hk : (k e).1 = (fpFmt f).nanCode) :
    getElem ((s.lands w r f f k).my.vecReg w.d).bits f.bits e = (fpFmt f).nanCode :=
  (State.getElem_lands hn hsel hd hfits (hk ▸ (nanCode_of_isFloat hfl).2)).trans hk

/-- What VMIN or VMAX leaves where its sources are NaNs, or zeros of both signs. -/
theorem State.minMax_lands (isMax : Bool) : let p := fpFmt f
    let a := r.srcElem w.a f e
    let b := r.srcElem w.b f e
    let t := s.lands w r f f fun e => minMaxElem isMax f (r.srcElem w.a f e) (r.srcElem w.b f e)
    ((elemVal f a).isNan = true ∨ (elemVal f b).isNan = true → getElem (t.my.vecReg w.d).bits f.bits e = p.nanCode)
    ∧ ((elemVal f a).isSig = true ∨ (elemVal f b).isSig = true → t.my.fflags.getLsbD 4 = true)
    ∧ (a = 2 ^ (p.eb + p.mb) ∧ b = 0 ∨ a = 0 ∧ b = 2 ^ (p.eb + p.mb) →
        getElem (t.my.vecReg w.d).bits f.bits e = p.signed (!isMax) 0) := by
  refine ⟨fun hnan => ?_, fun hsig => ?_, fun hzeros => ?_⟩
  · exact State.getElem_lands_nanCode hfl hn hsel hd hfits (minMaxElem_of_isNan hfl isMax hnan).1
  · exact State.lands_iv hn hsel (minMaxElem_iv_of_isSig hfl isMax hsig)
  · have hval := minMaxElem_of_zeros hfl isMax hzeros
    exact (State.getElem_lands hn hsel hd hfits (hval ▸ signed_zero_lt hfl _)).trans hval

end

/-- Settles O34: an active element takes `minMaxElem`, `absElem` or `negElem` of its sources, whose special cases are those of
`minMaxVal`. -/
theorem vectorMinMaxSpecialValues : Obligations.VectorMinMaxSpecialValues := by
  intro s w rm i f e eb mb hmem c hf hd hfits r hn hsel a b _ _ isNan isSig canonical minus at_
  obtain ⟨hfl, rfl, rfl⟩ := fpFmt_of_mem hmem
  have hcode : (fpFmt f).nanCode = canonical := (nanCode_of_isFloat hfl).1
  have nan (x : Nat) : isNan x → (elemVal f x).isNan = true := (elemVal_isNan_iff hfl x).mpr
  have sig (x : Nat) : isSig x → (elemVal f x).isSig = true := (elemVal_isSig_iff hfl x).mpr
  have canon {k : Nat → Nat × Raised} (hk : (k e).1 = (fpFmt f).nanCode) : at_ (s.lands w r f f k) = canonical :=
    (State.getElem_lands_nanCode hfl hn hsel hd hfits hk).trans hcode
  have minMax := State.minMax_lands hfl hn hsel hd hfits
  refine ⟨fun hi => ?_, fun hi => ?_, fun hi => ?_⟩
  · subst hi
    obtain ⟨hnan, hsig, hzeros⟩ := minMax false
    exact ⟨_, vec2_of_clear c hf w (minMaxElem false), fun h => (hnan (h.imp (nan a) (nan b))).trans hcode,
      fun h => hsig (h.imp (sig a) (sig b)), fun h => (hzeros h).trans (Nat.zero_add _)⟩
  · subst hi
    obtain ⟨hnan, hsig, hzeros⟩ := minMax true
    exact ⟨_, vec2_of_clear c hf w (minMaxElem true), fun h => (hnan (h.imp (nan a) (nan b))).trans hcode,
      fun h => hsig (h.imp (sig a) (sig b)), hzeros⟩
  · rcases hi with rfl | rfl
    · exact ⟨_, vec1_of_clear c hf w absElem, fun h => canon (absElem_of_isNan hfl (nan a h)),
        State.lands_flags fun _ => rfl⟩
    · exact ⟨_, vec1_of_clear c hf w negElem, fun h => canon (negElem_of_isNan hfl (nan a h)),
        State.lands_flags fun _ => rfl⟩

/-! ### Classes (08 R213) -/

/-- The class of a code by its sign, exponent and mantissa. -/
theorem classBit_of_isFloat {f : Fmt} (h : f.isFloat = true) {x : Nat} (hx : x < 2 ^ f.bits) :
    let p := fpFmt f
    let neg : Bool := 2 ^ (p.eb + p.mb) ≤ x
    let ex := x / 2 ^ p.mb % 2 ^ p.eb
    let man := x % 2 ^ p.mb
    classBit f x =
      if ex = 2 ^ p.eb - 1 then
        (if man = 0 then (if neg then 0 else 7) else if man < 2 ^ (p.mb - 1) then 8 else 9)
      else if ex = 0 then (if man = 0 then (if neg then 3 else 4) else if neg then 2 else 5)
      else if neg then 1 else 6 := by
  obtain ⟨-, hieee, htop, hbits⟩ := Fmt.isFloat_spec h
  intro p neg ex man
  have hneg : (x / 2 ^ (p.eb + p.mb) % 2 == 1) = neg := by
    rw [hbits, Nat.pow_succ] at hx
    have hdiv : x / 2 ^ (p.eb + p.mb) < 2 := Nat.div_lt_of_lt_mul hx
    have hpos : 0 < x / 2 ^ (p.eb + p.mb) ↔ 2 ^ (p.eb + p.mb) ≤ x :=
      Nat.div_pos_iff.trans (and_iff_right (Nat.two_pow_pos _))
    rw [Bool.eq_iff_iff, beq_iff_eq, decide_eq_true_iff, ← hpos, Nat.mod_eq_of_lt hdiv]
    exact ⟨fun h1 => h1 ▸ Nat.one_pos, fun h0 => Nat.le_antisymm (Nat.le_of_lt_succ hdiv) h0⟩
  have hman : man < 2 ^ p.mb := Nat.mod_lt _ (Nat.two_pow_pos _)
  have hval : elemVal f x =
      if ex = 2 ^ p.eb - 1 then if man = 0 then .inf neg else .nan (decide (man < 2 ^ (p.mb - 1)))
      else if ex = 0 then .fin neg man (1 - p.bias - p.mb)
      else .fin neg (man + 2 ^ p.mb) ((ex : Int) - p.bias - p.mb) := by
    rw [← hneg]
    exact (elemVal_of_isFloat h x).trans (decodeFp_of_ieee hieee htop x)
  unfold classBit
  by_cases hexTop : ex = 2 ^ p.eb - 1
  · by_cases hman0 : man = 0
    · rw [hval, if_pos hexTop, if_pos hman0, if_pos hexTop, if_pos hman0]
    · rw [hval, if_pos hexTop, if_neg hman0, if_pos hexTop, if_neg hman0]
      simp [man, p]
  by_cases hex0 : ex = 0
  · rw [hval, if_neg hexTop, if_pos hex0, if_neg hexTop, if_pos hex0]
    have hsub : ¬ 2 ^ (fpFmt f).mb ≤ x % 2 ^ (fpFmt f).mb := Nat.not_le.mpr hman
    simp [hsub, man, p]
  · rw [hval, if_neg hexTop, if_neg hex0, if_neg hexTop, if_neg hex0]
    simp [man, p]

/-- There are ten classes. -/
theorem classBit_lt (f : Fmt) (x : Nat) : classBit f x < 10 := by
  unfold classBit
  split
  · split <;> decide
  · split <;> decide
  · dsimp only
    split
    · split <;> decide
    · split <;> split <;> decide

/-- The integer format that VCLASS gives its result. -/
def classTag (f : Fmt) : Fmt := if f == .fp32 then .i32 else .i16

theorem exec_vclass_of_clear {s : State} {w : Wd} {rm : Rm} {f : Fmt} (c : s.Clear (.vclass w rm))
    (hf : Instr.format (.vclass w rm) s.my = f) : let r := s.readView (.vclass w rm)
    exec (.vclass w rm) s = .next (s.lands w r f (classTag f) fun e => (2 ^ classBit f (r.srcElem w.a f e), {})) :=
  elementwise_of_clear c hf w classTag fun r f e => (2 ^ classBit f (r.srcElem w.a f e), {})

/-- The floating formats with the integer format of the same width. -/
theorem classTag_of_mem {f t : Fmt} {eb mb : Nat}
    (h : (f, t, eb, mb) ∈ [(Fmt.fp32, Fmt.i32, 8, 23), (.bf16, .i16, 8, 7), (.fp16, .i16, 5, 10)]) :
    (f, eb, mb) ∈ [(Fmt.fp32, 8, 23), (.bf16, 8, 7), (.fp16, 5, 10)] ∧ classTag f = t ∧ 10 ≤ f.bits := by
  simp only [List.mem_cons, Prod.mk.injEq, List.not_mem_nil, or_false] at h
  rcases h with ⟨rfl, rfl, rfl, rfl⟩ | ⟨rfl, rfl, rfl, rfl⟩ | ⟨rfl, rfl, rfl, rfl⟩ <;> decide

/-- Settles O35: every active element takes 2 to its `classBit`, which the fields of its code give, and raises nothing. -/
theorem vclassSetsOneBit : Obligations.VclassSetsOneBit := by
  intro s w rm f t eb mb hmem c hf hd r
  obtain ⟨hfmt, htag, hwide⟩ := classTag_of_mem hmem
  obtain ⟨hfl, rfl, rfl⟩ := fpFmt_of_mem hfmt
  obtain ⟨hfflags, hfxi⟩ := State.lands_flags (s := s) (w := w) (r := r) (f := f) (tag := classTag f)
    (k := fun e => (2 ^ classBit f (r.srcElem w.a f e), {})) fun _ => rfl
  refine ⟨_, exec_vclass_of_clear c hf, (State.lands_tag hd).trans htag, hfflags, hfxi, ?_⟩
  intro e hn hsel hfits a ha neg ex man bit
  have hbit : classBit f a = bit := classBit_of_isFloat hfl ha
  have hlt : 2 ^ classBit f a < 2 ^ f.bits :=
    Nat.pow_lt_pow_right (by decide) (Nat.lt_of_lt_of_le (classBit_lt f a) hwide)
  exact (State.getElem_lands hn hsel hd hfits hlt).trans (congrArg (2 ^ ·) hbit)

end Sys2Proof.Machine
end

section
/-! SUPPORT. Unions of sparse lists, and pruning (08 R228 to R230). -/
namespace Sys2Proof.Machine

section
variable {f : Fmt} {dz : Bool}

/-- The merge takes one entry or more in a turn, so that fuel beyond both lists' length changes nothing. -/
theorem mergeLists_fuel {k u : Nat} {as bs : List (Nat × Nat)} (hk : as.length + bs.length ≤ k) :
    mergeLists f dz (k + 1) u as bs = mergeLists f dz k u as bs := by
  induction k generalizing u as bs with
  | zero =>
    obtain ⟨rfl, rfl⟩ : as = [] ∧ bs = [] := by simpa using hk
    rfl
  | succ k ih =>
    match as, bs with
    | [], [] => rfl
    | a :: as, [] => rw [mergeLists, mergeLists, ih (by simpa using hk)]
    | [], b :: bs => rw [mergeLists, mergeLists, ih (by simpa using hk)]
    | a :: as, b :: bs =>
      simp only [List.length_cons] at hk
      rw [mergeLists, mergeLists, ih (by simp; omega), ih (by simp; omega), ih (by omega), ih (by omega)]

/-- The merge of two lists with as much fuel as both have entries, from output position u. -/
def mergeAll (f : Fmt) (dz : Bool) (u : Nat) (as bs : List (Nat × Nat)) : List (Nat × Nat) × List (Nat × Raised) :=
  mergeLists f dz (as.length + bs.length) u as bs

theorem mergeLists_eq_mergeAll {k u : Nat} {as bs : List (Nat × Nat)} (hk : as.length + bs.length ≤ k) :
    mergeLists f dz k u as bs = mergeAll f dz u as bs := by
  induction hk with
  | refl => rfl
  | step hk ih => exact (mergeLists_fuel hk).trans ih

theorem mergeAll_nil_left (u : Nat) (bs : List (Nat × Nat)) : mergeAll f dz u [] bs = (bs, []) := by
  induction bs generalizing u with
  | nil => rfl
  | cons b bs ih =>
    show mergeLists f dz (0 + bs.length + 1) u [] (b :: bs) = _
    rw [mergeLists, mergeLists_eq_mergeAll (by simp), ih]

theorem mergeAll_nil_right (u : Nat) (as : List (Nat × Nat)) : mergeAll f dz u as [] = (as, []) := by
  induction as generalizing u with
  | nil => rfl
  | cons a as ih =>
    show mergeLists f dz (as.length + 1) u (a :: as) [] = _
    rw [mergeLists, mergeLists_eq_mergeAll (by simp), ih]

/-- One turn of the merge of two lists with entries. -/
theorem mergeAll_cons_cons (u : Nat) (a b : Nat × Nat) (as bs : List (Nat × Nat)) :
    let sum := addElem .rne f a.2 b.2
    let zero := if f.isInt then sum.1 == 0 else (elemVal f sum.1).isZero
    mergeAll f dz u (a :: as) (b :: bs) =
      if a.1 < b.1 then (a :: (mergeAll f dz (u + 1) as (b :: bs)).1, (mergeAll f dz (u + 1) as (b :: bs)).2)
      else if b.1 < a.1 then (b :: (mergeAll f dz (u + 1) (a :: as) bs).1, (mergeAll f dz (u + 1) (a :: as) bs).2)
      else if dz && zero then ((mergeAll f dz u as bs).1, (u, sum.2) :: (mergeAll f dz u as bs).2)
      else ((a.1, sum.1) :: (mergeAll f dz (u + 1) as bs).1, (u, sum.2) :: (mergeAll f dz (u + 1) as bs).2) := by
  intro sum zero
  show mergeLists f dz (as.length + 1 + bs.length + 1) u (a :: as) (b :: bs) = _
  rw [mergeLists, mergeLists_eq_mergeAll (by simp; omega), mergeLists_eq_mergeAll (by simp), mergeLists_eq_mergeAll (by omega),
    mergeLists_eq_mergeAll (by omega)]

end

/-- Settles O41: the clauses are the branches of one turn, each leaving fuel enough for what remains. -/
theorem unionMergesOneEntry : Obligations.UnionMergesOneEntry := by
  intro f dz u i j x y as bs merge sum zero
  have hzero : (if f.isInt then sum.1 == 0 else (elemVal f sum.1).isZero) = true ↔ zero := by
    show _ ↔ if f.isInt = true then sum.1 = 0 else _
    cases f.isInt <;> simp
  have turn := mergeAll_cons_cons (f := f) (dz := dz) u (i, x) (j, y) as bs
  refine ⟨mergeAll_nil_left u bs, mergeAll_nil_right u as, fun hij => ?_, fun hji => ?_, fun hij hdz hz => ?_, fun hij hz => ?_⟩
  · exact turn.trans (if_pos hij)
  · exact turn.trans ((if_neg (Nat.lt_asymm hji)).trans (if_pos hji))
  · subst hij
    exact turn.trans ((if_neg (Nat.lt_irrefl i)).trans ((if_neg (Nat.lt_irrefl i)).trans
      (if_pos (Bool.and_eq_true_iff.mpr ⟨hdz, hzero.mpr hz⟩))))
  · subst hij
    exact turn.trans ((if_neg (Nat.lt_irrefl i)).trans ((if_neg (Nat.lt_irrefl i)).trans
      (if_neg fun h => hz ((Bool.and_eq_true_iff.mp h).imp id hzero.mp))))

/-- Settles O40: each word is clear, so that it issues with its own effect. -/
theorem unionsAndPruning : Obligations.UnionsAndPruning := by
  intro s w
  exact ⟨fun c => c.issued _, fun c => c.issued _, fun c => c.issued _⟩

end Sys2Proof.Machine
end

section
/-! SUPPORT. The matrix words: sums over a grid of rows and columns, the clamp to 32 bits, and the traps (10 R277 to R288). -/
namespace Sys2Proof.Machine

/-! ### Sums over a grid (10 R277, R281) -/

theorem zip_range_map {α : Type} (n : Nat) (g : Nat → α) :
    (List.range n).zip ((List.range n).map g) = (List.range n).map fun c => (c, g c) := by
  have h := List.zip_map' (f := id) (g := g) (l := List.range n)
  rwa [List.map_id] at h

/-- Rows and columns listed ahead give each element of the grid from its own row and column. -/
theorem flatMap_zip_rows_cols {α β : Type} (m n : Nat) (rows cols : Nat → α) (e : Nat × α → Nat × α → β) :
    (((List.range m).zip ((List.range m).map rows)).flatMap fun r => ((List.range n).zip ((List.range n).map cols)).map (e r))
      = (List.range m).flatMap fun row => (List.range n).map fun col => e (row, rows row) (col, cols col) := by
  simp only [zip_range_map, List.flatMap_map, List.map_map, Function.comp_def]

/-- The clamp to 32 bits (03 R83, 10 R281). -/
theorem clampInt_i32 (t : Int) : let held := max (-2 ^ 31) (min (2 ^ 31 - 1) t)
    clampInt .i32 t = (held, decide (held ≠ t)) := by
  have hmin : intMin .i32 = -2 ^ 31 := rfl
  have hmax : intMax .i32 = 2 ^ 31 - 1 := rfl
  dsimp only
  rw [clampInt, hmin, hmax]
  split
  next hlow => rw [Int.max_eq_left (by omega), decide_eq_true (by omega)]
  next =>
    split
    next hhigh => rw [Int.min_eq_left (by omega), Int.max_eq_right (by omega), decide_eq_true (by omega)]
    next => rw [Int.min_eq_right (by omega), Int.max_eq_right (by omega), decide_eq_false (not_not_intro rfl)]

/-! ### The words that accumulate (10 R277 to R282) -/

section
variable {s : State} {w : Wd} {x : Xx}

theorem exec_mma_of_clear (c : s.Clear (.mma w x)) : let r := s.readView (.mma w x)
    let f := Instr.format (.mma w x) s.my
    let vm := s.myCore.vlmax
    exec (.mma w x) s = .next (s.accumulate (.mma w x) w (accFmt f)
      ((List.range 4).flatMap fun row => (List.range 32).map fun col => (accIndex row col,
        addChunks f (r.accAt w.d (accIndex row col)) (chunksOf (depth f / 32) ((List.range (depth f)).map fun k =>
          product (r.aScaled vm w x f row k) (r.bScaled vm w x f k col)))))) := by
  refine (c.issued _).trans ?_
  simp only [flatMap_zip_rows_cols, List.zipWith_map, List.zipWith_self]

theorem exec_mmas_of_clear (c : s.Clear (.mmas w x)) : let r := s.readView (.mmas w x)
    let f := Instr.format (.mmas w x) s.my
    let bitmap := (r.xr x.sb).toNat % 2 ^ 32
    let live := liveColumns bitmap
    (live.length ≠ x.cnt.toNat →
      exec (.mmas w x) s = .next (s.takeTrap { code := 0x0A, sub := live.length, eaddr := Word.ofNat bitmap }))
    ∧ (live.length = x.cnt.toNat → ∀ n, r.badMeta w f live.length = some n →
      exec (.mmas w x) s = .next (s.takeTrap { code := 0x0B, eaddr := Word.ofNat n }))
    ∧ (live.length = x.cnt.toNat → r.badMeta w f live.length = none →
      exec (.mmas w x) s = .next (s.accumulate (.mmas w x) w (accFmt f)
        ((List.range 4).flatMap fun row => ((List.range live.length).zip live).map fun q =>
          (accIndex row q.2, r.sparseSum s.myCore.vlmax w x f row q.1 (r.accAt w.d (accIndex row q.2)))))) := by
  refine ⟨fun hlen => (c.issued _).trans ?_, fun hlen n hbad => (c.issued _).trans ?_, fun hlen hgood => (c.issued _).trans ?_⟩
  · rw [if_pos hlen]
  · simp only [hlen, ne_eq, not_true_eq_false, if_false, hlen ▸ hbad]
  · simp only [hlen, ne_eq, not_true_eq_false, if_false, hlen ▸ hgood]

theorem exec_tmma_of_badTile (c : s.Clear (.tmma w x)) {n : Nat} (hbad : (s.readView (.tmma w x)).badTile w = some n) :
    exec (.tmma w x) s = .next (s.takeTrap (ternTrap n 0)) := by
  refine (c.issued _).trans ?_
  simp only [hbad]

theorem exec_tmma_of_legal (c : s.Clear (.tmma w x)) : let r := s.readView (.tmma w x)
    let total (row col : Nat) : Int := intOf .i32 (r.accAt w.d (accIndex row col))
      + ((List.range 256).map fun k => intOf .i8 (r.aBits w .i8 row k) * r.tileTrit w k col).sum
    r.badTile w = none → exec (.tmma w x) s = .next (s.accumulate (.tmma w x) w .i32
      ((List.range 4).flatMap fun row => (List.range 160).map fun col =>
        let t := clampInt .i32 (total row col)
        (accIndex row col, wrapInt .i32 t.1, { sat := t.2 }))) := by
  intro r total hgood
  refine (c.issued _).trans ?_
  simp only [r, total, hgood, flatMap_zip_rows_cols, List.zipWith_map, List.zipWith_self, ← List.sum_eq_foldl]

end

theorem Hart.badTile_eq_none {h : Hart} {w : Wd} (hlegal : ∀ n < 8192, h.tileByte w n < 243) : h.badTile w = none :=
  List.find?_eq_none.mpr fun n hn => by
    simp only [decide_eq_true_eq, Nat.not_le]
    exact hlegal n (List.mem_range.mp hn)

/-! ### ZADD and ZDRAIN (10 R286, R288) -/

theorem zaddElem_eq (f : Fmt) (a b : Nat) :
    zaddElem f a b = if f = .i32 then satElem (· + ·) .i32 a b else addElem .rne .fp32 a b := by
  simp only [zaddElem, beq_iff_eq]

/-- Settles O52: each word is clear, so that it issues with its own effect; the products and trits of a grid are those
of its rows and columns, and the 32-bit clamp is the arithmetic one. -/
theorem matrixWords : Obligations.MatrixWords := by
  intro s w x r vm z sums
  refine ⟨?mma, ?mmas, ?tmma, fun c => c.issued _, ?zadd, ?zdrain⟩
  case mma => exact exec_mma_of_clear
  case mmas => exact exec_mmas_of_clear
  case tmma =>
    intro i total held c
    refine ⟨fun n hbad => ⟨ternTrap n 0, exec_tmma_of_badTile c hbad, rfl, rfl⟩, fun hlegal => ?_⟩
    refine (exec_tmma_of_legal c (Hart.badTile_eq_none hlegal)).trans ?_
    simp only [clampInt_i32]
    rfl
  case zadd =>
    intro i f out c
    refine (c.issued _).trans ?_
    simp only [zaddElem_eq]
    rfl
  case zdrain =>
    intro i sel zf out c
    refine (c.issued _).trans ?_
    simp only [beq_iff_eq]
    rfl

end Sys2Proof.Machine
end
